-- ==== Sys2Proof/Word.lean ====
section
/-! DEFINITION. The word types of the machine (spec R9): a byte is 8 bits, a dword 32 bits. Nothing else lives here. -/

namespace Sys2Proof

/-- A byte: the addressable unit (spec R7, R9). -/
abbrev Byte := BitVec 8

/-- A dword: the width of the general registers, of EIP and of an address (spec R7, R9). -/
abbrev Dword := BitVec 32

/-- The three data widths of the machine (spec R34, R83). -/
inductive Width where
  | b8   -- byte forms, chosen by the opcode
  | b16  -- the 66h forms
  | b32  -- the forms without a prefix
  deriving DecidableEq, Repr

/-- The number of bits of a width. -/
@[reducible] def Width.bits : Width → Nat
  | .b8 => 8
  | .b16 => 16
  | .b32 => 32

/-- The number of bytes of a width. -/
@[reducible] def Width.bytes : Width → Nat
  | .b8 => 1
  | .b16 => 2
  | .b32 => 4

end Sys2Proof
end

