-- ==== Sys2Proof/Config.lean ====
section
/-! DEFINITION. What an implementation fixes (spec R8, the open parameters) and the free values of spec R15.
The parameters are plain data and a `Platform` is held in State, so that a statement about every state is a statement
about every choice of the parameters. -/

namespace Sys2Proof.Config

/-- The three kinds of access the predicate BusErr distinguishes (spec R94). -/
inductive AccessKind where
  | fetch
  | read
  | write
  deriving DecidableEq, Repr

/-- A range of `size` addresses from `base` upward. -/
structure Range where
  base : Nat
  size : Nat
  deriving DecidableEq, Repr

/-- LOCK_POLICY and PREFIX66_UNLISTED (spec R133, R156): what a doubtful prefix does. -/
inductive PrefixPolicy where
  | refuse
  | ignore
  | ud
  deriving DecidableEq, Repr

/-- IMUL_FLAG_RULE (spec R318). -/
inductive ImulFlagRule where
  | literal
  | signed
  | undef
  deriving DecidableEq, Repr

/-- VECTOR24 (spec R486). -/
inductive Vector24 where
  | asPrinted
  | ordinary
  deriving DecidableEq, Repr

/-- What a store to the instruction memory does (spec R94, D2: the sources name three answers and fix none). -/
inductive CodeStore where
  | refuse
  | ignored
  | busError
  deriving DecidableEq, Repr

/-- Which ESP a POP to memory addressed through ESP uses (spec R371, D22: the sources fix none). -/
inductive PopEspBase where
  | refuse
  | before
  | after
  deriving DecidableEq, Repr

/-- One row of BusErr (spec R94, D2): what the platform answers to a kind of access in a range. -/
structure BusErrRow where
  kind : AccessKind
  range : Range
  err : Bool
  deriving DecidableEq, Repr

/-- One row of ErrCode (spec R481, D4): the image of its arguments. -/
structure ErrCodeRow where
  vector : Byte
  idt : Bool
  ext : Bool
  image : Dword
  deriving DecidableEq, Repr

/-- One row of McErrCode (spec R484, D4): the image of its arguments. -/
structure McErrCodeRow where
  i : Bool
  u : Bool
  w : Bool
  image : Dword
  deriving DecidableEq, Repr

/-- The parameters of spec R8 (and of D2, D22), one field each. The predicate BusErr and the functions ErrCode and McErrCode
are lists of rows, so that they are plain data: where no row speaks the spec's default holds, and rows for every argument give
every function. PM_U_BIT is read by `pmImage`; DESC_U_BIT by nothing, as D3 says (log entry 3). -/
structure Platform where
  sramBase : Nat
  flashBase : Nat
  iccm : List Range
  devices : List Range
  busErr : List BusErrRow
  pmUBit : Nat
  descUBit : Nat
  ioapicSize : Nat
  lockPolicy : PrefixPolicy
  prefix66 : PrefixPolicy
  imulFlags : ImulFlagRule
  vector24 : Vector24
  codeStore : CodeStore
  popEspBase : PopEspBase
  errCode : List ErrCodeRow
  mcErrCode : List McErrCodeRow
  timerTick : Nat
  deriving DecidableEq, Repr

/-- The default of every parameter, as spec/92_eei_decisions.md names it (D1, D2, D4 to D9, D22).
The two bit positions of D3 have none there: 0 is a DESIGN CHOICE (log entry 3). -/
def defaultPlatform : Platform where
  sramBase := 0x20000000
  flashBase := 0
  iccm := [⟨0, 0x8000⟩]
  devices := []
  busErr := []
  pmUBit := 0
  descUBit := 0
  ioapicSize := 0x100000
  lockPolicy := .refuse
  prefix66 := .refuse
  imulFlags := .undef
  vector24 := .asPrinted
  codeStore := .refuse
  popEspBase := .refuse
  errCode := []
  mcErrCode := []
  timerTick := 1

/-- The size of the data SRAM, 8 KB (spec R7). -/
def sramSize : Nat := 0x2000

/-- The size of the FLASH, 32 KB (spec R7). -/
def flashSize : Nat := 0x8000

/-- The local APIC's range FEE00000h to FEEFFFFFh (spec R92, R531). -/
def lapicRange : Range := ⟨0xFEE00000, 0x100000⟩

/-- The IOAPIC's base FEC00000h, the address of IOREGSEL (spec R7, R92, R550). -/
def ioapicBase : Nat := 0xFEC00000

/-- IOREGSEL to the end of IOWIN, FEC00000h to FEC00013h: addresses that the manual fixes (spec R7, R550). -/
def ioapicFixed : Nat := 0x14

/-- A free value of one bit, one for each draw (spec R15, UNDEF): nothing is known of it. -/
opaque freeBit : Nat → Bool

/-- A free value of 32 bits, one for each draw (spec R15, UNDEF): nothing is known of it. -/
opaque freeDword : Nat → Dword

end Sys2Proof.Config
end

