-- ==== Sys2Proof/Syntax.lean ====
section
/-! DEFINITION. The instructions as data: one constructor for every instruction of spec/opcode_table.json.
The 384 rows of the table are opcode LINES; the lines of one instruction (one mnemonic, one operation) are the values of
that constructor's operand-form argument, whose constructors are named after the lines' operand column. -/

namespace Sys2Proof

/-- The eight registers in encoding order (spec R32). At 8 bits the same eight names select AL, CL, DL, BL, AH, CH, DH, BH. -/
inductive Reg where
  | eax | ecx | edx | ebx | esp | ebp | esi | edi
  deriving DecidableEq, Repr

/-- The scale of an index register (spec R138). -/
inductive Scale where
  | x1 | x2 | x4 | x8
  deriving DecidableEq, Repr

/-- A displacement as the instruction carries it (spec R142). -/
inductive Disp where
  | none
  | d8 (v : BitVec 8)
  | d32 (v : BitVec 32)
  deriving DecidableEq, Repr

/-- A memory operand: the addressing modes of spec R146 (Tables 13 to 15). -/
structure MemRef where
  base : Option Reg
  index : Option (Reg × Scale)
  disp : Disp
  deriving DecidableEq, Repr

/-- The operand of the ModR/M r/m field (spec R147). -/
inductive RM where
  | reg (r : Reg)
  | mem (m : MemRef)
  deriving DecidableEq, Repr

/-- The forms of ADD, ADC, SUB, SBB, CMP, AND, OR, XOR (spec R200, R240): the table's fourteen lines at three widths. -/
inductive AluOperands where
  | rmR (w : Width) (dst : RM) (src : Reg)                  -- B+0, B+1:   r/m, r
  | rRm (w : Width) (dst : Reg) (src : RM)                  -- B+2, B+3:   r, r/m
  | accImm (w : Width) (imm : BitVec w.bits)                -- B+4, B+5:   AL/AX/EAX, imm
  | rmImm (w : Width) (dst : RM) (imm : BitVec w.bits)      -- 80, 81:     r/m, imm
  | rmImm8 (w : Width) (dst : RM) (imm : BitVec 8)          -- 83:         r/m, imm8 sign-extended
  deriving DecidableEq, Repr

/-- The forms of INC and DEC (spec R206, R207). -/
inductive IncOperands where
  | short (w : Width) (r : Reg)                             -- 40+r, 48+r
  | rm (w : Width) (dst : RM)                               -- FE, FF
  deriving DecidableEq, Repr

/-- The forms of TEST (spec R245). -/
inductive TestOperands where
  | rmR (w : Width) (a : RM) (b : Reg)                      -- 84, 85
  | accImm (w : Width) (imm : BitVec w.bits)                -- A8, A9
  | rmImm (w : Width) (a : RM) (imm : BitVec w.bits)        -- F6 /0, F7 /0
  deriving DecidableEq, Repr

/-- The forms of BT, BTC, BTR, BTS (spec R261). -/
inductive BitOperands where
  | rmR (w : Width) (base : RM) (off : Reg)                 -- 0F A3, AB, B3, BB
  | rmImm (w : Width) (base : RM) (off : BitVec 8)          -- 0F BA
  deriving DecidableEq, Repr

/-- The count of a shift or rotate (spec R280). -/
inductive ShiftCount where
  | imm (n : BitVec 8)                                      -- C0, C1
  | one                                                     -- D0, D1
  | cl                                                      -- D2, D3
  deriving DecidableEq, Repr

/-- The immediate of the three-operand IMUL (spec R313). -/
inductive ImulImm where
  | full (w : Width) (imm : BitVec w.bits)                  -- 69
  | byte (w : Width) (imm : BitVec 8)                       -- 6B
  deriving DecidableEq, Repr

/-- The forms of MOV (spec R340 to R343). -/
inductive MovOperands where
  | rmR (w : Width) (dst : RM) (src : Reg)                  -- 88, 89
  | rRm (w : Width) (dst : Reg) (src : RM)                  -- 8A, 8B
  | accMem (w : Width) (maddr : BitVec 32)                  -- A0, A1
  | memAcc (w : Width) (maddr : BitVec 32)                  -- A2, A3
  | regImm (w : Width) (dst : Reg) (imm : BitVec w.bits)    -- B0 to BF
  | rmImm (w : Width) (dst : RM) (imm : BitVec w.bits)      -- C6 /0, C7 /0
  deriving DecidableEq, Repr

/-- The forms of MOVSX and MOVZX (spec R345, R346). -/
inductive ExtOperands where
  | r16rm8 (dst : Reg) (src : RM)
  | r32rm8 (dst : Reg) (src : RM)
  | r32rm16 (dst : Reg) (src : RM)
  deriving DecidableEq, Repr

/-- The forms of PUSH (spec R370). -/
inductive PushOperand where
  | reg (r : Reg)                                           -- 50+r
  | imm32 (v : BitVec 32)                                   -- 68
  | imm16 (v : BitVec 16)                                   -- 66 68
  | imm8 (v : BitVec 8)                                     -- 6A
  | rm (w : Width) (src : RM)                               -- FF /6
  deriving DecidableEq, Repr

/-- The forms of POP (spec R371). -/
inductive PopOperand where
  | reg (r : Reg)                                           -- 58+r
  | rm (w : Width) (dst : RM)                               -- 8F /0
  deriving DecidableEq, Repr

/-- A relative code offset (spec R144). -/
inductive Rel where
  | rel8 (v : BitVec 8)
  | rel32 (v : BitVec 32)
  deriving DecidableEq, Repr

/-- The instructions of spec/opcode_table.json. -/
inductive Instr where
  -- 40_arith.md
  | add (o : AluOperands)
  | adc (o : AluOperands)
  | sub (o : AluOperands)
  | sbb (o : AluOperands)
  | cmp (o : AluOperands)
  | inc (o : IncOperands)
  | dec (o : IncOperands)
  | neg (w : Width) (dst : RM)
  -- 41_logic.md
  | and (o : AluOperands)
  | or (o : AluOperands)
  | xor (o : AluOperands)
  | not (w : Width) (dst : RM)
  | test (o : TestOperands)
  -- 42_bit.md
  | bswap (p66 : Bool) (r : Reg)
  | bt (o : BitOperands)
  | btc (o : BitOperands)
  | btr (o : BitOperands)
  | bts (o : BitOperands)
  -- 43_shift_rotate.md (SHL and SAL are one encoding, spec R287)
  | rol (w : Width) (dst : RM) (count : ShiftCount)
  | ror (w : Width) (dst : RM) (count : ShiftCount)
  | rcl (w : Width) (dst : RM) (count : ShiftCount)
  | rcr (w : Width) (dst : RM) (count : ShiftCount)
  | shl (w : Width) (dst : RM) (count : ShiftCount)
  | shr (w : Width) (dst : RM) (count : ShiftCount)
  | sar (w : Width) (dst : RM) (count : ShiftCount)
  -- 44_muldiv.md (IMUL has three operations: implied, two and three operands)
  | mul (w : Width) (src : RM)
  | imul1 (w : Width) (src : RM)
  | imul2 (w : Width) (dst : Reg) (src : RM)
  | imul3 (dst : Reg) (src : RM) (imm : ImulImm)
  | div (w : Width) (src : RM)
  | idiv (w : Width) (src : RM)
  -- 45_move.md
  | mov (o : MovOperands)
  | movsx (o : ExtOperands)
  | movzx (o : ExtOperands)
  | lea (w : Width) (dst : Reg) (src : MemRef)
  | cbw
  | cwde
  | cwd
  | cdq
  | nop (p66 : Bool)
  -- 46_stack.md
  | push (o : PushOperand)
  | pop (o : PopOperand)
  | pushfd
  | popfd
  -- 47_control.md (CALL and JMP have a relative and an indirect operation)
  | callRel (cd : BitVec 32)
  | callRm (src : RM)
  | ret
  | jmpRel (rel : Rel)
  | jmpRm (src : RM)
  | jo (rel : Rel)
  | jno (rel : Rel)
  | jb (rel : Rel)
  | jae (rel : Rel)
  | je (rel : Rel)
  | jne (rel : Rel)
  | jbe (rel : Rel)
  | ja (rel : Rel)
  | js (rel : Rel)
  | jns (rel : Rel)
  | jl (rel : Rel)
  | jge (rel : Rel)
  | jle (rel : Rel)
  | jg (rel : Rel)
  -- 48_system.md
  | clc
  | stc
  | cmc
  | cli
  | sti
  | hlt
  | int (n : BitVec 8)
  | int3
  | iret
  | lidt (src : MemRef)
  | sidt (dst : MemRef)
  | ud2
  deriving DecidableEq, Repr

end Sys2Proof
end

