-- ==== Sys2Proof/WellFormed.lean ====
section
/-! DEFINITION. Which terms of `Instr` are instructions of the machine: every restriction the encoding puts on operands
(spec R137 to R142, R152 to R158), one Boolean check for each operand type. -/

namespace Sys2Proof

/-- A memory operand the ModR/M and SIB bytes can write (spec R137 to R142): ESP is no index; with no base there is a
32-bit displacement; EBP as base has a displacement. -/
def MemRef.wf (m : MemRef) : Bool :=
  (match m.index with
   | some (r, _) => decide (r ≠ .esp)
   | none => true) &&
  (match m.base, m.disp with
   | none, .d32 _ => true
   | none, _ => false
   | some .ebp, .none => false
   | some _, _ => true)

/-- An r/m operand the encoding can write. -/
def RM.wf : RM → Bool
  | .reg _ => true
  | .mem m => m.wf

/-- A width that the 66h prefix chooses: the form has no 8-bit variant. -/
def Width.wide : Width → Bool
  | .b8 => false
  | _ => true

/-- The short register form has no 16-bit variant for register 4 and no 8-bit variant (spec R158). -/
def shortWf (w : Width) (r : Reg) : Bool :=
  match w with
  | .b8 => false
  | .b16 => decide (r ≠ .esp)
  | .b32 => true

def AluOperands.wf : AluOperands → Bool
  | .rmR _ dst _ => dst.wf
  | .rRm _ _ src => src.wf
  | .accImm _ _ => true
  | .rmImm _ dst _ => dst.wf
  | .rmImm8 w dst _ => w.wide && dst.wf

def IncOperands.wf : IncOperands → Bool
  | .short w r => shortWf w r
  | .rm _ dst => dst.wf

def TestOperands.wf : TestOperands → Bool
  | .rmR _ a _ => a.wf
  | .accImm _ _ => true
  | .rmImm _ a _ => a.wf

def BitOperands.wf : BitOperands → Bool
  | .rmR w base _ => w.wide && base.wf
  | .rmImm w base _ => w.wide && base.wf

def ImulImm.wf : ImulImm → Bool
  | .full w _ => w.wide
  | .byte w _ => w.wide

/-- The 16-bit immediate form does not name SP (spec R342, R158). -/
def MovOperands.wf : MovOperands → Bool
  | .rmR _ dst _ => dst.wf
  | .rRm _ _ src => src.wf
  | .accMem _ _ => true
  | .memAcc _ _ => true
  | .regImm .b16 dst _ => decide (dst ≠ .esp)
  | .regImm _ _ _ => true
  | .rmImm _ dst _ => dst.wf

def ExtOperands.wf : ExtOperands → Bool
  | .r16rm8 _ src => src.wf
  | .r32rm8 _ src => src.wf
  | .r32rm16 _ src => src.wf

def PushOperand.wf : PushOperand → Bool
  | .rm w src => w.wide && src.wf
  | _ => true

def PopOperand.wf : PopOperand → Bool
  | .rm w dst => w.wide && dst.wf
  | _ => true

/-- A term that is an instruction of spec/opcode_table.json. -/
def Instr.wf : Instr → Bool
  | .add o => o.wf
  | .adc o => o.wf
  | .sub o => o.wf
  | .sbb o => o.wf
  | .cmp o => o.wf
  | .inc o => o.wf
  | .dec o => o.wf
  | .neg _ dst => dst.wf
  | .and o => o.wf
  | .or o => o.wf
  | .xor o => o.wf
  | .not _ dst => dst.wf
  | .test o => o.wf
  | .bswap _ _ => true
  | .bt o => o.wf
  | .btc o => o.wf
  | .btr o => o.wf
  | .bts o => o.wf
  | .rol _ dst _ => dst.wf
  | .ror _ dst _ => dst.wf
  | .rcl _ dst _ => dst.wf
  | .rcr _ dst _ => dst.wf
  | .shl _ dst _ => dst.wf
  | .shr _ dst _ => dst.wf
  | .sar _ dst _ => dst.wf
  | .mul _ src => src.wf
  | .imul1 _ src => src.wf
  | .imul2 w _ src => w.wide && src.wf
  | .imul3 _ src imm => src.wf && imm.wf
  | .div _ src => src.wf
  | .idiv _ src => src.wf
  | .mov o => o.wf
  | .movsx o => o.wf
  | .movzx o => o.wf
  | .lea w _ src => w.wide && src.wf
  | .cbw => true
  | .cwde => true
  | .cwd => true
  | .cdq => true
  | .nop _ => true
  | .push o => o.wf
  | .pop o => o.wf
  | .pushfd => true
  | .popfd => true
  | .callRel _ => true
  | .callRm src => src.wf
  | .ret => true
  | .jmpRel _ => true
  | .jmpRm src => src.wf
  | .jo _ => true
  | .jno _ => true
  | .jb _ => true
  | .jae _ => true
  | .je _ => true
  | .jne _ => true
  | .jbe _ => true
  | .ja _ => true
  | .js _ => true
  | .jns _ => true
  | .jl _ => true
  | .jge _ => true
  | .jle _ => true
  | .jg _ => true
  | .clc => true
  | .stc => true
  | .cmc => true
  | .cli => true
  | .sti => true
  | .hlt => true
  | .int _ => true
  | .int3 => true
  | .iret => true
  | .lidt src => src.wf
  | .sidt dst => dst.wf
  | .ud2 => true

end Sys2Proof
end

