-- ==== Sys2Proof/Decode.lean ====
section
/-! DEFINITION. The decoder of spec R151 over the opcode maps of R152 to R154, total on any list of bytes, and after it the
encoder written from the same maps. -/

namespace Sys2Proof

open Sys2Proof.Config (PrefixPolicy)

/-- Why a list of bytes is no instruction. -/
inductive DecodeError where
  | truncated           -- a byte the instruction needs is not in the list
  | invalidOpcode       -- #UD: R155 a, b, c
  | repeatedPrefix      -- #UD: R131, R155 d
  | prefixUd            -- #UD: LOCK_POLICY or PREFIX66_UNLISTED = ud; 66h on LIDT and SIDT (R157)
  | invalidOperandType  -- #UD: R157, a register where memory is required
  | lockRefused         -- LOCK_POLICY = refuse (R133)
  | prefix66Refused     -- PREFIX66_UNLISTED = refuse (R156)
  deriving DecidableEq, Repr

/-- The two policies of the decoder (spec R8). -/
structure DecodePolicy where
  lock : PrefixPolicy
  p66 : PrefixPolicy
  deriving DecidableEq, Repr

/-- The spec's defaults (D6, D7). -/
def DecodePolicy.default : DecodePolicy := ⟨.refuse, .refuse⟩

/-! ### Register numbers and bytes -/

/-- The encoding number of a register (spec R32). -/
def Reg.num : Reg → BitVec 3
  | .eax => 0 | .ecx => 1 | .edx => 2 | .ebx => 3
  | .esp => 4 | .ebp => 5 | .esi => 6 | .edi => 7

/-- The register a 3-bit number names (spec R32). -/
def Reg.ofNum (n : BitVec 3) : Reg :=
  match n.toNat with
  | 0 => .eax | 1 => .ecx | 2 => .edx | 3 => .ebx
  | 4 => .esp | 5 => .ebp | 6 => .esi | _ => .edi

/-- The scale field (spec R138). -/
def Scale.num : Scale → BitVec 2
  | .x1 => 0 | .x2 => 1 | .x4 => 2 | .x8 => 3

def Scale.ofNum (n : BitVec 2) : Scale :=
  match n.toNat with
  | 0 => .x1 | 1 => .x2 | 2 => .x4 | _ => .x8

/-- A ModR/M or SIB byte from its fields (spec R136, R138). -/
def fieldByte (hi : BitVec 2) (mid lo : BitVec 3) : Byte := hi ++ mid ++ lo

/-- Bits 7:6 of a ModR/M or SIB byte. -/
def hiField (b : Byte) : BitVec 2 := b.extractLsb' 6 2
/-- Bits 5:3 of a ModR/M or SIB byte. -/
def midField (b : Byte) : BitVec 3 := b.extractLsb' 3 3
/-- Bits 2:0 of a ModR/M or SIB byte, or of an opcode with a register number. -/
def loField (b : Byte) : BitVec 3 := b.extractLsb' 0 3

/-! A reader of the instruction stream answers a value and the bytes after it. -/

def takeByte : List Byte → Except DecodeError (Byte × List Byte)
  | [] => .error .truncated
  | b :: rest => .ok (b, rest)

/-- Two bytes, the low-order byte first (spec R81). -/
def take16 : List Byte → Except DecodeError ((BitVec 16) × List Byte)
  | b0 :: b1 :: rest => .ok (b1 ++ b0, rest)
  | _ => .error .truncated

/-- Four bytes, the low-order byte first (spec R81). -/
def take32 : List Byte → Except DecodeError ((BitVec 32) × List Byte)
  | b0 :: b1 :: b2 :: b3 :: rest => .ok (b3 ++ b2 ++ b1 ++ b0, rest)
  | _ => .error .truncated

/-- An immediate as wide as the operation (spec R143). -/
def takeImm : (w : Width) → List Byte → Except DecodeError ((BitVec w.bits) × List Byte)
  | .b8, bs => takeByte bs
  | .b16, bs => take16 bs
  | .b32, bs => take32 bs

/-! ### Operands -/

/-- The displacement that a mod field other than 00b and 11b calls for (spec R142). -/
def takeDisp (mod : BitVec 2) (bs : List Byte) : Except DecodeError (Disp × List Byte) :=
  if mod = 1 then do
    let (v, bs) ← takeByte bs
    pure (.d8 v, bs)
  else do
    let (v, bs) ← take32 bs
    pure (.d32 v, bs)

/-- The index a SIB byte names; 100b means none (spec R139). -/
def sibIndex (sib : Byte) : Option (Reg × Scale) :=
  if midField sib = 4 then none else some (Reg.ofNum (midField sib), Scale.ofNum (hiField sib))

/-- The memory operand after a ModR/M byte with mod other than 11b (spec R137 to R142, Tables 13 to 15). -/
def takeMem (mod : BitVec 2) (rm : BitVec 3) (bs : List Byte) : Except DecodeError (MemRef × List Byte) :=
  if rm = 4 then do
    let (sib, bs) ← takeByte bs
    if mod = 0 then
      if loField sib = 5 then do
        let (v, bs) ← take32 bs
        pure (⟨none, sibIndex sib, .d32 v⟩, bs)
      else
        pure (⟨some (Reg.ofNum (loField sib)), sibIndex sib, .none⟩, bs)
    else do
      let (d, bs) ← takeDisp mod bs
      pure (⟨some (Reg.ofNum (loField sib)), sibIndex sib, d⟩, bs)
  else if mod = 0 then
    if rm = 5 then do
      let (v, bs) ← take32 bs
      pure (⟨none, none, .d32 v⟩, bs)
    else
      pure (⟨some (Reg.ofNum rm), none, .none⟩, bs)
  else do
    let (d, bs) ← takeDisp mod bs
    pure (⟨some (Reg.ofNum rm), none, d⟩, bs)

/-- The r/m operand of a ModR/M byte (spec R136, R137). -/
def takeRM (m : Byte) (bs : List Byte) : Except DecodeError (RM × List Byte) :=
  if hiField m = 3 then
    .ok (.reg (Reg.ofNum (loField m)), bs)
  else do
    let (mem, bs) ← takeMem (hiField m) (loField m) bs
    pure (.mem mem, bs)

/-- What a 66h prefix does on a form that lists none (spec R156): nothing when there is no prefix or it is ignored. -/
def unlisted66 (pol : DecodePolicy) (p66 : Bool) : Except DecodeError Unit :=
  if p66 then
    match pol.p66 with
    | .refuse => .error .prefix66Refused
    | .ud => .error .prefixUd
    | .ignore => .ok ()
  else .ok ()

/-- What an F0h prefix does (spec R133). -/
def lockCheck (pol : DecodePolicy) (lock : Bool) : Except DecodeError Unit :=
  if lock then
    match pol.lock with
    | .refuse => .error .lockRefused
    | .ud => .error .prefixUd
    | .ignore => .ok ()
  else .ok ()

/-- A ModR/M byte of the /r kind: the register operand and the r/m operand. `listed` says whether the form lists 66h. -/
def takeRegRM (pol : DecodePolicy) (p66 listed : Bool) (bs : List Byte) : Except DecodeError ((Reg × RM) × List Byte) := do
  let (m, bs) ← takeByte bs
  if listed then pure () else unlisted66 pol p66
  let (rm, bs) ← takeRM m bs
  pure ((Reg.ofNum (midField m), rm), bs)

/-- The width of a form with a 66h variant (spec R132). -/
def opWidth (p66 : Bool) : Width := if p66 then .b16 else .b32

/-- The width of a pair of opcodes whose even member is the 8-bit form. -/
def pairWidth (byteForm p66 : Bool) : Width := if byteForm then .b8 else opWidth p66

/-! ### The opcode maps -/

/-- The instruction of base opcode 8*k or group-1 digit k (spec R152, R154). -/
def aluInstr (k : Nat) (o : AluOperands) : Instr :=
  match k with
  | 0 => .add o | 1 => .or o | 2 => .adc o | 3 => .sbb o
  | 4 => .and o | 5 => .sub o | 6 => .xor o | _ => .cmp o

/-- The fourteen jump conditions by opcode nibble; Ah and Bh are not listed (spec R395). -/
def jccInstr (k : Nat) (rel : Rel) : Option Instr :=
  match k with
  | 0x0 => some (.jo rel) | 0x1 => some (.jno rel) | 0x2 => some (.jb rel) | 0x3 => some (.jae rel)
  | 0x4 => some (.je rel) | 0x5 => some (.jne rel) | 0x6 => some (.jbe rel) | 0x7 => some (.ja rel)
  | 0x8 => some (.js rel) | 0x9 => some (.jns rel)
  | 0xC => some (.jl rel) | 0xD => some (.jge rel) | 0xE => some (.jle rel) | 0xF => some (.jg rel)
  | _ => none

/-- Group 2 (spec R154): /6 is not listed. -/
def shiftInstr (digit : Nat) (w : Width) (dst : RM) (c : ShiftCount) : Option Instr :=
  match digit with
  | 0 => some (.rol w dst c) | 1 => some (.ror w dst c) | 2 => some (.rcl w dst c) | 3 => some (.rcr w dst c)
  | 4 => some (.shl w dst c) | 5 => some (.shr w dst c) | 7 => some (.sar w dst c)
  | _ => none

/-- The six forms of a base opcode (spec R200). -/
def decodeAlu (pol : DecodePolicy) (p66 : Bool) (k form : Nat) (bs : List Byte) : Except DecodeError (Instr × List Byte) :=
  match form with
  | 0 => do
    let ((r, rm), bs) ← takeRegRM pol p66 false bs
    pure (aluInstr k (.rmR .b8 rm r), bs)
  | 1 => do
    let ((r, rm), bs) ← takeRegRM pol p66 true bs
    pure (aluInstr k (.rmR (opWidth p66) rm r), bs)
  | 2 => do
    let ((r, rm), bs) ← takeRegRM pol p66 false bs
    pure (aluInstr k (.rRm .b8 r rm), bs)
  | 3 => do
    let ((r, rm), bs) ← takeRegRM pol p66 true bs
    pure (aluInstr k (.rRm (opWidth p66) r rm), bs)
  | 4 => do
    unlisted66 pol p66
    let (v, bs) ← takeImm .b8 bs
    pure (aluInstr k (.accImm .b8 v), bs)
  | _ => do
    let (v, bs) ← takeImm (opWidth p66) bs
    pure (aluInstr k (.accImm (opWidth p66) v), bs)

/-- Group 1: 80, 81, 83 (spec R154). -/
def decodeGroup1 (pol : DecodePolicy) (p66 : Bool) (op : Nat) (bs : List Byte) : Except DecodeError (Instr × List Byte) := do
  let (m, bs) ← takeByte bs
  let k := (midField m).toNat
  if op = 0x80 then do
    unlisted66 pol p66
    let (rm, bs) ← takeRM m bs
    let (v, bs) ← takeImm .b8 bs
    pure (aluInstr k (.rmImm .b8 rm v), bs)
  else if op = 0x81 then do
    let (rm, bs) ← takeRM m bs
    let (v, bs) ← takeImm (opWidth p66) bs
    pure (aluInstr k (.rmImm (opWidth p66) rm v), bs)
  else do
    let (rm, bs) ← takeRM m bs
    let (v, bs) ← takeByte bs
    pure (aluInstr k (.rmImm8 (opWidth p66) rm v), bs)

/-- Group 2: C0, C1, D0 to D3 (spec R154, R280). -/
def decodeGroup2 (pol : DecodePolicy) (p66 : Bool) (op : Nat) (bs : List Byte) : Except DecodeError (Instr × List Byte) := do
  let (m, bs) ← takeByte bs
  let k := (midField m).toNat
  if k = 6 then .error .invalidOpcode
  else do
    let byteForm := op % 2 = 0
    if byteForm then unlisted66 pol p66 else pure ()
    let w := pairWidth byteForm p66
    let (rm, bs) ← takeRM m bs
    let (c, bs) ← (if op < 0xD0 then do
        let (n, bs) ← takeByte bs
        pure (ShiftCount.imm n, bs)
      else pure (if op < 0xD2 then ShiftCount.one else ShiftCount.cl, bs) : Except DecodeError (ShiftCount × List Byte))
    match shiftInstr k w rm c with
    | some i => pure (i, bs)
    | none => .error .invalidOpcode

/-- Group 3: F6, F7 (spec R154). -/
def decodeGroup3 (pol : DecodePolicy) (p66 : Bool) (byteForm : Bool) (bs : List Byte) : Except DecodeError (Instr × List Byte) := do
  let (m, bs) ← takeByte bs
  let k := (midField m).toNat
  if k = 1 then .error .invalidOpcode
  else do
    if byteForm then unlisted66 pol p66 else pure ()
    let w := pairWidth byteForm p66
    let (rm, bs) ← takeRM m bs
    match k with
    | 0 => do
      let (v, bs) ← takeImm w bs
      pure (.test (.rmImm w rm v), bs)
    | 2 => pure (.not w rm, bs)
    | 3 => pure (.neg w rm, bs)
    | 4 => pure (.mul w rm, bs)
    | 5 => pure (.imul1 w rm, bs)
    | 6 => pure (.div w rm, bs)
    | _ => pure (.idiv w rm, bs)

/-- Group 4: FE (spec R154). -/
def decodeGroup4 (pol : DecodePolicy) (p66 : Bool) (bs : List Byte) : Except DecodeError (Instr × List Byte) := do
  let (m, bs) ← takeByte bs
  match (midField m).toNat with
  | 0 => do
    unlisted66 pol p66
    let (rm, bs) ← takeRM m bs
    pure (.inc (.rm .b8 rm), bs)
  | 1 => do
    unlisted66 pol p66
    let (rm, bs) ← takeRM m bs
    pure (.dec (.rm .b8 rm), bs)
  | _ => .error .invalidOpcode

/-- Group 5: FF; /2 and /4 list no 66h variant (spec R154). -/
def decodeGroup5 (pol : DecodePolicy) (p66 : Bool) (bs : List Byte) : Except DecodeError (Instr × List Byte) := do
  let (m, bs) ← takeByte bs
  match (midField m).toNat with
  | 0 => do
    let (rm, bs) ← takeRM m bs
    pure (.inc (.rm (opWidth p66) rm), bs)
  | 1 => do
    let (rm, bs) ← takeRM m bs
    pure (.dec (.rm (opWidth p66) rm), bs)
  | 2 => do
    unlisted66 pol p66
    let (rm, bs) ← takeRM m bs
    pure (.callRm rm, bs)
  | 4 => do
    unlisted66 pol p66
    let (rm, bs) ← takeRM m bs
    pure (.jmpRm rm, bs)
  | 6 => do
    let (rm, bs) ← takeRM m bs
    pure (.push (.rm (opWidth p66) rm), bs)
  | _ => .error .invalidOpcode

/-- A form without operand bytes that lists no 66h variant. -/
def plain (pol : DecodePolicy) (p66 : Bool) (i : Instr) (bs : List Byte) : Except DecodeError (Instr × List Byte) := do
  unlisted66 pol p66
  pure (i, bs)

/-- The opcodes 40 to 7F (spec R152). -/
def decode4x7x (pol : DecodePolicy) (p66 : Bool) (op : Nat) (bs : List Byte) : Except DecodeError (Instr × List Byte) :=
  let r := Reg.ofNum (BitVec.ofNat 3 op)
  if op < 0x50 then do
    if r = .esp then unlisted66 pol p66 else pure ()
    let w := if r = .esp then .b32 else opWidth p66
    pure (if op < 0x48 then .inc (.short w r) else .dec (.short w r), bs)
  else if op < 0x58 then plain pol p66 (.push (.reg r)) bs
  else if op < 0x60 then plain pol p66 (.pop (.reg r)) bs
  else if 0x70 ≤ op then
    match jccInstr (op - 0x70) (.rel8 0) with
    | none => .error .invalidOpcode
    | some _ => do
      unlisted66 pol p66
      let (v, bs) ← takeByte bs
      match jccInstr (op - 0x70) (.rel8 v) with
      | some i => pure (i, bs)
      | none => .error .invalidOpcode
  else match op with
    | 0x68 =>
      if p66 then do
        let (v, bs) ← take16 bs
        pure (.push (.imm16 v), bs)
      else do
        let (v, bs) ← take32 bs
        pure (.push (.imm32 v), bs)
    | 0x69 => do
      let ((r, rm), bs) ← takeRegRM pol p66 true bs
      let (v, bs) ← takeImm (opWidth p66) bs
      pure (.imul3 r rm (.full (opWidth p66) v), bs)
    | 0x6A => do
      unlisted66 pol p66
      let (v, bs) ← takeByte bs
      pure (.push (.imm8 v), bs)
    | 0x6B => do
      let ((r, rm), bs) ← takeRegRM pol p66 true bs
      let (v, bs) ← takeByte bs
      pure (.imul3 r rm (.byte (opWidth p66) v), bs)
    | _ => .error .invalidOpcode

/-- The opcodes 80 to BF (spec R152). -/
def decode8xBx (pol : DecodePolicy) (p66 : Bool) (op : Nat) (bs : List Byte) : Except DecodeError (Instr × List Byte) :=
  let r := Reg.ofNum (BitVec.ofNat 3 op)
  if 0xB8 ≤ op then do
    if r = .esp then unlisted66 pol p66 else pure ()
    let w := if r = .esp then .b32 else opWidth p66
    let (v, bs) ← takeImm w bs
    pure (.mov (.regImm w r v), bs)
  else if 0xB0 ≤ op then do
    unlisted66 pol p66
    let (v, bs) ← takeImm .b8 bs
    pure (.mov (.regImm .b8 r v), bs)
  else match op with
    | 0x80 => decodeGroup1 pol p66 op bs
    | 0x81 => decodeGroup1 pol p66 op bs
    | 0x83 => decodeGroup1 pol p66 op bs
    | 0x84 => do
      let ((r, rm), bs) ← takeRegRM pol p66 false bs
      pure (.test (.rmR .b8 rm r), bs)
    | 0x85 => do
      let ((r, rm), bs) ← takeRegRM pol p66 true bs
      pure (.test (.rmR (opWidth p66) rm r), bs)
    | 0x88 => do
      let ((r, rm), bs) ← takeRegRM pol p66 false bs
      pure (.mov (.rmR .b8 rm r), bs)
    | 0x89 => do
      let ((r, rm), bs) ← takeRegRM pol p66 true bs
      pure (.mov (.rmR (opWidth p66) rm r), bs)
    | 0x8A => do
      let ((r, rm), bs) ← takeRegRM pol p66 false bs
      pure (.mov (.rRm .b8 r rm), bs)
    | 0x8B => do
      let ((r, rm), bs) ← takeRegRM pol p66 true bs
      pure (.mov (.rRm (opWidth p66) r rm), bs)
    | 0x8D => do
      let (m, bs) ← takeByte bs
      if hiField m = 3 then .error .invalidOperandType
      else do
        let (mem, bs) ← takeMem (hiField m) (loField m) bs
        pure (.lea (opWidth p66) (Reg.ofNum (midField m)) mem, bs)
    | 0x8F => do
      let (m, bs) ← takeByte bs
      if midField m = 0 then do
        let (rm, bs) ← takeRM m bs
        pure (.pop (.rm (opWidth p66) rm), bs)
      else .error .invalidOpcode
    | 0x90 => pure (.nop p66, bs)
    | 0x98 => pure (if p66 then .cbw else .cwde, bs)
    | 0x99 => pure (if p66 then .cwd else .cdq, bs)
    | 0x9C => plain pol p66 .pushfd bs
    | 0x9D => plain pol p66 .popfd bs
    | 0xA0 => do
      unlisted66 pol p66
      let (a, bs) ← take32 bs
      pure (.mov (.accMem .b8 a), bs)
    | 0xA1 => do
      let (a, bs) ← take32 bs
      pure (.mov (.accMem (opWidth p66) a), bs)
    | 0xA2 => do
      unlisted66 pol p66
      let (a, bs) ← take32 bs
      pure (.mov (.memAcc .b8 a), bs)
    | 0xA3 => do
      let (a, bs) ← take32 bs
      pure (.mov (.memAcc (opWidth p66) a), bs)
    | 0xA8 => do
      unlisted66 pol p66
      let (v, bs) ← takeImm .b8 bs
      pure (.test (.accImm .b8 v), bs)
    | 0xA9 => do
      let (v, bs) ← takeImm (opWidth p66) bs
      pure (.test (.accImm (opWidth p66) v), bs)
    | _ => .error .invalidOpcode

/-- The opcodes C0 to FF (spec R152). -/
def decodeCxFx (pol : DecodePolicy) (p66 : Bool) (op : Nat) (bs : List Byte) : Except DecodeError (Instr × List Byte) :=
  match op with
  | 0xC0 => decodeGroup2 pol p66 op bs
  | 0xC1 => decodeGroup2 pol p66 op bs
  | 0xC3 => plain pol p66 .ret bs
  | 0xC6 => do
    let (m, bs) ← takeByte bs
    if midField m = 0 then do
      unlisted66 pol p66
      let (rm, bs) ← takeRM m bs
      let (v, bs) ← takeImm .b8 bs
      pure (.mov (.rmImm .b8 rm v), bs)
    else .error .invalidOpcode
  | 0xC7 => do
    let (m, bs) ← takeByte bs
    if midField m = 0 then do
      let (rm, bs) ← takeRM m bs
      let (v, bs) ← takeImm (opWidth p66) bs
      pure (.mov (.rmImm (opWidth p66) rm v), bs)
    else .error .invalidOpcode
  | 0xCC => plain pol p66 .int3 bs
  | 0xCD => do
    unlisted66 pol p66
    let (n, bs) ← takeByte bs
    pure (.int n, bs)
  | 0xCF => plain pol p66 .iret bs
  | 0xD0 => decodeGroup2 pol p66 op bs
  | 0xD1 => decodeGroup2 pol p66 op bs
  | 0xD2 => decodeGroup2 pol p66 op bs
  | 0xD3 => decodeGroup2 pol p66 op bs
  | 0xE8 => do
    unlisted66 pol p66
    let (v, bs) ← take32 bs
    pure (.callRel v, bs)
  | 0xE9 => do
    unlisted66 pol p66
    let (v, bs) ← take32 bs
    pure (.jmpRel (.rel32 v), bs)
  | 0xEB => do
    unlisted66 pol p66
    let (v, bs) ← takeByte bs
    pure (.jmpRel (.rel8 v), bs)
  | 0xF4 => plain pol p66 .hlt bs
  | 0xF5 => plain pol p66 .cmc bs
  | 0xF6 => decodeGroup3 pol p66 true bs
  | 0xF7 => decodeGroup3 pol p66 false bs
  | 0xF8 => plain pol p66 .clc bs
  | 0xF9 => plain pol p66 .stc bs
  | 0xFA => plain pol p66 .cli bs
  | 0xFB => plain pol p66 .sti bs
  | 0xFE => decodeGroup4 pol p66 bs
  | 0xFF => decodeGroup5 pol p66 bs
  | _ => .error .invalidOpcode

/-- The one-byte opcode map (spec R152); every other byte is an invalid opcode (R155 a). -/
def decodeOne (pol : DecodePolicy) (p66 : Bool) (op : Nat) (bs : List Byte) : Except DecodeError (Instr × List Byte) :=
  if op < 0x40 then
    if op % 8 < 6 then decodeAlu pol p66 (op / 8) (op % 8) bs else .error .invalidOpcode
  else if op < 0x80 then decode4x7x pol p66 op bs
  else if op < 0xC0 then decode8xBx pol p66 op bs
  else decodeCxFx pol p66 op bs

/-- BT, BTS, BTR, BTC by digit or by register form (spec R153). -/
def bitInstr (k : Nat) (o : BitOperands) : Instr :=
  match k with
  | 4 => .bt o | 5 => .bts o | 6 => .btr o | _ => .btc o

/-- 0F 01: SIDT and LIDT; a 66h prefix or a register operand is #UD (spec R157). -/
def decodeIdt (p66 : Bool) (bs : List Byte) : Except DecodeError (Instr × List Byte) := do
  let (m, bs) ← takeByte bs
  let k := (midField m).toNat
  if k = 1 ∨ k = 3 then
    if p66 then .error .prefixUd
    else if hiField m = 3 then .error .invalidOperandType
    else do
      let (mem, bs) ← takeMem (hiField m) (loField m) bs
      pure (if k = 1 then .sidt mem else .lidt mem, bs)
  else .error .invalidOpcode

/-- The two-byte opcode map (spec R153); every other second byte is an invalid opcode (R155 b). -/
def decodeTwo (pol : DecodePolicy) (p66 : Bool) (op : Nat) (bs : List Byte) : Except DecodeError (Instr × List Byte) :=
  if 0xC8 ≤ op ∧ op < 0xD0 then
    pure (.bswap p66 (Reg.ofNum (BitVec.ofNat 3 op)), bs)
  else if 0x80 ≤ op ∧ op < 0x90 then
    match jccInstr (op - 0x80) (.rel32 0) with
    | none => .error .invalidOpcode
    | some _ => do
      unlisted66 pol p66
      let (v, bs) ← take32 bs
      match jccInstr (op - 0x80) (.rel32 v) with
      | some i => pure (i, bs)
      | none => .error .invalidOpcode
  else match op with
    | 0x01 => decodeIdt p66 bs
    | 0x0B => plain pol p66 .ud2 bs
    | 0xA3 => do
      let ((r, rm), bs) ← takeRegRM pol p66 true bs
      pure (.bt (.rmR (opWidth p66) rm r), bs)
    | 0xAB => do
      let ((r, rm), bs) ← takeRegRM pol p66 true bs
      pure (.bts (.rmR (opWidth p66) rm r), bs)
    | 0xAF => do
      let ((r, rm), bs) ← takeRegRM pol p66 true bs
      pure (.imul2 (opWidth p66) r rm, bs)
    | 0xB3 => do
      let ((r, rm), bs) ← takeRegRM pol p66 true bs
      pure (.btr (.rmR (opWidth p66) rm r), bs)
    | 0xB6 => do
      let ((r, rm), bs) ← takeRegRM pol p66 true bs
      pure (.movzx (if p66 then .r16rm8 r rm else .r32rm8 r rm), bs)
    | 0xB7 => do
      let ((r, rm), bs) ← takeRegRM pol p66 false bs
      pure (.movzx (.r32rm16 r rm), bs)
    | 0xBA => do
      let (m, bs) ← takeByte bs
      if (midField m).toNat < 4 then .error .invalidOpcode
      else do
        let (rm, bs) ← takeRM m bs
        let (v, bs) ← takeByte bs
        pure (bitInstr (midField m).toNat (.rmImm (opWidth p66) rm v), bs)
    | 0xBB => do
      let ((r, rm), bs) ← takeRegRM pol p66 true bs
      pure (.btc (.rmR (opWidth p66) rm r), bs)
    | 0xBE => do
      let ((r, rm), bs) ← takeRegRM pol p66 true bs
      pure (.movsx (if p66 then .r16rm8 r rm else .r32rm8 r rm), bs)
    | 0xBF => do
      let ((r, rm), bs) ← takeRegRM pol p66 false bs
      pure (.movsx (.r32rm16 r rm), bs)
    | _ => .error .invalidOpcode

/-- The prefix loop of spec R151: at most one 66h and one F0h, in either order; a repeat is #UD (R131). Answers the two
marks and the first opcode byte. -/
def takePrefixes (p66 lock : Bool) : List Byte → Except DecodeError ((Bool × Bool × Byte) × List Byte)
  | [] => .error .truncated
  | b :: bs =>
    if b = 0x66 then (if p66 then .error .repeatedPrefix else takePrefixes true lock bs)
    else if b = 0xF0 then (if lock then .error .repeatedPrefix else takePrefixes p66 true bs)
    else .ok ((p66, lock, b), bs)

/-- The opcode and what follows it. -/
def decodeOpcode (pol : DecodePolicy) (p66 : Bool) (o1 : Byte) (bs : List Byte) : Except DecodeError (Instr × List Byte) :=
  if o1 = 0x0F then do
    let (o2, bs) ← takeByte bs
    decodeTwo pol p66 o2.toNat bs
  else decodeOne pol p66 o1.toNat bs

/-- The instruction at the head of a list of bytes, and the bytes after it (spec R151). -/
def decodeInstr (pol : DecodePolicy) (bs : List Byte) : Except DecodeError (Instr × List Byte) := do
  let ((p66, lock, o1), bs) ← takePrefixes false false bs
  lockCheck pol lock
  decodeOpcode pol p66 o1 bs

/-- The instruction at the head of a list of bytes, and its length L (spec R149, R151). -/
def decode (pol : DecodePolicy) (bs : List Byte) : Except DecodeError (Instr × Nat) := do
  let (i, rest) ← decodeInstr pol bs
  pure (i, bs.length - rest.length)

/-! ### The encoder -/

/-- The bytes of a 16-bit value, the low-order byte first (spec R81). -/
def bytes16 (v : BitVec 16) : List Byte := [v.extractLsb' 0 8, v.extractLsb' 8 8]

/-- The bytes of a 32-bit value, the low-order byte first (spec R81). -/
def bytes32 (v : BitVec 32) : List Byte :=
  [v.extractLsb' 0 8, v.extractLsb' 8 8, v.extractLsb' 16 8, v.extractLsb' 24 8]

def immBytes : (w : Width) → BitVec w.bits → List Byte
  | .b8, v => [v]
  | .b16, v => bytes16 v
  | .b32, v => bytes32 v

/-- The 66h prefix of a 16-bit form (spec R132). -/
def pre66 (w : Width) : List Byte := if w = .b16 then [0x66] else []

/-- An opcode byte given as a number. -/
def opByte (n : Nat) : Byte := BitVec.ofNat 8 n

/-- 0 for the 8-bit member of an opcode pair, 1 for the other. -/
def pairBit (w : Width) : Nat := if w = .b8 then 0 else 1

/-- The mod field a displacement calls for (spec R142). -/
def Disp.mod : Disp → BitVec 2
  | .none => 0
  | .d8 _ => 1
  | .d32 _ => 2

def Disp.bytes : Disp → List Byte
  | .none => []
  | .d8 v => [v]
  | .d32 v => bytes32 v

/-- The ModR/M byte, SIB byte and displacement of a memory operand (spec R137 to R142). -/
def memBytes (reg : BitVec 3) (m : MemRef) : List Byte :=
  match m.base, m.index with
  | none, none => fieldByte 0 reg 5 :: m.disp.bytes
  | none, some (i, s) => fieldByte 0 reg 4 :: fieldByte s.num i.num 5 :: m.disp.bytes
  | some b, none =>
    if b = .esp then fieldByte m.disp.mod reg 4 :: fieldByte 0 4 4 :: m.disp.bytes
    else fieldByte m.disp.mod reg b.num :: m.disp.bytes
  | some b, some (i, s) => fieldByte m.disp.mod reg 4 :: fieldByte s.num i.num b.num :: m.disp.bytes

/-- The ModR/M byte and what follows it of an r/m operand. -/
def rmBytes (reg : BitVec 3) : RM → List Byte
  | .reg r => [fieldByte 3 reg r.num]
  | .mem m => memBytes reg m

def encodeAlu (k : Nat) : AluOperands → List Byte
  | .rmR w dst src => pre66 w ++ opByte (8 * k + pairBit w) :: rmBytes src.num dst
  | .rRm w dst src => pre66 w ++ opByte (8 * k + 2 + pairBit w) :: rmBytes dst.num src
  | .accImm w v => pre66 w ++ opByte (8 * k + 4 + pairBit w) :: immBytes w v
  | .rmImm w dst v => pre66 w ++ opByte (0x80 + pairBit w) :: rmBytes (BitVec.ofNat 3 k) dst ++ immBytes w v
  | .rmImm8 w dst v => pre66 w ++ 0x83 :: rmBytes (BitVec.ofNat 3 k) dst ++ [v]

def encodeInc (k : Nat) : IncOperands → List Byte
  | .short w r => pre66 w ++ [opByte (0x40 + 8 * k + r.num.toNat)]
  | .rm w dst => pre66 w ++ opByte (0xFE + pairBit w) :: rmBytes (BitVec.ofNat 3 k) dst

/-- Group 3 without an immediate (F6, F7). -/
def encodeUnary (digit : BitVec 3) (w : Width) (rm : RM) : List Byte :=
  pre66 w ++ opByte (0xF6 + pairBit w) :: rmBytes digit rm

def encodeTest : TestOperands → List Byte
  | .rmR w a b => pre66 w ++ opByte (0x84 + pairBit w) :: rmBytes b.num a
  | .accImm w v => pre66 w ++ opByte (0xA8 + pairBit w) :: immBytes w v
  | .rmImm w a v => encodeUnary 0 w a ++ immBytes w v

def encodeBit (op : Byte) (digit : BitVec 3) : BitOperands → List Byte
  | .rmR w base off => pre66 w ++ 0x0F :: op :: rmBytes off.num base
  | .rmImm w base off => pre66 w ++ 0x0F :: 0xBA :: rmBytes digit base ++ [off]

def encodeShift (digit : BitVec 3) (w : Width) (dst : RM) : ShiftCount → List Byte
  | .imm n => pre66 w ++ opByte (0xC0 + pairBit w) :: rmBytes digit dst ++ [n]
  | .one => pre66 w ++ opByte (0xD0 + pairBit w) :: rmBytes digit dst
  | .cl => pre66 w ++ opByte (0xD2 + pairBit w) :: rmBytes digit dst

def encodeImul3 (dst : Reg) (src : RM) : ImulImm → List Byte
  | .full w v => pre66 w ++ 0x69 :: rmBytes dst.num src ++ immBytes w v
  | .byte w v => pre66 w ++ 0x6B :: rmBytes dst.num src ++ [v]

def encodeMov : MovOperands → List Byte
  | .rmR w dst src => pre66 w ++ opByte (0x88 + pairBit w) :: rmBytes src.num dst
  | .rRm w dst src => pre66 w ++ opByte (0x8A + pairBit w) :: rmBytes dst.num src
  | .accMem w a => pre66 w ++ opByte (0xA0 + pairBit w) :: bytes32 a
  | .memAcc w a => pre66 w ++ opByte (0xA2 + pairBit w) :: bytes32 a
  | .regImm w dst v => pre66 w ++ opByte (0xB0 + 8 * pairBit w + dst.num.toNat) :: immBytes w v
  | .rmImm w dst v => pre66 w ++ opByte (0xC6 + pairBit w) :: rmBytes 0 dst ++ immBytes w v

/-- MOVZX (op = B6) and MOVSX (op = BE). -/
def encodeExt (op : Nat) : ExtOperands → List Byte
  | .r16rm8 dst src => 0x66 :: 0x0F :: opByte op :: rmBytes dst.num src
  | .r32rm8 dst src => 0x0F :: opByte op :: rmBytes dst.num src
  | .r32rm16 dst src => 0x0F :: opByte (op + 1) :: rmBytes dst.num src

def encodePush : PushOperand → List Byte
  | .reg r => [opByte (0x50 + r.num.toNat)]
  | .imm32 v => 0x68 :: bytes32 v
  | .imm16 v => 0x66 :: 0x68 :: bytes16 v
  | .imm8 v => [0x6A, v]
  | .rm w src => pre66 w ++ 0xFF :: rmBytes 6 src

def encodePop : PopOperand → List Byte
  | .reg r => [opByte (0x58 + r.num.toNat)]
  | .rm w dst => pre66 w ++ 0x8F :: rmBytes 0 dst

/-- A conditional jump of condition nibble k (spec R395). -/
def encodeJcc (k : Nat) : Rel → List Byte
  | .rel8 v => [opByte (0x70 + k), v]
  | .rel32 v => 0x0F :: opByte (0x80 + k) :: bytes32 v

/-- The bytes of an instruction, with no F0h prefix (spec R152 to R154). -/
def encode : Instr → List Byte
  | .add o => encodeAlu 0 o
  | .adc o => encodeAlu 2 o
  | .sub o => encodeAlu 5 o
  | .sbb o => encodeAlu 3 o
  | .cmp o => encodeAlu 7 o
  | .inc o => encodeInc 0 o
  | .dec o => encodeInc 1 o
  | .neg w dst => encodeUnary 3 w dst
  | .and o => encodeAlu 4 o
  | .or o => encodeAlu 1 o
  | .xor o => encodeAlu 6 o
  | .not w dst => encodeUnary 2 w dst
  | .test o => encodeTest o
  | .bswap p66 r => (if p66 then [0x66] else []) ++ [0x0F, opByte (0xC8 + r.num.toNat)]
  | .bt o => encodeBit 0xA3 4 o
  | .btc o => encodeBit 0xBB 7 o
  | .btr o => encodeBit 0xB3 6 o
  | .bts o => encodeBit 0xAB 5 o
  | .rol w dst c => encodeShift 0 w dst c
  | .ror w dst c => encodeShift 1 w dst c
  | .rcl w dst c => encodeShift 2 w dst c
  | .rcr w dst c => encodeShift 3 w dst c
  | .shl w dst c => encodeShift 4 w dst c
  | .shr w dst c => encodeShift 5 w dst c
  | .sar w dst c => encodeShift 7 w dst c
  | .mul w src => encodeUnary 4 w src
  | .imul1 w src => encodeUnary 5 w src
  | .imul2 w dst src => pre66 w ++ 0x0F :: 0xAF :: rmBytes dst.num src
  | .imul3 dst src imm => encodeImul3 dst src imm
  | .div w src => encodeUnary 6 w src
  | .idiv w src => encodeUnary 7 w src
  | .mov o => encodeMov o
  | .movsx o => encodeExt 0xBE o
  | .movzx o => encodeExt 0xB6 o
  | .lea w dst src => pre66 w ++ 0x8D :: memBytes dst.num src
  | .cbw => [0x66, 0x98]
  | .cwde => [0x98]
  | .cwd => [0x66, 0x99]
  | .cdq => [0x99]
  | .nop p66 => (if p66 then [0x66] else []) ++ [0x90]
  | .push o => encodePush o
  | .pop o => encodePop o
  | .pushfd => [0x9C]
  | .popfd => [0x9D]
  | .callRel v => 0xE8 :: bytes32 v
  | .callRm src => 0xFF :: rmBytes 2 src
  | .ret => [0xC3]
  | .jmpRel (.rel8 v) => [0xEB, v]
  | .jmpRel (.rel32 v) => 0xE9 :: bytes32 v
  | .jmpRm src => 0xFF :: rmBytes 4 src
  | .jo rel => encodeJcc 0x0 rel
  | .jno rel => encodeJcc 0x1 rel
  | .jb rel => encodeJcc 0x2 rel
  | .jae rel => encodeJcc 0x3 rel
  | .je rel => encodeJcc 0x4 rel
  | .jne rel => encodeJcc 0x5 rel
  | .jbe rel => encodeJcc 0x6 rel
  | .ja rel => encodeJcc 0x7 rel
  | .js rel => encodeJcc 0x8 rel
  | .jns rel => encodeJcc 0x9 rel
  | .jl rel => encodeJcc 0xC rel
  | .jge rel => encodeJcc 0xD rel
  | .jle rel => encodeJcc 0xE rel
  | .jg rel => encodeJcc 0xF rel
  | .clc => [0xF8]
  | .stc => [0xF9]
  | .cmc => [0xF5]
  | .cli => [0xFA]
  | .sti => [0xFB]
  | .hlt => [0xF4]
  | .int n => [0xCD, n]
  | .int3 => [0xCC]
  | .iret => [0xCF]
  | .lidt src => 0x0F :: 0x01 :: memBytes 3 src
  | .sidt dst => 0x0F :: 0x01 :: memBytes 1 dst
  | .ud2 => [0x0F, 0x0B]

/-! ### The host's questions -/

/-- The `n` lowest bytes of a number, the lowest first. -/
def lowBytes : Nat → Nat → List Byte
  | 0, _ => []
  | n + 1, v => BitVec.ofNat 8 v :: lowBytes n (v / 256)

/-- The instruction bytes of a 32-bit table key K = P ++ O1 ++ O2 ++ M (spec R162): the prefix if there is one, the first
opcode byte, the second after 0Fh, then M. -/
def keyBytes (k : Nat) : List Byte :=
  (if k / 0x1000000 % 256 = 0x66 then [0x66] else []) ++ BitVec.ofNat 8 (k / 0x10000) ::
    (if k / 0x10000 % 256 = 0x0F then [BitVec.ofNat 8 (k / 0x100)] else []) ++ [BitVec.ofNat 8 k]

/-- A 32-bit number that has the shape of a key of spec/opcode_table.json (R162): P is 00h or 66h, and O2 is 00h unless
O1 is 0Fh. -/
def isTableKey (nbits w : Nat) : Bool :=
  nbits = 32 && (w / 0x1000000 = 0 || w / 0x1000000 = 0x66) && (w / 0x100 % 256 = 0 || w / 0x10000 % 256 = 0x0F)

/-- The bytes of the instruction whose bits are `w`: a table key is laid out as R162 says, any other number is the bytes
themselves, bit 0 the least significant bit of the first; padded with zeros to the longest instruction, 12 bytes (R130).
DESIGN CHOICE (log entry 10). -/
def tableBytes (nbits w : Nat) : List Byte :=
  if isTableKey nbits w then (keyBytes w ++ lowBytes 12 0).take 12 else lowBytes 12 (w % 2 ^ nbits)

/-- The instruction the decoder reads from the instruction whose bits are `w`. -/
def decodeTableWord (nbits w : Nat) : Option Instr :=
  match decode DecodePolicy.default (tableBytes nbits w) with
  | .ok (i, _) => some i
  | .error _ => none

end Sys2Proof
end

