-- ==== Sys2Proof/Machine/State.lean ====
section
/-! DEFINITION. The state of the machine as plain data (spec R30 to R50, R47), the reasons a step can stop, and the state
right after reset (R50, R570). INVENTORY.md lists every field with its rule and reset value. -/

namespace Sys2Proof.Machine

/-- The eight general registers (spec R30). -/
structure Regs where
  eax : Dword
  ecx : Dword
  edx : Dword
  ebx : Dword
  esp : Dword
  ebp : Dword
  esi : Dword
  edi : Dword
  deriving DecidableEq, Repr

/-- The six flags of EFLAGS (spec R39); bit 1 reads 1 and the other bits read 0. -/
structure EFlags where
  cf : Bool
  zf : Bool
  sf : Bool
  tf : Bool
  intf : Bool  -- IF
  of : Bool
  deriving DecidableEq, Repr

/-- IDTR (spec R45). -/
structure Idtr where
  address : Dword
  limit : BitVec 16
  deriving DecidableEq, Repr

/-- The run state of the core (spec R49 a). -/
inductive RunState where
  | running
  | halted
  | stopped
  deriving DecidableEq, Repr

/-- The writable fields of LVTTIMER (spec R548). -/
structure LvtTimer where
  periodic : Bool
  masked : Bool
  vector : BitVec 5
  deriving DecidableEq, Repr

/-- The local APIC (spec R531 to R548): bit n of `isr` and `irr` is vector 32 + n; `intr` is the latch of R536. -/
structure LocalApic where
  tpr : BitVec 8
  sivr : BitVec 8
  isr : BitVec 16
  irr : BitVec 16
  lvt : LvtTimer
  icr : Dword
  ccr : Dword
  intr : Bool
  deriving DecidableEq, Repr

/-- The IOAPIC (spec R550 to R552): bit n of `mask` and `level` is the M and the T bit of redirection entry n. -/
structure IoApic where
  ioregsel : Dword
  mask : BitVec 16
  level : BitVec 16
  deriving DecidableEq, Repr

/-- The interrupt controller: both APICs and the level of the sixteen IRQ inputs (spec R49 d, R530). -/
structure IntCtl where
  lapic : LocalApic
  ioapic : IoApic
  lines : BitVec 16
  deriving DecidableEq, Repr

/-- One move of one agent (spec R18): the host's schedule of the agents is a list of these (log entry 5). -/
inductive Turn where
  | core (recognise : Bool)               -- the core; may it recognise an interrupt at this boundary (R536, D38)
  | tick                                  -- the timer counts once (R545)
  | irq (n : BitVec 4) (active : Bool)    -- IRQ input n is driven to a level (R554)
  | reset                                 -- RESET (R570)
  | powerCycle (ram : List Host.Cell)     -- power cycle; the RAM bytes found after it (R571, D39)
  deriving DecidableEq, Repr

/-- The storage: bytes by address, strictly rising, the byte of an unlisted address not listed. -/
abbrev Memory := List Host.Cell

/-- The machine's state. -/
structure State where
  regs : Regs
  eip : Dword
  nextEip : Dword
  flags : EFlags
  idtr : Idtr
  pmU : Bool
  esp0 : Dword
  run : RunState
  cpuErr : Bool
  stepDue : Bool
  intc : IntCtl
  mem : Memory
  draws : Nat
  agenda : List Turn
  plat : Config.Platform
  deriving DecidableEq, Repr

/-- The faults of the model (the machine's own exceptions are next states). -/
inductive Fault where
  /-- An access or a fetch whose bytes pass FFFFFFFFh, raised by data accesses, exception entry and fetch. The spec has
  the model refuse it (R38, R103, D12). Safe: nothing is claimed of what the hardware does there. -/
  | beyondAddressSpace
  deriving DecidableEq, Repr

/-- What the model declines to step; the spec names each one (93_implementation_defined.md section 3). All are safe:
nothing is claimed of what the hardware does there. -/
inductive Refusal where
  /-- An arm of `exec` that has no meaning yet. Raised by `exec` only. -/
  | notModelled (mnemonic : String)
  /-- A state with PM.U = 1 (R6, R446, D3). Raised by a step and by exception entry. -/
  | userMode
  /-- IRET with a non-zero PM image on the stack (R436, D32). Raised by IRET. -/
  | iretUserImage
  /-- An F0h prefix under LOCK_POLICY = refuse (R133, D6). Raised by decoding. -/
  | lockPrefix
  /-- A 66h prefix on a form that lists none, under PREFIX66_UNLISTED = refuse (R156, D7). Raised by decoding. -/
  | prefix66Unlisted
  /-- A data access on both sides of 80000000h (R103, D12). Raised by data accesses. -/
  | orderingStraddle
  /-- An APIC or IOAPIC access that is no aligned dword (R88, D14). Raised by data accesses. -/
  | apicAccessWidth
  /-- An access to a platform device that is no naturally aligned dword: a model "should refuse device accesses that are not
  naturally aligned 32-bit accesses" (R87). Raised by data accesses. -/
  | platformDevice
  /-- A store to the instruction memory or FLASH under `codeStore = refuse` (R94, R585, D2). Raised by data accesses. -/
  | codeStore
  /-- POP to memory addressed through ESP under `popEspBase = refuse` (R371, D22). Raised by POP. -/
  | popMemoryEsp
  /-- A present gate with a reserved bit set (R468, D28). Raised by exception entry. -/
  | descriptorReservedBits
  /-- A write of SIVR with bits 7:0 below 20h (R535, D35). Raised by data writes. -/
  | spuriousVectorBelow32
  /-- An unmasked timer expiry with LVTTIMER.Vector[4] = 1 (R548, D35). Raised by a timer tick. -/
  | timerVectorAbove47
  deriving DecidableEq, Repr

/-- The exceptions an instruction's pseudocode raises (spec R13). -/
inductive Exn where
  | divideError
  | invalidOpcode
  | generalProtection
  | machineCheck (address : Dword) (i w : Bool)
  deriving DecidableEq, Repr

/-- How an instruction's body ends early. -/
inductive Stop where
  | raise (x : Exn)
  | fault (f : Fault)
  | refuse (r : Refusal)
  deriving DecidableEq, Repr

/-- What a step or a meaning answers. -/
abbrev Result := Host.Outcome State Fault Refusal

/-- The local APIC after reset (spec R50, R535, R548). -/
def LocalApic.reset : LocalApic where
  tpr := 0
  sivr := 0xFF
  isr := 0
  irr := 0
  lvt := ⟨false, true, 0⟩
  icr := 0
  ccr := 0
  intr := false

/-- The IOAPIC after reset: every entry masked, edge-triggered (spec R50, R552). -/
def IoApic.reset : IoApic where
  ioregsel := 0
  mask := 0xFFFF
  level := 0

/-- The machine right after reset (spec R50, R570). The fields that R50 gives no value, `mem`, `intc.lines` and the
model's own `nextEip`, `draws`, `agenda`, `plat`, are DESIGN CHOICE (log entries 1, 2, 3, 5, 7, 8). -/
def State.reset : State where
  regs := ⟨0, 0, 0, 0, 0, 0, 0, 0⟩
  eip := 0
  nextEip := 0
  flags := ⟨false, false, false, false, false, false⟩
  idtr := ⟨0, 0⟩
  pmU := false
  esp0 := 0
  run := .running
  cpuErr := false
  stepDue := false
  intc := ⟨LocalApic.reset, IoApic.reset, 0⟩
  mem := []
  draws := 0
  agenda := []
  plat := Config.defaultPlatform

end Sys2Proof.Machine
end

