-- ==== Sys2Proof/Machine/Apic.lean ====
section
/-! DEFINITION. The interrupt controller: presentation and acknowledge (spec R532 to R539), the timer (R545 to R548), the
IOAPIC (R550 to R554), and their memory-mapped registers. `settle` is what the APIC does continuously. -/

namespace Sys2Proof.Machine

/-- Bit n of sixteen. -/
def bit16 (n : Nat) : BitVec 16 := 1#16 <<< n

/-- Sixteen bits with bit n set to a value. -/
def putBit16 (x : BitVec 16) (n : Nat) (v : Bool) : BitVec 16 :=
  if v then x ||| bit16 n else x &&& ~~~ bit16 n

/-- The highest set bit below position `k`. -/
def highestBelow (x : BitVec 16) : Nat → Option Nat
  | 0 => none
  | k + 1 => if x.getLsbD k then some k else highestBelow x k

/-- The highest set bit. -/
def highest (x : BitVec 16) : Option Nat := highestBelow x 16

/-- PPR[7:0]: the task priority or the highest in-service vector, whichever is higher (spec R533). -/
def LocalApic.ppr (l : LocalApic) : BitVec 8 :=
  match highest l.isr with
  | none => l.tpr
  | some n => if l.tpr.toNat < 32 + n then BitVec.ofNat 8 (32 + n) else l.tpr

/-- deliverable() of spec R536, as the bit number: the highest requested vector, if it is above PPR. -/
def LocalApic.deliverable (l : LocalApic) : Option Nat :=
  match highest l.irr with
  | none => none
  | some n => if l.ppr.toNat < 32 + n then some n else none

/-- The level-triggered requests that the IOAPIC passes on now (spec R554). -/
def IntCtl.levelRequests (c : IntCtl) : BitVec 16 :=
  c.lines &&& c.ioapic.level &&& ~~~ c.ioapic.mask &&& ~~~ c.lapic.isr

/-- What the APIC does continuously: accept level requests (spec R554) and raise INTR, which once set stays set (R536). -/
def IntCtl.settle (c : IntCtl) : IntCtl :=
  let l := { c.lapic with irr := c.lapic.irr ||| c.levelRequests }
  { c with lapic := { l with intr := l.intr || l.deliverable.isSome } }

/-- A controller in which the APIC has nothing left to do. -/
def IntCtl.settled (c : IntCtl) : Bool := decide (c.settle = c)

/-- Acknowledge (spec R536): the vector, and the controller after it. -/
def IntCtl.acknowledge (c : IntCtl) : BitVec 8 × IntCtl :=
  match c.lapic.deliverable with
  | some n =>
    (BitVec.ofNat 8 (32 + n),
     IntCtl.settle { c with lapic := { c.lapic with
       intr := false, irr := putBit16 c.lapic.irr n false, isr := putBit16 c.lapic.isr n true } })
  | none => (c.lapic.sivr, IntCtl.settle { c with lapic := { c.lapic with intr := false } })

/-- The EOI write: clears the highest in-service bit, if there is one (spec R534). -/
def LocalApic.eoi (l : LocalApic) : LocalApic :=
  match highest l.isr with
  | some n => { l with isr := putBit16 l.isr n false }
  | none => l

/-- One tick of the timer (spec R545, R548). -/
def IntCtl.tick (c : IntCtl) : Except Refusal IntCtl :=
  let l := c.lapic
  if l.ccr = 0 then .ok c
  else if l.ccr ≠ 1 then .ok { c with lapic := { l with ccr := l.ccr - 1 } }
  else if !l.lvt.masked && l.lvt.vector.getLsbD 4 then .error .timerVectorAbove47
  else
    .ok (IntCtl.settle { c with lapic := { l with
      ccr := if l.lvt.periodic then l.icr else 0,
      irr := if l.lvt.masked then l.irr else putBit16 l.irr l.lvt.vector.toNat true } })

/-- An IRQ input is driven to a level: a rise on an unmasked edge-triggered input is a request (spec R553, R554). -/
def IntCtl.drive (c : IntCtl) (n : BitVec 4) (active : Bool) : IntCtl :=
  let k := n.toNat
  let rise := active && !c.lines.getLsbD k && !c.ioapic.mask.getLsbD k && !c.ioapic.level.getLsbD k
  IntCtl.settle { c with
    lines := putBit16 c.lines k active,
    lapic := { c.lapic with irr := if rise then putBit16 c.lapic.irr k true else c.lapic.irr } }

/-- The value of LVTTIMER: bits 7:5 are 001b (spec R548). -/
def LvtTimer.image (t : LvtTimer) : Dword :=
  BitVec.ofNat 32 (t.periodic.toNat * 0x20000 + t.masked.toNat * 0x10000 + 0x20 + t.vector.toNat)

/-- What a dword read of the local APIC returns; none is UNDEF: reserved addresses and EOI (spec R531, D36). -/
def LocalApic.readReg (l : LocalApic) (off : Nat) : Option Dword :=
  match off with
  | 0x80 => some (l.tpr.setWidth 32)
  | 0xA0 => some (l.ppr.setWidth 32)
  | 0xF0 => some (l.sivr.setWidth 32)
  | 0x110 => some (l.isr.setWidth 32)
  | 0x210 => some (l.irr.setWidth 32)
  | 0x320 => some l.lvt.image
  | 0x380 => some l.icr
  | 0x390 => some l.ccr
  | _ => none

/-- The local APIC after a dword write, before it settles; read-only and reserved registers ignore it (spec R531). -/
def LocalApic.writeReg (l : LocalApic) (off : Nat) (v : Dword) : Except Refusal LocalApic :=
  match off with
  | 0x80 => .ok { l with tpr := v.setWidth 8 }
  | 0xB0 => .ok l.eoi
  | 0xF0 => if (v.setWidth 8).toNat < 0x20 then .error .spuriousVectorBelow32 else .ok { l with sivr := v.setWidth 8 }
  | 0x320 => .ok { l with lvt := ⟨v.getLsbD 17, v.getLsbD 16, v.setWidth 5⟩ }
  | 0x380 => .ok { l with icr := v, ccr := v }
  | _ => .ok l

/-- A dword write to the local APIC (spec R531 to R548). -/
def IntCtl.writeLapic (c : IntCtl) (off : Nat) (v : Dword) : Except Refusal IntCtl :=
  match c.lapic.writeReg off v with
  | .ok l => .ok (IntCtl.settle { c with lapic := l })
  | .error r => .error r

/-- The index that IOREGSEL selects (spec R550). -/
def IoApic.index (o : IoApic) : Nat := (o.ioregsel.setWidth 8).toNat

/-- The redirection entry whose low half an index names (spec R551). -/
def redirEntry (i : Nat) : Option Nat :=
  if 0x10 ≤ i ∧ i ≤ 0x2E ∧ i % 2 = 0 then some ((i - 0x10) / 2) else none

/-- The value of redirection entry n, low half (spec R552). -/
def IoApic.entryImage (o : IoApic) (n : Nat) : Dword :=
  BitVec.ofNat 32 ((o.mask.getLsbD n).toNat * 0x10000 + (o.level.getLsbD n).toNat * 0x8000)

/-- What a read of IOWIN returns; none is UNDEF (spec R551). -/
def IoApic.readWindow (o : IoApic) : Option Dword :=
  match redirEntry o.index with
  | some n => some (o.entryImage n)
  | none => if 0x11 ≤ o.index ∧ o.index ≤ 0x2F then some 0 else none

/-- The IOAPIC after a write of IOWIN (spec R551, R552). -/
def IoApic.writeWindow (o : IoApic) (v : Dword) : IoApic :=
  match redirEntry o.index with
  | some n => { o with mask := putBit16 o.mask n (v.getLsbD 16), level := putBit16 o.level n (v.getLsbD 15) }
  | none => o

/-- What a dword read of the IOAPIC returns; none is UNDEF (spec R550). -/
def IoApic.readReg (o : IoApic) (off : Nat) : Option Dword :=
  match off with
  | 0x00 => some o.ioregsel
  | 0x10 => o.readWindow
  | _ => none

/-- The IOAPIC after a dword write (spec R550). -/
def IoApic.writeReg (o : IoApic) (off : Nat) (v : Dword) : IoApic :=
  match off with
  | 0x00 => { o with ioregsel := v }
  | 0x10 => o.writeWindow v
  | _ => o

/-- A dword write to the IOAPIC. -/
def IntCtl.writeIoapic (c : IntCtl) (off : Nat) (v : Dword) : IntCtl :=
  IntCtl.settle { c with ioapic := c.ioapic.writeReg off v }

end Sys2Proof.Machine
end

