-- ==== Sys2Proof/Machine/Memory.lean ====
section
/-! DEFINITION. The storage (FLASH, SRAM and every other Weakly Ordered address, spec R91): one byte at a time, wider items little-endian (spec R80). -/

namespace Sys2Proof.Machine

/-- What a byte that nothing has written reads as. DESIGN CHOICE (log entry 1): the spec leaves the content of memory
after power-up open (R50, D39). -/
def unlistedByte : Byte := 0

/-- The canonical form from an address upward. -/
def sortedFrom (lo : Nat) : Memory → Bool
  | [] => true
  | (a, b) :: rest => decide (lo ≤ a) && decide (a < 2 ^ 32) && decide (b ≠ unlistedByte) && sortedFrom (a + 1) rest

/-- The canonical form: addresses strictly rising and below 2^32, no byte that an unlisted address reads as. -/
def Memory.wf (m : Memory) : Bool := sortedFrom 0 m

/-- The byte at an address. -/
def readByte : Memory → Nat → Byte
  | [], _ => unlistedByte
  | (a, b) :: rest, x => if a = x then b else readByte rest x

/-- The storage with one byte written; keeps the canonical form. -/
def writeByte : Memory → Nat → Byte → Memory
  | [], x, v => if v = unlistedByte then [] else [(x, v)]
  | (a, b) :: rest, x, v =>
    if x < a then (if v = unlistedByte then (a, b) :: rest else (x, v) :: (a, b) :: rest)
    else if x = a then (if v = unlistedByte then rest else (x, v) :: rest)
    else (a, b) :: writeByte rest x v

/-- The number that `n` bytes from an address upward hold, the lowest address the least significant (spec R80). -/
def loadLE (m : Memory) (a : Nat) : Nat → Nat
  | 0 => 0
  | n + 1 => (readByte m a).toNat + 256 * loadLE m (a + 1) n

/-- The storage with the `n` low bytes of a number written from an address upward (spec R80). -/
def storeLE (m : Memory) (a : Nat) : Nat → Nat → Memory
  | 0, _ => m
  | n + 1, v => storeLE (writeByte m a (BitVec.ofNat 8 v)) (a + 1) n (v / 256)

/-- The storage with a list of bytes written from an address upward, as far as the address space goes. -/
def storeBytes (m : Memory) (a : Nat) : List Byte → Memory
  | [] => m
  | b :: bs => if a < 2 ^ 32 then storeBytes (writeByte m a b) (a + 1) bs else m

/-- The storage with a list of cells written, those inside the address space. -/
def storeCells (m : Memory) : List Host.Cell → Memory
  | [] => m
  | (a, b) :: cs => storeCells (if a < 2 ^ 32 then writeByte m a b else m) cs

end Sys2Proof.Machine
end

