-- ==== Sys2Proof/Machine/Regions.lean ====
section
/-! DEFINITION. The address map (spec R90, R92, R93), the predicate BusErr (R94, D2), and what a data access meets. -/

namespace Sys2Proof.Machine

open Sys2Proof.Config (Platform AccessKind)

def inRange (r : Config.Range) (a : Nat) : Bool := decide (r.base ≤ a) && decide (a < r.base + r.size)

def isFlash (p : Platform) (a : Nat) : Bool := inRange ⟨p.flashBase, Config.flashSize⟩ a

def isSram (p : Platform) (a : Nat) : Bool := inRange ⟨p.sramBase, Config.sramSize⟩ a

/-- An address instructions can be fetched from: one of ICCM_RANGE, and none of the SRAM, from which the CPU cannot execute (spec
R93). That `iccm` is held to nothing else, neither to the FLASH nor to containing 0 as R93 and D1 take it, is a DESIGN CHOICE
(log entry 40). -/
def isFetchable (p : Platform) (a : Nat) : Bool := p.iccm.any (fun r => inRange r a) && !isSram p a

/-- The local APIC's range (spec R92, R531). -/
def isLapic (a : Nat) : Bool := inRange Config.lapicRange a

/-- The IOAPIC's window: FEC00000h to FEC00013h on every platform (spec R7, R550), and the reserved registers above, whose end is
a parameter, DESIGN CHOICE (log entry 12). -/
def isIoapic (p : Platform) (a : Nat) : Bool := inRange ⟨Config.ioapicBase, max Config.ioapicFixed p.ioapicSize⟩ a

/-- A platform-device address of D2; devices lie in the Strongly Ordered half (spec R90, R92), so that a range's part below
it names none. -/
def isDevice (p : Platform) (a : Nat) : Bool := decide (2 ^ 31 ≤ a) && p.devices.any (fun r => inRange r a)

/-- An address a store to which the parameter `codeStore` answers (spec R94, R585). -/
def isCode (p : Platform) (a : Nat) : Bool := isFlash p a || isFetchable p a

/-- An address that belongs to a device the sources do not describe: Strongly Ordered, and neither FLASH, instruction memory,
SRAM nor APIC (spec R91). Every other address is plain storage or an APIC register. -/
def isExternal (p : Platform) (a : Nat) : Bool :=
  decide (2 ^ 31 ≤ a) && !(isCode p a || isSram p a || isLapic a || isIoapic p a)

/-- BusErr(addr, kind) where no row of the platform speaks: the default of D2, and the answer of `codeStore`. -/
def busErrDefault (p : Platform) (kind : AccessKind) (a : Nat) : Bool :=
  match kind with
  | .fetch => !isFetchable p a
  | .read => !(isFlash p a || isSram p a || isLapic a || isIoapic p a || isDevice p a)
  | .write =>
    !(isFlash p a || isSram p a || isLapic a || isIoapic p a || isDevice p a) ||
      (isCode p a && decide (p.codeStore = .busError))

/-- BusErr(addr, kind) of spec R94: the first row that speaks of the access, else the default of D2. A fetch outside
ICCM_RANGE, and one from the SRAM, always meets one (R93, R483). -/
def busErr (p : Platform) (kind : AccessKind) (a : Nat) : Bool :=
  (decide (kind = .fetch) && !isFetchable p a) ||
  match p.busErr.find? (fun e => decide (e.kind = kind) && inRange e.range a) with
  | some e => e.err
  | none => busErrDefault p kind a

/-- The addresses of an access of `n` bytes. -/
def span (a n : Nat) : List Nat := (List.range n).map (fun k => a + k)

/-- What a data access reaches. -/
inductive Route where
  | storage             -- FLASH, SRAM, or any other Weakly Ordered address (spec R91)
  | discarded           -- a store to the instruction memory that is ignored
  | lapic (off : Nat)   -- the local APIC register at this offset
  | ioapic (off : Nat)  -- the IOAPIC register at this offset
  | device              -- a location of a device that no source describes
  deriving DecidableEq, Repr

/-- Where a data access of a width goes, or how it ends. A bus error on any of its bytes comes first and reports the
operand's first address (spec R482, D30); then the doubtful accesses of R103 and R88. Below
80000000h every other byte is plain storage; from there upward it is a device's (R91), which takes naturally aligned dwords
only (R87, log entry 38). A store of which one byte is instruction memory is a store to it as a whole: under
`codeStore = ignored` its SRAM bytes are dropped too, DESIGN CHOICE (log entry 17). -/
def route (p : Platform) (kind : AccessKind) (w : Width) (a : Dword) : Except Stop Route :=
  let lo := a.toNat
  let bytes := span lo w.bytes
  if bytes.any (fun x => decide (x < 2 ^ 32) && busErr p kind x) then
    .error (.raise (.machineCheck a false (decide (kind = .write))))
  else if 2 ^ 32 < lo + w.bytes then .error (.fault .beyondAddressSpace)
  else if lo < 2 ^ 31 ∧ 2 ^ 31 < lo + w.bytes then .error (.refuse .orderingStraddle)
  else if bytes.any isLapic then
    if w = .b32 ∧ lo % 4 = 0 then .ok (.lapic (lo - Config.lapicRange.base)) else .error (.refuse .apicAccessWidth)
  else if bytes.any (isIoapic p) then
    if w = .b32 ∧ lo % 4 = 0 then .ok (.ioapic (lo - Config.ioapicBase)) else .error (.refuse .apicAccessWidth)
  else if bytes.any (isExternal p) then
    if w = .b32 ∧ lo % 4 = 0 ∧ bytes.all (isExternal p) = true then .ok .device else .error (.refuse .platformDevice)
  else if kind = .write ∧ bytes.any (isCode p) = true then
    match p.codeStore with
    | .ignored => .ok .discarded
    | _ => .error (.refuse .codeStore)
  else .ok .storage

end Sys2Proof.Machine
end

