-- ==== Sys2Proof/Machine/Ops.lean ====
section
/-! DEFINITION. The named operations over the state: registers (spec R30 to R33), EFLAGS (R39), free values (R15), data
accesses (R12, R80 to R104), taking an exception (R500) and returning from one (R436), and how an instruction retires
(R37, R472, R13). -/

namespace Sys2Proof.Machine

/-! ### One update for each field -/

def State.setRegs (s : State) (v : Regs) : State := { s with regs := v }
def State.setEip (s : State) (v : Dword) : State := { s with eip := v }
def State.setNextEip (s : State) (v : Dword) : State := { s with nextEip := v }
def State.setFlags (s : State) (v : EFlags) : State := { s with flags := v }
def State.setIdtr (s : State) (v : Idtr) : State := { s with idtr := v }
def State.setPmU (s : State) (v : Bool) : State := { s with pmU := v }
def State.setRun (s : State) (v : RunState) : State := { s with run := v }
def State.setCpuErr (s : State) (v : Bool) : State := { s with cpuErr := v }
def State.setStepDue (s : State) (v : Bool) : State := { s with stepDue := v }
def State.setIntc (s : State) (v : IntCtl) : State := { s with intc := v }
def State.setMem (s : State) (v : Memory) : State := { s with mem := v }
def State.setDraws (s : State) (v : Nat) : State := { s with draws := v }
def State.setAgenda (s : State) (v : List Turn) : State := { s with agenda := v }

/-! ### Registers -/

/-- R32[n] (spec R32). -/
def Regs.get (g : Regs) : Reg → Dword
  | .eax => g.eax | .ecx => g.ecx | .edx => g.edx | .ebx => g.ebx
  | .esp => g.esp | .ebp => g.ebp | .esi => g.esi | .edi => g.edi

/-- R32[n] <- v (spec R32). -/
def Regs.set (g : Regs) (r : Reg) (v : Dword) : Regs :=
  match r with
  | .eax => { g with eax := v } | .ecx => { g with ecx := v }
  | .edx => { g with edx := v } | .ebx => { g with ebx := v }
  | .esp => { g with esp := v } | .ebp => { g with ebp := v }
  | .esi => { g with esi := v } | .edi => { g with edi := v }

def State.reg (s : State) (r : Reg) : Dword := s.regs.get r
def State.setReg (s : State) (r : Reg) (v : Dword) : State := s.setRegs (s.regs.set r v)

/-- The register that holds the 8-bit view of a number: AH to BH are in EAX to EBX (spec R31, R32). -/
def byteHost : Reg → Reg
  | .eax => .eax | .ecx => .ecx | .edx => .edx | .ebx => .ebx
  | .esp => .eax | .ebp => .ecx | .esi => .edx | .edi => .ebx

/-- Whether the 8-bit view of a number is bits 15:8 of its host (spec R32). -/
def isHighByte : Reg → Bool
  | .eax => false | .ecx => false | .edx => false | .ebx => false
  | .esp => true | .ebp => true | .esi => true | .edi => true

/-- The view of a register at a width: R8[n], R16[n] or R32[n] (spec R32). -/
def State.view (s : State) (w : Width) (r : Reg) : BitVec w.bits :=
  match w with
  | .b8 => if isHighByte r then (s.reg (byteHost r)).extractLsb' 8 8 else (s.reg (byteHost r)).extractLsb' 0 8
  | .b16 => (s.reg r).extractLsb' 0 16
  | .b32 => s.reg r

/-- A dword with bits 7:0 replaced. -/
def putLow8 (x : Dword) (v : Byte) : Dword := x.extractLsb' 8 24 ++ v
/-- A dword with bits 15:8 replaced. -/
def putHigh8 (x : Dword) (v : Byte) : Dword := x.extractLsb' 16 16 ++ v ++ x.extractLsb' 0 8
/-- A dword with bits 15:0 replaced. -/
def putLow16 (x : Dword) (v : BitVec 16) : Dword := x.extractLsb' 16 16 ++ v

/-- A write through a view keeps the other bits of the register (spec R33). -/
def State.setView (s : State) (w : Width) (r : Reg) (v : BitVec w.bits) : State :=
  match w, v with
  | .b8, v =>
    s.setReg (byteHost r)
      (if isHighByte r then putHigh8 (s.reg (byteHost r)) v else putLow8 (s.reg (byteHost r)) v)
  | .b16, v => s.setReg r (putLow16 (s.reg r) v)
  | .b32, v => s.setReg r v

/-! ### EFLAGS -/

/-- The 32-bit image of EFLAGS: bit 1 reads 1, every other bit without a flag reads 0 (spec R39). -/
def EFlags.image (f : EFlags) : Dword :=
  BitVec.ofNat 32 (f.cf.toNat + 2 + f.zf.toNat * 0x40 + f.sf.toNat * 0x80 + f.tf.toNat * 0x100 +
    f.intf.toNat * 0x200 + f.of.toNat * 0x800)

/-- The flags of an image loaded from memory; bit 1 is ignored (spec R39, R40). -/
def EFlags.ofImage (v : Dword) : EFlags where
  cf := v.getLsbD 0
  zf := v.getLsbD 6
  sf := v.getLsbD 7
  tf := v.getLsbD 8
  intf := v.getLsbD 9
  of := v.getLsbD 11

/-- The reserved positions of EFLAGS: bits 2 to 5, 10 and 12 to 31 (spec R39, R40). -/
def reservedFlags : Dword := 0xFFFFF43C

/-- Whether a loaded image tries to set a reserved flag (spec R40, D13). -/
def setsReserved (v : Dword) : Bool := decide (v &&& reservedFlags ≠ 0)

/-- EFLAGS loaded from an image by POPFD or IRET: a user-mode process does not change TF and IF (spec R40). -/
def loadFlags (s : State) (v : Dword) : EFlags :=
  let f := EFlags.ofImage v
  if s.pmU then { f with tf := s.flags.tf, intf := s.flags.intf } else f

/-! ### Free values -/

/-- A fresh free bit (spec R15). -/
def State.freeBit (s : State) : Bool := Config.freeBit s.draws
/-- A fresh free dword (spec R15). -/
def State.freeDword (s : State) : Dword := Config.freeDword s.draws
/-- The state after a draw. -/
def State.drawn (s : State) : State := s.setDraws (s.draws + 1)
/-- The state of before an instruction that raised, its draws used up: the counter is past the three that a body can make
before it raises (IRET reads three dwords), so that the instruction draws afresh when it runs again (spec R15, D10; log
entry 2). A delivery that is abandoned draws afresh in the same way. -/
def State.pastDraws (s : State) : State := s.setDraws (s.draws + 3)

/-! ### Data accesses -/

/-- A register read of an APIC or of a device: UNDEF, and whatever a device answers, is a fresh draw (spec R531, R550, R91). -/
def mmioValue (s : State) : Option Dword → Dword × State
  | some v => (v, s)
  | none => (s.freeDword, s.drawn)

/-- MemRead(a, w) as a data access (spec R12, R80, R94). -/
def readMem (w : Width) (a : Dword) (s : State) : Except Stop (BitVec w.bits × State) :=
  match route s.plat .read w a with
  | .error e => .error e
  | .ok (.lapic off) =>
    let (v, t) := mmioValue s (s.intc.lapic.readReg off)
    .ok (v.setWidth w.bits, t)
  | .ok (.ioapic off) =>
    let (v, t) := mmioValue s (s.intc.ioapic.readReg off)
    .ok (v.setWidth w.bits, t)
  | .ok .device =>
    let (v, t) := mmioValue s none
    .ok (v.setWidth w.bits, t)
  | .ok _ => .ok (BitVec.ofNat w.bits (loadLE s.mem a.toNat w.bytes), s)

/-- MemWrite(a, w, v) as a data access (spec R12, R80, R94). A store to a device changes nothing of the machine: what the device
holds shows in later reads of it only, and those are free (spec R91, log entry 38). -/
def writeMem (w : Width) (a : Dword) (v : BitVec w.bits) (s : State) : Except Stop State :=
  match route s.plat .write w a with
  | .error e => .error e
  | .ok (.lapic off) =>
    match s.intc.writeLapic off (v.setWidth 32) with
    | .ok c => .ok (s.setIntc c)
    | .error r => .error (.refuse r)
  | .ok (.ioapic off) => .ok (s.setIntc (s.intc.writeIoapic off (v.setWidth 32)))
  | .ok .discarded => .ok s
  | .ok .device => .ok s
  | .ok .storage => .ok (s.setMem (storeLE s.mem a.toNat w.bytes v.toNat))

/-! ### Taking an exception -/

/-- The stack image of PM (spec R46): the U bit at the open position PM_U_BIT; 0 in supervisor mode. -/
def pmImage (p : Config.Platform) (u : Bool) : Dword := (BitVec.ofBool u).setWidth 32 <<< p.pmUBit

/-- The error code of #GP, #NP and #DF (spec R481): ErrCode(0, 0, 0) is 0; the platform's row, or the default of D4. -/
def errCode (p : Config.Platform) (vector : BitVec 8) (idt ext : Bool) : Dword :=
  if vector = 0 ∧ idt = false ∧ ext = false then 0
  else
    match p.errCode.find? (fun r => decide (r.vector = vector ∧ r.idt = idt ∧ r.ext = ext)) with
    | some r => r.image
    | none => (vector.setWidth 32 <<< 3) ||| ((BitVec.ofBool idt).setWidth 32 <<< 1) ||| (BitVec.ofBool ext).setWidth 32

/-- The error code of #MC (spec R484): the platform's row, or the default of D4. -/
def mcErrCode (p : Config.Platform) (i u w : Bool) : Dword :=
  match p.mcErrCode.find? (fun r => decide (r.i = i ∧ r.u = u ∧ r.w = w)) with
  | some r => r.image
  | none =>
    ((BitVec.ofBool i).setWidth 32 <<< 2) ||| ((BitVec.ofBool u).setWidth 32 <<< 1) ||| (BitVec.ofBool w).setWidth 32

/-- The inputs of the entry algorithm (spec R500, R502). -/
structure Event where
  vector : BitVec 8
  errVector : BitVec 8
  idt : Bool
  ext : Bool
  int : Bool
  address : Dword
  i : Bool
  w : Bool
  curEip : Dword
  nextEip : Dword
  deriving DecidableEq, Repr

/-- An event of a vector with every other input zero. -/
def Event.plain (vector : BitVec 8) (curEip nextEip : Dword) : Event where
  vector := vector
  errVector := 0
  idt := false
  ext := false
  int := false
  address := 0
  i := false
  w := false
  curEip := curEip
  nextEip := nextEip

/-- The event of an exception that the instruction at `eip` raises (spec R470, R474, R480, R482). -/
def Exn.event (eip : Dword) : Exn → Event
  | .divideError => Event.plain 0 eip eip
  | .invalidOpcode => Event.plain 6 eip eip
  | .generalProtection => Event.plain 13 eip eip
  | .machineCheck a i w => { Event.plain 18 eip eip with address := a, i := i, w := w }

/-- The event of INT n or INT3 (spec R432, R433). -/
def Event.software (n : BitVec 8) (curEip nextEip : Dword) : Event :=
  { Event.plain n curEip nextEip with int := true }

/-- The event of an acknowledged interrupt (spec R492 item 2). -/
def Event.interrupt (v : BitVec 8) (eip : Dword) : Event :=
  { Event.plain v eip eip with ext := true }

/-- How one delivery fails (spec R504, R505). -/
inductive Failure where
  | beyondLimit
  | notPresent
  | badType
  | busError
  deriving DecidableEq, Repr

/-- The outcome of one delivery. -/
inductive Delivery where
  | entered (s : State)
  | failed (f : Failure) (s : State)
  | halts (e : Stop)   -- a fault or a refusal of the model
  deriving DecidableEq, Repr

/-- A gate as the entry algorithm reads it (spec R467, R468). -/
structure Gate where
  d0 : Dword
  d1 : Dword
  deriving DecidableEq, Repr

def Gate.present (g : Gate) : Bool := g.d1.getLsbD 15
def Gate.kind (g : Gate) : BitVec 5 := g.d1.extractLsb' 8 5
/-- Interrupt gate: 01110b. -/
def Gate.isInterrupt (g : Gate) : Bool := decide (g.kind = 0b01110)
/-- Trap gate: 01111b. -/
def Gate.isTrap (g : Gate) : Bool := decide (g.kind = 0b01111)
/-- A 1 in a reserved position: D0[31:16], D1[7:0] or D1[14:13] (spec R468, D28). -/
def Gate.reservedSet (g : Gate) : Bool :=
  decide (g.d0 &&& 0xFFFF0000 ≠ 0) || decide (g.d1 &&& 0x000060FF ≠ 0)
def Gate.address (g : Gate) : Dword := g.d1.extractLsb' 16 16 ++ g.d0.extractLsb' 0 16

/-- The gate that software writes for a handler (spec R467). -/
def Gate.make (trap : Bool) (handler : Dword) : Gate where
  d0 := handler &&& 0x0000FFFF
  d1 := (handler &&& 0xFFFF0000) ||| (if trap then 0x00008F00 else 0x00008E00)

/-- Whether a vector's descriptor lies inside the table (spec R466, R500 line 5). -/
def Idtr.holds (t : Idtr) (v : BitVec 8) : Bool := decide (v.toNat * 8 + 7 ≤ t.limit.toNat)

/-- The address of a vector's descriptor (spec R500 line 17). -/
def Idtr.gateAddress (t : Idtr) (v : BitVec 8) : Dword := t.address + BitVec.ofNat 32 (v.toNat * 8)

/-- Words pushed at descending addresses below `sp`; ESP itself does not move (spec R500 lines 42 to 58). -/
def pushWords (sp : Dword) : List Dword → State → Except Stop State × State
  | [], s => (.ok s, s)
  | v :: vs, s =>
    match writeMem .b32 (sp - 4) v s with
    | .ok t => pushWords (sp - 4) vs t
    | .error e => (.error e, s)

/-- Whether vector 24 is treated as the figures print it (spec R486). -/
def printed24 (p : Config.Platform) (v : BitVec 8) : Bool :=
  decide (v = 24) && decide (p.vector24 = .asPrinted)

/-- The words a frame holds, first pushed first, and the state after the free values it needs: EFLAGS, PM image, EIP, and
the extra words of the vector (spec R500 lines 42 to 56, R501, R502, R475, R484). Entry is from supervisor mode, so TempPM.U
is 0. -/
def frameWords (saved : EFlags) (ev : Event) (s : State) : List Dword × State :=
  let v := ev.vector
  if v = 8 ∧ ev.int = false then
    ([saved.image, pmImage s.plat false, s.freeDword, errCode s.plat ev.errVector ev.idt ev.ext], s.drawn)
  else
    let eip := if ev.int = true ∨ v = 1 then ev.nextEip else ev.curEip
    if v = 13 ∨ v = 8 ∨ v = 11 then
      ([saved.image, pmImage s.plat false, eip, errCode s.plat ev.errVector ev.idt ev.ext], s)
    else if v = 18 ∨ printed24 s.plat v then
      if ev.i then
        ([saved.image, pmImage s.plat false, eip, mcErrCode s.plat true false s.freeBit, ev.address], s.drawn)
      else ([saved.image, pmImage s.plat false, eip, mcErrCode s.plat false false ev.w, ev.address], s)
    else ([saved.image, pmImage s.plat false, eip], s)

/-- Reading a gate with two data reads (spec R500 line 18, R104). -/
def readGate (t : Idtr) (v : BitVec 8) (s : State) : Except Stop (Gate × State) := do
  let (d0, s) ← readMem .b32 (t.gateAddress v) s
  let (d1, s) ← readMem .b32 (t.gateAddress v + 4) s
  pure (⟨d0, d1⟩, s)

/-- A bus error inside entry abandons the delivery (spec R505); the model's own stops end the step. -/
def Delivery.ofStop (e : Stop) (s : State) : Delivery :=
  match e with
  | .raise _ => .failed .busError s
  | e => .halts e

/-- Lines 39 to 61 of R500: IF, the frame, ESP, EIP. -/
def enterGate (saved : EFlags) (ev : Event) (g : Gate) (s : State) : Delivery :=
  let s := if g.isInterrupt then s.setFlags { s.flags with intf := false } else s
  let (words, s) := frameWords saved ev s
  match pushWords (s.reg .esp) words s with
  | (.ok t, _) => .entered ((t.setReg .esp (t.reg .esp - BitVec.ofNat 32 (4 * words.length))).setEip g.address)
  | (.error e, t) => Delivery.ofStop e t

/-- Lines 3 and 4 of R500: supervisor mode, TF clear; a single-step trap that was due is dropped (R472, D25). -/
def beginEntry (s : State) : State :=
  ((s.setPmU false).setFlags { s.flags with tf := false }).setStepDue false

/-- One run of the entry algorithm up to its first failure (spec R500). -/
def deliver (saved : EFlags) (ev : Event) (s : State) : Delivery :=
  let s := beginEntry s
  if s.idtr.holds ev.vector then
    match readGate s.idtr ev.vector s with
    | .error e => Delivery.ofStop e s.pastDraws
    | .ok (g, s) =>
      if g.present = false then .failed .notPresent s
      else if g.isInterrupt = false ∧ g.isTrap = false then .failed .badType s
      else if g.reservedSet then .halts (.refuse .descriptorReservedBits)
      else enterGate saved ev g s
  else .failed .beyondLimit s

/-- The event that a failed delivery becomes; none is the Triple Fault (spec R500 lines 5 to 33, R504, R505). -/
def escalate (p : Config.Platform) (ev : Event) (f : Failure) : Option Event :=
  let v := ev.vector
  let doubleFault := { ev with vector := 8, errVector := 0, idt := false, ext := false, int := false }
  let nested (vector : BitVec 8) (idt : Bool) :=
    { ev with vector := vector, errVector := if idt then v else 0, idt := idt, int := false }
  if v = 8 then none
  else
    match f with
    | .beyondLimit => some (if v = 0 ∨ v = 13 ∨ v = 18 then doubleFault else nested 13 true)
    | .notPresent =>
      some (if v = 0 ∨ v = 11 ∨ v = 13 ∨ v = 18 ∨ printed24 p v then doubleFault else nested 11 true)
    | .badType =>
      some (if v = 0 ∨ v = 11 ∨ v = 13 ∨ v = 18 ∨ printed24 p v then doubleFault else nested 13 true)
    | .busError => some (if v = 0 ∨ v = 13 ∨ v = 18 then doubleFault else nested 13 false)

/-- The Triple Fault: the stopped state, CPU_ERR asserted (spec R512). -/
def tripleFault (s : State) : State := (s.setRun .stopped).setCpuErr true

/-- A delivery with its nested deliveries; the frame's EFLAGS is that of before the original event (spec R503). Every chain
ends within four deliveries (V, 11, 13, 8), so `fuel` = 4 never runs out. -/
def deliverAll (saved : EFlags) : Nat → Event → State → Result
  | 0, _, s => .next (tripleFault s)
  | fuel + 1, ev, s =>
    match deliver saved ev s with
    | .entered t => .next t
    | .failed f t =>
      match escalate t.plat ev f with
      | some ev' => deliverAll saved fuel ev' t
      | none => .next (tripleFault t)
    | .halts (.fault f) => .fault f
    | .halts (.refuse r) => .refused r
    | .halts (.raise _) => .next (tripleFault s)

/-- Taking an exception: Enter(...) of spec R500. Entry from user mode is in no source (R500, R6). -/
def enter (ev : Event) (s : State) : Result :=
  if s.pmU then .refused .userMode else deliverAll s.flags 4 ev (s.setRun .running)

/-! ### Returning from an exception -/

/-- Three dwords popped from the stack by IRET: EIP, PM image, EFLAGS image (spec R436). -/
def popFrame (s : State) : Except Stop ((Dword × Dword × Dword) × State) := do
  let sp := s.reg .esp
  let (eip, s) ← readMem .b32 sp s
  let (pm, s) ← readMem .b32 (sp + 4) s
  let (fl, s) ← readMem .b32 (sp + 8) s
  pure ((eip, pm, fl), s)

/-- Return from an exception (spec R436, D13, D32): the checks come before any change. -/
def returnFromException (s : State) : Except Stop State := do
  let ((eip, pm, fl), t) ← popFrame s
  if setsReserved fl then .error (.raise .generalProtection)
  else if pm ≠ 0 then .error (.refuse .iretUserImage)
  else pure ((((t.setReg .esp (s.reg .esp + 12)).setFlags (loadFlags s fl)).setPmU false).setEip eip)

/-! ### The end of an instruction -/

/-- How an instruction ends (spec R13, R472): it retires, and if TF was 1 when it started a single-step trap is due; or it
raises, and the exception is taken from the state of before it, except that the free values it drew are not drawn again. -/
def retire (s : State) (body : Except Stop State) : Result :=
  match body with
  | .ok t => .next (t.setStepDue s.flags.tf)
  | .error (.raise x) => enter (x.event s.eip) s.pastDraws
  | .error (.fault f) => .fault f
  | .error (.refuse r) => .refused r

/-- EIP <- NextEIP (spec R37). -/
def State.advance (s : State) : State := s.setEip s.nextEip

/-- An instruction that does not transfer control (spec R37). -/
def complete (s : State) (body : Except Stop State) : Result :=
  retire s (body.map State.advance)

end Sys2Proof.Machine
end

