-- ==== Sys2Proof/Machine/Flags.lean ====
section
/-! DEFINITION. Every flag computation of the spec: Carry, Zero, Sign, Overflow (R14), the logic rule (R240), the shifts and
rotates (R281 to R290), the products (R310, R318), and the flags left undefined (R15, R44). -/

namespace Sys2Proof.Machine

/-- Zero() (spec R14). -/
def isZero {n : Nat} (r : BitVec n) : Bool := decide (r = 0)

/-- A result and the four status flags. -/
structure AluResult (n : Nat) where
  value : BitVec n
  cf : Bool
  zf : Bool
  sf : Bool
  of : Bool
  deriving DecidableEq, Repr

/-- Addition with carry-in: the sum is taken unbounded, then narrowed (spec R14, R201, R202). -/
def addCarry (n : Nat) (a b : BitVec n) (c : Bool) : AluResult n :=
  let u := a.toNat + b.toNat + c.toNat
  let r := BitVec.ofNat n u
  { value := r, cf := decide (2 ^ n ≤ u), zf := isZero r, sf := r.msb,
    of := decide (a.msb = b.msb) && decide (r.msb ≠ a.msb) }

/-- Subtraction with borrow-in: the difference is taken unbounded, then narrowed (spec R14, R203, R204). -/
def subBorrow (n : Nat) (a b : BitVec n) (c : Bool) : AluResult n :=
  let u : Int := (a.toNat : Int) - b.toNat - c.toNat
  let r := BitVec.ofInt n u
  { value := r, cf := decide (u < 0), zf := isZero r, sf := r.msb,
    of := decide (a.msb ≠ b.msb) && decide (r.msb ≠ a.msb) }

/-- A logical result: CF and OF are 0 (spec R240). -/
def logicResult {n : Nat} (r : BitVec n) : AluResult n :=
  { value := r, cf := false, zf := isZero r, sf := r.msb, of := false }

/-- ADD: no carry-in (spec R201). -/
def addOp (n : Nat) (a b : BitVec n) (_ : Bool) : AluResult n := addCarry n a b false
/-- SUB and CMP: no borrow-in (spec R203, R205). -/
def subOp (n : Nat) (a b : BitVec n) (_ : Bool) : AluResult n := subBorrow n a b false
/-- AND and TEST (spec R241, R245). -/
def andOp (n : Nat) (a b : BitVec n) (_ : Bool) : AluResult n := logicResult (a &&& b)
/-- OR (spec R242). -/
def orOp (n : Nat) (a b : BitVec n) (_ : Bool) : AluResult n := logicResult (a ||| b)
/-- XOR (spec R243). -/
def xorOp (n : Nat) (a b : BitVec n) (_ : Bool) : AluResult n := logicResult (a ^^^ b)

/-- The flags with the four status flags of a result; TF and IF stay (spec R44). -/
def EFlags.withResult {n : Nat} (f : EFlags) (r : AluResult n) : EFlags :=
  { f with cf := r.cf, zf := r.zf, sf := r.sf, of := r.of }

/-- The flags with the status flags of a result but CF: INC and DEC (spec R206, R207). -/
def EFlags.withResultKeepCarry {n : Nat} (f : EFlags) (r : AluResult n) : EFlags :=
  { f with zf := r.zf, sf := r.sf, of := r.of }

/-! ### Shifts and rotates -/

/-- The eight shift and rotate instructions (SAL is SHL, spec R287). -/
inductive ShiftKind where
  | rol | ror | rcl | rcr | shl | shr | sar
  deriving DecidableEq, Repr

/-- A bit in position 0. -/
def lowBit (n : Nat) (b : Bool) : BitVec n := (BitVec.ofBool b).setWidth n

/-- A bit in the top position. -/
def topBit (n : Nat) (b : Bool) : BitVec n := lowBit n b <<< (n - 1)

/-- The one-bit step of each instruction on the operand and the carry (spec R282 to R289). -/
def shiftStep {n : Nat} (k : ShiftKind) (x : BitVec n) (cf : Bool) : BitVec n × Bool :=
  match k with
  | .rol => ((x <<< 1) ||| lowBit n x.msb, x.msb)
  | .ror => ((x >>> 1) ||| topBit n (x.getLsbD 0), x.getLsbD 0)
  | .rcl => ((x <<< 1) ||| lowBit n cf, x.msb)
  | .rcr => ((x >>> 1) ||| topBit n cf, x.getLsbD 0)
  | .shl => (x <<< 1, x.msb)
  | .shr => (x >>> 1, x.getLsbD 0)
  | .sar => ((x >>> 1) ||| topBit n x.msb, x.getLsbD 0)

/-- The step repeated (spec R281). -/
def shiftRepeat {n : Nat} (k : ShiftKind) : Nat → BitVec n → Bool → BitVec n × Bool
  | 0, x, cf => (x, cf)
  | c + 1, x, cf =>
    let (y, d) := shiftStep k x cf
    shiftRepeat k c y d

/-- OF after a one-bit shift or rotate: from the operand, the result and CF after it (spec R290). -/
def shiftOverflow {n : Nat} (k : ShiftKind) (x0 r : BitVec n) (cf : Bool) : Bool :=
  match k with
  | .rol => r.msb ^^ cf
  | .rcl => r.msb ^^ cf
  | .shl => r.msb ^^ cf
  | .ror => r.msb ^^ r.getLsbD (n - 2)
  | .rcr => r.msb ^^ r.getLsbD (n - 2)
  | .shr => x0.msb
  | .sar => false

/-- Whether an instruction sets SF and ZF: shifts do, rotates do not, PRESUMED (spec R290, D19; log entry 21). -/
def ShiftKind.isShift : ShiftKind → Bool
  | .rol => false | .ror => false | .rcl => false | .rcr => false
  | .shl => true | .shr => true | .sar => true

/-- The flags after a shift or rotate by `c` > 0 (spec R290): OF is UNDEF for `c` ≥ 2. -/
def shiftFlags {n : Nat} (k : ShiftKind) (c : Nat) (x0 r : BitVec n) (cf : Bool) (s : State) : EFlags :=
  let o := if c = 1 then shiftOverflow k x0 r cf else s.freeBit
  if k.isShift then { s.flags with cf := cf, zf := isZero r, sf := r.msb, of := o }
  else { s.flags with cf := cf, of := o }

/-- The state with the flags of a shift or rotate by `c` > 0, and the draw it took. -/
def shiftFinish {n : Nat} (k : ShiftKind) (c : Nat) (x0 r : BitVec n) (cf : Bool) (s : State) : State :=
  (if c = 1 then s else s.drawn).setFlags (shiftFlags k c x0 r cf s)

/-! ### Products -/

/-- The upper half of an unsigned product is not zero (spec R310). -/
def mulCarry (n p : Nat) : Bool := decide (p / 2 ^ n ≠ 0)

/-- The reading `literal` of ImulFlags: the upper half of the 2w-bit product is not zero (spec R318). -/
def imulLiteral (n : Nat) (p : Int) : Bool := decide ((BitVec.ofInt (2 * n) p).toNat / 2 ^ n ≠ 0)

/-- The reading `signed` of ImulFlags: the product does not fit in w bits as a signed number (spec R318). -/
def imulSigned (n : Nat) (p : Int) : Bool := decide ((BitVec.ofInt n p).toInt ≠ p)

/-- The flags after IMUL and the state after its draws: SF and ZF are UNDEF, CF and OF follow IMUL_FLAG_RULE (spec R311,
R318, D8). -/
def imulFlags (n : Nat) (p : Int) (s : State) : State :=
  let sf := s.freeBit
  let s1 := s.drawn
  let zf := s1.freeBit
  let s2 := s1.drawn
  match s.plat.imulFlags with
  | .literal => s2.setFlags { s.flags with cf := imulLiteral n p, of := imulLiteral n p, sf := sf, zf := zf }
  | .signed => s2.setFlags { s.flags with cf := imulSigned n p, of := imulSigned n p, sf := sf, zf := zf }
  | .undef =>
    if imulLiteral n p = imulSigned n p then
      s2.setFlags { s.flags with cf := imulSigned n p, of := imulSigned n p, sf := sf, zf := zf }
    else
      let cf := s2.freeBit
      let s3 := s2.drawn
      let o := s3.freeBit
      s3.drawn.setFlags { s.flags with cf := cf, of := o, sf := sf, zf := zf }

/-- The flags after MUL: SF and ZF are UNDEF (spec R310). -/
def mulFlags (c : Bool) (s : State) : State :=
  let sf := s.freeBit
  let s1 := s.drawn
  s1.drawn.setFlags { s.flags with cf := c, of := c, sf := sf, zf := s1.freeBit }

/-- The flags after a DIV or IDIV that completes: all four are UNDEF (spec R314, R315). -/
def divFlags (s : State) : State :=
  let cf := s.freeBit
  let s1 := s.drawn
  let zf := s1.freeBit
  let s2 := s1.drawn
  let sf := s2.freeBit
  let s3 := s2.drawn
  s3.drawn.setFlags { s.flags with cf := cf, zf := zf, sf := sf, of := s3.freeBit }

/-- The flags after a bit test: CF is the bit, SF and OF are UNDEF, ZF stays (spec R261). -/
def bitFlags (b : Bool) (s : State) : State :=
  let sf := s.freeBit
  let s1 := s.drawn
  s1.drawn.setFlags { s.flags with cf := b, sf := sf, of := s1.freeBit }

end Sys2Proof.Machine
end

