-- ==== Sys2Proof/Machine/Operands.lean ====
section
/-! DEFINITION. Operand access (spec R146, R147, R200) and relative targets (R144, R389). -/

namespace Sys2Proof.Machine

/-- The displacement as it is added: disp8 sign-extended, PRESUMED (spec R141; log entry 23). -/
def dispValue : Disp → Dword
  | .none => 0
  | .d8 v => v.signExtend 32
  | .d32 v => v

/-- How far an index is shifted (spec R138). -/
def scaleShift : Scale → Nat
  | .x1 => 0 | .x2 => 1 | .x4 => 2 | .x8 => 3

/-- The effective address of a memory operand (spec R146). -/
def effAddr (m : MemRef) (s : State) : Dword :=
  (match m.base with
   | some b => s.reg b
   | none => 0) +
  (match m.index with
   | some (i, k) => s.reg i <<< scaleShift k
   | none => 0) +
  dispValue m.disp

/-- Where an operand is: a register, or an address that has been computed once (spec R147). -/
inductive Place where
  | reg (r : Reg)
  | mem (a : Dword)
  deriving DecidableEq, Repr

/-- The place an r/m operand names (spec R147). -/
def place (o : RM) (s : State) : Place :=
  match o with
  | .reg r => .reg r
  | .mem m => .mem (effAddr m s)

/-- RMRead(w) at a place (spec R147). -/
def readPlace (w : Width) (p : Place) (s : State) : Except Stop (BitVec w.bits × State) :=
  match p with
  | .reg r => .ok (s.view w r, s)
  | .mem a => readMem w a s

/-- RMWrite(w, v) at a place (spec R147). -/
def writePlace (w : Width) (p : Place) (v : BitVec w.bits) (s : State) : Except Stop State :=
  match p with
  | .reg r => .ok (s.setView w r v)
  | .mem a => writeMem w a v s

/-- The width of an arithmetic or logic form (spec R200). -/
def aluWidth : AluOperands → Width
  | .rmR w _ _ => w
  | .rRm w _ _ => w
  | .accImm w _ => w
  | .rmImm w _ _ => w
  | .rmImm8 w _ _ => w

/-- The destination of an arithmetic or logic form (spec R200). -/
def aluDest (o : AluOperands) (s : State) : Place :=
  match o with
  | .rmR _ dst _ => place dst s
  | .rRm _ dst _ => .reg dst
  | .accImm _ _ => .reg .eax
  | .rmImm _ dst _ => place dst s
  | .rmImm8 _ dst _ => place dst s

/-- The source value of an arithmetic or logic form (spec R200, R143). -/
def aluSource (o : AluOperands) (s : State) : Except Stop (BitVec (aluWidth o).bits × State) :=
  match o with
  | .rmR w _ src => .ok (s.view w src, s)
  | .rRm w _ src => readPlace w (place src s) s
  | .accImm _ v => .ok (v, s)
  | .rmImm _ _ v => .ok (v, s)
  | .rmImm8 w _ v => .ok (v.signExtend w.bits, s)

/-- The width of an INC or DEC form (spec R206). -/
def incWidth : IncOperands → Width
  | .short w _ => w
  | .rm w _ => w

/-- The operand of an INC or DEC form (spec R206). -/
def incDest (o : IncOperands) (s : State) : Place :=
  match o with
  | .short _ r => .reg r
  | .rm _ dst => place dst s

/-- The width of a TEST form (spec R245). -/
def testWidth : TestOperands → Width
  | .rmR w _ _ => w
  | .accImm w _ => w
  | .rmImm w _ _ => w

/-- The first operand of a TEST form (spec R245). -/
def testFirst (o : TestOperands) (s : State) : Place :=
  match o with
  | .rmR _ a _ => place a s
  | .accImm _ _ => .reg .eax
  | .rmImm _ a _ => place a s

/-- The second operand of a TEST form (spec R245). -/
def testSecond (o : TestOperands) (s : State) : BitVec (testWidth o).bits :=
  match o with
  | .rmR w _ b => s.view w b
  | .accImm _ v => v
  | .rmImm _ _ v => v

/-- The width of a bit instruction (spec R261). -/
def bitWidth : BitOperands → Width
  | .rmR w _ _ => w
  | .rmImm w _ _ => w

/-- The bit base of a bit instruction (spec R261). -/
def bitBase (o : BitOperands) (s : State) : Place :=
  match o with
  | .rmR _ base _ => place base s
  | .rmImm _ base _ => place base s

/-- The bit index: the offset modulo the width (spec R261). -/
def bitIndex (o : BitOperands) (s : State) : Nat :=
  match o with
  | .rmR w _ off => (s.view w off).toNat % w.bits
  | .rmImm w _ off => off.toNat % w.bits

/-- The count of a shift or rotate: its five low bits (spec R280). -/
def shiftCount (c : ShiftCount) (s : State) : Nat :=
  match c with
  | .imm n => n.toNat % 32
  | .one => 1
  | .cl => (s.view .b8 .ecx).toNat % 32

/-- The width of a three-operand IMUL (spec R313). -/
def imulWidth : ImulImm → Width
  | .full w _ => w
  | .byte w _ => w

/-- The immediate of a three-operand IMUL (spec R313, R143). -/
def imulValue (i : ImulImm) : BitVec (imulWidth i).bits :=
  match i with
  | .full _ v => v
  | .byte w v => v.signExtend w.bits

/-- A relative offset as it is added (spec R144). -/
def relValue : Rel → Dword
  | .rel8 v => v.signExtend 32
  | .rel32 v => v

/-- The target of a relative transfer: NextEIP + rel modulo 2^32 (spec R144, R389). -/
def relTarget (rel : Rel) (s : State) : Dword := s.nextEip + relValue rel

end Sys2Proof.Machine
end

