-- ==== Sys2Proof/Machine/Arith.lean ====
section
/-! DEFINITION. ADD, ADC, SUB, SBB, CMP, INC, DEC, NEG (spec/40_arith.md). -/

namespace Sys2Proof.Machine

/-- The shape of ADD, ADC, SUB, SBB, CMP, AND, OR, XOR: read the destination, read the source, compute at the width, write
the result back unless the instruction only compares, set the four status flags (spec R200, R240). -/
def aluBody (f : (n : Nat) → BitVec n → BitVec n → Bool → AluResult n) (store : Bool) (o : AluOperands) (s : State) :
    Except Stop State := do
  let d := aluDest o s
  let (a, s1) ← readPlace (aluWidth o) d s
  let (b, s2) ← aluSource o s1
  let r := f (aluWidth o).bits a b s.flags.cf
  let s3 ← if store then writePlace (aluWidth o) d r.value s2 else pure s2
  pure (s3.setFlags (s.flags.withResult r))

/-- The shape of INC and DEC: CF stays (spec R206, R207). -/
def incBody (f : (n : Nat) → BitVec n → AluResult n) (o : IncOperands) (s : State) : Except Stop State := do
  let d := incDest o s
  let (a, s1) ← readPlace (incWidth o) d s
  let r := f (incWidth o).bits a
  let s2 ← writePlace (incWidth o) d r.value s1
  pure (s2.setFlags (s.flags.withResultKeepCarry r))

/-- The shape of NEG and NOT: one operand, a new value, and what it does to the flags (spec R208, R244). -/
def unaryBody (f : (n : Nat) → BitVec n → BitVec n) (fl : (n : Nat) → BitVec n → EFlags → EFlags) (w : Width) (dst : RM)
    (s : State) : Except Stop State := do
  let d := place dst s
  let (a, s1) ← readPlace w d s
  let s2 ← writePlace w d (f w.bits a) s1
  pure (s2.setFlags (fl w.bits a s.flags))

/-- a + 1 (spec R206). -/
def incOp (n : Nat) (a : BitVec n) : AluResult n := addCarry n a 1 false
/-- a - 1 (spec R207). -/
def decOp (n : Nat) (a : BitVec n) : AluResult n := subBorrow n a 1 false
/-- 0 - b; CF is 1 unless the result is 0 (spec R208). -/
def negOp (n : Nat) (b : BitVec n) : AluResult n := subBorrow n 0 b false

/-- ADD (spec R201). -/
def execAdd (o : AluOperands) (s : State) : Result := complete s (aluBody addOp true o s)
/-- ADC (spec R202). -/
def execAdc (o : AluOperands) (s : State) : Result := complete s (aluBody addCarry true o s)
/-- SUB (spec R203). -/
def execSub (o : AluOperands) (s : State) : Result := complete s (aluBody subOp true o s)
/-- SBB (spec R204). -/
def execSbb (o : AluOperands) (s : State) : Result := complete s (aluBody subBorrow true o s)
/-- CMP (spec R205): the result is not written. -/
def execCmp (o : AluOperands) (s : State) : Result := complete s (aluBody subOp false o s)
/-- INC (spec R206). -/
def execInc (o : IncOperands) (s : State) : Result := complete s (incBody incOp o s)
/-- DEC (spec R207). -/
def execDec (o : IncOperands) (s : State) : Result := complete s (incBody decOp o s)
/-- NEG (spec R208). -/
def execNeg (w : Width) (dst : RM) (s : State) : Result :=
  complete s (unaryBody (fun n b => (negOp n b).value) (fun n b f => f.withResult (negOp n b)) w dst s)

end Sys2Proof.Machine
end

