-- ==== Sys2Proof/Machine/Bit.lean ====
section
/-! DEFINITION. BSWAP, BT, BTC, BTR, BTS (spec/42_bit.md). -/

namespace Sys2Proof.Machine

/-- The bytes of a dword in the other order (spec R260). -/
def swapBytes (x : Dword) : Dword :=
  x.extractLsb' 0 8 ++ x.extractLsb' 8 8 ++ x.extractLsb' 16 8 ++ x.extractLsb' 24 8

/-- BSWAP (spec R260): with a 66h prefix all 32 bits of the register become UNDEF (D17). -/
def execBswap (p66 : Bool) (r : Reg) (s : State) : Result :=
  complete s (.ok (if p66 then s.drawn.setReg r s.freeDword else s.setReg r (swapBytes (s.reg r))))

/-- Bit i of a width. -/
def bitMask (n i : Nat) : BitVec n := 1#n <<< i

/-- The shape of BTC, BTR, BTS: CF takes the selected bit, the base is written back with that bit changed (spec R261). -/
def bitBody (f : (n : Nat) → BitVec n → Nat → BitVec n) (o : BitOperands) (s : State) : Except Stop State := do
  let d := bitBase o s
  let i := bitIndex o s
  let (b, s1) ← readPlace (bitWidth o) d s
  let s2 ← writePlace (bitWidth o) d (f (bitWidth o).bits b i) s1
  pure (bitFlags (b.getLsbD i) s2)

/-- BT only reads its base (spec R262). -/
def btBody (o : BitOperands) (s : State) : Except Stop State := do
  let (b, s1) ← readPlace (bitWidth o) (bitBase o s) s
  pure (bitFlags (b.getLsbD (bitIndex o s)) s1)

/-- BT (spec R262). -/
def execBt (o : BitOperands) (s : State) : Result := complete s (btBody o s)
/-- BTC (spec R263). -/
def execBtc (o : BitOperands) (s : State) : Result :=
  complete s (bitBody (fun n b i => b ^^^ bitMask n i) o s)
/-- BTR (spec R264). -/
def execBtr (o : BitOperands) (s : State) : Result :=
  complete s (bitBody (fun n b i => b &&& ~~~ bitMask n i) o s)
/-- BTS (spec R265). -/
def execBts (o : BitOperands) (s : State) : Result :=
  complete s (bitBody (fun n b i => b ||| bitMask n i) o s)

end Sys2Proof.Machine
end

