-- ==== Sys2Proof/Machine/Stack.lean ====
section
/-! DEFINITION. PUSH, POP, PUSHFD, POPFD (spec/46_stack.md), and the push of a dword that CALL shares. -/

namespace Sys2Proof.Machine

/-- Decrement, then write at the new ESP (spec R35, R370). -/
def pushValue (w : Width) (v : BitVec w.bits) (s : State) : Except Stop State := do
  let sp := s.reg .esp - BitVec.ofNat 32 w.bytes
  let t ← writeMem w sp v s
  pure (t.setReg .esp sp)

/-- PUSH: the source is read with the old ESP (spec R370). -/
def pushBody (o : PushOperand) (s : State) : Except Stop State :=
  match o with
  | .reg r => pushValue .b32 (s.reg r) s
  | .imm32 v => pushValue .b32 v s
  | .imm16 v => pushValue .b16 v s
  | .imm8 v => pushValue .b32 (v.signExtend 32) s
  | .rm w src => do
    let (v, t) ← readPlace w (place src s) s
    pushValue w v t

/-- The destination of POP r/m. With a memory operand addressed through ESP the spec fixes no ESP (R371, D22): the
parameter `popEspBase` answers. -/
def popDest (w : Width) (dst : RM) (s : State) : Except Stop Place :=
  match dst with
  | .reg r => .ok (.reg r)
  | .mem m =>
    if m.base = some .esp then
      match s.plat.popEspBase with
      | .refuse => .error (.refuse .popMemoryEsp)
      | .before => .ok (.mem (effAddr m s))
      | .after => .ok (.mem (effAddr m (s.setReg .esp (s.reg .esp + BitVec.ofNat 32 w.bytes))))
    else .ok (.mem (effAddr m s))

/-- POP: read, increment ESP, then write the destination, so that POP ESP leaves the popped value (spec R371). -/
def popBody (o : PopOperand) (s : State) : Except Stop State :=
  match o with
  | .reg r => do
    let (v, t) ← readMem .b32 (s.reg .esp) s
    pure ((t.setReg .esp (s.reg .esp + 4)).setReg r v)
  | .rm w dst => do
    let d ← popDest w dst s
    let (v, t) ← readMem w (s.reg .esp) s
    writePlace w d v (t.setReg .esp (s.reg .esp + BitVec.ofNat 32 w.bytes))

/-- POPFD: the reserved bits of the image are checked before anything changes (spec R373, D13). -/
def popfdBody (s : State) : Except Stop State := do
  let (v, t) ← readMem .b32 (s.reg .esp) s
  if setsReserved v then .error (.raise .generalProtection)
  else pure ((t.setReg .esp (s.reg .esp + 4)).setFlags (loadFlags s v))

/-- PUSH (spec R370). -/
def execPush (o : PushOperand) (s : State) : Result := complete s (pushBody o s)
/-- POP (spec R371). -/
def execPop (o : PopOperand) (s : State) : Result := complete s (popBody o s)
/-- PUSHFD (spec R372). -/
def execPushfd (s : State) : Result := complete s (pushValue .b32 s.flags.image s)
/-- POPFD (spec R373). -/
def execPopfd (s : State) : Result := complete s (popfdBody s)

end Sys2Proof.Machine
end

