-- ==== Sys2Proof/Machine/Control.lean ====
section
/-! DEFINITION. CALL, RET, JMP and the fourteen conditional jumps (spec/47_control.md). None changes a flag. -/

namespace Sys2Proof.Machine

/-- CALL rel32 (spec R390). -/
def execCallRel (cd : BitVec 32) (s : State) : Result :=
  retire s ((pushValue .b32 s.nextEip s).map (fun t => t.setEip (relTarget (.rel32 cd) s)))

/-- CALL r/m32: the target is read first, with the old ESP (spec R391, D24). -/
def callRmBody (src : RM) (s : State) : Except Stop State := do
  let (t, s1) ← readPlace .b32 (place src s) s
  let s2 ← pushValue .b32 s.nextEip s1
  pure (s2.setEip t)

/-- CALL r/m32 (spec R391). -/
def execCallRm (src : RM) (s : State) : Result := retire s (callRmBody src s)

/-- RET (spec R392). -/
def retBody (s : State) : Except Stop State := do
  let (t, s1) ← readMem .b32 (s.reg .esp) s
  pure ((s1.setReg .esp (s.reg .esp + 4)).setEip t)

/-- RET (spec R392). -/
def execRet (s : State) : Result := retire s (retBody s)

/-- JMP rel8 and rel32 (spec R393). -/
def execJmpRel (rel : Rel) (s : State) : Result := retire s (.ok (s.setEip (relTarget rel s)))

/-- JMP r/m32 (spec R394). -/
def jmpRmBody (src : RM) (s : State) : Except Stop State := do
  let (t, s1) ← readPlace .b32 (place src s) s
  pure (s1.setEip t)

/-- JMP r/m32 (spec R394). -/
def execJmpRm (src : RM) (s : State) : Result := retire s (jmpRmBody src s)

/-- A conditional jump: the target if the condition holds, NextEIP if not (spec R395). -/
def jumpIf (cond : Bool) (rel : Rel) (s : State) : Result :=
  retire s (.ok (s.setEip (if cond then relTarget rel s else s.nextEip)))

/-- JO (spec R396). -/
def execJo (rel : Rel) (s : State) : Result := jumpIf s.flags.of rel s
/-- JNO (spec R397). -/
def execJno (rel : Rel) (s : State) : Result := jumpIf (!s.flags.of) rel s
/-- JB (spec R398). -/
def execJb (rel : Rel) (s : State) : Result := jumpIf s.flags.cf rel s
/-- JAE (spec R399). -/
def execJae (rel : Rel) (s : State) : Result := jumpIf (!s.flags.cf) rel s
/-- JE (spec R400). -/
def execJe (rel : Rel) (s : State) : Result := jumpIf s.flags.zf rel s
/-- JNE (spec R401). -/
def execJne (rel : Rel) (s : State) : Result := jumpIf (!s.flags.zf) rel s
/-- JBE (spec R402). -/
def execJbe (rel : Rel) (s : State) : Result := jumpIf (s.flags.cf || s.flags.zf) rel s
/-- JA (spec R403). -/
def execJa (rel : Rel) (s : State) : Result := jumpIf (!s.flags.cf && !s.flags.zf) rel s
/-- JS (spec R404). -/
def execJs (rel : Rel) (s : State) : Result := jumpIf s.flags.sf rel s
/-- JNS (spec R405). -/
def execJns (rel : Rel) (s : State) : Result := jumpIf (!s.flags.sf) rel s
/-- JL (spec R406). -/
def execJl (rel : Rel) (s : State) : Result := jumpIf (s.flags.sf != s.flags.of) rel s
/-- JGE (spec R407). -/
def execJge (rel : Rel) (s : State) : Result := jumpIf (s.flags.sf == s.flags.of) rel s
/-- JLE (spec R408; the printed "and" is a misprint, C23). -/
def execJle (rel : Rel) (s : State) : Result := jumpIf (s.flags.zf || s.flags.sf != s.flags.of) rel s
/-- JG (spec R409). -/
def execJg (rel : Rel) (s : State) : Result := jumpIf (!s.flags.zf && s.flags.sf == s.flags.of) rel s

end Sys2Proof.Machine
end

