-- ==== Sys2Proof/Machine/Logic.lean ====
section
/-! DEFINITION. AND, OR, XOR, NOT, TEST (spec/41_logic.md). -/

namespace Sys2Proof.Machine

/-- AND (spec R241). -/
def execAnd (o : AluOperands) (s : State) : Result := complete s (aluBody andOp true o s)
/-- OR (spec R242). -/
def execOr (o : AluOperands) (s : State) : Result := complete s (aluBody orOp true o s)
/-- XOR (spec R243). -/
def execXor (o : AluOperands) (s : State) : Result := complete s (aluBody xorOp true o s)
/-- NOT: no flag changes (spec R244). -/
def execNot (w : Width) (dst : RM) (s : State) : Result :=
  complete s (unaryBody (fun _ a => ~~~ a) (fun _ _ f => f) w dst s)

/-- TEST: the AND of two values sets the flags and is discarded (spec R245). -/
def testBody (o : TestOperands) (s : State) : Except Stop State := do
  let (a, s1) ← readPlace (testWidth o) (testFirst o s) s
  pure (s1.setFlags (s.flags.withResult (andOp (testWidth o).bits a (testSecond o s) false)))

/-- TEST (spec R245). -/
def execTest (o : TestOperands) (s : State) : Result := complete s (testBody o s)

end Sys2Proof.Machine
end

