-- ==== Sys2Proof/Machine/Move.lean ====
section
/-! DEFINITION. MOV, MOVSX, MOVZX, LEA, CBW, CWDE, CWD, CDQ, NOP (spec/45_move.md). None changes a flag. -/

namespace Sys2Proof.Machine

/-- MOV (spec R340 to R344): at most one memory access. -/
def movBody (o : MovOperands) (s : State) : Except Stop State :=
  match o with
  | .rmR w dst src => writePlace w (place dst s) (s.view w src) s
  | .rRm w dst src => do
    let (v, t) ← readPlace w (place src s) s
    pure (t.setView w dst v)
  | .accMem w a => do
    let (v, t) ← readMem w a s
    pure (t.setView w .eax v)
  | .memAcc w a => writeMem w a (s.view w .eax) s
  | .regImm w dst v => .ok (s.setView w dst v)
  | .rmImm w dst v => writePlace w (place dst s) v s

/-- The shape of MOVSX and MOVZX (spec R345, R346). -/
def extBody (ext : {n : Nat} → (m : Nat) → BitVec n → BitVec m) (o : ExtOperands) (s : State) : Except Stop State :=
  match o with
  | .r16rm8 dst src => do
    let (v, t) ← readPlace .b8 (place src s) s
    pure (t.setView .b16 dst (ext 16 v))
  | .r32rm8 dst src => do
    let (v, t) ← readPlace .b8 (place src s) s
    pure (t.setView .b32 dst (ext 32 v))
  | .r32rm16 dst src => do
    let (v, t) ← readPlace .b16 (place src s) s
    pure (t.setView .b32 dst (ext 32 v))

/-- MOV (spec R344). -/
def execMov (o : MovOperands) (s : State) : Result := complete s (movBody o s)
/-- MOVSX (spec R345). -/
def execMovsx (o : ExtOperands) (s : State) : Result := complete s (extBody (fun m v => v.signExtend m) o s)
/-- MOVZX (spec R346). -/
def execMovzx (o : ExtOperands) (s : State) : Result := complete s (extBody (fun m v => v.setWidth m) o s)

/-- LEA: the low bits of the effective address; no memory access (spec R350). -/
def execLea (w : Width) (dst : Reg) (src : MemRef) (s : State) : Result :=
  complete s (.ok (s.setView w dst ((effAddr src s).setWidth w.bits)))

/-- CBW: AX <- sign-extended AL (spec R352). -/
def execCbw (s : State) : Result :=
  complete s (.ok (s.setView .b16 .eax (BitVec.signExtend 16 (s.view .b8 .eax))))
/-- CWDE: EAX <- sign-extended AX (spec R353). -/
def execCwde (s : State) : Result :=
  complete s (.ok (s.setReg .eax (BitVec.signExtend 32 (s.view .b16 .eax))))
/-- CWD: DX <- the sign of AX (spec R354). -/
def execCwd (s : State) : Result :=
  complete s (.ok (s.setView .b16 .edx (if BitVec.msb (s.view .b16 .eax) then 0xFFFF#16 else 0#16)))
/-- CDQ: EDX <- the sign of EAX (spec R355). -/
def execCdq (s : State) : Result :=
  complete s (.ok (s.setReg .edx (if (s.reg .eax).msb then 0xFFFFFFFF#32 else 0#32)))

/-- NOP, with or without the 66h prefix (spec R356). -/
def execNop (_p66 : Bool) (s : State) : Result := complete s (.ok s)

end Sys2Proof.Machine
end

