-- ==== Sys2Proof/Machine/MulDiv.lean ====
section
/-! DEFINITION. MUL, IMUL, DIV, IDIV (spec/44_muldiv.md). -/

namespace Sys2Proof.Machine

/-- The implied pair AX, DX:AX or EDX:EAX as a number (spec R310, R314). -/
def readPair (w : Width) (s : State) : Nat :=
  match w with
  | .b8 => (s.view .b16 .eax).toNat
  | .b16 => (s.view .b16 .edx).toNat * 2 ^ 16 + (s.view .b16 .eax).toNat
  | .b32 => (s.reg .edx).toNat * 2 ^ 32 + (s.reg .eax).toNat

/-- The implied pair AX, DX:AX or EDX:EAX written with a double-width value (spec R310). -/
def writePair (w : Width) (p : Nat) (s : State) : State :=
  match w with
  | .b8 => s.setView .b16 .eax (BitVec.ofNat 16 p)
  | .b16 => (s.setView .b16 .eax (BitVec.ofNat 16 p)).setView .b16 .edx (BitVec.ofNat 16 (p / 2 ^ 16))
  | .b32 => (s.setReg .eax (BitVec.ofNat 32 p)).setReg .edx (BitVec.ofNat 32 (p / 2 ^ 32))

/-- The register of the remainder and of the upper half: AH, DX, EDX (AH has encoding number 4, spec R32). -/
def highReg : Width → Reg
  | .b8 => .esp
  | .b16 => .edx
  | .b32 => .edx

/-- Quotient to AL, AX, EAX and remainder to AH, DX, EDX, PRESUMED (spec R314, D20; log entry 22). -/
def writeQuotRem (w : Width) (q r : BitVec w.bits) (s : State) : State :=
  (s.setView w .eax q).setView w (highReg w) r

/-- MUL (spec R310). -/
def mulBody (w : Width) (src : RM) (s : State) : Except Stop State := do
  let (b, s1) ← readPlace w (place src s) s
  let p := (s.view w .eax).toNat * b.toNat
  pure (mulFlags (mulCarry w.bits p) (writePair w p s1))

/-- IMUL with the implied operand (spec R311). -/
def imul1Body (w : Width) (src : RM) (s : State) : Except Stop State := do
  let (b, s1) ← readPlace w (place src s) s
  let p := (s.view w .eax).toInt * b.toInt
  pure (imulFlags w.bits p (writePair w (BitVec.ofInt (2 * w.bits) p).toNat s1))

/-- IMUL with two operands: the low half of the signed product, PRESUMED (spec R312, D21; log entry 22). -/
def imul2Body (w : Width) (dst : Reg) (src : RM) (s : State) : Except Stop State := do
  let (b, s1) ← readPlace w (place src s) s
  let p := (s.view w dst).toInt * b.toInt
  pure (imulFlags w.bits p (s1.setView w dst (BitVec.ofInt w.bits p)))

/-- IMUL with three operands, PRESUMED (spec R313, D21; log entry 22). -/
def imul3Body (dst : Reg) (src : RM) (imm : ImulImm) (s : State) : Except Stop State := do
  let (b, s1) ← readPlace (imulWidth imm) (place src s) s
  let p := b.toInt * (imulValue imm).toInt
  pure (imulFlags (imulWidth imm).bits p (s1.setView (imulWidth imm) dst (BitVec.ofInt (imulWidth imm).bits p)))

/-- DIV (spec R314): #DE for a zero divisor or a quotient that does not fit. -/
def divBody (w : Width) (src : RM) (s : State) : Except Stop State := do
  let (d, s1) ← readPlace w (place src s) s
  let n := readPair w s
  if d.toNat = 0 then .error (.raise .divideError)
  else if 2 ^ w.bits ≤ n / d.toNat then .error (.raise .divideError)
  else
    pure (divFlags (writeQuotRem w (BitVec.ofNat w.bits (n / d.toNat)) (BitVec.ofNat w.bits (n % d.toNat)) s1))

/-- The signed dividend AX, DX:AX or EDX:EAX (spec R315). -/
def signedPair (w : Width) (s : State) : Int := (BitVec.ofNat (2 * w.bits) (readPair w s)).toInt

/-- IDIV (spec R315): rounds toward zero, the remainder has the sign of the dividend. -/
def idivBody (w : Width) (src : RM) (s : State) : Except Stop State := do
  let (d, s1) ← readPlace w (place src s) s
  let n := signedPair w s
  let q := n.tdiv d.toInt
  if d.toInt = 0 then .error (.raise .divideError)
  else if q < -(2 ^ (w.bits - 1)) ∨ 2 ^ (w.bits - 1) ≤ q then .error (.raise .divideError)
  else pure (divFlags (writeQuotRem w (BitVec.ofInt w.bits q) (BitVec.ofInt w.bits (n.tmod d.toInt)) s1))

/-- MUL (spec R310). -/
def execMul (w : Width) (src : RM) (s : State) : Result := complete s (mulBody w src s)
/-- IMUL, one operand (spec R311). -/
def execImul1 (w : Width) (src : RM) (s : State) : Result := complete s (imul1Body w src s)
/-- IMUL, two operands (spec R312). -/
def execImul2 (w : Width) (dst : Reg) (src : RM) (s : State) : Result := complete s (imul2Body w dst src s)
/-- IMUL, three operands (spec R313). -/
def execImul3 (dst : Reg) (src : RM) (imm : ImulImm) (s : State) : Result := complete s (imul3Body dst src imm s)
/-- DIV (spec R314). -/
def execDiv (w : Width) (src : RM) (s : State) : Result := complete s (divBody w src s)
/-- IDIV (spec R315). -/
def execIdiv (w : Width) (src : RM) (s : State) : Result := complete s (idivBody w src s)

end Sys2Proof.Machine
end

