-- ==== Sys2Proof/Machine/Shift.lean ====
section
/-! DEFINITION. ROL, ROR, RCL, RCR, SHL (= SAL), SHR, SAR (spec/43_shift_rotate.md). -/

namespace Sys2Proof.Machine

/-- The shape of all eight (spec R281): the operand is read; with count 0 nothing is written (D18). -/
def shiftBody (k : ShiftKind) (w : Width) (dst : RM) (c : ShiftCount) (s : State) : Except Stop State := do
  let d := place dst s
  let n := shiftCount c s
  let (x, s1) ← readPlace w d s
  if n = 0 then pure s1
  else do
    let (y, cf) := shiftRepeat k n x s.flags.cf
    let s2 ← writePlace w d y s1
    pure (shiftFinish k n x y cf s2)

/-- ROL (spec R284). -/
def execRol (w : Width) (dst : RM) (c : ShiftCount) (s : State) : Result := complete s (shiftBody .rol w dst c s)
/-- ROR (spec R285). -/
def execRor (w : Width) (dst : RM) (c : ShiftCount) (s : State) : Result := complete s (shiftBody .ror w dst c s)
/-- RCL (spec R282). -/
def execRcl (w : Width) (dst : RM) (c : ShiftCount) (s : State) : Result := complete s (shiftBody .rcl w dst c s)
/-- RCR (spec R283). -/
def execRcr (w : Width) (dst : RM) (c : ShiftCount) (s : State) : Result := complete s (shiftBody .rcr w dst c s)
/-- SHL and SAL (spec R286, R287). -/
def execShl (w : Width) (dst : RM) (c : ShiftCount) (s : State) : Result := complete s (shiftBody .shl w dst c s)
/-- SHR (spec R288). -/
def execShr (w : Width) (dst : RM) (c : ShiftCount) (s : State) : Result := complete s (shiftBody .shr w dst c s)
/-- SAR (spec R289). -/
def execSar (w : Width) (dst : RM) (c : ShiftCount) (s : State) : Result := complete s (shiftBody .sar w dst c s)

end Sys2Proof.Machine
end

