-- ==== Sys2Proof/Machine/System.lean ====
section
/-! DEFINITION. CLC, STC, CMC, CLI, STI, HLT, INT, INT3, IRET, LIDT, SIDT, UD2 (spec/48_system.md). -/

namespace Sys2Proof.Machine

/-- CLC (spec R420). -/
def execClc (s : State) : Result := complete s (.ok (s.setFlags { s.flags with cf := false }))
/-- STC (spec R421). -/
def execStc (s : State) : Result := complete s (.ok (s.setFlags { s.flags with cf := true }))
/-- CMC (spec R422). -/
def execCmc (s : State) : Result := complete s (.ok (s.setFlags { s.flags with cf := !s.flags.cf }))

/-- IF <- v; a user-mode process does not change IF (spec R40, R423, R424). -/
def setIf (v : Bool) (s : State) : State :=
  if s.pmU then s else s.setFlags { s.flags with intf := v }

/-- CLI (spec R423). -/
def execCli (s : State) : Result := complete s (.ok (setIf false s))
/-- STI (spec R424). -/
def execSti (s : State) : Result := complete s (.ok (setIf true s))

/-- HLT: EIP moves past it, the core halts (spec R430). -/
def execHlt (s : State) : Result := complete s (.ok (s.setRun .halted))

/-- INT imm8: the entry algorithm with the INT input set (spec R432). -/
def execInt (n : BitVec 8) (s : State) : Result := enter (Event.software n s.eip s.nextEip) s
/-- INT3: the same with vector 3 (spec R433). -/
def execInt3 (s : State) : Result := enter (Event.software 3 s.eip s.nextEip) s

/-- IRET (spec R436). -/
def execIret (s : State) : Result := retire s (returnFromException s)

/-- LIDT: a 2-byte limit, then a 4-byte address (spec R440). -/
def lidtBody (src : MemRef) (s : State) : Except Stop State := do
  let a := effAddr src s
  let (lim, s1) ← readMem .b16 a s
  let (base, s2) ← readMem .b32 (a + 2) s1
  pure (s2.setIdtr ⟨base, lim⟩)

/-- SIDT: the limit first (spec R441). -/
def sidtBody (dst : MemRef) (s : State) : Except Stop State := do
  let a := effAddr dst s
  let s1 ← writeMem .b16 a s.idtr.limit s
  writeMem .b32 (a + 2) s.idtr.address s1

/-- LIDT (spec R440). -/
def execLidt (src : MemRef) (s : State) : Result := complete s (lidtBody src s)
/-- SIDT (spec R441). -/
def execSidt (dst : MemRef) (s : State) : Result := complete s (sidtBody dst s)

/-- UD2 (spec R445). -/
def execUd2 (s : State) : Result := retire s (.error (.raise .invalidOpcode))

end Sys2Proof.Machine
end

