-- ==== Sys2Proof/Machine/Dispatch.lean ====
section
/-! DEFINITION. Dispatch: one arm for each instruction, one call of its meaning. -/

namespace Sys2Proof.Machine

def exec (i : Instr) (s : State) : Host.Outcome State Fault Refusal :=
  match i with
  | .add o => Sys2Proof.Machine.execAdd o s
  | .adc o => Sys2Proof.Machine.execAdc o s
  | .sub o => Sys2Proof.Machine.execSub o s
  | .sbb o => Sys2Proof.Machine.execSbb o s
  | .cmp o => Sys2Proof.Machine.execCmp o s
  | .inc o => Sys2Proof.Machine.execInc o s
  | .dec o => Sys2Proof.Machine.execDec o s
  | .neg w dst => Sys2Proof.Machine.execNeg w dst s
  | .and o => Sys2Proof.Machine.execAnd o s
  | .or o => Sys2Proof.Machine.execOr o s
  | .xor o => Sys2Proof.Machine.execXor o s
  | .not w dst => Sys2Proof.Machine.execNot w dst s
  | .test o => Sys2Proof.Machine.execTest o s
  | .bswap p66 r => Sys2Proof.Machine.execBswap p66 r s
  | .bt o => Sys2Proof.Machine.execBt o s
  | .btc o => Sys2Proof.Machine.execBtc o s
  | .btr o => Sys2Proof.Machine.execBtr o s
  | .bts o => Sys2Proof.Machine.execBts o s
  | .rol w dst c => Sys2Proof.Machine.execRol w dst c s
  | .ror w dst c => Sys2Proof.Machine.execRor w dst c s
  | .rcl w dst c => Sys2Proof.Machine.execRcl w dst c s
  | .rcr w dst c => Sys2Proof.Machine.execRcr w dst c s
  | .shl w dst c => Sys2Proof.Machine.execShl w dst c s
  | .shr w dst c => Sys2Proof.Machine.execShr w dst c s
  | .sar w dst c => Sys2Proof.Machine.execSar w dst c s
  | .mul w src => Sys2Proof.Machine.execMul w src s
  | .imul1 w src => Sys2Proof.Machine.execImul1 w src s
  | .imul2 w dst src => Sys2Proof.Machine.execImul2 w dst src s
  | .imul3 dst src imm => Sys2Proof.Machine.execImul3 dst src imm s
  | .div w src => Sys2Proof.Machine.execDiv w src s
  | .idiv w src => Sys2Proof.Machine.execIdiv w src s
  | .mov o => Sys2Proof.Machine.execMov o s
  | .movsx o => Sys2Proof.Machine.execMovsx o s
  | .movzx o => Sys2Proof.Machine.execMovzx o s
  | .lea w dst src => Sys2Proof.Machine.execLea w dst src s
  | .cbw => Sys2Proof.Machine.execCbw s
  | .cwde => Sys2Proof.Machine.execCwde s
  | .cwd => Sys2Proof.Machine.execCwd s
  | .cdq => Sys2Proof.Machine.execCdq s
  | .nop p66 => Sys2Proof.Machine.execNop p66 s
  | .push o => Sys2Proof.Machine.execPush o s
  | .pop o => Sys2Proof.Machine.execPop o s
  | .pushfd => Sys2Proof.Machine.execPushfd s
  | .popfd => Sys2Proof.Machine.execPopfd s
  | .callRel cd => Sys2Proof.Machine.execCallRel cd s
  | .callRm src => Sys2Proof.Machine.execCallRm src s
  | .ret => Sys2Proof.Machine.execRet s
  | .jmpRel rel => Sys2Proof.Machine.execJmpRel rel s
  | .jmpRm src => Sys2Proof.Machine.execJmpRm src s
  | .jo rel => Sys2Proof.Machine.execJo rel s
  | .jno rel => Sys2Proof.Machine.execJno rel s
  | .jb rel => Sys2Proof.Machine.execJb rel s
  | .jae rel => Sys2Proof.Machine.execJae rel s
  | .je rel => Sys2Proof.Machine.execJe rel s
  | .jne rel => Sys2Proof.Machine.execJne rel s
  | .jbe rel => Sys2Proof.Machine.execJbe rel s
  | .ja rel => Sys2Proof.Machine.execJa rel s
  | .js rel => Sys2Proof.Machine.execJs rel s
  | .jns rel => Sys2Proof.Machine.execJns rel s
  | .jl rel => Sys2Proof.Machine.execJl rel s
  | .jge rel => Sys2Proof.Machine.execJge rel s
  | .jle rel => Sys2Proof.Machine.execJle rel s
  | .jg rel => Sys2Proof.Machine.execJg rel s
  | .clc => Sys2Proof.Machine.execClc s
  | .stc => Sys2Proof.Machine.execStc s
  | .cmc => Sys2Proof.Machine.execCmc s
  | .cli => Sys2Proof.Machine.execCli s
  | .sti => Sys2Proof.Machine.execSti s
  | .hlt => Sys2Proof.Machine.execHlt s
  | .int n => Sys2Proof.Machine.execInt n s
  | .int3 => Sys2Proof.Machine.execInt3 s
  | .iret => Sys2Proof.Machine.execIret s
  | .lidt src => Sys2Proof.Machine.execLidt src s
  | .sidt dst => Sys2Proof.Machine.execSidt dst s
  | .ud2 => Sys2Proof.Machine.execUd2 s

end Sys2Proof.Machine
end

