-- ==== Sys2Proof/Machine/Boundary.lean ====
section
/-! DEFINITION. What happens at an instruction boundary: the single-step trap, an interrupt, or fetch, decode and execute
(spec R472, R483, R490 to R492); the moves of the other agents (R18, R545, R554, R570, R571). -/

namespace Sys2Proof.Machine

/-- The bytes that can be fetched from an address upward, at most `n` of them, up to the first that meets a bus error or
the end of the address space (spec R38, R93, R483). Bytes on both sides of 80000000h are fetched like any others: D12 can be read
to refuse that, R38 and R103 do not, DESIGN CHOICE (log entry 39). -/
def fetchBytes (p : Config.Platform) (m : Memory) (a : Nat) : Nat → List Byte
  | 0 => []
  | n + 1 => if a < 2 ^ 32 ∧ busErr p .fetch a = false then readByte m a :: fetchBytes p m (a + 1) n else []

/-- The longest instruction (spec R130). -/
def maxLength : Nat := 12

/-- The bytes the decoder is given: those at EIP. -/
def instrBytes (s : State) : List Byte := fetchBytes s.plat s.mem s.eip.toNat maxLength

/-- The decoder's policies are the platform's (spec R133, R156). -/
def policy (s : State) : DecodePolicy := ⟨s.plat.lockPolicy, s.plat.prefix66⟩

/-- How a fetch or decode that gives no instruction ends: #MC at the first needed byte that cannot be fetched (spec R483),
#UD (R155), or a refusal (R38, R133, R156). -/
def decodeStop (s : State) : DecodeError → Stop
  | .truncated =>
    let a := s.eip.toNat + (instrBytes s).length
    if a < 2 ^ 32 then .raise (.machineCheck (BitVec.ofNat 32 a) true false) else .fault .beyondAddressSpace
  | .invalidOpcode => .raise .invalidOpcode
  | .repeatedPrefix => .raise .invalidOpcode
  | .prefixUd => .raise .invalidOpcode
  | .invalidOperandType => .raise .invalidOpcode
  | .lockRefused => .refuse .lockPrefix
  | .prefix66Refused => .refuse .prefix66Unlisted

/-- The instruction at EIP and its length (spec R151, R483). -/
def fetch (s : State) : Except Stop (Instr × Nat) :=
  match decode (policy s) (instrBytes s) with
  | .ok r => .ok r
  | .error e => .error (decodeStop s e)

/-- Item 3 of R492: fetch, decode and execute one instruction; NextEIP is EIP + L (R37). -/
def runInstr (s : State) : Result :=
  match fetch s with
  | .error e => retire s (.error e)
  | .ok (i, n) => exec i (s.setNextEip (s.eip + BitVec.ofNat 32 n))

/-- Whether the core may acknowledge an interrupt at this boundary (spec R536). -/
def interruptDue (s : State) : Bool := s.flags.intf && s.intc.lapic.intr

/-- Acknowledge and enter the interrupt (spec R492 item 2, R536). -/
def takeInterrupt (s : State) : Result :=
  let (v, c) := s.intc.acknowledge
  enter (Event.interrupt v s.eip) (s.setIntc c)

/-- The single-step trap: the slot holds EIP after the traced instruction (spec R472, R502). -/
def takeStepTrap (s : State) : Result := enter (Event.plain 1 s.eip s.eip) s

/-- One step of the core (spec R492); `recognise` is the choice of R536. A state with PM.U = 1 is refused (R6). -/
def coreStep (recognise : Bool) (s : State) : Result :=
  if s.pmU then .refused .userMode
  else
    match s.run with
    | .stopped => .next s
    | .halted =>
      if s.stepDue then takeStepTrap s
      else if recognise && interruptDue s then takeInterrupt s
      else .next s
    | .running =>
      if s.stepDue then takeStepTrap s
      else if recognise && interruptDue s then takeInterrupt s
      else runInstr s

/-- One tick of the timer (spec R545). -/
def tickTurn (s : State) : Result :=
  match s.intc.tick with
  | .ok c => .next (s.setIntc c)
  | .error r => .refused r

/-- Ticks one after the other. -/
def ticks : Nat → State → Result
  | 0, s => .next s
  | n + 1, s =>
    match tickTurn s with
    | .next t => ticks n t
    | .fault f => .fault f
    | .refused r => .refused r

/-- The reset event: every register at its reset value, memory kept (spec R570); the IRQ inputs are driven from outside and
keep their level (log entry 8). -/
def resetTurn (s : State) : State :=
  { State.reset with
    mem := s.mem, intc := { State.reset.intc with lines := s.intc.lines },
    draws := s.draws, agenda := s.agenda, plat := s.plat }

/-- The bytes of a power cycle that lie in SRAM or other Weakly Ordered storage: FLASH and the instruction memory keep their
content (log entry 33). -/
def ramCells (p : Config.Platform) (cells : List Host.Cell) : List Host.Cell :=
  cells.filter (fun c => (isSram p c.1 || decide (c.1 < 2 ^ 31)) && !isCode p c.1)

/-- A power cycle: a reset after which RAM holds whatever it holds (spec R571, D39). -/
def powerCycleTurn (cells : List Host.Cell) (s : State) : State :=
  (resetTurn s).setMem (storeCells s.mem (ramCells s.plat cells))

/-- The move of one agent (spec R18). -/
def takeTurn (t : Turn) (s : State) : Result :=
  match t with
  | .core recognise => coreStep recognise s
  | .tick => tickTurn s
  | .irq n active => .next (s.setIntc (s.intc.drive n active))
  | .reset => .next (resetTurn s)
  | .powerCycle cells => .next (powerCycleTurn cells s)

/-- A core step that recognises an interrupt at once, then the timer's ticks: the deterministic refinement of D5 and D38,
used when the host gives no schedule (log entries 5 and 6). -/
def freeRun (s : State) : Result :=
  match coreStep true s with
  | .next t => ticks t.plat.timerTick t
  | .fault f => .fault f
  | .refused r => .refused r

end Sys2Proof.Machine
end

