-- ==== Sys2Proof/Machine/Step.lean ====
section
/-! DEFINITION. One step of the machine: the next agent of the schedule moves; with no schedule the core runs freely. -/

namespace Sys2Proof.Machine

/-- One step (spec R18, R492). -/
def step (s : State) : Host.Outcome State Fault Refusal :=
  match s.agenda with
  | [] => freeRun s
  | t :: rest => takeTurn t (s.setAgenda rest)

/-- The state with an instruction's bytes at EIP, where the next step fetches; it stands for the programming of FLASH from
outside the machine (log entry 9). -/
def State.withFetchWord (s : State) (nbits w : Nat) : State :=
  s.setMem (storeBytes s.mem s.eip.toNat (tableBytes nbits w))

end Sys2Proof.Machine
end

