-- ==== Sys2Proof/Safety.lean ====
section
/-! DEFINITION. What counts as a safe state and a safe run, and what a frame says, in the terms the statements use. -/

namespace Sys2Proof.Machine

/-- The state a run has ended in: halted with interrupts off and no trap due (spec R19, R580, D11). -/
def State.ended (s : State) : Bool :=
  decide (s.run = .halted) && !s.flags.intf && !s.stepDue

/-- The abnormal end: the Triple-Fault stopped state (spec R512). -/
def State.crashed (s : State) : Bool := decide (s.run = .stopped)

/-- The invariants of the machine: the storage is canonical, the mode is supervisor, CPU_ERR is 1 exactly in Stopped, the
APIC has nothing left to do, and SIVR holds a vector software may select (spec R46, R49, R535, R536). -/
structure State.Inv (s : State) : Prop where
  memory : s.mem.wf = true
  supervisor : s.pmU = false
  cpuErr : s.cpuErr = true ↔ s.run = .stopped
  settled : s.intc.settle = s.intc
  spurious : 0x20 ≤ s.intc.lapic.sivr.toNat

/-- Every register at the value that reset gives it (spec R50, R570). -/
structure AfterReset (s : State) : Prop where
  regs : ∀ r, s.reg r = 0
  eip : s.eip = 0
  eflags : s.flags.image = 0x2
  pm : s.pmU = false
  esp0 : s.esp0 = 0
  idtr : s.idtr.address = 0 ∧ s.idtr.limit = 0
  core : s.run = .running ∧ s.cpuErr = false ∧ s.stepDue = false
  priority : s.intc.lapic.tpr = 0 ∧ s.intc.lapic.ppr = 0
  requests : s.intc.lapic.isr = 0 ∧ s.intc.lapic.irr = 0 ∧ s.intc.lapic.intr = false
  timer : s.intc.lapic.icr = 0 ∧ s.intc.lapic.ccr = 0 ∧ s.intc.lapic.lvt = ⟨false, true, 0⟩
  sivr : s.intc.lapic.sivr = 0xFF
  ioregsel : s.intc.ioapic.ioregsel = 0
  redirection : ∀ n, n < 16 → s.intc.ioapic.entryImage n = 0x00010000

/-- No byte of an access meets a bus error (spec R94). -/
def noBusErr (kind : Config.AccessKind) (w : Width) (a : Dword) (s : State) : Prop :=
  ∀ x, a.toNat ≤ x → x < a.toNat + w.bytes → x < 2 ^ 32 → busErr s.plat kind x = false

/-! ### Accesses that the spec has a model stop on -/

/-- The MOV that loads a register from a memory operand, or stores one to it. -/
def movAccess (store : Bool) (w : Width) (r : Reg) (m : MemRef) : Instr :=
  if store then .mov (.rmR w (.mem m) r) else .mov (.rRm w r (.mem m))

def movKind (store : Bool) : Config.AccessKind := if store then .write else .read

/-- Every byte of an access lies in the address space, and all of them on one side of 80000000h (spec R103). -/
def inOneHalf (w : Width) (a : Dword) : Prop :=
  a.toNat + w.bytes ≤ 2 ^ 32 ∧ (2 ^ 31 ≤ a.toNat ∨ a.toNat + w.bytes ≤ 2 ^ 31)

/-- Some byte of an access lies in a region. -/
def touches (region : Nat → Bool) (w : Width) (a : Dword) : Prop := ∃ k, k < w.bytes ∧ region (a.toNat + k) = true

/-- The registers of the local APIC and of the IOAPIC (spec R88, R92). -/
def isApic (p : Config.Platform) (a : Nat) : Bool := isLapic a || isIoapic p a

/-! ### Frames -/

/-- The general register that a register operand of a width is part of: AH to BH are part of EAX to EBX (spec R32). -/
def hostReg (w : Width) (r : Reg) : Reg :=
  match w with
  | .b8 => byteHost r
  | .b16 => r
  | .b32 => r

/-- Every register but `r` is unchanged. -/
def regsBut (r : Reg) (s t : State) : Prop := ∀ q, q ≠ r → t.reg q = s.reg q

/-- Every byte of memory is unchanged. -/
def sameBytes (s t : State) : Prop := ∀ x, readByte t.mem x = readByte s.mem x

/-- Every byte of memory but the `n` from address `a` upward is unchanged. -/
def bytesBut (a : Dword) (n : Nat) (s t : State) : Prop :=
  ∀ x, x < a.toNat ∨ a.toNat + n ≤ x → readByte t.mem x = readByte s.mem x

/-- What a write of an operand leaves alone: all registers but the destination and all memory, with the interrupt
controller; or all registers and every byte but those of the operand. -/
def placeFrame (w : Width) (p : Place) (s t : State) : Prop :=
  match p with
  | .reg r => regsBut (hostReg w r) s t ∧ sameBytes s t ∧ t.intc = s.intc
  | .mem a => t.regs = s.regs ∧ bytesBut a w.bytes s t

/-- The registers of the machine that no ordinary instruction writes: IDTR, PM, ESP0, CPU_ERR; and the model's own parameters
and schedule. -/
def sameSystem (s t : State) : Prop :=
  t.idtr = s.idtr ∧ t.pmU = s.pmU ∧ t.esp0 = s.esp0 ∧ t.cpuErr = s.cpuErr ∧ t.plat = s.plat ∧ t.agenda = s.agenda

/-- An instruction that completed with EIP at `e`: the core's run state is the one before, a single-step trap is due exactly
if TF was 1 when it started, and the special registers are unchanged (spec R37, R472). -/
def goesTo (e : Dword) (s t : State) : Prop :=
  t.eip = e ∧ t.run = s.run ∧ t.stepDue = s.flags.tf ∧ sameSystem s t

/-- An instruction that completed without transferring control: EIP is NextEIP (spec R37). -/
def completed (s t : State) : Prop := goesTo s.nextEip s t

/-- No general register, no byte of memory and nothing of the interrupt controller changed. -/
def sameData (s t : State) : Prop := t.regs = s.regs ∧ sameBytes s t ∧ t.intc = s.intc

/-- Only one general register changed. -/
def onlyReg (r : Reg) (s t : State) : Prop := regsBut r s t ∧ sameBytes s t ∧ t.intc = s.intc

/-- A place holds a value: the register view, or the bytes of a storage operand, the lowest address first (the storage being
in its canonical form before, which every step keeps). -/
def holdsAt (w : Width) (p : Place) (v : BitVec w.bits) (s t : State) : Prop :=
  match p with
  | .reg r => t.view w r = v
  | .mem a =>
    s.mem.wf = true → route s.plat .write w a = .ok .storage →
      BitVec.ofNat w.bits (loadLE t.mem a.toNat w.bytes) = v

/-- The state `t` has the data of `u`, the state in which place `p` was given the value `v`; seen from `s`, the place holds the
value and nothing else changed. -/
def wrote (w : Width) (p : Place) (v : BitVec w.bits) (u s t : State) : Prop :=
  t.regs = u.regs ∧ t.mem = u.mem ∧ t.intc = u.intc ∧ holdsAt w p v s t ∧ placeFrame w p s t

/-! ### The flag functions in the words of the spec -/

/-- The four status flags written from a result; TF and IF stay (spec R14, R44). -/
def statusFlags {n : Nat} (f : EFlags) (r : BitVec n) (cf o : Bool) : EFlags :=
  { f with cf := cf, zf := decide (r = 0), sf := r.msb, of := o }

/-- Carry() of an addition (spec R14). -/
def sumCarries (n : Nat) (a b : BitVec n) (c : Bool) : Bool := decide (2 ^ n ≤ a.toNat + b.toNat + c.toNat)

/-- Carry() of a subtraction, a borrow (spec R14). -/
def differenceBorrows (n : Nat) (a b : BitVec n) (c : Bool) : Bool := decide (a.toNat < b.toNat + c.toNat)

/-- Overflow() of an addition (spec R14). -/
def sumOverflows {n : Nat} (a b r : BitVec n) : Bool := decide (a.msb = b.msb ∧ r.msb ≠ a.msb)

/-- Overflow() of a subtraction (spec R14). -/
def differenceOverflows {n : Nat} (a b r : BitVec n) : Bool := decide (a.msb ≠ b.msb ∧ r.msb ≠ a.msb)

/-- A carry as a number of the width. -/
def carryIn (n : Nat) (c : Bool) : BitVec n := BitVec.ofNat n c.toNat

/-- What an instruction of the shape of R200 that stores its result does: with both operands readable and the destination
writable it completes, the destination holds `val`, and the status flags are written from it. -/
def StoresAlu (mk : AluOperands → Instr) (val : (n : Nat) → BitVec n → BitVec n → Bool → BitVec n)
    (cf : (n : Nat) → BitVec n → BitVec n → Bool → Bool) (o : {n : Nat} → BitVec n → BitVec n → BitVec n → Bool) : Prop :=
  ∀ (x : AluOperands) (s s1 s2 u : State) (a b : BitVec (aluWidth x).bits),
    readPlace (aluWidth x) (aluDest x s) s = .ok (a, s1) → aluSource x s1 = .ok (b, s2) →
    writePlace (aluWidth x) (aluDest x s) (val _ a b s.flags.cf) s2 = .ok u →
    ∃ t, exec (mk x) s = .next t ∧ completed s t ∧
      wrote (aluWidth x) (aluDest x s) (val _ a b s.flags.cf) u s t ∧
      t.flags = statusFlags s.flags (val _ a b s.flags.cf) (cf _ a b s.flags.cf) (o a b (val _ a b s.flags.cf))

/-- What an instruction that replaces its one operand does. -/
def StoresUnary (mk : Width → RM → Instr) (val : (n : Nat) → BitVec n → BitVec n)
    (fl : {n : Nat} → EFlags → BitVec n → EFlags) : Prop :=
  ∀ (w : Width) (dst : RM) (s s1 u : State) (a : BitVec w.bits),
    readPlace w (place dst s) s = .ok (a, s1) → writePlace w (place dst s) (val _ a) s1 = .ok u →
    ∃ t, exec (mk w dst) s = .next t ∧ completed s t ∧ wrote w (place dst s) (val _ a) u s t ∧ t.flags = fl s.flags a

/-- What INC or DEC does. -/
def StoresInc (mk : IncOperands → Instr) (val : (n : Nat) → BitVec n → BitVec n) (o : {n : Nat} → BitVec n → Bool) : Prop :=
  ∀ (x : IncOperands) (s s1 u : State) (a : BitVec (incWidth x).bits),
    readPlace (incWidth x) (incDest x s) s = .ok (a, s1) → writePlace (incWidth x) (incDest x s) (val _ a) s1 = .ok u →
    ∃ t, exec (mk x) s = .next t ∧ completed s t ∧ wrote (incWidth x) (incDest x s) (val _ a) u s t ∧
      t.flags = statusFlags s.flags (val _ a) s.flags.cf (o a)

/-- What BTC, BTR or BTS does: bit `i` of the base is changed to `bit`, CF takes the old one, SF and OF are free values, the
other flags stay (spec R261). -/
def StoresBit (mk : BitOperands → Instr) (bit : Bool → Bool) : Prop :=
  ∀ (x : BitOperands) (s s1 u : State) (b v : BitVec (bitWidth x).bits),
    readPlace (bitWidth x) (bitBase x s) s = .ok (b, s1) →
    (∀ k, k < (bitWidth x).bits →
      v.getLsbD k = if k = bitIndex x s then bit (b.getLsbD k) else b.getLsbD k) →
    writePlace (bitWidth x) (bitBase x s) v s1 = .ok u →
    ∃ t, exec (mk x) s = .next t ∧ completed s t ∧ wrote (bitWidth x) (bitBase x s) v u s t ∧
      t.flags.cf = b.getLsbD (bitIndex x s) ∧ t.flags.zf = s.flags.zf ∧ t.flags.tf = s.flags.tf ∧ t.flags.intf = s.flags.intf

/-- What a shift or rotate by a count n that is not 0 does: the destination holds `val n`, CF is `cf n`; SF and ZF follow the
result if it is a shift and stay if it is a rotate; OF is `o` for n = 1 and a free value for n ≥ 2 (spec R281, R290). -/
def StoresShift (mk : Width → RM → ShiftCount → Instr) (val : {w : Nat} → Nat → BitVec w → Bool → BitVec w)
    (cf : {w : Nat} → Nat → BitVec w → Bool → Bool) (isShift : Bool)
    (o : {w : Nat} → BitVec w → BitVec w → Bool → Bool) : Prop :=
  ∀ (w : Width) (dst : RM) (c : ShiftCount) (n : Nat) (s s1 u : State) (x : BitVec w.bits),
    n = shiftCount c s → n ≠ 0 → readPlace w (place dst s) s = .ok (x, s1) →
    writePlace w (place dst s) (val n x s.flags.cf) s1 = .ok u →
    ∃ t, exec (mk w dst c) s = .next t ∧ completed s t ∧ wrote w (place dst s) (val n x s.flags.cf) u s t ∧
      t.flags.cf = cf n x s.flags.cf ∧ t.flags.tf = s.flags.tf ∧ t.flags.intf = s.flags.intf ∧
      t.flags.zf = (if isShift then decide (val n x s.flags.cf = 0) else s.flags.zf) ∧
      t.flags.sf = (if isShift then (val n x s.flags.cf).msb else s.flags.sf) ∧
      (n = 1 → t.flags.of = o x (val n x s.flags.cf) (cf n x s.flags.cf))

/-- A product fits the width as a signed number. -/
def fitsSigned (w : Width) (p : Int) : Prop := -(2 ^ (w.bits - 1)) ≤ p ∧ p < 2 ^ (w.bits - 1)

/-- The upper half of the double-width product is 0. -/
def upperHalfZero (w : Width) (p : Int) : Prop := 0 ≤ p ∧ p < 2 ^ w.bits

/-- CF and OF after IMUL with the exact product p (spec R318): `literal`, the upper half is not 0; `signed`, p does not fit;
`undef`, the value on which both agree where they do. -/
structure ImulFlagged (w : Width) (p : Int) (s t : State) : Prop where
  literal : s.plat.imulFlags = .literal → (t.flags.cf = false ↔ upperHalfZero w p) ∧ t.flags.of = t.flags.cf
  signed : s.plat.imulFlags = .signed → (t.flags.cf = false ↔ fitsSigned w p) ∧ t.flags.of = t.flags.cf
  agreed : s.plat.imulFlags = .undef → (fitsSigned w p ↔ upperHalfZero w p) →
    (t.flags.cf = false ↔ fitsSigned w p) ∧ t.flags.of = t.flags.cf
  system : t.flags.tf = s.flags.tf ∧ t.flags.intf = s.flags.intf

/-- What a conditional jump does: it goes to NextEIP + rel if the condition holds, to NextEIP if not; no flag, register or
byte changes (spec R395). -/
def Jumps (mk : Rel → Instr) (cond : EFlags → Prop) : Prop :=
  ∀ (rel : Rel) (s : State), ∃ t, exec (mk rel) s = .next t ∧ t.flags = s.flags ∧ sameData s t ∧
    (cond s.flags → goesTo (s.nextEip + relValue rel) s t) ∧ (¬ cond s.flags → goesTo s.nextEip s t)

/-! ### The operands of MOV, MOVSX, MOVZX, PUSH and POP -/

def movWidth : MovOperands → Width
  | .rmR w _ _ => w
  | .rRm w _ _ => w
  | .accMem w _ => w
  | .memAcc w _ => w
  | .regImm w _ _ => w
  | .rmImm w _ _ => w

/-- The first operand of a MOV form (spec R340 to R343). -/
def movDest (o : MovOperands) (s : State) : Place :=
  match o with
  | .rmR _ dst _ => place dst s
  | .rRm _ dst _ => .reg dst
  | .accMem _ _ => .reg .eax
  | .memAcc _ a => .mem a
  | .regImm _ dst _ => .reg dst
  | .rmImm _ dst _ => place dst s

/-- The value of the second operand of a MOV form (spec R340 to R343). -/
def movSource (o : MovOperands) (s : State) : Except Stop (BitVec (movWidth o).bits × State) :=
  match o with
  | .rmR w _ src => .ok (s.view w src, s)
  | .rRm w _ src => readPlace w (place src s) s
  | .accMem w a => readMem w a s
  | .memAcc w _ => .ok (s.view w .eax, s)
  | .regImm _ _ v => .ok (v, s)
  | .rmImm _ _ v => .ok (v, s)

def extFrom : ExtOperands → Width
  | .r16rm8 _ _ => .b8
  | .r32rm8 _ _ => .b8
  | .r32rm16 _ _ => .b16

def extTo : ExtOperands → Width
  | .r16rm8 _ _ => .b16
  | .r32rm8 _ _ => .b32
  | .r32rm16 _ _ => .b32

def extDest : ExtOperands → Reg
  | .r16rm8 dst _ => dst
  | .r32rm8 dst _ => dst
  | .r32rm16 dst _ => dst

def extSource : ExtOperands → RM
  | .r16rm8 _ src => src
  | .r32rm8 _ src => src
  | .r32rm16 _ src => src

def pushWidth : PushOperand → Width
  | .reg _ => .b32
  | .imm32 _ => .b32
  | .imm16 _ => .b16
  | .imm8 _ => .b32
  | .rm w _ => w

/-- The value a PUSH form pushes, read with the old ESP (spec R370). -/
def pushSource (o : PushOperand) (s : State) : Except Stop (BitVec (pushWidth o).bits × State) :=
  match o with
  | .reg r => .ok (s.reg r, s)
  | .imm32 v => .ok (v, s)
  | .imm16 v => .ok (v, s)
  | .imm8 v => .ok (v.signExtend 32, s)
  | .rm w src => readPlace w (place src s) s

/-- Where a push of a width stores: the new ESP (spec R35, R370). -/
def pushAddress (w : Width) (s : State) : Dword := s.reg .esp - BitVec.ofNat 32 w.bytes

/-- What a push of `v` leaves; `u` is the state in which the bytes have been written (spec R35). -/
def pushed (w : Width) (v : BitVec w.bits) (u s t : State) : Prop :=
  t.reg .esp = pushAddress w s ∧ regsBut .esp s t ∧ t.flags = s.flags ∧ t.mem = u.mem ∧ t.intc = u.intc ∧
    bytesBut (pushAddress w s) w.bytes s t ∧ holdsAt w (.mem (pushAddress w s)) v s t

def popWidth : PopOperand → Width
  | .reg _ => .b32
  | .rm w _ => w

/-- The destination of a POP form (spec R371). -/
def popPlace (o : PopOperand) (s : State) : Except Stop Place :=
  match o with
  | .reg r => .ok (.reg r)
  | .rm w dst => popDest w dst s

/-- The state with ESP moved up past an item of a width (spec R35). -/
def espPast (w : Width) (s : State) : State := s.setReg .esp (s.reg .esp + BitVec.ofNat 32 w.bytes)

/-! ### Taking an exception -/

/-- The dword that storage holds at an address. -/
def dwordAt (m : Memory) (a : Dword) : Dword := BitVec.ofNat 32 (loadLE m a.toNat 4)

/-- The number of words of a vector's frame (spec R501). -/
def frameLength (p : Config.Platform) (v : BitVec 8) : Nat :=
  if v = 8 ∨ v = 11 ∨ v = 13 then 4
  else if v = 18 ∨ (v = 24 ∧ p.vector24 = .asPrinted) then 5
  else 3

/-- The address of the frame's k-th word from the top, ESP being that of before the event (spec R500 lines 42 to 56). -/
def frameSlot (s : State) (k : Nat) : Dword := s.reg .esp - BitVec.ofNat 32 (4 * (k + 1))

/-- The gate of a vector lies inside the table and in storage that can be read, and is `g`. -/
def GateIs (v : BitVec 8) (g : Gate) (s : State) : Prop :=
  v.toNat * 8 + 7 ≤ s.idtr.limit.toNat ∧
  route s.plat .read .b32 (s.idtr.address + BitVec.ofNat 32 (v.toNat * 8)) = .ok .storage ∧
  route s.plat .read .b32 (s.idtr.address + BitVec.ofNat 32 (v.toNat * 8) + 4) = .ok .storage ∧
  dwordAt s.mem (s.idtr.address + BitVec.ofNat 32 (v.toNat * 8)) = g.d0 ∧
  dwordAt s.mem (s.idtr.address + BitVec.ofNat 32 (v.toNat * 8) + 4) = g.d1

/-- A vector can be delivered: canonical storage, supervisor mode, a present interrupt or trap gate with no reserved bit
set, and storage for its frame below ESP (spec R468, R500). -/
structure Opens (v : BitVec 8) (g : Gate) (s : State) : Prop where
  memory : s.mem.wf = true
  supervisor : s.pmU = false
  gate : GateIs v g s
  present : g.d1.getLsbD 15 = true
  kind : g.d1.extractLsb' 8 5 = 0b01110 ∨ g.d1.extractLsb' 8 5 = 0b01111
  reserved : g.d0 &&& 0xFFFF0000 = 0 ∧ g.d1 &&& 0x000060FF = 0
  stack : ∀ k, k < frameLength s.plat v → route s.plat .write .b32 (frameSlot s k) = .ok .storage

/-- What the entry algorithm leaves when an event goes through a gate (spec R500, R501): the handler's address in EIP; the frame
of EFLAGS, PM image, EIP and the extra words of the vector; ESP below it; TF clear, IF clear for an interrupt gate; the core
running; nothing else changed. The EIP word of a #DF and the W bit of an instruction-fetch #MC are free values. Which gate kind
clears IF is PRESUMED (log entry 24); the error codes are the platform's (log entry 13), the one of vector 11 is D31 (log entry
25), the frames of INT n to 8, 11, 13, 18 and 24 are D27 and D9 (log entry 20). -/
structure Entered (ev : Event) (g : Gate) (s t : State) : Prop where
  eip : t.eip = g.d1.extractLsb' 16 16 ++ g.d0.extractLsb' 0 16
  esp : t.reg .esp = s.reg .esp - BitVec.ofNat 32 (4 * frameLength s.plat ev.vector)
  regs : regsBut .esp s t
  flags : t.flags = { s.flags with tf := false, intf := s.flags.intf && decide (g.d1.extractLsb' 8 5 ≠ 0b01110) }
  run : t.run = .running ∧ t.stepDue = false
  system : sameSystem s t ∧ t.intc = s.intc
  eflagsWord : dwordAt t.mem (frameSlot s 0) = s.flags.image
  pmWord : dwordAt t.mem (frameSlot s 1) = 0
  eipWord : ev.vector ≠ 8 ∨ ev.int = true →
    dwordAt t.mem (frameSlot s 2) = if ev.int = true ∨ ev.vector = 1 then ev.nextEip else ev.curEip
  errorWord : ev.vector = 8 ∨ ev.vector = 11 ∨ ev.vector = 13 →
    dwordAt t.mem (frameSlot s 3) = errCode s.plat ev.errVector ev.idt ev.ext
  mcWord : frameLength s.plat ev.vector = 5 →
    (ev.i = false → dwordAt t.mem (frameSlot s 3) = mcErrCode s.plat false false ev.w) ∧
    (ev.i = true → ∃ w, dwordAt t.mem (frameSlot s 3) = mcErrCode s.plat true false w) ∧
    dwordAt t.mem (frameSlot s 4) = ev.address
  memory : ∀ x, (∀ k, k < frameLength s.plat ev.vector →
      x < (frameSlot s k).toNat ∨ (frameSlot s k).toNat + 4 ≤ x) → readByte t.mem x = readByte s.mem x

/-- A vector's descriptor is a present interrupt or trap gate with no reserved bit set (spec R468). -/
structure Usable (v : BitVec 8) (g : Gate) (s : State) : Prop where
  gate : GateIs v g s
  present : g.d1.getLsbD 15 = true
  kind : g.d1.extractLsb' 8 5 = 0b01110 ∨ g.d1.extractLsb' 8 5 = 0b01111
  reserved : g.d0 &&& 0xFFFF0000 = 0 ∧ g.d1 &&& 0x000060FF = 0

/-- The three failures of a delivery that the spec's table R504 lists, and a bus error on a read of the descriptor (R505). -/
inductive DeliveryFails (v : BitVec 8) (s : State) : Failure → Prop where
  | outside : s.idtr.limit.toNat < v.toNat * 8 + 7 → DeliveryFails v s .beyondLimit
  | absent (g : Gate) : GateIs v g s → g.d1.getLsbD 15 = false → DeliveryFails v s .notPresent
  | wrongType (g : Gate) : GateIs v g s → g.d1.getLsbD 15 = true → g.d1.extractLsb' 8 5 ≠ 0b01110 →
      g.d1.extractLsb' 8 5 ≠ 0b01111 → DeliveryFails v s .badType
  | unreadable (x : Exn) : v.toNat * 8 + 7 ≤ s.idtr.limit.toNat →
      (route s.plat .read .b32 (s.idtr.address + BitVec.ofNat 32 (v.toNat * 8)) = .error (.raise x) ∨
        (route s.plat .read .b32 (s.idtr.address + BitVec.ofNat 32 (v.toNat * 8)) = .ok .storage ∧
          route s.plat .read .b32 (s.idtr.address + BitVec.ofNat 32 (v.toNat * 8) + 4) = .error (.raise x))) →
      DeliveryFails v s .busError

/-- The Triple Fault: the stopped state with CPU_ERR asserted; registers, memory and the status flags are kept, TF is clear
(spec R512). -/
structure TripleFaulted (s t : State) : Prop where
  run : t.run = .stopped
  cpuErr : t.cpuErr = true
  regs : t.regs = s.regs
  eip : t.eip = s.eip
  flags : t.flags = { s.flags with tf := false }
  mem : t.mem = s.mem
  intc : t.intc = s.intc
  idtr : t.idtr = s.idtr

/-- The one-byte opcodes that the opcode map lists no line for (spec R152, R155 a). -/
def unlistedOpcodes : List Byte :=
  [0x06, 0x07, 0x0E, 0x16, 0x17, 0x1E, 0x1F, 0x26, 0x27, 0x2E, 0x2F, 0x36, 0x37, 0x3E, 0x3F, 0x60, 0x61,
    0x62, 0x63, 0x64, 0x65, 0x67, 0x6C, 0x6D, 0x6E, 0x6F, 0x7A, 0x7B, 0x82, 0x86, 0x87, 0x8C, 0x8E, 0x91,
    0x92, 0x93, 0x94, 0x95, 0x96, 0x97, 0x9A, 0x9B, 0x9E, 0x9F, 0xA4, 0xA5, 0xA6, 0xA7, 0xAA, 0xAB, 0xAC,
    0xAD, 0xAE, 0xAF, 0xC2, 0xC4, 0xC5, 0xC8, 0xC9, 0xCA, 0xCB, 0xCE, 0xD4, 0xD5, 0xD6, 0xD7, 0xD8, 0xD9,
    0xDA, 0xDB, 0xDC, 0xDD, 0xDE, 0xDF, 0xE0, 0xE1, 0xE2, 0xE3, 0xE4, 0xE5, 0xE6, 0xE7, 0xEA, 0xEC, 0xED,
    0xEE, 0xEF, 0xF1, 0xF2, 0xF3, 0xFC, 0xFD]

/-- The second opcode bytes that the two-byte map lists (spec R153). -/
def listedSeconds : List Byte :=
  [0x01, 0x0B, 0x80, 0x81, 0x82, 0x83, 0x84, 0x85, 0x86, 0x87, 0x88, 0x89, 0x8C, 0x8D, 0x8E, 0x8F, 0xA3, 0xAB, 0xAF, 0xB3,
    0xB6, 0xB7, 0xBA, 0xBB, 0xBE, 0xBF, 0xC8, 0xC9, 0xCA, 0xCB, 0xCC, 0xCD, 0xCE, 0xCF]

/-- The reg field of a ModR/M byte: the digit of a group (spec R136, R154). -/
def digitOf (m : Byte) : BitVec 3 := m.extractLsb' 3 3

/-- The digits that the group table marks "-" (spec R154, R155 c). -/
def unlistedDigits : List (List Byte × List (BitVec 3)) :=
  [([0x8F], [1, 2, 3, 4, 5, 6, 7]), ([0xC6], [1, 2, 3, 4, 5, 6, 7]), ([0xC7], [1, 2, 3, 4, 5, 6, 7]), ([0xC0], [6]),
    ([0xC1], [6]), ([0xD0], [6]), ([0xD1], [6]), ([0xD2], [6]), ([0xD3], [6]), ([0xF6], [1]), ([0xF7], [1]),
    ([0xFE], [2, 3, 4, 5, 6, 7]), ([0xFF], [3, 5, 7]), ([0x0F, 0x01], [0, 2, 4, 5, 6, 7]), ([0x0F, 0xBA], [0, 1, 2, 3])]

/-- The opcodes of the forms that list no 66h variant and are no group member (spec R156, R152, R153). -/
def no66Opcodes : List (List Byte) :=
  ([0x00, 0x02, 0x04, 0x08, 0x0A, 0x0C, 0x10, 0x12, 0x14, 0x18, 0x1A, 0x1C, 0x20, 0x22, 0x24, 0x28, 0x2A, 0x2C, 0x30, 0x32,
    0x34, 0x38, 0x3A, 0x3C, 0x44, 0x4C, 0x50, 0x51, 0x52, 0x53, 0x54, 0x55, 0x56, 0x57, 0x58, 0x59, 0x5A, 0x5B, 0x5C, 0x5D,
    0x5E, 0x5F, 0x6A, 0x70, 0x71, 0x72, 0x73, 0x74, 0x75, 0x76, 0x77, 0x78, 0x79, 0x7C, 0x7D, 0x7E, 0x7F, 0x84, 0x88, 0x8A,
    0x9C, 0x9D, 0xA0, 0xA2, 0xA8, 0xB0, 0xB1, 0xB2, 0xB3, 0xB4, 0xB5, 0xB6, 0xB7, 0xBC, 0xC3, 0xCC, 0xCD, 0xCF, 0xE8, 0xE9,
    0xEB, 0xF4, 0xF5, 0xF8, 0xF9, 0xFA, 0xFB] : List Byte).map (fun o => [o]) ++
  ([0x0B, 0x80, 0x81, 0x82, 0x83, 0x84, 0x85, 0x86, 0x87, 0x88, 0x89, 0x8C, 0x8D, 0x8E, 0x8F, 0xB7, 0xBF] : List Byte).map
    (fun o => [0x0F, o])

/-- The group members that list no 66h variant (spec R154, R156); those of 0F 01 are #UD (R157). -/
def no66Digits : List (Byte × List (BitVec 3)) :=
  [(0x80, [0, 1, 2, 3, 4, 5, 6, 7]), (0xC0, [0, 1, 2, 3, 4, 5, 7]), (0xD0, [0, 1, 2, 3, 4, 5, 7]),
    (0xD2, [0, 1, 2, 3, 4, 5, 7]), (0xC6, [0]), (0xF6, [0, 2, 3, 4, 5, 6, 7]), (0xFE, [0, 1]), (0xFF, [2, 4])]

end Sys2Proof.Machine
end

