-- ==== Sys2Proof/Certificates/Slice0/Obligations.lean ====
section
/-! DEFINITION. The statements for the provers. -/

open Sys2Proof Sys2Proof.Machine

/-! ### Encoding -/

/-- Decoding the bytes of a well-formed instruction gives it back, whatever follows them and whatever the prefix
policies. The encoder is the model's own (log entry 34 says which of two equal spellings it writes). -/
def Obligations.DecodeInvertsEncode : Prop :=
  ∀ (pol : DecodePolicy) (i : Instr) (tail : List Byte), i.wf = true →
    decode pol (encode i ++ tail) = .ok (i, (encode i).length)

/-- What the decoder answers is a well-formed instruction of 1 to 12 bytes, all of them in the list (R130,
R149; the length rule is the spec's inference). -/
def Obligations.DecodedInstructionIsWellFormed : Prop :=
  ∀ (pol : DecodePolicy) (bs : List Byte) (i : Instr) (n : Nat), decode pol bs = .ok (i, n) →
    i.wf = true ∧ 1 ≤ n ∧ n ≤ 12 ∧ n ≤ bs.length

/-- The bytes of a well-formed instruction in instruction memory at EIP are what the core fetches there; that the core
looks at no more than 12 bytes, and that it fetches across 80000000h, is the model's choice (log entries 35 and 39). -/
def Obligations.EncodedInstructionIsFetched : Prop :=
  ∀ (s : State) (i : Instr), i.wf = true →
    (∀ k (h : k < (encode i).length),
      s.eip.toNat + k < 2 ^ 32 ∧ busErr s.plat .fetch (s.eip.toNat + k) = false ∧
      readByte s.mem (s.eip.toNat + k) = (encode i)[k]) →
    fetch s = .ok (i, (encode i).length)

/-- Words written out from the opcode maps decode to the instructions they stand for (R152 to R154). -/
def Obligations.SampleWordsDecode : Prop :=
  decode .default [0x04, 0x01] = .ok (.add (.accImm .b8 0x01), 2) ∧
  decode .default [0x66, 0x83, 0xE8, 0x07] = .ok (.sub (.rmImm8 .b16 (.reg .eax) 0x07), 4) ∧
  decode .default [0x8B, 0x4C, 0xB3, 0xF0] =
    .ok (.mov (.rRm .b32 .ecx (.mem ⟨some .ebx, some (.esi, .x4), .d8 0xF0⟩)), 4) ∧
  decode .default [0xC1, 0xF8, 0x02] = .ok (.sar .b32 (.reg .eax) (.imm 0x02), 3) ∧
  decode .default [0x0F, 0xBA, 0xFB, 0x00] = .ok (.btc (.rmImm .b32 (.reg .ebx) 0x00), 4) ∧
  decode .default [0xF6, 0xF3] = .ok (.div .b8 (.reg .ebx), 2) ∧
  decode .default [0xFF, 0x54, 0x24, 0x08] = .ok (.callRm (.mem ⟨some .esp, none, .d8 0x08⟩), 4) ∧
  decode .default [0x0F, 0x84, 0x78, 0x56, 0x34, 0x12] = .ok (.je (.rel32 0x12345678), 6) ∧
  decode .default [0x0F, 0x01, 0x1D, 0x00, 0x01, 0x00, 0x20] = .ok (.lidt ⟨none, none, .d32 0x20000100⟩, 7)

/-- What no opcode line lists is invalid, with or without a 66h prefix and whatever follows: the one-byte opcodes of R155 (a), the
two-byte opcodes of (b), the digits of (c), a second 66h or F0h prefix (d, R131), and the operand types of R157. That an unlisted
encoding is invalid is the spec's decision D16, either order of the two prefixes is D15; SIDT of a register is its inference. -/
def Obligations.UnlistedEncodingsAreInvalid : Prop :=
  ∀ (pol : DecodePolicy) (bs : List Byte),
    (∀ pre : List Byte, pre ∈ [[], [0x66]] →
      (∀ b : Byte, b ∈ unlistedOpcodes → decode pol (pre ++ b :: bs) = .error .invalidOpcode) ∧
      (∀ b : Byte, b ∉ listedSeconds → decode pol (pre ++ 0x0F :: b :: bs) = .error .invalidOpcode) ∧
      (∀ op digits m, (op, digits) ∈ unlistedDigits → digitOf m ∈ digits →
        decode pol (pre ++ op ++ m :: bs) = .error .invalidOpcode) ∧
      (∀ m : Byte, m.extractLsb' 6 2 = 3 → decode pol (pre ++ 0x8D :: m :: bs) = .error .invalidOperandType)) ∧
    (∀ m : Byte, digitOf m = 1 ∨ digitOf m = 3 →
      (m.extractLsb' 6 2 = 3 → decode pol (0x0F :: 0x01 :: m :: bs) = .error .invalidOperandType) ∧
      decode pol (0x66 :: 0x0F :: 0x01 :: m :: bs) = .error .prefixUd) ∧
    decode pol (0x66 :: 0x66 :: bs) = .error .repeatedPrefix ∧ decode pol (0xF0 :: 0xF0 :: bs) = .error .repeatedPrefix ∧
    decode pol (0x66 :: 0xF0 :: 0x66 :: bs) = .error .repeatedPrefix ∧
    decode pol (0x66 :: 0xF0 :: 0xF0 :: bs) = .error .repeatedPrefix ∧
    decode pol (0xF0 :: 0x66 :: 0xF0 :: bs) = .error .repeatedPrefix ∧
    decode pol (0xF0 :: 0x66 :: 0x66 :: bs) = .error .repeatedPrefix

/-! ### The step of the core -/

/-- A step of a running core with no trap and no interrupt due, whose bytes at EIP decode to an instruction, is exec of that
instruction with NextEIP = EIP + L; with a schedule the turn is taken from it, with none the timer then ticks
(R492, assembled by the spec; the schedule, the tick after each step and a fetch across 80000000h are the model's choice, log
entries 5, 6 and 39). -/
def Obligations.StepRunsDecodedInstruction : Prop :=
  ∀ (s : State) (i : Instr) (n : Nat) (b : Bool) (rest : List Turn),
    s.pmU = false → s.run = .running → s.stepDue = false → decode (policy s) (instrBytes s) = .ok (i, n) →
    (s.agenda = .core b :: rest → (b = true → interruptDue s = false) →
      step s = exec i ((s.setAgenda rest).setNextEip (s.eip + BitVec.ofNat 32 n))) ∧
    (s.agenda = [] → interruptDue s = false → ∀ t, exec i (s.setNextEip (s.eip + BitVec.ofNat 32 n)) = .next t →
      step s = ticks t.plat.timerTick t)

/-- UD2, and a core step at bytes that are an invalid opcode (a 66h prefix on LIDT and SIDT, or a prefix that the platform's
policy makes #UD, among them), take #UD; the frame holds the instruction's own EIP (R155, R445, R474). The step's order is the
spec's inference R492; which gate kind clears IF is PRESUMED (log entry 24); a fetch across 80000000h is log entry 39. -/
def Obligations.InvalidOpcodesTakeUd : Prop :=
  ∀ (s : State) (g : Gate), Opens 6 g s →
    (∃ t, exec .ud2 s = .next t ∧ Entered (Event.plain 6 s.eip s.eip) g s t) ∧
    (∀ b : Bool, s.run = .running → s.stepDue = false → (b = true → interruptDue s = false) →
      (decode (policy s) (instrBytes s) = .error .invalidOpcode ∨
        decode (policy s) (instrBytes s) = .error .repeatedPrefix ∨
        decode (policy s) (instrBytes s) = .error .invalidOperandType ∨
        decode (policy s) (instrBytes s) = .error .prefixUd) →
      ∃ t, coreStep b s = .next t ∧ Entered (Event.plain 6 s.eip s.eip) g s t)

/-- No byte of the SRAM can be fetched, whatever ICCM_RANGE names (R93). Bus errors take #MC before any effect of the instruction. A fetch: I = 1, the address of the first byte that cannot be
fetched (R483). A read or a write of MOV: the operand's first address, W = 1 for the write (R482).
That #MC is precise and which address it names is the spec's decision D30 (log entry 14); a fetch across 80000000h is log entry 39. -/
def Obligations.BusErrorsTakeMc : Prop :=
  (∀ (p : Config.Platform) (x : Nat), isSram p x = true → busErr p .fetch x = true) ∧
  ∀ (s : State) (g : Gate), Opens 18 g s →
    (∀ (b : Bool) (n : Nat), s.run = .running → s.stepDue = false → (b = true → interruptDue s = false) →
      (∀ k, k < n → busErr s.plat .fetch (s.eip.toNat + k) = false) → n < 12 →
      s.eip.toNat + n < 2 ^ 32 → busErr s.plat .fetch (s.eip.toNat + n) = true →
      decode (policy s) ((List.range n).map (fun k => readByte s.mem (s.eip.toNat + k))) = .error .truncated →
      ∃ t, coreStep b s = .next t ∧
        Entered { Event.plain 18 s.eip s.eip with address := BitVec.ofNat 32 (s.eip.toNat + n), i := true } g s t) ∧
    (∀ (w : Width) (r : Reg) (m : MemRef) (k : Nat), k < w.bytes → (effAddr m s).toNat + k < 2 ^ 32 →
      (busErr s.plat .read ((effAddr m s).toNat + k) = true →
        ∃ t, exec (.mov (.rRm w r (.mem m))) s = .next t ∧
          Entered { Event.plain 18 s.eip s.eip with address := effAddr m s } g s t) ∧
      (busErr s.plat .write ((effAddr m s).toNat + k) = true →
        ∃ t, exec (.mov (.rmR w (.mem m) r)) s = .next t ∧
          Entered { Event.plain 18 s.eip s.eip with address := effAddr m s, w := true } g s t))

/-- The stops that the spec asks a model for, each by its name: user mode; a MOV load or store past FFFFFFFFh, on both sides of
80000000h, at the local APIC or the IOAPIC that is no aligned dword, at a platform device that is no aligned dword (R87); a
store to the instruction memory under `codeStore = refuse`; a write of SIVR below 20h; IRET with a PM image; POP to memory addressed through ESP under
`popEspBase = refuse`; an F0h prefix under LOCK_POLICY = refuse, a 66h prefix on a form that lists none under PREFIX66_UNLISTED =
refuse; a fetch past FFFFFFFFh; a gate with a reserved bit set; an unmasked timer expiry with a vector above 47. They are
decisions of the spec (D2, D3, D6, D7, D12, D14, D22, D28, D32, D35) that the model follows (log entries 4, 11, 12, 15 to 18, 24,
29 and 38). -/
def Obligations.DoubtfulCasesStopByName : Prop :=
  (∀ (b : Bool) (s : State), s.pmU = true → coreStep b s = .refused .userMode) ∧
  (∀ (store : Bool) (w : Width) (r : Reg) (m : MemRef) (s : State), noBusErr (movKind store) w (effAddr m s) s →
    (2 ^ 32 < (effAddr m s).toNat + w.bytes → exec (movAccess store w r m) s = .fault .beyondAddressSpace) ∧
    ((effAddr m s).toNat < 2 ^ 31 → 2 ^ 31 < (effAddr m s).toNat + w.bytes →
      exec (movAccess store w r m) s = .refused .orderingStraddle) ∧
    (inOneHalf w (effAddr m s) →
      (touches (isApic s.plat) w (effAddr m s) → (w ≠ .b32 ∨ (effAddr m s).toNat % 4 ≠ 0) →
        exec (movAccess store w r m) s = .refused .apicAccessWidth) ∧
      (¬ touches (isApic s.plat) w (effAddr m s) →
        (touches (isExternal s.plat) w (effAddr m s) → (w ≠ .b32 ∨ (effAddr m s).toNat % 4 ≠ 0) →
          exec (movAccess store w r m) s = .refused .platformDevice) ∧
        (¬ touches (isExternal s.plat) w (effAddr m s) → store = true → touches (isCode s.plat) w (effAddr m s) →
          s.plat.codeStore = .refuse → exec (movAccess store w r m) s = .refused .codeStore)))) ∧
  (∀ (r : Reg) (m : MemRef) (s : State), noBusErr .write .b32 (effAddr m s) s → effAddr m s = 0xFEE000F0 →
    (s.reg r).toNat % 256 < 0x20 → exec (movAccess true .b32 r m) s = .refused .spuriousVectorBelow32) ∧
  (∀ (s s1 s2 s3 : State) (e pm fl : Dword), readMem .b32 (s.reg .esp) s = .ok (e, s1) →
    readMem .b32 (s.reg .esp + 4) s1 = .ok (pm, s2) → readMem .b32 (s.reg .esp + 8) s2 = .ok (fl, s3) →
    fl &&& 0xFFFFF43C = 0 → pm ≠ 0 → exec .iret s = .refused .iretUserImage) ∧
  (∀ (w : Width) (m : MemRef) (s : State), m.base = some .esp → s.plat.popEspBase = .refuse →
    exec (.pop (.rm w (.mem m))) s = .refused .popMemoryEsp) ∧
  (∀ (s : State) (b : Byte) (bs : List Byte), s.plat.lockPolicy = .refuse → instrBytes s = 0xF0 :: b :: bs →
    b ≠ 0xF0 → b ≠ 0x66 → runInstr s = .refused .lockPrefix) ∧
  (∀ (s : State) (op : List Byte) (b : Byte) (bs : List Byte), s.plat.prefix66 = .refuse →
    instrBytes s = 0x66 :: (op ++ b :: bs) →
    (op ∈ no66Opcodes ∨ ∃ o digits, (o, digits) ∈ no66Digits ∧ op = [o] ∧ digitOf b ∈ digits) →
    runInstr s = .refused .prefix66Unlisted) ∧
  (∀ s : State, decode (policy s) (instrBytes s) = .error .truncated → s.eip.toNat + (instrBytes s).length = 2 ^ 32 →
    runInstr s = .fault .beyondAddressSpace) ∧
  (∀ (ev : Event) (g : Gate) (s : State), s.pmU = false → GateIs ev.vector g s → g.d1.getLsbD 15 = true →
    (g.d1.extractLsb' 8 5 = 0b01110 ∨ g.d1.extractLsb' 8 5 = 0b01111) →
    (g.d0 &&& 0xFFFF0000 ≠ 0 ∨ g.d1 &&& 0x000060FF ≠ 0) → enter ev s = .refused .descriptorReservedBits) ∧
  (∀ s : State, s.intc.lapic.ccr = 1 → s.intc.lapic.lvt.masked = false → 16 ≤ s.intc.lapic.lvt.vector.toNat →
    tickTurn s = .refused .timerVectorAbove47)

/-- A single-step trap that is due is taken before anything else, with the EIP that the traced instruction left
(R472, R492; what makes it due is log entry 30). -/
def Obligations.SingleStepTrapIsTaken : Prop :=
  ∀ (b : Bool) (s : State) (g : Gate), s.run ≠ .stopped → s.stepDue = true → Opens 1 g s →
    ∃ t, coreStep b s = .next t ∧ Entered (Event.plain 1 s.eip s.eip) g s t

/-- At a boundary with IF = 1 and INTR = 1 a core that recognises the interrupt acknowledges it: the highest deliverable request
enters its vector, and with nothing deliverable the spurious vector SIVR is entered (R535); the frame holds the next instruction's
EIP (R492, R536). A halted core leaves Halted. The order of the step's items is assembled by the spec (R492); which gate kind
clears IF is PRESUMED (log entry 24). -/
def Obligations.InterruptEntersItsHandler : Prop :=
  ∀ (s : State) (v : BitVec 8) (g : Gate), s.run ≠ .stopped → s.stepDue = false → s.flags.intf = true →
    s.intc.lapic.intr = true →
    ((∃ n, s.intc.lapic.deliverable = some n ∧ v = BitVec.ofNat 8 (32 + n)) ∨
      (s.intc.lapic.deliverable = none ∧ v = s.intc.lapic.sivr)) →
    Opens v g s →
    ∃ t, coreStep true s = .next t ∧ t.intc = s.intc.acknowledge.2 ∧
      Entered (Event.interrupt v s.eip) g (s.setIntc s.intc.acknowledge.2) t

/-! ### Whole-machine rules -/

/-- Every step of the machine keeps the invariants: the canonical form of memory (the model's own, log entry 1), supervisor mode,
CPU_ERR asserted exactly in the stopped state (R512), every deliverable request presented on INTR (R536) and a spurious vector
of 20h or more (log entry 29). -/
def Obligations.StepKeepsInv : Prop := ∀ s t : State, s.Inv → step s = .next t → t.Inv

/-- The state after reset meets the invariants. -/
def Obligations.ResetMeetsInv : Prop := State.reset.Inv

/-- No step changes a byte of FLASH or of the instruction memory (R102), whatever the platform's parameters
(a power cycle changes RAM only: the model's choice, log entry 33). -/
def Obligations.CodeBytesNeverChange : Prop :=
  ∀ s t : State, step s = .next t → ∀ a, isCode s.plat a = true → readByte t.mem a = readByte s.mem a

/-- The stopped state is left by a reset or a power cycle only; in it the core changes nothing (R512). -/
def Obligations.StoppedUntilReset : Prop :=
  ∀ s t : State, s.run = .stopped → step s = .next t →
    (∀ rest, s.agenda ≠ .reset :: rest) → (∀ cells rest, s.agenda ≠ .powerCycle cells :: rest) →
    t.run = .stopped ∧ t.cpuErr = s.cpuErr ∧ t.regs = s.regs ∧ t.eip = s.eip ∧ t.flags = s.flags ∧ t.idtr = s.idtr ∧
      t.mem = s.mem

/-- The values after reset: in the state after reset, and after the reset event, which completes in every state and keeps
memory (R50). That memory is kept is the spec's decision D39 (log entry 33), the reset turn is log entry 5, and R50's row of the
pending trap, INTR and the timer is the spec's inference. -/
def Obligations.ResetValues : Prop :=
  AfterReset State.reset ∧
  ∀ (s : State) (rest : List Turn), s.agenda = .reset :: rest → ∃ t, step s = .next t ∧ AfterReset t ∧ t.mem = s.mem

/-! ### Memory and registers -/

/-- What one MOV stores in readable storage another MOV of the same width and address loads, with every other byte kept (from
R80, R344). Below 80000000h every access that meets no bus error and stores to no instruction memory goes to storage (from R91,
R94). From there upward an aligned dword of a device completes: a load leaves a free value in the register, a store changes
neither a register nor a byte; that no more of a device shows is log entry 38. -/
def Obligations.StoreThenLoad : Prop :=
  (∀ (w : Width) (r q : Reg) (m m' : MemRef) (s t : State), s.mem.wf = true →
    route s.plat .write w (effAddr m s) = .ok .storage → route s.plat .read w (effAddr m s) = .ok .storage →
    exec (.mov (.rmR w (.mem m) r)) s = .next t → effAddr m' t = effAddr m s →
    (∀ x, x < (effAddr m s).toNat ∨ (effAddr m s).toNat + w.bytes ≤ x → readByte t.mem x = readByte s.mem x) ∧
    ∃ u, exec (.mov (.rRm w q (.mem m'))) t = .next u ∧ u.view w q = s.view w r ∧ u.mem = t.mem) ∧
  (∀ (store : Bool) (w : Width) (a : Dword) (s : State), noBusErr (movKind store) w a s → a.toNat + w.bytes ≤ 2 ^ 31 →
    (store = true → ¬ touches (isCode s.plat) w a) → route s.plat (movKind store) w a = .ok .storage) ∧
  (∀ (r : Reg) (m : MemRef) (s : State), (effAddr m s).toNat % 4 = 0 →
    (∀ k, k < 4 → isExternal s.plat ((effAddr m s).toNat + k) = true) →
    (noBusErr .read .b32 (effAddr m s) s → ∃ t, exec (.mov (.rRm .b32 r (.mem m))) s = .next t ∧ completed s t ∧
      t.reg r = s.freeDword ∧ onlyReg r s t ∧ t.flags = s.flags) ∧
    (noBusErr .write .b32 (effAddr m s) s → ∃ t, exec (.mov (.rmR .b32 (.mem m) r)) s = .next t ∧ completed s t ∧
      sameData s t ∧ t.flags = s.flags))

/-- The byte at the lowest address of a stored item is its bits 7:0, the next its bits 15:8, and so on (R80). -/
def Obligations.StoresAreLittleEndian : Prop :=
  ∀ (w : Width) (a : Dword) (v : BitVec w.bits) (s t : State), s.mem.wf = true →
    route s.plat .write w a = .ok .storage → writeMem w a v s = .ok t →
    ∀ k, k < w.bytes → readByte t.mem (a.toNat + k) = v.extractLsb' (8 * k) 8

/-- A write to an 8-bit or 16-bit view changes only the bits of that view (R33, the spec's inference): AL to BL are bits 7:0, AH to BH bits 15:8
and AX to DI bits 15:0 of their registers (R32). -/
def Obligations.NarrowWritesKeepTheRest : Prop :=
  ∀ (s : State) (r : Reg) (k : Nat), k < 32 →
    (∀ v : BitVec 8, ((s.setView .b8 r v).reg (hostReg .b8 r)).getLsbD k =
      let lo := if r = .eax ∨ r = .ecx ∨ r = .edx ∨ r = .ebx then 0 else 8
      if lo ≤ k ∧ k < lo + 8 then v.getLsbD (k - lo) else (s.reg (hostReg .b8 r)).getLsbD k) ∧
    (∀ v : BitVec 16, ((s.setView .b16 r v).reg r).getLsbD k = if k < 16 then v.getLsbD k else (s.reg r).getLsbD k) ∧
    (∀ v : BitVec 32, (s.setView .b32 r v).reg r = v)

/-! ### Exceptions -/

/-- An event whose vector has a usable gate enters its handler with the frame of its vector (R500, R501). Which gate kind clears
IF is PRESUMED (log entry 24); the error code of vector 11 is D31 (log entry 25), the frames of an INT to 8, 11, 13, 18 and 24 are
D27 and D9 (log entry 20), the error codes' layout is the platform's (log entry 13). -/
def Obligations.EntryThroughGate : Prop :=
  ∀ (ev : Event) (g : Gate) (s : State), Opens ev.vector g s → ∃ t, enter ev s = .next t ∧ Entered ev g s t

/-- An event that cannot be delivered becomes the #GP, #NP or #DF that the table of R504 says, with its error code, the EFLAGS
of before the original event and, for an INT, the EIP of the INT itself (R502, R503); a bus error on the descriptor becomes #GP
with error vector 0, #DF or the Triple Fault (R505); and if the first word of the frame meets one, every delivery fails there and
the event ends in the Triple Fault. The table is the spec's inference; that nested events keep the first EFLAGS is its decision
D26 and what a bus error becomes is D29 (log entry 25). -/
def Obligations.FailedDeliveryBecomes : Prop :=
  (∀ (ev : Event) (g : Gate) (s : State) (f : Failure), DeliveryFails ev.vector s f →
    let doubled := ev.vector = 0 ∨ ev.vector = 13 ∨ ev.vector = 18 ∨
      (f ≠ .beyondLimit ∧ f ≠ .busError ∧ (ev.vector = 11 ∨ (ev.vector = 24 ∧ s.plat.vector24 = .asPrinted)))
    (ev.vector ≠ 8 → doubled → Opens 8 g s →
      ∃ t, enter ev s = .next t ∧
        Entered { ev with vector := 8, errVector := 0, idt := false, ext := false, int := false } g s t) ∧
    (ev.vector ≠ 8 → ¬ doubled → f = .notPresent → Opens 11 g s →
      ∃ t, enter ev s = .next t ∧
        Entered { ev with vector := 11, errVector := ev.vector, idt := true, int := false } g s t) ∧
    (ev.vector ≠ 8 → ¬ doubled → f ≠ .notPresent → f ≠ .busError → Opens 13 g s →
      ∃ t, enter ev s = .next t ∧
        Entered { ev with vector := 13, errVector := ev.vector, idt := true, int := false } g s t) ∧
    (ev.vector ≠ 8 → ¬ doubled → f = .busError → Opens 13 g s →
      ∃ t, enter ev s = .next t ∧
        Entered { ev with vector := 13, errVector := 0, idt := false, int := false } g s t) ∧
    (ev.vector = 8 → s.pmU = false → ∃ t, enter ev s = .next t ∧ TripleFaulted s t)) ∧
  (∀ (ev : Event) (s : State) (x : Exn), s.pmU = false → (∀ v, v = ev.vector ∨ v = 13 ∨ v = 8 → ∃ g, Usable v g s) →
    route s.plat .write .b32 (frameSlot s 0) = .error (.raise x) →
    ∃ t, enter ev s = .next t ∧ t.run = .stopped ∧ t.cpuErr = true ∧ t.regs = s.regs ∧ t.eip = s.eip ∧ t.mem = s.mem ∧
      t.intc = s.intc ∧ t.idtr = s.idtr ∧ t.flags = { s.flags with tf := false, intf := t.flags.intf })

/-- With an IDT that holds no vector every event ends in a Triple Fault (R504, R512; the chain is the spec's inference). -/
def Obligations.EmptyTableStopsTheCore : Prop :=
  ∀ (ev : Event) (s : State), s.pmU = false → s.idtr.limit.toNat < 7 → ∃ t, enter ev s = .next t ∧ TripleFaulted s t

/-- INT n and INT3 enter their vector; the frame holds the EIP of the next instruction (R432, R433; the extra
words for the vectors 8, 11, 13, 18 and 24 are the spec's decision D27, log entry 20). -/
def Obligations.IntEntersItsHandler : Prop :=
  (∀ (n : BitVec 8) (g : Gate) (s : State), Opens n g s →
    ∃ t, exec (.int n) s = .next t ∧
      Entered { Event.plain n s.eip s.nextEip with int := true } g s t) ∧
  (∀ (g : Gate) (s : State), Opens 3 g s →
    ∃ t, exec .int3 s = .next t ∧ Entered { Event.plain 3 s.eip s.nextEip with int := true } g s t)

/-- IRET restores EIP and the six flags from the frame and moves ESP past it, POPFD loads the flags and moves ESP past the
image (R436, R373) if no reserved bit of it is set (the spec's decision
D13). That the trap that is then due is by the TF of the instruction's start is the spec's decision D23 (log entry 30). -/
def Obligations.IretAndPopfdLoadTheFlags : Prop :=
  (∀ (s s1 s2 s3 : State) (e fl : Dword), s.pmU = false →
    readMem .b32 (s.reg .esp) s = .ok (e, s1) → readMem .b32 (s.reg .esp + 4) s1 = .ok (0, s2) →
    readMem .b32 (s.reg .esp + 8) s2 = .ok (fl, s3) → fl &&& 0xFFFFF43C = 0 →
    ∃ t, exec .iret s = .next t ∧ goesTo e s t ∧ t.reg .esp = s.reg .esp + 12 ∧ onlyReg .esp s t ∧
      t.flags = ⟨fl.getLsbD 0, fl.getLsbD 6, fl.getLsbD 7, fl.getLsbD 8, fl.getLsbD 9, fl.getLsbD 11⟩) ∧
  (∀ (s s1 : State) (v : Dword), s.pmU = false → readMem .b32 (s.reg .esp) s = .ok (v, s1) → v &&& 0xFFFFF43C = 0 →
    ∃ t, exec .popfd s = .next t ∧ completed s t ∧ t.reg .esp = s.reg .esp + 4 ∧ onlyReg .esp s t ∧
      t.flags = ⟨v.getLsbD 0, v.getLsbD 6, v.getLsbD 7, v.getLsbD 8, v.getLsbD 9, v.getLsbD 11⟩)

/-- POPFD and IRET take #GP with a zero error code, before any change, if the image has a 1 in a reserved position
(R40, R373, R436; the spec's decision D13). -/
def Obligations.ReservedFlagsTakeGp : Prop :=
  ∀ (s : State) (g : Gate), Opens 13 g s →
    (∀ (s1 : State) (v : Dword), readMem .b32 (s.reg .esp) s = .ok (v, s1) → v &&& 0xFFFFF43C ≠ 0 →
      ∃ t, exec .popfd s = .next t ∧ Entered (Event.plain 13 s.eip s.eip) g s t) ∧
    (∀ (s1 s2 s3 : State) (e pm fl : Dword), readMem .b32 (s.reg .esp) s = .ok (e, s1) →
      readMem .b32 (s.reg .esp + 4) s1 = .ok (pm, s2) → readMem .b32 (s.reg .esp + 8) s2 = .ok (fl, s3) →
      fl &&& 0xFFFFF43C ≠ 0 →
      ∃ t, exec .iret s = .next t ∧ Entered (Event.plain 13 s.eip s.eip) g s t)

/-- An INT n whose frame has three words, followed by an IRET in the handler, is as if it had not been: EIP is that of the next
instruction and every register, every flag, IDTR and the interrupt controller are as before the INT
(R432, R436; three words is every vector that D27 adds none to, log entry 20). -/
def Obligations.IntThenIretReturns : Prop :=
  ∀ (n : BitVec 8) (g : Gate) (s t : State) (e : Dword), Opens n g s → frameLength s.plat n = 3 →
    (∀ k, k < 3 → route s.plat .read .b32 (frameSlot s k) = .ok .storage) →
    exec (.int n) s = .next t →
    ∃ u, exec .iret (t.setNextEip e) = .next u ∧ u.eip = s.nextEip ∧ u.regs = s.regs ∧ u.flags = s.flags ∧
      u.idtr = s.idtr ∧ u.intc = s.intc ∧ u.run = .running ∧ u.stepDue = false ∧ u.mem = t.mem

/-! ### The interrupt controller -/

/-- One tick counts CCR down; the tick that brings it to 0 requests the timer's vector unless masked, and reloads CCR in
periodic mode; with CCR = 0 the timer is stopped (R545; the reload at 0 is the spec's decision D34). -/
def Obligations.TimerTickCounts : Prop :=
  ∀ s : State, (s.intc.lapic.lvt.masked = true ∨ s.intc.lapic.lvt.vector.toNat < 16) →
    ∃ t, tickTurn s = .next t ∧ t = s.setIntc t.intc ∧
      (s.intc.lapic.ccr = 0 → t.intc = s.intc) ∧
      (s.intc.lapic.ccr ≠ 0 → s.intc.lapic.ccr ≠ 1 →
        t.intc = { s.intc with lapic := { s.intc.lapic with ccr := s.intc.lapic.ccr - 1 } }) ∧
      (s.intc.lapic.ccr = 1 →
        t.intc.lapic.ccr = (if s.intc.lapic.lvt.periodic then s.intc.lapic.icr else 0) ∧
        t.intc.lapic.isr = s.intc.lapic.isr ∧ t.intc.lapic.icr = s.intc.lapic.icr ∧
        t.intc.lapic.lvt = s.intc.lapic.lvt ∧
        (s.intc.lapic.lvt.masked = false → t.intc.lapic.irr.getLsbD s.intc.lapic.lvt.vector.toNat = true) ∧
        (s.intc.settle = s.intc → ∀ k, (s.intc.lapic.lvt.masked = true ∨ k ≠ s.intc.lapic.lvt.vector.toNat) →
          t.intc.lapic.irr.getLsbD k = s.intc.lapic.irr.getLsbD k))

/-- Acknowledge answers the highest requested vector if it is above PPR, clears its request bit and sets its in-service bit; with
nothing deliverable it answers SIVR and sets no in-service bit (R536; log entry 28). -/
def Obligations.AcknowledgeMovesTheRequest : Prop :=
  ∀ c : IntCtl,
    (∀ n, n < 16 → c.lapic.irr.getLsbD n = true → (∀ k, n < k → c.lapic.irr.getLsbD k = false) →
      (c.lapic.ppr.toNat < 32 + n →
        c.acknowledge.1 = BitVec.ofNat 8 (32 + n) ∧ c.acknowledge.2.lapic.irr.getLsbD n = false ∧
        ∀ k, k < 16 → c.acknowledge.2.lapic.isr.getLsbD k = (decide (k = n) || c.lapic.isr.getLsbD k)) ∧
      (32 + n ≤ c.lapic.ppr.toNat →
        c.acknowledge.1 = c.lapic.sivr ∧ c.acknowledge.2.lapic.isr = c.lapic.isr)) ∧
    (c.lapic.irr = 0 → c.acknowledge.1 = c.lapic.sivr ∧ c.acknowledge.2.lapic.isr = c.lapic.isr)

/-- PPR is the task priority or the highest in-service vector, whichever is higher (R533). -/
def Obligations.PprIsTheHigherOfTheTwo : Prop :=
  ∀ l : LocalApic,
    (l.isr = 0 → l.ppr = l.tpr) ∧
    (∀ n, n < 16 → l.isr.getLsbD n = true → (∀ k, n < k → l.isr.getLsbD k = false) →
      l.ppr.toNat = max l.tpr.toNat (32 + n))

/-- A write of any value to EOI clears the highest in-service bit and no other; with none set it clears nothing (R534;
the last clause is the spec's inference). -/
def Obligations.EoiClearsTheHighestInService : Prop :=
  ∀ (c c' : IntCtl) (v : Dword), c.writeLapic 0xB0 v = .ok c' →
    (c.lapic.isr = 0 → c'.lapic.isr = 0) ∧
    (∀ n, n < 16 → c.lapic.isr.getLsbD n = true → (∀ k, n < k → c.lapic.isr.getLsbD k = false) →
      c'.lapic.isr.getLsbD n = false ∧ ∀ k, k ≠ n → c'.lapic.isr.getLsbD k = c.lapic.isr.getLsbD k)

/-- The controller's registers as software sees them. ICR reads back what was written and starts CCR; LVTTIMER keeps its
three fields and reads 001b in bits 7:5; TPR keeps eight bits, and so does SIVR, which takes 20h and above; PPR, ISR, IRR and
CCR read what they hold and ignore writes; EOI reads a free value (R531 to R539, R546 to R548). Redirection entry n, selected by
IOREGSEL = 10h + 2n, keeps the mask and trigger bits and reads 0 elsewhere; its high half reads 0 (R550, R551, R552). What
reserved fields and EOI read as is the spec's decision D36 (log entry 26). -/
def Obligations.ControllerRegistersReadBack : Prop :=
  ∀ (s : State) (v : Dword),
    (∀ a, isLapic a = true ∨ isIoapic s.plat a = true → busErr s.plat .read a = false ∧ busErr s.plat .write a = false) →
    (∃ t, writeMem .b32 0xFEE00380 v s = .ok t ∧ readMem .b32 0xFEE00380 t = .ok (v, t) ∧
      readMem .b32 0xFEE00390 t = .ok (v, t)) ∧
    (∃ t, writeMem .b32 0xFEE00320 v s = .ok t ∧
      readMem .b32 0xFEE00320 t = .ok ((v &&& 0x0003001F) ||| 0x20, t)) ∧
    (∃ t, writeMem .b32 0xFEE00080 v s = .ok t ∧ readMem .b32 0xFEE00080 t = .ok (v &&& 0xFF, t)) ∧
    (0x20 ≤ v.toNat % 256 →
      ∃ t, writeMem .b32 0xFEE000F0 v s = .ok t ∧ readMem .b32 0xFEE000F0 t = .ok (v &&& 0xFF, t)) ∧
    readMem .b32 0xFEE00080 s = .ok (s.intc.lapic.tpr.setWidth 32, s) ∧
    readMem .b32 0xFEE000A0 s = .ok (s.intc.lapic.ppr.setWidth 32, s) ∧
    readMem .b32 0xFEE000B0 s = .ok (s.freeDword, s.drawn) ∧
    readMem .b32 0xFEE000F0 s = .ok (s.intc.lapic.sivr.setWidth 32, s) ∧
    readMem .b32 0xFEE00110 s = .ok (s.intc.lapic.isr.setWidth 32, s) ∧
    readMem .b32 0xFEE00210 s = .ok (s.intc.lapic.irr.setWidth 32, s) ∧
    readMem .b32 0xFEE00390 s = .ok (s.intc.lapic.ccr, s) ∧
    (∀ a : Dword, a = 0xFEE000A0 ∨ a = 0xFEE00110 ∨ a = 0xFEE00210 ∨ a = 0xFEE00390 →
      writeMem .b32 a v s = .ok (s.setIntc s.intc.settle)) ∧
    (∀ n, n < 16 →
      ∃ t u x, writeMem .b32 0xFEC00000 (BitVec.ofNat 32 (0x10 + 2 * n)) s = .ok t ∧
        writeMem .b32 0xFEC00010 v t = .ok u ∧ readMem .b32 0xFEC00010 u = .ok (v &&& 0x00018000, u) ∧
        writeMem .b32 0xFEC00000 (BitVec.ofNat 32 (0x11 + 2 * n)) u = .ok x ∧ readMem .b32 0xFEC00010 x = .ok (0, x))

/-- A rise of an IRQ input requests its vector if the entry is edge-triggered and unmasked, and is lost if it is masked (R553). An
active level-triggered input requests its vector whenever it is unmasked and not in service: as it becomes active, at the EOI and
as the mask is cleared; the request stays if the line drops (R554, the spec's own rule D37, log entries 8 and 27). -/
def Obligations.EdgeRequestsItsVector : Prop :=
  ∀ (c : IntCtl) (n : BitVec 4),
    (c.lines.getLsbD n.toNat = false → c.ioapic.mask.getLsbD n.toNat = false → c.ioapic.level.getLsbD n.toNat = false →
      (c.drive n true).lapic.irr.getLsbD n.toNat = true) ∧
    (c.ioapic.mask.getLsbD n.toNat = true →
      (c.drive n true).lapic.irr.getLsbD n.toNat = c.lapic.irr.getLsbD n.toNat) ∧
    (c.ioapic.mask.getLsbD n.toNat = false → c.ioapic.level.getLsbD n.toNat = true →
      (c.lapic.isr.getLsbD n.toNat = false → (c.drive n true).lapic.irr.getLsbD n.toNat = true) ∧
      (c.lapic.isr.getLsbD n.toNat = true →
        (c.drive n true).lapic.irr.getLsbD n.toNat = c.lapic.irr.getLsbD n.toNat) ∧
      (c.lines.getLsbD n.toNat = true → (∀ k, n.toNat < k → c.lapic.isr.getLsbD k = false) →
        ∀ v c', c.writeLapic 0xB0 v = .ok c' → c'.lapic.irr.getLsbD n.toNat = true)) ∧
    (c.drive n false).lapic.irr.getLsbD n.toNat = c.lapic.irr.getLsbD n.toNat ∧
    (c.lines.getLsbD n.toNat = true → c.lapic.isr.getLsbD n.toNat = false →
      c.ioapic.ioregsel = BitVec.ofNat 32 (0x10 + 2 * n.toNat) →
      (c.writeIoapic 0x10 0x8000).lapic.irr.getLsbD n.toNat = true)

/-! ### Arithmetic and logic -/

/-- ADD and ADC: the destination holds the sum, of the operands and for ADC of CF, modulo 2^w; the flags as R201, R202. -/
def Obligations.AddStoresTheSum : Prop :=
  StoresAlu .add (fun _ a b _ => a + b) (fun n a b _ => sumCarries n a b false) sumOverflows ∧
  StoresAlu .adc (fun n a b c => a + b + carryIn n c) sumCarries sumOverflows

/-- SUB and SBB: the destination holds the difference, for SBB less CF, modulo 2^w; the flags as R203, R204. -/
def Obligations.SubStoresTheDifference : Prop :=
  StoresAlu .sub (fun _ a b _ => a - b) (fun n a b _ => differenceBorrows n a b false) differenceOverflows ∧
  StoresAlu .sbb (fun n a b c => a - b - carryIn n c) differenceBorrows differenceOverflows

/-- AND, OR, XOR: the destination holds the bitwise result; CF and OF are 0 (R240 to R243). -/
def Obligations.LogicStoresTheResult : Prop :=
  StoresAlu .and (fun _ a b _ => a &&& b) (fun _ _ _ _ => false) (fun _ _ _ => false) ∧
  StoresAlu .or (fun _ a b _ => a ||| b) (fun _ _ _ _ => false) (fun _ _ _ => false) ∧
  StoresAlu .xor (fun _ a b _ => a ^^^ b) (fun _ _ _ _ => false) (fun _ _ _ => false)

/-- CMP and TEST set the flags of SUB and AND and write no register and no byte (R205, R245). -/
def Obligations.CompareAndTestSetFlags : Prop :=
  (∀ (x : AluOperands) (s s1 s2 : State) (a b : BitVec (aluWidth x).bits),
    readPlace (aluWidth x) (aluDest x s) s = .ok (a, s1) → aluSource x s1 = .ok (b, s2) →
    ∃ t, exec (.cmp x) s = .next t ∧ completed s t ∧ sameData s t ∧
      t.flags = statusFlags s.flags (a - b) (differenceBorrows _ a b false) (differenceOverflows a b (a - b))) ∧
  (∀ (x : TestOperands) (s s1 : State) (a : BitVec (testWidth x).bits),
    readPlace (testWidth x) (testFirst x s) s = .ok (a, s1) →
    ∃ t, exec (.test x) s = .next t ∧ completed s t ∧ sameData s t ∧
      t.flags = statusFlags s.flags (a &&& testSecond x s) false false)

/-- After ADD, ADC, SUB and SBB the overflow flag says that the exact signed result does not fit the width, and the carry flag
that the exact unsigned one does not (R14, the spec's inference from its formulas). -/
def Obligations.OverflowMeansOutOfRange : Prop :=
  ∀ (w : Width) (a b : BitVec w.bits) (c : Bool),
    (sumOverflows a b (a + b + carryIn w.bits c) = true ↔
      ¬ (-(2 ^ (w.bits - 1) : Int) ≤ a.toInt + b.toInt + c.toNat ∧ a.toInt + b.toInt + c.toNat < 2 ^ (w.bits - 1))) ∧
    (differenceOverflows a b (a - b - carryIn w.bits c) = true ↔
      ¬ (-(2 ^ (w.bits - 1) : Int) ≤ a.toInt - b.toInt - c.toNat ∧ a.toInt - b.toInt - c.toNat < 2 ^ (w.bits - 1))) ∧
    (addCarry w.bits a b c).of = sumOverflows a b (a + b + carryIn w.bits c) ∧
    (addCarry w.bits a b c).cf = sumCarries w.bits a b c ∧
    (subBorrow w.bits a b c).of = differenceOverflows a b (a - b - carryIn w.bits c) ∧
    (subBorrow w.bits a b c).cf = differenceBorrows w.bits a b c

/-- After CMP a, b the conditional jumps mean what their names say of a and b (R205, R395, the spec's inference): unsigned for JB, JAE, JBE, JA, signed for
JL, JGE, JLE, JG. -/
def Obligations.JumpsAfterCompare : Prop :=
  ∀ (x : AluOperands) (s s1 s2 t u : State) (a b : BitVec (aluWidth x).bits) (rel : Rel),
    readPlace (aluWidth x) (aluDest x s) s = .ok (a, s1) → aluSource x s1 = .ok (b, s2) →
    exec (.cmp x) s = .next t → u.flags = t.flags →
    ∀ (mk : Rel → Instr) (p : Prop),
      (mk, p) ∈ [(Instr.je, a = b), (.jne, a ≠ b), (.jb, a.toNat < b.toNat), (.jae, b.toNat ≤ a.toNat),
        (.jbe, a.toNat ≤ b.toNat), (.ja, b.toNat < a.toNat), (.jl, a.toInt < b.toInt), (.jge, b.toInt ≤ a.toInt),
        (.jle, a.toInt ≤ b.toInt), (.jg, b.toInt < a.toInt)] →
      (p → ∃ v, exec (mk rel) u = .next v ∧ v.eip = u.nextEip + relValue rel) ∧
      (¬ p → ∃ v, exec (mk rel) u = .next v ∧ v.eip = u.nextEip)

/-- INC and DEC: the operand changes by 1; OF is set for the one value that overflows, CF stays (R206, R207). -/
def Obligations.IncDecStepByOne : Prop :=
  StoresInc .inc (fun _ a => a + 1) (fun {n} a => decide (a = BitVec.ofNat n (2 ^ (n - 1) - 1))) ∧
  StoresInc .dec (fun _ a => a - 1) (fun {n} a => decide (a = BitVec.ofNat n (2 ^ (n - 1))))

/-- NEG: the operand becomes its two's complement, CF says it was not 0, OF that it was the most negative value; NOT: the
operand becomes its complement and no flag changes (R208, R244). -/
def Obligations.NegAndNot : Prop :=
  StoresUnary .neg (fun _ b => -b)
    (fun {n} f b => statusFlags f (-b) (decide (b ≠ 0)) (decide (b = BitVec.ofNat n (2 ^ (n - 1))))) ∧
  StoresUnary .not (fun _ a => ~~~ a) (fun f _ => f)

/-! ### Bits, shifts and rotates -/

/-- BT, BTC, BTR, BTS: CF takes the selected bit of the base; BT writes nothing, the others write the base back with that bit
complemented, cleared or set; the index is the offset modulo the width (R261 to R265). -/
def Obligations.BitInstructionsChangeOneBit : Prop :=
  (∀ (x : BitOperands) (s s1 : State) (b : BitVec (bitWidth x).bits),
    readPlace (bitWidth x) (bitBase x s) s = .ok (b, s1) →
    ∃ t, exec (.bt x) s = .next t ∧ completed s t ∧ sameData s t ∧ t.flags.cf = b.getLsbD (bitIndex x s) ∧
      t.flags.zf = s.flags.zf ∧ t.flags.tf = s.flags.tf ∧ t.flags.intf = s.flags.intf) ∧
  StoresBit .btc (fun b => !b) ∧ StoresBit .btr (fun _ => false) ∧ StoresBit .bts (fun _ => true)

/-- SHL, SHR and SAR by n > 0: the whole shift at once, CF the last bit shifted out (R286 to R290). That SF and ZF follow
the result is PRESUMED (log entry 21). -/
def Obligations.ShiftsByCount : Prop :=
  StoresShift .shl (fun n x _ => x <<< n) (fun n x _ => (x <<< (n - 1)).msb) true (fun _ r c => r.msb ^^ c) ∧
  StoresShift .shr (fun n x _ => x >>> n) (fun n x _ => x.getLsbD (n - 1)) true (fun x _ _ => x.msb) ∧
  StoresShift .sar (fun n x _ => x.sshiftRight n) (fun n x _ => (x.sshiftRight (n - 1)).getLsbD 0) true (fun _ _ _ => false)

/-- ROL and ROR by n > 0: the operand rotated; RCL and RCR: CF and the operand rotated as one item of w + 1 bits (R282 to R285,
R290). That ROL and ROR leave in CF the bit that went round, and that rotates keep SF and ZF, is PRESUMED (log entry 21). -/
def Obligations.RotatesByCount : Prop :=
  StoresShift .rol (fun n x _ => x.rotateLeft n) (fun n x _ => (x.rotateLeft n).getLsbD 0) false (fun _ r c => r.msb ^^ c) ∧
  StoresShift .ror (fun n x _ => x.rotateRight n) (fun n x _ => (x.rotateRight n).msb) false
    (fun {w} _ r _ => r.msb ^^ r.getLsbD (w - 2)) ∧
  StoresShift .rcl (fun {w} n x c => ((BitVec.cons c x).rotateLeft n).setWidth w)
    (fun n x c => ((BitVec.cons c x).rotateLeft n).msb) false (fun _ r c => r.msb ^^ c) ∧
  StoresShift .rcr (fun {w} n x c => ((BitVec.cons c x).rotateRight n).setWidth w)
    (fun n x c => ((BitVec.cons c x).rotateRight n).msb) false (fun {w} _ r _ => r.msb ^^ r.getLsbD (w - 2))

/-- A shift or rotate by a masked count of 0 reads its operand and changes nothing but EIP (R281; that it reads
is the spec's decision D18). -/
def Obligations.ShiftByZeroChangesNothing : Prop :=
  ∀ (mk : Width → RM → ShiftCount → Instr) (w : Width) (dst : RM) (c : ShiftCount) (s s1 : State) (x : BitVec w.bits),
    mk ∈ [Instr.rol, .ror, .rcl, .rcr, .shl, .shr, .sar] → shiftCount c s = 0 →
    readPlace w (place dst s) s = .ok (x, s1) →
    ∃ t, exec (mk w dst c) s = .next t ∧ completed s t ∧ sameData s t ∧ t.flags = s.flags

/-! ### Products and quotients -/

/-- MUL: AX, DX:AX or EDX:EAX holds the whole product; CF and OF say that its upper half is not 0 (R310). -/
def Obligations.MulGivesTheWholeProduct : Prop :=
  ∀ (w : Width) (src : RM) (s s1 : State) (b : BitVec w.bits), readPlace w (place src s) s = .ok (b, s1) →
    ∃ t, exec (.mul w src) s = .next t ∧ completed s t ∧ readPair w t = (s.view w .eax).toNat * b.toNat ∧
      (∀ q, q ≠ .eax → (w ≠ .b8 → q ≠ .edx) → t.reg q = s.reg q) ∧ sameBytes s t ∧ t.intc = s.intc ∧
      (w ≠ .b32 → ∀ k, 16 ≤ k → (t.reg .eax).getLsbD k = (s.reg .eax).getLsbD k ∧
        (t.reg .edx).getLsbD k = (s.reg .edx).getLsbD k) ∧
      t.flags.cf = decide (2 ^ w.bits ≤ (s.view w .eax).toNat * b.toNat) ∧ t.flags.of = t.flags.cf ∧
      t.flags.tf = s.flags.tf ∧ t.flags.intf = s.flags.intf

/-- IMUL. One operand: AX, DX:AX or EDX:EAX holds the whole signed product. Two and three operands: the destination holds its
low half, PRESUMED (log entry 22). The 8- and 16-bit forms keep bits 31:16 of the registers they write. CF and OF follow the rule
of R318 (R311 to R313). -/
def Obligations.ImulGivesTheProduct : Prop :=
  (∀ (w : Width) (src : RM) (s s1 : State) (b : BitVec w.bits), readPlace w (place src s) s = .ok (b, s1) →
    ∃ t, exec (.imul1 w src) s = .next t ∧ completed s t ∧ signedPair w t = (s.view w .eax).toInt * b.toInt ∧
      (∀ q, q ≠ .eax → (w ≠ .b8 → q ≠ .edx) → t.reg q = s.reg q) ∧ sameBytes s t ∧ t.intc = s.intc ∧
      (w ≠ .b32 → ∀ k, 16 ≤ k → (t.reg .eax).getLsbD k = (s.reg .eax).getLsbD k ∧
        (t.reg .edx).getLsbD k = (s.reg .edx).getLsbD k) ∧
      ImulFlagged w ((s.view w .eax).toInt * b.toInt) s t) ∧
  (∀ (w : Width) (dst : Reg) (src : RM) (s s1 : State) (b : BitVec w.bits), readPlace w (place src s) s = .ok (b, s1) →
    ∃ t, exec (.imul2 w dst src) s = .next t ∧ completed s t ∧ t.view w dst = s.view w dst * b ∧
      onlyReg (hostReg w dst) s t ∧
      (w = .b16 → ∀ k, 16 ≤ k → (t.reg dst).getLsbD k = (s.reg dst).getLsbD k) ∧ ImulFlagged w ((s.view w dst).toInt * b.toInt) s t) ∧
  (∀ (dst : Reg) (src : RM) (imm : ImulImm) (s s1 : State) (b : BitVec (imulWidth imm).bits),
    readPlace (imulWidth imm) (place src s) s = .ok (b, s1) →
    ∃ t, exec (.imul3 dst src imm) s = .next t ∧ completed s t ∧ t.view (imulWidth imm) dst = b * imulValue imm ∧
      onlyReg (hostReg (imulWidth imm) dst) s t ∧
      (imulWidth imm = .b16 → ∀ k, 16 ≤ k → (t.reg dst).getLsbD k = (s.reg dst).getLsbD k) ∧
      ImulFlagged (imulWidth imm) (b.toInt * (imulValue imm).toInt) s t)

/-- DIV and IDIV that complete: dividend = quotient * divisor + remainder, the remainder smaller than the divisor and, for IDIV,
zero or of the dividend's sign (R316). Quotient in the low register, remainder in the high one: PRESUMED (log entry 22).
The 8- and 16-bit forms keep bits 31:16 of EAX and EDX (R33). -/
def Obligations.DivisionLaws : Prop :=
  (∀ (w : Width) (src : RM) (s s1 : State) (d : BitVec w.bits), readPlace w (place src s) s = .ok (d, s1) →
    d ≠ 0 → readPair w s / d.toNat < 2 ^ w.bits →
    ∃ t, exec (.div w src) s = .next t ∧ completed s t ∧
      readPair w s = (t.view w .eax).toNat * d.toNat + (t.view w (highReg w)).toNat ∧
      (t.view w (highReg w)).toNat < d.toNat ∧
      (∀ q, q ≠ .eax → (w ≠ .b8 → q ≠ .edx) → t.reg q = s.reg q) ∧ sameBytes s t ∧ t.intc = s.intc ∧
      (w ≠ .b32 → ∀ k, 16 ≤ k → (t.reg .eax).getLsbD k = (s.reg .eax).getLsbD k ∧
        (t.reg .edx).getLsbD k = (s.reg .edx).getLsbD k) ∧
      t.flags.tf = s.flags.tf ∧ t.flags.intf = s.flags.intf) ∧
  (∀ (w : Width) (src : RM) (s s1 : State) (d : BitVec w.bits), readPlace w (place src s) s = .ok (d, s1) →
    d ≠ 0 → -(2 ^ (w.bits - 1) : Int) ≤ (signedPair w s).tdiv d.toInt → (signedPair w s).tdiv d.toInt < 2 ^ (w.bits - 1) →
    ∃ t, exec (.idiv w src) s = .next t ∧ completed s t ∧
      signedPair w s = (t.view w .eax).toInt * d.toInt + (t.view w (highReg w)).toInt ∧
      (t.view w (highReg w)).toInt.natAbs < d.toInt.natAbs ∧
      ((t.view w (highReg w)).toInt = 0 ∨ ((t.view w (highReg w)).toInt < 0 ↔ signedPair w s < 0)) ∧
      (∀ q, q ≠ .eax → (w ≠ .b8 → q ≠ .edx) → t.reg q = s.reg q) ∧ sameBytes s t ∧ t.intc = s.intc ∧
      (w ≠ .b32 → ∀ k, 16 ≤ k → (t.reg .eax).getLsbD k = (s.reg .eax).getLsbD k ∧
        (t.reg .edx).getLsbD k = (s.reg .edx).getLsbD k) ∧
      t.flags.tf = s.flags.tf ∧ t.flags.intf = s.flags.intf)

/-- DIV and IDIV by 0, or with a quotient too large for the register, take #DE from the state before (R314, R315; the
range of a signed quotient is PRESUMED, log entry 22). -/
def Obligations.DivideErrors : Prop :=
  ∀ (w : Width) (src : RM) (s s1 : State) (d : BitVec w.bits) (g : Gate), readPlace w (place src s) s = .ok (d, s1) →
    Opens 0 g s →
    (d = 0 ∨ 2 ^ w.bits ≤ readPair w s / d.toNat →
      ∃ t, exec (.div w src) s = .next t ∧ Entered (Event.plain 0 s.eip s.eip) g s t) ∧
    (d = 0 ∨ (signedPair w s).tdiv d.toInt < -(2 ^ (w.bits - 1) : Int) ∨ 2 ^ (w.bits - 1) ≤ (signedPair w s).tdiv d.toInt →
      ∃ t, exec (.idiv w src) s = .next t ∧ Entered (Event.plain 0 s.eip s.eip) g s t)

/-! ### Moves -/

/-- MOV copies the second operand to the first; no flag changes (R344). -/
def Obligations.MovCopies : Prop :=
  ∀ (x : MovOperands) (s s1 u : State) (v : BitVec (movWidth x).bits), movSource x s = .ok (v, s1) →
    writePlace (movWidth x) (movDest x s) v s1 = .ok u →
    ∃ t, exec (.mov x) s = .next t ∧ completed s t ∧ wrote (movWidth x) (movDest x s) v u s t ∧ t.flags = s.flags

/-- MOVSX and MOVZX: the destination register holds the source's value as a signed and as an unsigned number (R345, R346). -/
def Obligations.ExtensionsKeepTheValue : Prop :=
  ∀ (x : ExtOperands) (s s1 : State) (v : BitVec (extFrom x).bits),
    readPlace (extFrom x) (place (extSource x) s) s = .ok (v, s1) →
    (∃ t, exec (.movsx x) s = .next t ∧ completed s t ∧ (t.view (extTo x) (extDest x)).toInt = v.toInt ∧
      t.regs = (s.setView (extTo x) (extDest x) (t.view (extTo x) (extDest x))).regs ∧ sameBytes s t ∧
      t.intc = s.intc ∧ t.flags = s.flags) ∧
    (∃ t, exec (.movzx x) s = .next t ∧ completed s t ∧ (t.view (extTo x) (extDest x)).toNat = v.toNat ∧
      t.regs = (s.setView (extTo x) (extDest x) (t.view (extTo x) (extDest x))).regs ∧ sameBytes s t ∧
      t.intc = s.intc ∧ t.flags = s.flags)

/-- LEA: base + index * scale + displacement modulo 2^32, its low bits at 16 bits, bits 31:16 of the register kept; no memory access, no flag (R350,
R146). That an 8-bit displacement is sign-extended is PRESUMED (log entry 23). -/
def Obligations.LeaComputesTheAddress : Prop :=
  ∀ (w : Width) (dst : Reg) (m : MemRef) (s : State),
    let base : Dword := match m.base with | some b => s.reg b | none => 0
    let index : Dword := match m.index with
      | some (i, k) => s.reg i * (match k with | .x1 => 1 | .x2 => 2 | .x4 => 4 | .x8 => 8)
      | none => 0
    ∃ t, exec (.lea w dst m) s = .next t ∧ completed s t ∧
      t.view w dst = (base + index + dispValue m.disp).setWidth w.bits ∧ onlyReg (hostReg w dst) s t ∧
      (w = .b16 → ∀ k, 16 ≤ k → (t.reg dst).getLsbD k = (s.reg dst).getLsbD k) ∧ t.flags = s.flags

/-- CBW, CWDE, CWD, CDQ: AX, EAX, DX:AX, EDX:EAX hold the signed value of AL, AX, AX, EAX; BSWAP reverses the four bytes of its
register; no flag changes (R352 to R355, R260). That BSWAP with a 66h prefix completes, writing only its register, is the spec's
decision D17 (R157). -/
def Obligations.ConversionsKeepTheValue : Prop :=
  ∀ s : State,
    (∃ t, exec .cbw s = .next t ∧ completed s t ∧ (t.view .b16 .eax).toInt = (s.view .b8 .eax).toInt ∧
      (∀ k, 16 ≤ k → (t.reg .eax).getLsbD k = (s.reg .eax).getLsbD k) ∧ onlyReg .eax s t ∧ t.flags = s.flags) ∧
    (∃ t, exec .cwde s = .next t ∧ completed s t ∧ (t.reg .eax).toInt = (s.view .b16 .eax).toInt ∧
      onlyReg .eax s t ∧ t.flags = s.flags) ∧
    (∃ t, exec .cwd s = .next t ∧ completed s t ∧
      ((t.view .b16 .edx : BitVec 16) ++ (t.view .b16 .eax : BitVec 16)).toInt = (s.view .b16 .eax).toInt ∧
      (∀ k, 16 ≤ k → (t.reg .edx).getLsbD k = (s.reg .edx).getLsbD k) ∧ onlyReg .edx s t ∧ t.flags = s.flags) ∧
    (∃ t, exec .cdq s = .next t ∧ completed s t ∧ (t.reg .edx ++ t.reg .eax).toInt = (s.reg .eax).toInt ∧
      onlyReg .edx s t ∧ t.flags = s.flags) ∧
    (∀ (p66 : Bool) (r : Reg), ∃ t, exec (.bswap p66 r) s = .next t ∧ completed s t ∧
      (p66 = false → ∀ k, k < 4 → (t.reg r).extractLsb' (8 * k) 8 = (s.reg r).extractLsb' (24 - 8 * k) 8) ∧
      onlyReg r s t ∧ t.flags = s.flags)

/-! ### Stack and control -/

/-- PUSH stores the operand below ESP and PUSHFD the image of EFLAGS; ESP becomes the address stored to (R370, R372). -/
def Obligations.PushStoresBelowEsp : Prop :=
  (∀ (x : PushOperand) (s s1 u : State) (v : BitVec (pushWidth x).bits), pushSource x s = .ok (v, s1) →
    writeMem (pushWidth x) (pushAddress (pushWidth x) s) v s1 = .ok u →
    ∃ t, exec (.push x) s = .next t ∧ completed s t ∧ pushed (pushWidth x) v u s t) ∧
  (∀ (s u : State), writeMem .b32 (pushAddress .b32 s) s.flags.image s = .ok u →
    ∃ t, exec .pushfd s = .next t ∧ completed s t ∧ pushed .b32 s.flags.image u s t)

/-- POP reads at ESP, moves ESP up by the width, then writes its destination (R371; the order is the spec's inference; a
memory destination addressed through ESP follows log entry 18). -/
def Obligations.PopReadsAtEsp : Prop :=
  ∀ (x : PopOperand) (p : Place) (s s1 u : State) (v : BitVec (popWidth x).bits), popPlace x s = .ok p →
    readMem (popWidth x) (s.reg .esp) s = .ok (v, s1) →
    writePlace (popWidth x) p v (espPast (popWidth x) s1) = .ok u →
    ∃ t, exec (.pop x) s = .next t ∧ completed s t ∧ wrote (popWidth x) p v u (espPast (popWidth x) s) t ∧
      t.flags = s.flags

/-- CALL pushes NextEIP and goes to its target: NextEIP + cd, or the operand read with the old ESP; RET goes to the dword at
ESP and moves ESP past it (R390, R391, R392; reading the operand with the old ESP is the spec's decision D24). -/
def Obligations.CallAndRet : Prop :=
  (∀ (cd : BitVec 32) (s u : State), writeMem .b32 (pushAddress .b32 s) s.nextEip s = .ok u →
    ∃ t, exec (.callRel cd) s = .next t ∧ goesTo (s.nextEip + cd) s t ∧ pushed .b32 s.nextEip u s t) ∧
  (∀ (x : RM) (s s1 u : State) (e : Dword), readPlace .b32 (place x s) s = .ok (e, s1) →
    writeMem .b32 (pushAddress .b32 s) s.nextEip s1 = .ok u →
    ∃ t, exec (.callRm x) s = .next t ∧ goesTo e s t ∧ pushed .b32 s.nextEip u s t) ∧
  (∀ (s s1 : State) (e : Dword), readMem .b32 (s.reg .esp) s = .ok (e, s1) →
    ∃ t, exec .ret s = .next t ∧ goesTo e s t ∧ t.reg .esp = s.reg .esp + 4 ∧ onlyReg .esp s t ∧ t.flags = s.flags)

/-- A CALL whose return address goes to readable storage, then a RET from a state with the same ESP and the same bytes there,
returns to the instruction after the CALL with ESP as before it (from R390 and R392). -/
def Obligations.CallThenRetReturns : Prop :=
  ∀ (cd : BitVec 32) (s t u : State), s.mem.wf = true →
    route s.plat .write .b32 (pushAddress .b32 s) = .ok .storage →
    exec (.callRel cd) s = .next t → u.reg .esp = t.reg .esp → u.plat = s.plat →
    route u.plat .read .b32 (u.reg .esp) = .ok .storage →
    (∀ k, k < 4 → readByte u.mem ((t.reg .esp).toNat + k) = readByte t.mem ((t.reg .esp).toNat + k)) →
    ∃ v, exec .ret u = .next v ∧ v.eip = s.nextEip ∧ v.reg .esp = s.reg .esp ∧ v.mem = u.mem

/-- JMP goes to NextEIP + rel or to its operand; each conditional jump goes to NextEIP + rel if its condition holds and to
NextEIP if not; no register, flag or byte changes (R393 to R409). -/
def Obligations.JumpsGoToTheirTargets : Prop :=
  (∀ (rel : Rel) (s : State), ∃ t, exec (.jmpRel rel) s = .next t ∧ goesTo (s.nextEip + relValue rel) s t ∧
    t.flags = s.flags ∧ sameData s t) ∧
  (∀ (x : RM) (s s1 : State) (e : Dword), readPlace .b32 (place x s) s = .ok (e, s1) →
    ∃ t, exec (.jmpRm x) s = .next t ∧ goesTo e s t ∧ t.flags = s.flags ∧ sameData s t) ∧
  Jumps .jo (fun f => f.of = true) ∧ Jumps .jno (fun f => f.of = false) ∧
  Jumps .jb (fun f => f.cf = true) ∧ Jumps .jae (fun f => f.cf = false) ∧
  Jumps .je (fun f => f.zf = true) ∧ Jumps .jne (fun f => f.zf = false) ∧
  Jumps .jbe (fun f => f.cf = true ∨ f.zf = true) ∧ Jumps .ja (fun f => f.cf = false ∧ f.zf = false) ∧
  Jumps .js (fun f => f.sf = true) ∧ Jumps .jns (fun f => f.sf = false) ∧
  Jumps .jl (fun f => f.sf ≠ f.of) ∧ Jumps .jge (fun f => f.sf = f.of) ∧
  Jumps .jle (fun f => f.zf = true ∨ f.sf ≠ f.of) ∧ Jumps .jg (fun f => f.zf = false ∧ f.sf = f.of)

/-! ### System instructions -/

/-- CLC, STC, CMC, CLI, STI change the one flag they name, and NOP nothing (R420 to R422, R356; the flags of R423, R424). -/
def Obligations.FlagInstructions : Prop :=
  ∀ s : State, s.pmU = false →
    ∀ (i : Instr) (f : EFlags),
      (i, f) ∈ [(Instr.clc, { s.flags with cf := false }), (.stc, { s.flags with cf := true }),
        (.cmc, { s.flags with cf := !s.flags.cf }), (.cli, { s.flags with intf := false }),
        (.sti, { s.flags with intf := true }), (.nop false, s.flags), (.nop true, s.flags)] →
      ∃ t, exec i s = .next t ∧ completed s t ∧ sameData s t ∧ t.flags = f

/-- HLT moves EIP past itself and halts the core, which then waits unless a trap or an enabled interrupt is due
(R430; from R492). -/
def Obligations.HltHaltsTheCore : Prop :=
  ∀ s : State, ∃ t, exec .hlt s = .next t ∧ t.eip = s.nextEip ∧ t.run = .halted ∧ t.stepDue = s.flags.tf ∧
    sameSystem s t ∧ sameData s t ∧ t.flags = s.flags ∧
    (s.pmU = false → s.flags.tf = false → (s.flags.intf = false ∨ s.intc.lapic.intr = false) →
      ∀ b, coreStep b t = .next t)

/-- LIDT loads IDTR from six bytes, the limit first; SIDT stores them, the limit first (R440, R441; the layout is the
spec's inference). -/
def Obligations.IdtrIsLoadedAndStored : Prop :=
  (∀ (m : MemRef) (s s1 s2 : State) (lim : BitVec 16) (base : Dword),
    readMem .b16 (effAddr m s) s = .ok (lim, s1) → readMem .b32 (effAddr m s + 2) s1 = .ok (base, s2) →
    ∃ t, exec (.lidt m) s = .next t ∧ t.eip = s.nextEip ∧ t.run = s.run ∧ t.stepDue = s.flags.tf ∧
      t.idtr = ⟨base, lim⟩ ∧ t.pmU = s.pmU ∧ t.esp0 = s.esp0 ∧ t.cpuErr = s.cpuErr ∧ t.plat = s.plat ∧
      t.agenda = s.agenda ∧ sameData s t ∧ t.flags = s.flags) ∧
  (∀ (m : MemRef) (s s1 u : State), s.mem.wf = true →
    route s.plat .write .b16 (effAddr m s) = .ok .storage → route s.plat .write .b32 (effAddr m s + 2) = .ok .storage →
    writeMem .b16 (effAddr m s) s.idtr.limit s = .ok s1 → writeMem .b32 (effAddr m s + 2) s.idtr.address s1 = .ok u →
    ∃ t, exec (.sidt m) s = .next t ∧ completed s t ∧ t.regs = s.regs ∧ t.flags = s.flags ∧ t.intc = s.intc ∧
      BitVec.ofNat 16 (loadLE t.mem (effAddr m s).toNat 2) = s.idtr.limit ∧
      dwordAt t.mem (effAddr m s + 2) = s.idtr.address ∧
      ∀ x, (x < (effAddr m s).toNat ∨ (effAddr m s).toNat + 2 ≤ x) →
        (x < (effAddr m s + 2).toNat ∨ (effAddr m s + 2).toNat + 4 ≤ x) → readByte t.mem x = readByte s.mem x)
end

