-- ==== Sys2Proof/Laws/Apic.lean ====
section
/-! SUPPORT. What the interrupt controller's operations can do: they leave a settled controller, and none but a write of
SIVR changes the spurious vector. -/

namespace Sys2Proof.Machine

/-- Settling changes only IRR and the latch INTR. -/
theorem IntCtl.settle_eq (c : IntCtl) :
    c.settle = { c with lapic := { c.lapic with
      irr := c.lapic.irr ||| c.levelRequests,
      intr := c.lapic.intr || ({ c.lapic with irr := c.lapic.irr ||| c.levelRequests } : LocalApic).deliverable.isSome } } :=
  rfl

/-- What the APIC does continuously it does at once. -/
@[simp] theorem IntCtl.settle_settle (c : IntCtl) : c.settle.settle = c.settle := by
  have hl : c.settle.levelRequests = c.levelRequests := rfl
  have hi : c.settle.lapic.irr ||| c.levelRequests = c.settle.lapic.irr := by
    simp only [IntCtl.settle, BitVec.or_assoc, BitVec.or_self]
  have hd : ({ c.settle.lapic with irr := c.settle.lapic.irr } : LocalApic).deliverable =
      ({ c.lapic with irr := c.lapic.irr ||| c.levelRequests } : LocalApic).deliverable := rfl
  rw [IntCtl.settle_eq c.settle, hl, hi, hd]
  simp only [IntCtl.settle, Bool.or_assoc, Bool.or_self]

@[simp] theorem IntCtl.settle_sivr (c : IntCtl) : c.settle.lapic.sivr = c.lapic.sivr := rfl
@[simp] theorem IntCtl.settle_isr (c : IntCtl) : c.settle.lapic.isr = c.lapic.isr := rfl
@[simp] theorem IntCtl.settle_tpr (c : IntCtl) : c.settle.lapic.tpr = c.lapic.tpr := rfl
@[simp] theorem IntCtl.settle_lvt (c : IntCtl) : c.settle.lapic.lvt = c.lapic.lvt := rfl
@[simp] theorem IntCtl.settle_icr (c : IntCtl) : c.settle.lapic.icr = c.lapic.icr := rfl
@[simp] theorem IntCtl.settle_ccr (c : IntCtl) : c.settle.lapic.ccr = c.lapic.ccr := rfl
@[simp] theorem IntCtl.settle_ioapic (c : IntCtl) : c.settle.ioapic = c.ioapic := rfl
@[simp] theorem IntCtl.settle_lines (c : IntCtl) : c.settle.lines = c.lines := rfl

/-- The timer's count is no input of settling. -/
theorem IntCtl.settled_of_ccr {c : IntCtl} (h : c.settle = c) (v : Dword) :
    IntCtl.settle { c with lapic := { c.lapic with ccr := v } } = { c with lapic := { c.lapic with ccr := v } } := by
  have h' : ({ c.settle with lapic := { c.settle.lapic with ccr := v } } : IntCtl) =
      { c with lapic := { c.lapic with ccr := v } } := by rw [h]
  rw [← h']
  have := IntCtl.settle_settle c
  rw [h] at this
  conv_rhs => rw [← h]
  rw [h]
  rfl

@[simp] theorem IntCtl.acknowledge_settled (c : IntCtl) : c.acknowledge.2.settle = c.acknowledge.2 := by
  unfold IntCtl.acknowledge
  split <;> exact IntCtl.settle_settle _

@[simp] theorem IntCtl.acknowledge_sivr (c : IntCtl) : c.acknowledge.2.lapic.sivr = c.lapic.sivr := by
  unfold IntCtl.acknowledge
  split <;> rfl

/-- One tick leaves a settled controller settled. -/
theorem IntCtl.tick_settled {c d : IntCtl} (hc : c.settle = c) (h : c.tick = .ok d) : d.settle = d := by
  unfold IntCtl.tick at h
  by_cases h0 : c.lapic.ccr = 0
  · simp only [h0, if_true, Except.ok.injEq] at h
    exact h ▸ hc
  · by_cases h1 : c.lapic.ccr = 1
    · simp only [h1, ne_eq, not_true_eq_false, if_false, show (1 : Dword) ≠ 0 by decide] at h
      split at h
      · exact absurd h (by simp only [reduceCtorEq, not_false_eq_true])
      · simp only [Except.ok.injEq] at h
        rw [← h]
        exact IntCtl.settle_settle _
    · simp only [h0, if_false, ne_eq, h1, not_false_eq_true, if_true, Except.ok.injEq] at h
      rw [← h]
      exact IntCtl.settled_of_ccr hc _

/-- One tick does not touch SIVR. -/
theorem IntCtl.tick_sivr {c d : IntCtl} (h : c.tick = .ok d) : d.lapic.sivr = c.lapic.sivr := by
  unfold IntCtl.tick at h
  by_cases h0 : c.lapic.ccr = 0
  · simp only [h0, if_true, Except.ok.injEq] at h
    rw [← h]
  · by_cases h1 : c.lapic.ccr = 1
    · simp only [h1, ne_eq, not_true_eq_false, if_false, show (1 : Dword) ≠ 0 by decide] at h
      split at h
      · exact absurd h (by simp only [reduceCtorEq, not_false_eq_true])
      · simp only [Except.ok.injEq] at h
        rw [← h]
        rfl
    · simp only [h0, if_false, ne_eq, h1, not_false_eq_true, if_true, Except.ok.injEq] at h
      rw [← h]

@[simp] theorem IntCtl.drive_settled (c : IntCtl) (n : BitVec 4) (v : Bool) : (c.drive n v).settle = c.drive n v :=
  IntCtl.settle_settle _

@[simp] theorem IntCtl.drive_sivr (c : IntCtl) (n : BitVec 4) (v : Bool) : (c.drive n v).lapic.sivr = c.lapic.sivr := rfl

@[simp] theorem IntCtl.writeIoapic_settled (c : IntCtl) (off : Nat) (v : Dword) :
    (c.writeIoapic off v).settle = c.writeIoapic off v :=
  IntCtl.settle_settle _

@[simp] theorem IntCtl.writeIoapic_lapic_sivr (c : IntCtl) (off : Nat) (v : Dword) :
    (c.writeIoapic off v).lapic.sivr = c.lapic.sivr := rfl

theorem IntCtl.writeLapic_settled {c d : IntCtl} {off : Nat} {v : Dword} (h : c.writeLapic off v = .ok d) :
    d.settle = d := by
  unfold IntCtl.writeLapic at h
  split at h
  · simp only [Except.ok.injEq] at h
    rw [← h]
    exact IntCtl.settle_settle _
  · exact absurd h (by simp only [reduceCtorEq, not_false_eq_true])

/-- The end of interrupt does not touch SIVR. -/
@[simp] theorem LocalApic.eoi_sivr (l : LocalApic) : l.eoi.sivr = l.sivr := by
  unfold LocalApic.eoi
  split <;> rfl

/-- A write of a local APIC register leaves a spurious vector that software may select. -/
theorem LocalApic.writeReg_sivr {l k : LocalApic} {off : Nat} {v : Dword} (hl : 0x20 ≤ l.sivr.toNat)
    (h : l.writeReg off v = .ok k) : 0x20 ≤ k.sivr.toNat := by
  unfold LocalApic.writeReg at h
  split at h
  · simp only [Except.ok.injEq] at h
    rw [← h]; exact hl
  · simp only [Except.ok.injEq] at h
    rw [← h, LocalApic.eoi_sivr]; exact hl
  · split at h
    · exact absurd h (by simp only [reduceCtorEq, not_false_eq_true])
    · rename_i hlt
      simp only [Except.ok.injEq] at h
      rw [← h]; exact Nat.le_of_not_lt hlt
  · simp only [Except.ok.injEq] at h
    rw [← h]; exact hl
  · simp only [Except.ok.injEq] at h
    rw [← h]; exact hl
  · simp only [Except.ok.injEq] at h
    rw [← h]; exact hl

theorem IntCtl.writeLapic_sivr {c d : IntCtl} {off : Nat} {v : Dword} (hc : 0x20 ≤ c.lapic.sivr.toNat)
    (h : c.writeLapic off v = .ok d) : 0x20 ≤ d.lapic.sivr.toNat := by
  unfold IntCtl.writeLapic at h
  split at h
  · rename_i l hl
    simp only [Except.ok.injEq] at h
    rw [← h, IntCtl.settle_sivr]
    exact LocalApic.writeReg_sivr hc hl
  · exact absurd h (by simp only [reduceCtorEq, not_false_eq_true])

/-! ### Sixteen request bits -/

theorem bit16_getLsbD (n k : Nat) : (bit16 n).getLsbD k = (decide (k = n) && decide (k < 16)) := by
  simp only [bit16, BitVec.getLsbD_shiftLeft, BitVec.getLsbD_one]
  by_cases h : k = n
  · subst h
    by_cases hk : k < 16 <;> simp [hk]
  · by_cases hlt : k < n
    · simp [h, hlt]
    · have : k - n ≠ 0 := by omega
      simp [h, hlt, this]

/-- A bit reads as it was put. -/
theorem putBit16_same (x : BitVec 16) {n : Nat} (v : Bool) (hn : n < 16) : (putBit16 x n v).getLsbD n = v := by
  unfold putBit16
  cases v
  · simp [bit16_getLsbD, hn]
  · simp [bit16_getLsbD, hn]

/-- Putting a bit leaves the others alone. -/
theorem putBit16_ne (x : BitVec 16) {n k : Nat} (v : Bool) (h : k ≠ n) : (putBit16 x n v).getLsbD k = x.getLsbD k := by
  unfold putBit16
  have hb : (bit16 n).getLsbD k = false := by simp [bit16_getLsbD, h]
  cases v
  · by_cases hk : k < 16
    · simp only [Bool.false_eq_true, if_false, BitVec.getLsbD_and, BitVec.getLsbD_not, hb, hk, decide_true,
        Bool.not_false, Bool.and_true]
    · rw [BitVec.getLsbD_of_ge _ _ (by omega : 16 ≤ k), BitVec.getLsbD_of_ge _ _ (by omega : 16 ≤ k)]
  · simp only [if_true, BitVec.getLsbD_or, hb, Bool.or_false]

/-- The highest set bit below a position: it is set, and nothing above it is. -/
theorem highestBelow_spec (x : BitVec 16) : ∀ (k : Nat) {n : Nat}, highestBelow x k = some n →
    n < k ∧ x.getLsbD n = true ∧ ∀ j, n < j → j < k → x.getLsbD j = false
  | 0, _, h => by simp only [highestBelow, reduceCtorEq] at h
  | k + 1, n, h => by
    unfold highestBelow at h
    split at h
    · rename_i hk
      simp only [Option.some.injEq] at h
      subst h
      exact ⟨Nat.lt_succ_self k, hk, fun j h1 h2 => by omega⟩
    · rename_i hk
      have ih := highestBelow_spec x k h
      refine ⟨by omega, ih.2.1, fun j h1 h2 => ?_⟩
      by_cases hj : j = k
      · subst hj; simpa using hk
      · exact ih.2.2 j h1 (by omega)

theorem highestBelow_none (x : BitVec 16) : ∀ (k : Nat), highestBelow x k = none → ∀ j, j < k → x.getLsbD j = false
  | 0, _, _, hj => absurd hj (Nat.not_lt_zero _)
  | k + 1, h, j, hj => by
    unfold highestBelow at h
    split at h
    · exact absurd h (by simp only [reduceCtorEq, not_false_eq_true])
    · rename_i hk
      by_cases hjk : j = k
      · subst hjk; simpa using hk
      · exact highestBelow_none x k h j (by omega)

/-- The highest set bit of sixteen. -/
theorem highest_spec {x : BitVec 16} {n : Nat} (h : highest x = some n) :
    n < 16 ∧ x.getLsbD n = true ∧ ∀ j, n < j → j < 16 → x.getLsbD j = false :=
  highestBelow_spec x 16 h

/-- The controller after reset is settled, whatever the levels of the inputs. -/
theorem reset_intc_settled (lines : BitVec 16) :
    ({ State.reset.intc with lines := lines } : IntCtl).settle = { State.reset.intc with lines := lines } := by
  have h : (lines &&& (0 : BitVec 16) &&& ~~~ (0xFFFF : BitVec 16) &&& ~~~ (0 : BitVec 16)) = 0 := by
    simp
  simp only [IntCtl.settle, IntCtl.levelRequests, State.reset, LocalApic.reset, IoApic.reset, h]
  rfl

end Sys2Proof.Machine
end

