-- ==== Sys2Proof/Laws/Memory.lean ====
section
/-! SUPPORT. The laws of the storage: what is read after a write, what a write leaves alone, and that every operation keeps
the canonical form. -/

namespace Sys2Proof.Machine

/-! ### One byte -/

theorem sortedFrom_cons (lo a : Nat) (b : Byte) (m : Memory) :
    sortedFrom lo ((a, b) :: m) = true ↔ lo ≤ a ∧ a < 2 ^ 32 ∧ b ≠ unlistedByte ∧ sortedFrom (a + 1) m = true := by
  simp only [sortedFrom, Bool.and_eq_true, decide_eq_true_eq]
  tauto

/-- A weaker lower bound also holds. -/
theorem sortedFrom_mono {lo lo' : Nat} (h : lo' ≤ lo) : ∀ {m : Memory}, sortedFrom lo m = true → sortedFrom lo' m = true
  | [], _ => rfl
  | (a, b) :: m, hm => by
    rw [sortedFrom_cons] at hm ⊢
    exact ⟨by omega, hm.2⟩

/-- Below the lower bound nothing is listed. -/
theorem readByte_below {lo x : Nat} (h : x < lo) : ∀ {m : Memory}, sortedFrom lo m = true → readByte m x = unlistedByte
  | [], _ => rfl
  | (a, b) :: m, hm => by
    rw [sortedFrom_cons] at hm
    have hne : a ≠ x := by omega
    simp only [readByte, if_neg hne]
    exact readByte_below (lo := a + 1) (by omega) hm.2.2.2

theorem writeByte_sorted {v : Byte} {x : Nat} (hx : x < 2 ^ 32) :
    ∀ {lo : Nat} {m : Memory}, sortedFrom lo m = true → lo ≤ x → sortedFrom lo (writeByte m x v) = true
  | lo, [], _, hlo => by
    by_cases hv : v = unlistedByte
    · simp only [writeByte, if_pos hv, sortedFrom]
    · simp only [writeByte, if_neg hv, sortedFrom_cons]
      exact ⟨hlo, hx, hv, rfl⟩
  | lo, (a, b) :: m, hm, hlo => by
    have hm' := (sortedFrom_cons lo a b m).mp hm
    by_cases h1 : x < a
    · by_cases hv : v = unlistedByte
      · simp only [writeByte, if_pos h1, if_pos hv]
        exact hm
      · simp only [writeByte, if_pos h1, if_neg hv]
        rw [sortedFrom_cons, sortedFrom_cons]
        exact ⟨hlo, hx, hv, by omega, hm'.2⟩
    · by_cases h2 : x = a
      · by_cases hv : v = unlistedByte
        · simp only [writeByte, if_neg h1, if_pos h2, if_pos hv]
          exact sortedFrom_mono (by omega) hm'.2.2.2
        · simp only [writeByte, if_neg h1, if_pos h2, if_neg hv]
          rw [sortedFrom_cons]
          exact ⟨hlo, hx, hv, h2 ▸ hm'.2.2.2⟩
      · simp only [writeByte, if_neg h1, if_neg h2]
        rw [sortedFrom_cons]
        exact ⟨hm'.1, hm'.2.1, hm'.2.2.1, writeByte_sorted hx hm'.2.2.2 (by omega)⟩

/-- Writing a byte inside the address space keeps the canonical form. -/
theorem writeByte_wf {m : Memory} {x : Nat} {v : Byte} (hm : m.wf = true) (hx : x < 2 ^ 32) :
    (writeByte m x v).wf = true :=
  writeByte_sorted hx hm (Nat.zero_le x)

theorem readByte_writeByte_same_from {x : Nat} {v : Byte} :
    ∀ {lo : Nat} {m : Memory}, sortedFrom lo m = true → readByte (writeByte m x v) x = v
  | lo, [], _ => by
    by_cases hv : v = unlistedByte
    · rw [writeByte, if_pos hv, hv, readByte]
    · simp only [writeByte, if_neg hv, readByte, if_true]
  | lo, (a, b) :: m, hm => by
    have hm' := (sortedFrom_cons lo a b m).mp hm
    by_cases h1 : x < a
    · by_cases hv : v = unlistedByte
      · have hne : a ≠ x := by omega
        simp only [writeByte, if_pos h1, if_pos hv, readByte, if_neg hne]
        rw [hv]
        exact readByte_below (lo := a + 1) (by omega) hm'.2.2.2
      · simp only [writeByte, if_pos h1, if_neg hv, readByte, if_true]
    · by_cases h2 : x = a
      · by_cases hv : v = unlistedByte
        · simp only [writeByte, if_neg h1, if_pos h2, if_pos hv]
          rw [hv]
          exact readByte_below (lo := a + 1) (by omega) hm'.2.2.2
        · simp only [writeByte, if_neg h1, if_pos h2, if_neg hv, readByte, if_true]
      · have hne : ¬ a = x := fun h => h2 h.symm
        simp only [writeByte, if_neg h1, if_neg h2, readByte, if_neg hne]
        exact readByte_writeByte_same_from hm'.2.2.2

/-- A written byte reads as written. -/
theorem readByte_writeByte_same {m : Memory} (hm : m.wf = true) (x : Nat) (v : Byte) :
    readByte (writeByte m x v) x = v :=
  readByte_writeByte_same_from hm

/-- A write leaves every other byte alone. -/
theorem readByte_writeByte_ne {x y : Nat} {v : Byte} (h : y ≠ x) : ∀ m : Memory,
    readByte (writeByte m x v) y = readByte m y
  | [] => by
    by_cases hv : v = unlistedByte
    · simp only [writeByte, if_pos hv]
    · simp only [writeByte, if_neg hv, readByte, if_neg (Ne.symm h)]
  | (a, b) :: m => by
    by_cases h1 : x < a
    · by_cases hv : v = unlistedByte
      · simp only [writeByte, if_pos h1, if_pos hv]
      · simp only [writeByte, if_pos h1, if_neg hv, readByte, if_neg (Ne.symm h)]
    · by_cases h2 : x = a
      · have hne : a ≠ y := fun e => h (by omega)
        by_cases hv : v = unlistedByte
        · simp only [writeByte, if_neg h1, if_pos h2, if_pos hv, readByte, if_neg hne]
        · simp only [writeByte, if_neg h1, if_pos h2, if_neg hv, readByte, if_neg (Ne.symm h), if_neg hne]
      · simp only [writeByte, if_neg h1, if_neg h2, readByte, readByte_writeByte_ne h m]

/-- Canonical storage is determined by what it reads as. -/
theorem sortedFrom_ext : ∀ {lo : Nat} {m k : Memory}, sortedFrom lo m = true → sortedFrom lo k = true →
    (∀ x, readByte m x = readByte k x) → m = k
  | _, [], [], _, _, _ => rfl
  | lo, [], (a, b) :: k, _, hk, h => by
    have hk' := (sortedFrom_cons lo a b k).mp hk
    have := h a
    simp only [readByte, if_true] at this
    exact absurd this.symm hk'.2.2.1
  | lo, (a, b) :: m, [], hm, _, h => by
    have hm' := (sortedFrom_cons lo a b m).mp hm
    have := h a
    simp only [readByte, if_true] at this
    exact absurd this hm'.2.2.1
  | lo, (a, b) :: m, (c, d) :: k, hm, hk, h => by
    have hm' := (sortedFrom_cons lo a b m).mp hm
    have hk' := (sortedFrom_cons lo c d k).mp hk
    have hac : a = c := by
      rcases Nat.lt_trichotomy a c with hlt | heq | hgt
      · have := h a
        rw [readByte_below (lo := c) hlt ((sortedFrom_cons c c d k).mpr ⟨le_refl c, hk'.2⟩)] at this
        simp only [readByte, if_true] at this
        exact absurd this hm'.2.2.1
      · exact heq
      · have := h c
        rw [readByte_below (lo := a) hgt ((sortedFrom_cons a a b m).mpr ⟨le_refl a, hm'.2⟩)] at this
        simp only [readByte, if_true] at this
        exact absurd this.symm hk'.2.2.1
    subst hac
    have hbd : b = d := by
      have := h a
      simpa only [readByte, if_true] using this
    subst hbd
    have htail : m = k := by
      refine sortedFrom_ext hm'.2.2.2 hk'.2.2.2 (fun x => ?_)
      by_cases hx : a = x
      · subst hx
        rw [readByte_below (lo := a + 1) (by omega) hm'.2.2.2, readByte_below (lo := a + 1) (by omega) hk'.2.2.2]
      · have := h x
        simpa only [readByte, if_neg hx] using this
    rw [htail]

/-- Two canonical storages that read alike are equal data. -/
theorem Memory.ext_of_wf {m k : Memory} (hm : m.wf = true) (hk : k.wf = true)
    (h : ∀ x, readByte m x = readByte k x) : m = k :=
  sortedFrom_ext hm hk h

/-! ### Several bytes -/

/-- A little-endian store keeps the canonical form. -/
theorem storeLE_wf : ∀ (n : Nat) {m : Memory} {a : Nat} (v : Nat), m.wf = true → a + n ≤ 2 ^ 32 →
    (storeLE m a n v).wf = true
  | 0, _, _, _, hm, _ => hm
  | n + 1, _, a, _, hm, ha => storeLE_wf n _ (writeByte_wf hm (by omega)) (by omega)

/-- A little-endian store leaves every byte outside its span alone. -/
theorem readByte_storeLE_outside {x : Nat} : ∀ (n : Nat) (m : Memory) (a v : Nat), x < a ∨ a + n ≤ x →
    readByte (storeLE m a n v) x = readByte m x
  | 0, _, _, _, _ => rfl
  | n + 1, m, a, v, h => by
    rw [storeLE, readByte_storeLE_outside n _ _ _ (by omega), readByte_writeByte_ne (by omega)]

/-- Byte `k` of a little-endian store is byte `k` of the number. -/
theorem readByte_storeLE_inside : ∀ (n : Nat) {m : Memory} (a v : Nat) {k : Nat}, m.wf = true → a + n ≤ 2 ^ 32 → k < n →
    readByte (storeLE m a n v) (a + k) = BitVec.ofNat 8 (v / 256 ^ k)
  | 0, _, _, _, _, _, _, hk => absurd hk (Nat.not_lt_zero _)
  | n + 1, m, a, v, 0, hm, ha, _ => by
    rw [storeLE, readByte_storeLE_outside n _ _ _ (by omega), Nat.add_zero, readByte_writeByte_same hm,
      pow_zero, Nat.div_one]
  | n + 1, m, a, v, k + 1, hm, ha, hk => by
    rw [storeLE, show a + (k + 1) = (a + 1) + k by omega,
      readByte_storeLE_inside n (a + 1) (v / 256) (writeByte_wf hm (by omega)) (by omega) (by omega),
      Nat.div_div_eq_div_mul, pow_succ, Nat.mul_comm]

/-- A little-endian load looks only at its span. -/
theorem loadLE_congr : ∀ (n : Nat) {m k : Memory} (a : Nat), (∀ j, j < n → readByte m (a + j) = readByte k (a + j)) →
    loadLE m a n = loadLE k a n
  | 0, _, _, _, _ => rfl
  | n + 1, m, k, a, h => by
    have h0 := h 0 (Nat.zero_lt_succ n)
    have ht : loadLE m (a + 1) n = loadLE k (a + 1) n := loadLE_congr n (a + 1) (fun j hj => by
      have := h (j + 1) (by omega)
      rwa [show a + (j + 1) = a + 1 + j by omega] at this)
    rw [Nat.add_zero] at h0
    rw [loadLE, loadLE, h0, ht]

/-- A load is smaller than the span can hold. -/
theorem loadLE_lt : ∀ (n : Nat) (m : Memory) (a : Nat), loadLE m a n < 256 ^ n
  | 0, _, _ => by simp only [loadLE, pow_zero, Nat.lt_one_iff]
  | n + 1, m, a => by
    have h1 := loadLE_lt n m (a + 1)
    have h2 := (readByte m a).isLt
    rw [loadLE, pow_succ]
    omega

/-- A load of what was just stored gives it back. -/
theorem loadLE_storeLE : ∀ (n : Nat) {m : Memory} (a v : Nat), m.wf = true → a + n ≤ 2 ^ 32 →
    loadLE (storeLE m a n v) a n = v % 256 ^ n
  | 0, _, _, v, _, _ => by simp only [loadLE, pow_zero, Nat.mod_one]
  | n + 1, m, a, v, hm, ha => by
    have h0 : readByte (storeLE m a (n + 1) v) a = BitVec.ofNat 8 v := by
      have := readByte_storeLE_inside (n + 1) (m := m) a v (k := 0) hm ha (by omega)
      rwa [Nat.add_zero, pow_zero, Nat.div_one] at this
    have hw := writeByte_wf (v := BitVec.ofNat 8 v) hm (show a < 2 ^ 32 by omega)
    have ih := loadLE_storeLE n (a + 1) (v / 256) hw (by omega)
    rw [loadLE, h0, storeLE, ih, BitVec.toNat_ofNat, pow_succ 256 n, Nat.mul_comm (256 ^ n) 256, Nat.mod_mul]

/-- A load outside the span of a store is not changed by it. -/
theorem loadLE_storeLE_disjoint (n k : Nat) (m : Memory) (a b v : Nat) (h : b + k ≤ a ∨ a + n ≤ b) :
    loadLE (storeLE m a n v) b k = loadLE m b k :=
  loadLE_congr k b (fun j hj => readByte_storeLE_outside n m a v (by omega))

/-- Placing a list of bytes keeps the canonical form. -/
theorem storeBytes_wf : ∀ (bs : List Byte) {m : Memory} {a : Nat}, m.wf = true → (storeBytes m a bs).wf = true
  | [], _, _, hm => hm
  | b :: bs, m, a, hm => by
    by_cases h : a < 2 ^ 32
    · simp only [storeBytes, if_pos h]
      exact storeBytes_wf bs (writeByte_wf hm h)
    · simp only [storeBytes, if_neg h, hm]

/-- Placing a list of cells keeps the canonical form. -/
theorem storeCells_wf : ∀ (cs : List Host.Cell) {m : Memory}, m.wf = true → (storeCells m cs).wf = true
  | [], _, hm => hm
  | (a, b) :: cs, m, hm => by
    by_cases h : a < 2 ^ 32
    · simp only [storeCells, if_pos h]
      exact storeCells_wf cs (writeByte_wf hm h)
    · simp only [storeCells, if_neg h]
      exact storeCells_wf cs hm

/-- Placing cells leaves every address alone that none of them names. -/
theorem readByte_storeCells_ne {x : Nat} : ∀ (cs : List Host.Cell) (m : Memory), (∀ c ∈ cs, c.1 ≠ x) →
    readByte (storeCells m cs) x = readByte m x
  | [], _, _ => rfl
  | (a, b) :: cs, m, h => by
    have ha : x ≠ a := fun e => h (a, b) List.mem_cons_self e.symm
    have ht : ∀ c ∈ cs, c.1 ≠ x := fun c hc => h c (List.mem_cons_of_mem _ hc)
    rw [storeCells, readByte_storeCells_ne cs _ ht]
    by_cases hlt : a < 2 ^ 32
    · rw [if_pos hlt, readByte_writeByte_ne ha]
    · rw [if_neg hlt]

/-- The storage after reset is canonical. -/
theorem reset_mem_wf : State.reset.mem.wf = true := rfl

end Sys2Proof.Machine
end

