-- ==== Sys2Proof/Laws/State.lean ====
section
/-! SUPPORT. One lemma for each field of State and each update of it: a later proof unfolds no record update. -/

namespace Sys2Proof.Machine

variable (s : State)

/-! `State.setRegs` -/

@[simp] theorem State.setRegs_regs (v : Regs) : (s.setRegs v).regs = v := rfl
@[simp] theorem State.setRegs_eip (v : Regs) : (s.setRegs v).eip = s.eip := rfl
@[simp] theorem State.setRegs_nextEip (v : Regs) : (s.setRegs v).nextEip = s.nextEip := rfl
@[simp] theorem State.setRegs_flags (v : Regs) : (s.setRegs v).flags = s.flags := rfl
@[simp] theorem State.setRegs_idtr (v : Regs) : (s.setRegs v).idtr = s.idtr := rfl
@[simp] theorem State.setRegs_pmU (v : Regs) : (s.setRegs v).pmU = s.pmU := rfl
@[simp] theorem State.setRegs_esp0 (v : Regs) : (s.setRegs v).esp0 = s.esp0 := rfl
@[simp] theorem State.setRegs_run (v : Regs) : (s.setRegs v).run = s.run := rfl
@[simp] theorem State.setRegs_cpuErr (v : Regs) : (s.setRegs v).cpuErr = s.cpuErr := rfl
@[simp] theorem State.setRegs_stepDue (v : Regs) : (s.setRegs v).stepDue = s.stepDue := rfl
@[simp] theorem State.setRegs_intc (v : Regs) : (s.setRegs v).intc = s.intc := rfl
@[simp] theorem State.setRegs_mem (v : Regs) : (s.setRegs v).mem = s.mem := rfl
@[simp] theorem State.setRegs_draws (v : Regs) : (s.setRegs v).draws = s.draws := rfl
@[simp] theorem State.setRegs_agenda (v : Regs) : (s.setRegs v).agenda = s.agenda := rfl
@[simp] theorem State.setRegs_plat (v : Regs) : (s.setRegs v).plat = s.plat := rfl

/-! `State.setEip` -/

@[simp] theorem State.setEip_regs (v : Dword) : (s.setEip v).regs = s.regs := rfl
@[simp] theorem State.setEip_eip (v : Dword) : (s.setEip v).eip = v := rfl
@[simp] theorem State.setEip_nextEip (v : Dword) : (s.setEip v).nextEip = s.nextEip := rfl
@[simp] theorem State.setEip_flags (v : Dword) : (s.setEip v).flags = s.flags := rfl
@[simp] theorem State.setEip_idtr (v : Dword) : (s.setEip v).idtr = s.idtr := rfl
@[simp] theorem State.setEip_pmU (v : Dword) : (s.setEip v).pmU = s.pmU := rfl
@[simp] theorem State.setEip_esp0 (v : Dword) : (s.setEip v).esp0 = s.esp0 := rfl
@[simp] theorem State.setEip_run (v : Dword) : (s.setEip v).run = s.run := rfl
@[simp] theorem State.setEip_cpuErr (v : Dword) : (s.setEip v).cpuErr = s.cpuErr := rfl
@[simp] theorem State.setEip_stepDue (v : Dword) : (s.setEip v).stepDue = s.stepDue := rfl
@[simp] theorem State.setEip_intc (v : Dword) : (s.setEip v).intc = s.intc := rfl
@[simp] theorem State.setEip_mem (v : Dword) : (s.setEip v).mem = s.mem := rfl
@[simp] theorem State.setEip_draws (v : Dword) : (s.setEip v).draws = s.draws := rfl
@[simp] theorem State.setEip_agenda (v : Dword) : (s.setEip v).agenda = s.agenda := rfl
@[simp] theorem State.setEip_plat (v : Dword) : (s.setEip v).plat = s.plat := rfl

/-! `State.setNextEip` -/

@[simp] theorem State.setNextEip_regs (v : Dword) : (s.setNextEip v).regs = s.regs := rfl
@[simp] theorem State.setNextEip_eip (v : Dword) : (s.setNextEip v).eip = s.eip := rfl
@[simp] theorem State.setNextEip_nextEip (v : Dword) : (s.setNextEip v).nextEip = v := rfl
@[simp] theorem State.setNextEip_flags (v : Dword) : (s.setNextEip v).flags = s.flags := rfl
@[simp] theorem State.setNextEip_idtr (v : Dword) : (s.setNextEip v).idtr = s.idtr := rfl
@[simp] theorem State.setNextEip_pmU (v : Dword) : (s.setNextEip v).pmU = s.pmU := rfl
@[simp] theorem State.setNextEip_esp0 (v : Dword) : (s.setNextEip v).esp0 = s.esp0 := rfl
@[simp] theorem State.setNextEip_run (v : Dword) : (s.setNextEip v).run = s.run := rfl
@[simp] theorem State.setNextEip_cpuErr (v : Dword) : (s.setNextEip v).cpuErr = s.cpuErr := rfl
@[simp] theorem State.setNextEip_stepDue (v : Dword) : (s.setNextEip v).stepDue = s.stepDue := rfl
@[simp] theorem State.setNextEip_intc (v : Dword) : (s.setNextEip v).intc = s.intc := rfl
@[simp] theorem State.setNextEip_mem (v : Dword) : (s.setNextEip v).mem = s.mem := rfl
@[simp] theorem State.setNextEip_draws (v : Dword) : (s.setNextEip v).draws = s.draws := rfl
@[simp] theorem State.setNextEip_agenda (v : Dword) : (s.setNextEip v).agenda = s.agenda := rfl
@[simp] theorem State.setNextEip_plat (v : Dword) : (s.setNextEip v).plat = s.plat := rfl

/-! `State.setFlags` -/

@[simp] theorem State.setFlags_regs (v : EFlags) : (s.setFlags v).regs = s.regs := rfl
@[simp] theorem State.setFlags_eip (v : EFlags) : (s.setFlags v).eip = s.eip := rfl
@[simp] theorem State.setFlags_nextEip (v : EFlags) : (s.setFlags v).nextEip = s.nextEip := rfl
@[simp] theorem State.setFlags_flags (v : EFlags) : (s.setFlags v).flags = v := rfl
@[simp] theorem State.setFlags_idtr (v : EFlags) : (s.setFlags v).idtr = s.idtr := rfl
@[simp] theorem State.setFlags_pmU (v : EFlags) : (s.setFlags v).pmU = s.pmU := rfl
@[simp] theorem State.setFlags_esp0 (v : EFlags) : (s.setFlags v).esp0 = s.esp0 := rfl
@[simp] theorem State.setFlags_run (v : EFlags) : (s.setFlags v).run = s.run := rfl
@[simp] theorem State.setFlags_cpuErr (v : EFlags) : (s.setFlags v).cpuErr = s.cpuErr := rfl
@[simp] theorem State.setFlags_stepDue (v : EFlags) : (s.setFlags v).stepDue = s.stepDue := rfl
@[simp] theorem State.setFlags_intc (v : EFlags) : (s.setFlags v).intc = s.intc := rfl
@[simp] theorem State.setFlags_mem (v : EFlags) : (s.setFlags v).mem = s.mem := rfl
@[simp] theorem State.setFlags_draws (v : EFlags) : (s.setFlags v).draws = s.draws := rfl
@[simp] theorem State.setFlags_agenda (v : EFlags) : (s.setFlags v).agenda = s.agenda := rfl
@[simp] theorem State.setFlags_plat (v : EFlags) : (s.setFlags v).plat = s.plat := rfl

/-! `State.setIdtr` -/

@[simp] theorem State.setIdtr_regs (v : Idtr) : (s.setIdtr v).regs = s.regs := rfl
@[simp] theorem State.setIdtr_eip (v : Idtr) : (s.setIdtr v).eip = s.eip := rfl
@[simp] theorem State.setIdtr_nextEip (v : Idtr) : (s.setIdtr v).nextEip = s.nextEip := rfl
@[simp] theorem State.setIdtr_flags (v : Idtr) : (s.setIdtr v).flags = s.flags := rfl
@[simp] theorem State.setIdtr_idtr (v : Idtr) : (s.setIdtr v).idtr = v := rfl
@[simp] theorem State.setIdtr_pmU (v : Idtr) : (s.setIdtr v).pmU = s.pmU := rfl
@[simp] theorem State.setIdtr_esp0 (v : Idtr) : (s.setIdtr v).esp0 = s.esp0 := rfl
@[simp] theorem State.setIdtr_run (v : Idtr) : (s.setIdtr v).run = s.run := rfl
@[simp] theorem State.setIdtr_cpuErr (v : Idtr) : (s.setIdtr v).cpuErr = s.cpuErr := rfl
@[simp] theorem State.setIdtr_stepDue (v : Idtr) : (s.setIdtr v).stepDue = s.stepDue := rfl
@[simp] theorem State.setIdtr_intc (v : Idtr) : (s.setIdtr v).intc = s.intc := rfl
@[simp] theorem State.setIdtr_mem (v : Idtr) : (s.setIdtr v).mem = s.mem := rfl
@[simp] theorem State.setIdtr_draws (v : Idtr) : (s.setIdtr v).draws = s.draws := rfl
@[simp] theorem State.setIdtr_agenda (v : Idtr) : (s.setIdtr v).agenda = s.agenda := rfl
@[simp] theorem State.setIdtr_plat (v : Idtr) : (s.setIdtr v).plat = s.plat := rfl

/-! `State.setPmU` -/

@[simp] theorem State.setPmU_regs (v : Bool) : (s.setPmU v).regs = s.regs := rfl
@[simp] theorem State.setPmU_eip (v : Bool) : (s.setPmU v).eip = s.eip := rfl
@[simp] theorem State.setPmU_nextEip (v : Bool) : (s.setPmU v).nextEip = s.nextEip := rfl
@[simp] theorem State.setPmU_flags (v : Bool) : (s.setPmU v).flags = s.flags := rfl
@[simp] theorem State.setPmU_idtr (v : Bool) : (s.setPmU v).idtr = s.idtr := rfl
@[simp] theorem State.setPmU_pmU (v : Bool) : (s.setPmU v).pmU = v := rfl
@[simp] theorem State.setPmU_esp0 (v : Bool) : (s.setPmU v).esp0 = s.esp0 := rfl
@[simp] theorem State.setPmU_run (v : Bool) : (s.setPmU v).run = s.run := rfl
@[simp] theorem State.setPmU_cpuErr (v : Bool) : (s.setPmU v).cpuErr = s.cpuErr := rfl
@[simp] theorem State.setPmU_stepDue (v : Bool) : (s.setPmU v).stepDue = s.stepDue := rfl
@[simp] theorem State.setPmU_intc (v : Bool) : (s.setPmU v).intc = s.intc := rfl
@[simp] theorem State.setPmU_mem (v : Bool) : (s.setPmU v).mem = s.mem := rfl
@[simp] theorem State.setPmU_draws (v : Bool) : (s.setPmU v).draws = s.draws := rfl
@[simp] theorem State.setPmU_agenda (v : Bool) : (s.setPmU v).agenda = s.agenda := rfl
@[simp] theorem State.setPmU_plat (v : Bool) : (s.setPmU v).plat = s.plat := rfl

/-! `State.setRun` -/

@[simp] theorem State.setRun_regs (v : RunState) : (s.setRun v).regs = s.regs := rfl
@[simp] theorem State.setRun_eip (v : RunState) : (s.setRun v).eip = s.eip := rfl
@[simp] theorem State.setRun_nextEip (v : RunState) : (s.setRun v).nextEip = s.nextEip := rfl
@[simp] theorem State.setRun_flags (v : RunState) : (s.setRun v).flags = s.flags := rfl
@[simp] theorem State.setRun_idtr (v : RunState) : (s.setRun v).idtr = s.idtr := rfl
@[simp] theorem State.setRun_pmU (v : RunState) : (s.setRun v).pmU = s.pmU := rfl
@[simp] theorem State.setRun_esp0 (v : RunState) : (s.setRun v).esp0 = s.esp0 := rfl
@[simp] theorem State.setRun_run (v : RunState) : (s.setRun v).run = v := rfl
@[simp] theorem State.setRun_cpuErr (v : RunState) : (s.setRun v).cpuErr = s.cpuErr := rfl
@[simp] theorem State.setRun_stepDue (v : RunState) : (s.setRun v).stepDue = s.stepDue := rfl
@[simp] theorem State.setRun_intc (v : RunState) : (s.setRun v).intc = s.intc := rfl
@[simp] theorem State.setRun_mem (v : RunState) : (s.setRun v).mem = s.mem := rfl
@[simp] theorem State.setRun_draws (v : RunState) : (s.setRun v).draws = s.draws := rfl
@[simp] theorem State.setRun_agenda (v : RunState) : (s.setRun v).agenda = s.agenda := rfl
@[simp] theorem State.setRun_plat (v : RunState) : (s.setRun v).plat = s.plat := rfl

/-! `State.setCpuErr` -/

@[simp] theorem State.setCpuErr_regs (v : Bool) : (s.setCpuErr v).regs = s.regs := rfl
@[simp] theorem State.setCpuErr_eip (v : Bool) : (s.setCpuErr v).eip = s.eip := rfl
@[simp] theorem State.setCpuErr_nextEip (v : Bool) : (s.setCpuErr v).nextEip = s.nextEip := rfl
@[simp] theorem State.setCpuErr_flags (v : Bool) : (s.setCpuErr v).flags = s.flags := rfl
@[simp] theorem State.setCpuErr_idtr (v : Bool) : (s.setCpuErr v).idtr = s.idtr := rfl
@[simp] theorem State.setCpuErr_pmU (v : Bool) : (s.setCpuErr v).pmU = s.pmU := rfl
@[simp] theorem State.setCpuErr_esp0 (v : Bool) : (s.setCpuErr v).esp0 = s.esp0 := rfl
@[simp] theorem State.setCpuErr_run (v : Bool) : (s.setCpuErr v).run = s.run := rfl
@[simp] theorem State.setCpuErr_cpuErr (v : Bool) : (s.setCpuErr v).cpuErr = v := rfl
@[simp] theorem State.setCpuErr_stepDue (v : Bool) : (s.setCpuErr v).stepDue = s.stepDue := rfl
@[simp] theorem State.setCpuErr_intc (v : Bool) : (s.setCpuErr v).intc = s.intc := rfl
@[simp] theorem State.setCpuErr_mem (v : Bool) : (s.setCpuErr v).mem = s.mem := rfl
@[simp] theorem State.setCpuErr_draws (v : Bool) : (s.setCpuErr v).draws = s.draws := rfl
@[simp] theorem State.setCpuErr_agenda (v : Bool) : (s.setCpuErr v).agenda = s.agenda := rfl
@[simp] theorem State.setCpuErr_plat (v : Bool) : (s.setCpuErr v).plat = s.plat := rfl

/-! `State.setStepDue` -/

@[simp] theorem State.setStepDue_regs (v : Bool) : (s.setStepDue v).regs = s.regs := rfl
@[simp] theorem State.setStepDue_eip (v : Bool) : (s.setStepDue v).eip = s.eip := rfl
@[simp] theorem State.setStepDue_nextEip (v : Bool) : (s.setStepDue v).nextEip = s.nextEip := rfl
@[simp] theorem State.setStepDue_flags (v : Bool) : (s.setStepDue v).flags = s.flags := rfl
@[simp] theorem State.setStepDue_idtr (v : Bool) : (s.setStepDue v).idtr = s.idtr := rfl
@[simp] theorem State.setStepDue_pmU (v : Bool) : (s.setStepDue v).pmU = s.pmU := rfl
@[simp] theorem State.setStepDue_esp0 (v : Bool) : (s.setStepDue v).esp0 = s.esp0 := rfl
@[simp] theorem State.setStepDue_run (v : Bool) : (s.setStepDue v).run = s.run := rfl
@[simp] theorem State.setStepDue_cpuErr (v : Bool) : (s.setStepDue v).cpuErr = s.cpuErr := rfl
@[simp] theorem State.setStepDue_stepDue (v : Bool) : (s.setStepDue v).stepDue = v := rfl
@[simp] theorem State.setStepDue_intc (v : Bool) : (s.setStepDue v).intc = s.intc := rfl
@[simp] theorem State.setStepDue_mem (v : Bool) : (s.setStepDue v).mem = s.mem := rfl
@[simp] theorem State.setStepDue_draws (v : Bool) : (s.setStepDue v).draws = s.draws := rfl
@[simp] theorem State.setStepDue_agenda (v : Bool) : (s.setStepDue v).agenda = s.agenda := rfl
@[simp] theorem State.setStepDue_plat (v : Bool) : (s.setStepDue v).plat = s.plat := rfl

/-! `State.setIntc` -/

@[simp] theorem State.setIntc_regs (v : IntCtl) : (s.setIntc v).regs = s.regs := rfl
@[simp] theorem State.setIntc_eip (v : IntCtl) : (s.setIntc v).eip = s.eip := rfl
@[simp] theorem State.setIntc_nextEip (v : IntCtl) : (s.setIntc v).nextEip = s.nextEip := rfl
@[simp] theorem State.setIntc_flags (v : IntCtl) : (s.setIntc v).flags = s.flags := rfl
@[simp] theorem State.setIntc_idtr (v : IntCtl) : (s.setIntc v).idtr = s.idtr := rfl
@[simp] theorem State.setIntc_pmU (v : IntCtl) : (s.setIntc v).pmU = s.pmU := rfl
@[simp] theorem State.setIntc_esp0 (v : IntCtl) : (s.setIntc v).esp0 = s.esp0 := rfl
@[simp] theorem State.setIntc_run (v : IntCtl) : (s.setIntc v).run = s.run := rfl
@[simp] theorem State.setIntc_cpuErr (v : IntCtl) : (s.setIntc v).cpuErr = s.cpuErr := rfl
@[simp] theorem State.setIntc_stepDue (v : IntCtl) : (s.setIntc v).stepDue = s.stepDue := rfl
@[simp] theorem State.setIntc_intc (v : IntCtl) : (s.setIntc v).intc = v := rfl
@[simp] theorem State.setIntc_mem (v : IntCtl) : (s.setIntc v).mem = s.mem := rfl
@[simp] theorem State.setIntc_draws (v : IntCtl) : (s.setIntc v).draws = s.draws := rfl
@[simp] theorem State.setIntc_agenda (v : IntCtl) : (s.setIntc v).agenda = s.agenda := rfl
@[simp] theorem State.setIntc_plat (v : IntCtl) : (s.setIntc v).plat = s.plat := rfl

/-! `State.setMem` -/

@[simp] theorem State.setMem_regs (v : Memory) : (s.setMem v).regs = s.regs := rfl
@[simp] theorem State.setMem_eip (v : Memory) : (s.setMem v).eip = s.eip := rfl
@[simp] theorem State.setMem_nextEip (v : Memory) : (s.setMem v).nextEip = s.nextEip := rfl
@[simp] theorem State.setMem_flags (v : Memory) : (s.setMem v).flags = s.flags := rfl
@[simp] theorem State.setMem_idtr (v : Memory) : (s.setMem v).idtr = s.idtr := rfl
@[simp] theorem State.setMem_pmU (v : Memory) : (s.setMem v).pmU = s.pmU := rfl
@[simp] theorem State.setMem_esp0 (v : Memory) : (s.setMem v).esp0 = s.esp0 := rfl
@[simp] theorem State.setMem_run (v : Memory) : (s.setMem v).run = s.run := rfl
@[simp] theorem State.setMem_cpuErr (v : Memory) : (s.setMem v).cpuErr = s.cpuErr := rfl
@[simp] theorem State.setMem_stepDue (v : Memory) : (s.setMem v).stepDue = s.stepDue := rfl
@[simp] theorem State.setMem_intc (v : Memory) : (s.setMem v).intc = s.intc := rfl
@[simp] theorem State.setMem_mem (v : Memory) : (s.setMem v).mem = v := rfl
@[simp] theorem State.setMem_draws (v : Memory) : (s.setMem v).draws = s.draws := rfl
@[simp] theorem State.setMem_agenda (v : Memory) : (s.setMem v).agenda = s.agenda := rfl
@[simp] theorem State.setMem_plat (v : Memory) : (s.setMem v).plat = s.plat := rfl

/-! `State.setDraws` -/

@[simp] theorem State.setDraws_regs (v : Nat) : (s.setDraws v).regs = s.regs := rfl
@[simp] theorem State.setDraws_eip (v : Nat) : (s.setDraws v).eip = s.eip := rfl
@[simp] theorem State.setDraws_nextEip (v : Nat) : (s.setDraws v).nextEip = s.nextEip := rfl
@[simp] theorem State.setDraws_flags (v : Nat) : (s.setDraws v).flags = s.flags := rfl
@[simp] theorem State.setDraws_idtr (v : Nat) : (s.setDraws v).idtr = s.idtr := rfl
@[simp] theorem State.setDraws_pmU (v : Nat) : (s.setDraws v).pmU = s.pmU := rfl
@[simp] theorem State.setDraws_esp0 (v : Nat) : (s.setDraws v).esp0 = s.esp0 := rfl
@[simp] theorem State.setDraws_run (v : Nat) : (s.setDraws v).run = s.run := rfl
@[simp] theorem State.setDraws_cpuErr (v : Nat) : (s.setDraws v).cpuErr = s.cpuErr := rfl
@[simp] theorem State.setDraws_stepDue (v : Nat) : (s.setDraws v).stepDue = s.stepDue := rfl
@[simp] theorem State.setDraws_intc (v : Nat) : (s.setDraws v).intc = s.intc := rfl
@[simp] theorem State.setDraws_mem (v : Nat) : (s.setDraws v).mem = s.mem := rfl
@[simp] theorem State.setDraws_draws (v : Nat) : (s.setDraws v).draws = v := rfl
@[simp] theorem State.setDraws_agenda (v : Nat) : (s.setDraws v).agenda = s.agenda := rfl
@[simp] theorem State.setDraws_plat (v : Nat) : (s.setDraws v).plat = s.plat := rfl

/-! `State.setAgenda` -/

@[simp] theorem State.setAgenda_regs (v : List Turn) : (s.setAgenda v).regs = s.regs := rfl
@[simp] theorem State.setAgenda_eip (v : List Turn) : (s.setAgenda v).eip = s.eip := rfl
@[simp] theorem State.setAgenda_nextEip (v : List Turn) : (s.setAgenda v).nextEip = s.nextEip := rfl
@[simp] theorem State.setAgenda_flags (v : List Turn) : (s.setAgenda v).flags = s.flags := rfl
@[simp] theorem State.setAgenda_idtr (v : List Turn) : (s.setAgenda v).idtr = s.idtr := rfl
@[simp] theorem State.setAgenda_pmU (v : List Turn) : (s.setAgenda v).pmU = s.pmU := rfl
@[simp] theorem State.setAgenda_esp0 (v : List Turn) : (s.setAgenda v).esp0 = s.esp0 := rfl
@[simp] theorem State.setAgenda_run (v : List Turn) : (s.setAgenda v).run = s.run := rfl
@[simp] theorem State.setAgenda_cpuErr (v : List Turn) : (s.setAgenda v).cpuErr = s.cpuErr := rfl
@[simp] theorem State.setAgenda_stepDue (v : List Turn) : (s.setAgenda v).stepDue = s.stepDue := rfl
@[simp] theorem State.setAgenda_intc (v : List Turn) : (s.setAgenda v).intc = s.intc := rfl
@[simp] theorem State.setAgenda_mem (v : List Turn) : (s.setAgenda v).mem = s.mem := rfl
@[simp] theorem State.setAgenda_draws (v : List Turn) : (s.setAgenda v).draws = s.draws := rfl
@[simp] theorem State.setAgenda_agenda (v : List Turn) : (s.setAgenda v).agenda = v := rfl
@[simp] theorem State.setAgenda_plat (v : List Turn) : (s.setAgenda v).plat = s.plat := rfl

/-! `State.setReg` -/

@[simp] theorem State.setReg_regs (r : Reg) (v : Dword) : (s.setReg r v).regs = s.regs.set r v := rfl
@[simp] theorem State.setReg_eip (r : Reg) (v : Dword) : (s.setReg r v).eip = s.eip := rfl
@[simp] theorem State.setReg_nextEip (r : Reg) (v : Dword) : (s.setReg r v).nextEip = s.nextEip := rfl
@[simp] theorem State.setReg_flags (r : Reg) (v : Dword) : (s.setReg r v).flags = s.flags := rfl
@[simp] theorem State.setReg_idtr (r : Reg) (v : Dword) : (s.setReg r v).idtr = s.idtr := rfl
@[simp] theorem State.setReg_pmU (r : Reg) (v : Dword) : (s.setReg r v).pmU = s.pmU := rfl
@[simp] theorem State.setReg_esp0 (r : Reg) (v : Dword) : (s.setReg r v).esp0 = s.esp0 := rfl
@[simp] theorem State.setReg_run (r : Reg) (v : Dword) : (s.setReg r v).run = s.run := rfl
@[simp] theorem State.setReg_cpuErr (r : Reg) (v : Dword) : (s.setReg r v).cpuErr = s.cpuErr := rfl
@[simp] theorem State.setReg_stepDue (r : Reg) (v : Dword) : (s.setReg r v).stepDue = s.stepDue := rfl
@[simp] theorem State.setReg_intc (r : Reg) (v : Dword) : (s.setReg r v).intc = s.intc := rfl
@[simp] theorem State.setReg_mem (r : Reg) (v : Dword) : (s.setReg r v).mem = s.mem := rfl
@[simp] theorem State.setReg_draws (r : Reg) (v : Dword) : (s.setReg r v).draws = s.draws := rfl
@[simp] theorem State.setReg_agenda (r : Reg) (v : Dword) : (s.setReg r v).agenda = s.agenda := rfl
@[simp] theorem State.setReg_plat (r : Reg) (v : Dword) : (s.setReg r v).plat = s.plat := rfl

/-! `State.drawn` and `State.advance` -/

@[simp] theorem State.drawn_regs : s.drawn.regs = s.regs := rfl
@[simp] theorem State.drawn_eip : s.drawn.eip = s.eip := rfl
@[simp] theorem State.drawn_nextEip : s.drawn.nextEip = s.nextEip := rfl
@[simp] theorem State.drawn_flags : s.drawn.flags = s.flags := rfl
@[simp] theorem State.drawn_idtr : s.drawn.idtr = s.idtr := rfl
@[simp] theorem State.drawn_pmU : s.drawn.pmU = s.pmU := rfl
@[simp] theorem State.drawn_esp0 : s.drawn.esp0 = s.esp0 := rfl
@[simp] theorem State.drawn_run : s.drawn.run = s.run := rfl
@[simp] theorem State.drawn_cpuErr : s.drawn.cpuErr = s.cpuErr := rfl
@[simp] theorem State.drawn_stepDue : s.drawn.stepDue = s.stepDue := rfl
@[simp] theorem State.drawn_intc : s.drawn.intc = s.intc := rfl
@[simp] theorem State.drawn_mem : s.drawn.mem = s.mem := rfl
@[simp] theorem State.drawn_draws : s.drawn.draws = s.draws + 1 := rfl
@[simp] theorem State.drawn_agenda : s.drawn.agenda = s.agenda := rfl
@[simp] theorem State.drawn_plat : s.drawn.plat = s.plat := rfl
@[simp] theorem State.advance_regs : s.advance.regs = s.regs := rfl
@[simp] theorem State.advance_eip : s.advance.eip = s.nextEip := rfl
@[simp] theorem State.advance_nextEip : s.advance.nextEip = s.nextEip := rfl
@[simp] theorem State.advance_flags : s.advance.flags = s.flags := rfl
@[simp] theorem State.advance_idtr : s.advance.idtr = s.idtr := rfl
@[simp] theorem State.advance_pmU : s.advance.pmU = s.pmU := rfl
@[simp] theorem State.advance_esp0 : s.advance.esp0 = s.esp0 := rfl
@[simp] theorem State.advance_run : s.advance.run = s.run := rfl
@[simp] theorem State.advance_cpuErr : s.advance.cpuErr = s.cpuErr := rfl
@[simp] theorem State.advance_stepDue : s.advance.stepDue = s.stepDue := rfl
@[simp] theorem State.advance_intc : s.advance.intc = s.intc := rfl
@[simp] theorem State.advance_mem : s.advance.mem = s.mem := rfl
@[simp] theorem State.advance_draws : s.advance.draws = s.draws := rfl
@[simp] theorem State.advance_agenda : s.advance.agenda = s.agenda := rfl
@[simp] theorem State.advance_plat : s.advance.plat = s.plat := rfl

/-! `State.pastDraws` -/

@[simp] theorem State.pastDraws_regs : s.pastDraws.regs = s.regs := rfl
@[simp] theorem State.pastDraws_eip : s.pastDraws.eip = s.eip := rfl
@[simp] theorem State.pastDraws_nextEip : s.pastDraws.nextEip = s.nextEip := rfl
@[simp] theorem State.pastDraws_flags : s.pastDraws.flags = s.flags := rfl
@[simp] theorem State.pastDraws_idtr : s.pastDraws.idtr = s.idtr := rfl
@[simp] theorem State.pastDraws_pmU : s.pastDraws.pmU = s.pmU := rfl
@[simp] theorem State.pastDraws_esp0 : s.pastDraws.esp0 = s.esp0 := rfl
@[simp] theorem State.pastDraws_run : s.pastDraws.run = s.run := rfl
@[simp] theorem State.pastDraws_cpuErr : s.pastDraws.cpuErr = s.cpuErr := rfl
@[simp] theorem State.pastDraws_stepDue : s.pastDraws.stepDue = s.stepDue := rfl
@[simp] theorem State.pastDraws_intc : s.pastDraws.intc = s.intc := rfl
@[simp] theorem State.pastDraws_mem : s.pastDraws.mem = s.mem := rfl
@[simp] theorem State.pastDraws_draws : s.pastDraws.draws = s.draws + 3 := rfl
@[simp] theorem State.pastDraws_agenda : s.pastDraws.agenda = s.agenda := rfl
@[simp] theorem State.pastDraws_plat : s.pastDraws.plat = s.plat := rfl
@[simp] theorem State.pastDraws_reg (r : Reg) : s.pastDraws.reg r = s.reg r := rfl

/-! `State.reg` through the updates -/

@[simp] theorem State.setEip_reg (v : Dword) (r : Reg) : (s.setEip v).reg r = s.reg r := rfl
@[simp] theorem State.setNextEip_reg (v : Dword) (r : Reg) : (s.setNextEip v).reg r = s.reg r := rfl
@[simp] theorem State.setFlags_reg (v : EFlags) (r : Reg) : (s.setFlags v).reg r = s.reg r := rfl
@[simp] theorem State.setIdtr_reg (v : Idtr) (r : Reg) : (s.setIdtr v).reg r = s.reg r := rfl
@[simp] theorem State.setPmU_reg (v : Bool) (r : Reg) : (s.setPmU v).reg r = s.reg r := rfl
@[simp] theorem State.setRun_reg (v : RunState) (r : Reg) : (s.setRun v).reg r = s.reg r := rfl
@[simp] theorem State.setCpuErr_reg (v : Bool) (r : Reg) : (s.setCpuErr v).reg r = s.reg r := rfl
@[simp] theorem State.setStepDue_reg (v : Bool) (r : Reg) : (s.setStepDue v).reg r = s.reg r := rfl
@[simp] theorem State.setIntc_reg (v : IntCtl) (r : Reg) : (s.setIntc v).reg r = s.reg r := rfl
@[simp] theorem State.setMem_reg (v : Memory) (r : Reg) : (s.setMem v).reg r = s.reg r := rfl
@[simp] theorem State.setDraws_reg (v : Nat) (r : Reg) : (s.setDraws v).reg r = s.reg r := rfl
@[simp] theorem State.setAgenda_reg (v : List Turn) (r : Reg) : (s.setAgenda v).reg r = s.reg r := rfl
@[simp] theorem State.drawn_reg (r : Reg) : s.drawn.reg r = s.reg r := rfl
@[simp] theorem State.advance_reg (r : Reg) : s.advance.reg r = s.reg r := rfl

/-! ### The register file -/

@[simp] theorem Regs.get_set_same (g : Regs) (r : Reg) (v : Dword) : (g.set r v).get r = v := by cases r <;> rfl

theorem Regs.get_set_ne (g : Regs) {q r : Reg} (v : Dword) (h : q ≠ r) : (g.set r v).get q = g.get q := by
  cases r <;> cases q <;> first | rfl | exact absurd rfl h

/-- Two register files that agree on every register are one. -/
theorem Regs.ext_get {g k : Regs} (h : ∀ r, g.get r = k.get r) : g = k := by
  cases g; cases k
  have h0 := h .eax; have h1 := h .ecx; have h2 := h .edx; have h3 := h .ebx
  have h4 := h .esp; have h5 := h .ebp; have h6 := h .esi; have h7 := h .edi
  simp only [Regs.get] at h0 h1 h2 h3 h4 h5 h6 h7
  subst h0 h1 h2 h3 h4 h5 h6 h7
  rfl

@[simp] theorem Regs.set_get (g : Regs) (r : Reg) : g.set r (g.get r) = g := by cases r <;> rfl

@[simp] theorem Regs.set_set (g : Regs) (r : Reg) (u v : Dword) : (g.set r u).set r v = g.set r v := by cases r <;> rfl

@[simp] theorem State.reg_setReg_same (r : Reg) (v : Dword) : (s.setReg r v).reg r = v := by
  simp only [State.reg, State.setReg_regs, Regs.get_set_same]

theorem State.reg_setReg_ne {q r : Reg} (v : Dword) (h : q ≠ r) : (s.setReg r v).reg q = s.reg q := by
  simp only [State.reg, State.setReg_regs, Regs.get_set_ne _ _ h]

end Sys2Proof.Machine
end

