-- ==== Sys2Proof/Laws/Access.lean ====
section
/-! SUPPORT. What a data access and an operand access can do, said once: which fields they leave, what they keep true, and
that what is written is read back. -/

namespace Sys2Proof.Machine

/-! ### Views of registers -/

/-- A write through a view is a write of the register that holds it. -/
theorem State.setView_eq (s : State) (w : Width) (r : Reg) (v : BitVec w.bits) :
    ∃ x, s.setView w r v = s.setReg (hostReg w r) x := by
  cases w
  · exact ⟨_, rfl⟩
  · exact ⟨_, rfl⟩
  · exact ⟨_, rfl⟩

section View

variable (s : State) (w : Width) (r : Reg) (v : BitVec w.bits)

@[simp] theorem State.setView_eip : (s.setView w r v).eip = s.eip := by cases w <;> rfl
@[simp] theorem State.setView_nextEip : (s.setView w r v).nextEip = s.nextEip := by cases w <;> rfl
@[simp] theorem State.setView_flags : (s.setView w r v).flags = s.flags := by cases w <;> rfl
@[simp] theorem State.setView_idtr : (s.setView w r v).idtr = s.idtr := by cases w <;> rfl
@[simp] theorem State.setView_pmU : (s.setView w r v).pmU = s.pmU := by cases w <;> rfl
@[simp] theorem State.setView_esp0 : (s.setView w r v).esp0 = s.esp0 := by cases w <;> rfl
@[simp] theorem State.setView_run : (s.setView w r v).run = s.run := by cases w <;> rfl
@[simp] theorem State.setView_cpuErr : (s.setView w r v).cpuErr = s.cpuErr := by cases w <;> rfl
@[simp] theorem State.setView_stepDue : (s.setView w r v).stepDue = s.stepDue := by cases w <;> rfl
@[simp] theorem State.setView_intc : (s.setView w r v).intc = s.intc := by cases w <;> rfl
@[simp] theorem State.setView_mem : (s.setView w r v).mem = s.mem := by cases w <;> rfl
@[simp] theorem State.setView_draws : (s.setView w r v).draws = s.draws := by cases w <;> rfl
@[simp] theorem State.setView_agenda : (s.setView w r v).agenda = s.agenda := by cases w <;> rfl
@[simp] theorem State.setView_plat : (s.setView w r v).plat = s.plat := by cases w <;> rfl

/-- A write through a view leaves every other register alone. -/
theorem State.reg_setView_ne {q : Reg} (h : q ≠ hostReg w r) : (s.setView w r v).reg q = s.reg q := by
  obtain ⟨x, hx⟩ := s.setView_eq w r v
  rw [hx, s.reg_setReg_ne x h]

end View

theorem extract_putLow8 (x : Dword) (v : Byte) : (putLow8 x v).extractLsb' 0 8 = v := by
  ext i hi
  simp only [putLow8, BitVec.getElem_extractLsb', BitVec.getLsbD_append, Nat.zero_add]
  simp [show i < 8 from hi]

theorem extract_putHigh8 (x : Dword) (v : Byte) : (putHigh8 x v).extractLsb' 8 8 = v := by
  ext i hi
  simp only [putHigh8, BitVec.getElem_extractLsb', BitVec.getLsbD_append, show ¬ 8 + i < 8 by omega,
    Nat.add_sub_cancel_left, show i < 8 from hi, if_true, if_false]
  rw [BitVec.getLsbD_eq_getElem hi]

theorem extract_putLow16 (x : Dword) (v : BitVec 16) : (putLow16 x v).extractLsb' 0 16 = v := by
  ext i hi
  simp only [putLow16, BitVec.getElem_extractLsb', BitVec.getLsbD_append, Nat.zero_add]
  simp [show i < 16 from hi]

/-- A view reads as it was written (spec R33). -/
@[simp] theorem State.view_setView_same (s : State) (w : Width) (r : Reg) (v : BitVec w.bits) :
    (s.setView w r v).view w r = v := by
  cases w
  · unfold State.setView State.view
    cases hr : isHighByte r
    · simp only [Bool.false_eq_true, if_false, State.reg_setReg_same, extract_putLow8]
    · simp only [if_true, State.reg_setReg_same, extract_putHigh8]
  · simp only [State.setView, State.view, State.reg_setReg_same, extract_putLow16]
  · simp only [State.setView, State.view, State.reg_setReg_same]

/-! ### What accesses leave alone -/

/-- The fields that no data access touches. -/
structure SameCore (s t : State) : Prop where
  eip : t.eip = s.eip
  nextEip : t.nextEip = s.nextEip
  flags : t.flags = s.flags
  idtr : t.idtr = s.idtr
  pmU : t.pmU = s.pmU
  esp0 : t.esp0 = s.esp0
  run : t.run = s.run
  cpuErr : t.cpuErr = s.cpuErr
  stepDue : t.stepDue = s.stepDue
  agenda : t.agenda = s.agenda
  plat : t.plat = s.plat

theorem SameCore.refl (s : State) : SameCore s s := ⟨rfl, rfl, rfl, rfl, rfl, rfl, rfl, rfl, rfl, rfl, rfl⟩

theorem SameCore.trans {s t u : State} (h : SameCore s t) (k : SameCore t u) : SameCore s u :=
  ⟨k.eip.trans h.eip, k.nextEip.trans h.nextEip, k.flags.trans h.flags, k.idtr.trans h.idtr, k.pmU.trans h.pmU,
    k.esp0.trans h.esp0, k.run.trans h.run, k.cpuErr.trans h.cpuErr, k.stepDue.trans h.stepDue, k.agenda.trans h.agenda,
    k.plat.trans h.plat⟩

theorem SameCore.setIntc (s : State) (c : IntCtl) : SameCore s (s.setIntc c) :=
  ⟨rfl, rfl, rfl, rfl, rfl, rfl, rfl, rfl, rfl, rfl, rfl⟩

theorem SameCore.setMem (s : State) (m : Memory) : SameCore s (s.setMem m) :=
  ⟨rfl, rfl, rfl, rfl, rfl, rfl, rfl, rfl, rfl, rfl, rfl⟩

theorem SameCore.drawn (s : State) : SameCore s s.drawn := ⟨rfl, rfl, rfl, rfl, rfl, rfl, rfl, rfl, rfl, rfl, rfl⟩

theorem SameCore.pastDraws (s : State) : SameCore s s.pastDraws :=
  ⟨rfl, rfl, rfl, rfl, rfl, rfl, rfl, rfl, rfl, rfl, rfl⟩

theorem SameCore.setReg (s : State) (r : Reg) (v : Dword) : SameCore s (s.setReg r v) :=
  ⟨rfl, rfl, rfl, rfl, rfl, rfl, rfl, rfl, rfl, rfl, rfl⟩

theorem SameCore.setView (s : State) (w : Width) (r : Reg) (v : BitVec w.bits) : SameCore s (s.setView w r v) := by
  obtain ⟨x, hx⟩ := s.setView_eq w r v
  rw [hx]
  exact SameCore.setReg s _ x

/-- What every operation of the machine keeps true of the storage and of the interrupt controller: the canonical form,
the bytes of the instruction memory and FLASH, a settled controller, and a spurious vector that software may select. -/
structure Keeps (s t : State) : Prop where
  plat : t.plat = s.plat
  wf : s.mem.wf = true → t.mem.wf = true
  code : ∀ x, isCode s.plat x = true → readByte t.mem x = readByte s.mem x
  settled : s.intc.settle = s.intc → t.intc.settle = t.intc
  sivr : 0x20 ≤ s.intc.lapic.sivr.toNat → 0x20 ≤ t.intc.lapic.sivr.toNat

theorem Keeps.refl (s : State) : Keeps s s := ⟨rfl, id, fun _ _ => rfl, id, id⟩

theorem Keeps.trans {s t u : State} (h : Keeps s t) (k : Keeps t u) : Keeps s u :=
  ⟨k.plat.trans h.plat, fun x => k.wf (h.wf x), fun x hx => (k.code x (by rw [h.plat]; exact hx)).trans (h.code x hx),
    fun x => k.settled (h.settled x), fun x => k.sivr (h.sivr x)⟩

/-- An update of fields other than the storage, the controller and the platform keeps all of it. -/
theorem Keeps.of_eq {s t : State} (hp : t.plat = s.plat) (hm : t.mem = s.mem) (hc : t.intc = s.intc) : Keeps s t :=
  ⟨hp, fun h => hm ▸ h, fun _ _ => by rw [hm], fun h => by rw [hc]; exact h, fun h => by rw [hc]; exact h⟩

theorem Keeps.setView (s : State) (w : Width) (r : Reg) (v : BitVec w.bits) : Keeps s (s.setView w r v) :=
  Keeps.of_eq (s.setView_plat w r v) (s.setView_mem w r v) (s.setView_intc w r v)

/-! ### Routes -/

/-- A platform without rows of its own has the BusErr of D2. -/
theorem busErr_default {p : Config.Platform} (h : p.busErr = []) (kind : Config.AccessKind) (a : Nat) :
    busErr p kind a = busErrDefault p kind a := by
  cases kind <;> simp [busErr, busErrDefault, h]

/-- A fetch outside ICCM_RANGE meets a bus error on every platform (spec R93, R483). -/
theorem busErr_fetch_outside {p : Config.Platform} {a : Nat} (h : isFetchable p a = false) : busErr p .fetch a = true := by
  simp [busErr, h]

/-- An access that reaches the storage lies inside the address space, and no store reaches the instruction memory. -/
theorem route_storage {p : Config.Platform} {kind : Config.AccessKind} {w : Width} {a : Dword}
    (h : route p kind w a = .ok .storage) :
    a.toNat + w.bytes ≤ 2 ^ 32 ∧ (kind = .write → ∀ x ∈ span a.toNat w.bytes, isCode p x = false) := by
  unfold route at h
  dsimp only at h
  split at h
  · exact absurd h (by simp only [reduceCtorEq, not_false_eq_true])
  split at h
  · exact absurd h (by simp only [reduceCtorEq, not_false_eq_true])
  rename_i hend
  refine ⟨by omega, fun hk => ?_⟩
  split at h
  · exact absurd h (by simp only [reduceCtorEq, not_false_eq_true])
  split at h
  · split at h <;> exact absurd h (by simp only [reduceCtorEq, not_false_eq_true, Except.ok.injEq])
  split at h
  · split at h <;> exact absurd h (by simp only [reduceCtorEq, not_false_eq_true, Except.ok.injEq])
  split at h
  · split at h <;> exact absurd h (by simp only [reduceCtorEq, not_false_eq_true, Except.ok.injEq])
  split at h
  · split at h <;> exact absurd h (by simp only [reduceCtorEq, not_false_eq_true, Except.ok.injEq])
  rename_i hcode
  intro x hx
  by_contra hne
  exact hcode ⟨hk, List.any_eq_true.mpr ⟨x, hx, by simpa using hne⟩⟩

theorem mem_span {a n x : Nat} : x ∈ span a n ↔ a ≤ x ∧ x < a + n := by
  simp only [span, List.mem_map, List.mem_range]
  constructor
  · rintro ⟨k, hk, rfl⟩
    omega
  · intro h
    exact ⟨x - a, by omega, by omega⟩

/-! ### Reading -/

/-- Everything a data read can do to the state: nothing, or one draw of a free value. -/
theorem readMem_state {w : Width} {a : Dword} {s t : State} {v : BitVec w.bits} (h : readMem w a s = .ok (v, t)) :
    t = s ∨ t = s.drawn := by
  unfold readMem at h
  split at h
  · exact absurd h (by simp only [reduceCtorEq, not_false_eq_true])
  · unfold mmioValue at h
    split at h
    rename_i u v' t' hm
    split at hm <;> simp only [Prod.mk.injEq] at hm <;> simp only [Except.ok.injEq, Prod.mk.injEq] at h
    · exact .inl (h.2.symm.trans hm.2.symm)
    · exact .inr (h.2.symm.trans hm.2.symm)
  · unfold mmioValue at h
    split at h
    rename_i u v' t' hm
    split at hm <;> simp only [Prod.mk.injEq] at hm <;> simp only [Except.ok.injEq, Prod.mk.injEq] at h
    · exact .inl (h.2.symm.trans hm.2.symm)
    · exact .inr (h.2.symm.trans hm.2.symm)
  · simp only [mmioValue, Except.ok.injEq, Prod.mk.injEq] at h
    exact .inr h.2.symm
  · simp only [Except.ok.injEq, Prod.mk.injEq] at h
    exact .inl h.2.symm

/-- A read of a device answers a fresh free value. -/
theorem readMem_device {a : Dword} {s : State} (h : route s.plat .read .b32 a = .ok .device) :
    readMem .b32 a s = .ok (s.freeDword, s.drawn) := by
  unfold readMem
  rw [h]
  exact congrArg (fun v => Except.ok (v, s.drawn)) (BitVec.setWidth_eq s.freeDword)

/-- A read of the storage answers its bytes, the lowest address the least significant. -/
theorem readMem_storage {w : Width} {a : Dword} {s : State} (h : route s.plat .read w a = .ok .storage) :
    readMem w a s = .ok (BitVec.ofNat w.bits (loadLE s.mem a.toNat w.bytes), s) := by
  unfold readMem
  rw [h]

theorem readPlace_state {w : Width} {p : Place} {s t : State} {v : BitVec w.bits} (h : readPlace w p s = .ok (v, t)) :
    t = s ∨ t = s.drawn := by
  cases p with
  | reg r =>
    simp only [readPlace, Except.ok.injEq, Prod.mk.injEq] at h
    exact .inl h.2.symm
  | mem a => exact readMem_state h

theorem SameCore.of_drawn {s t : State} (h : t = s ∨ t = s.drawn) : SameCore s t := by
  rcases h with rfl | rfl
  · exact SameCore.refl _
  · exact SameCore.drawn _

theorem Keeps.of_drawn {s t : State} (h : t = s ∨ t = s.drawn) : Keeps s t := by
  rcases h with rfl | rfl
  · exact Keeps.refl _
  · exact Keeps.of_eq rfl rfl rfl

/-- A read changes no register, no byte of memory and nothing in the interrupt controller. -/
theorem readMem_same {w : Width} {a : Dword} {s t : State} {v : BitVec w.bits} (h : readMem w a s = .ok (v, t)) :
    t.regs = s.regs ∧ t.mem = s.mem ∧ t.intc = s.intc := by
  rcases readMem_state h with rfl | rfl <;> exact ⟨rfl, rfl, rfl⟩

theorem readPlace_same {w : Width} {p : Place} {s t : State} {v : BitVec w.bits} (h : readPlace w p s = .ok (v, t)) :
    t.regs = s.regs ∧ t.mem = s.mem ∧ t.intc = s.intc := by
  rcases readPlace_state h with rfl | rfl <;> exact ⟨rfl, rfl, rfl⟩

/-! ### Writing -/

/-- Everything a data write can do: a store into the storage, nothing, or a change of the interrupt controller. -/
theorem writeMem_cases {w : Width} {a : Dword} {v : BitVec w.bits} {s t : State} (h : writeMem w a v s = .ok t) :
    (route s.plat .write w a = .ok .storage ∧ t = s.setMem (storeLE s.mem a.toNat w.bytes v.toNat)) ∨
    ((route s.plat .write w a = .ok .discarded ∨ route s.plat .write w a = .ok .device) ∧ t = s) ∨
    (∃ off c, route s.plat .write w a = .ok (.lapic off) ∧ s.intc.writeLapic off (v.setWidth 32) = .ok c ∧
      t = s.setIntc c) ∨
    (∃ off, route s.plat .write w a = .ok (.ioapic off) ∧ t = s.setIntc (s.intc.writeIoapic off (v.setWidth 32))) := by
  unfold writeMem at h
  split at h
  · exact absurd h (by simp only [reduceCtorEq, not_false_eq_true])
  · rename_i off hr
    split at h
    · rename_i c hc
      simp only [Except.ok.injEq] at h
      exact .inr (.inr (.inl ⟨off, c, hr, hc, h.symm⟩))
    · exact absurd h (by simp only [reduceCtorEq, not_false_eq_true])
  · rename_i off hr
    simp only [Except.ok.injEq] at h
    exact .inr (.inr (.inr ⟨off, hr, h.symm⟩))
  · rename_i hr
    simp only [Except.ok.injEq] at h
    exact .inr (.inl ⟨.inl hr, h.symm⟩)
  · rename_i hr
    simp only [Except.ok.injEq] at h
    exact .inr (.inl ⟨.inr hr, h.symm⟩)
  · rename_i hr
    simp only [Except.ok.injEq] at h
    exact .inl ⟨hr, h.symm⟩

/-- A write to a device completes and changes nothing of the machine. -/
theorem writeMem_device {w : Width} {a : Dword} {s : State} (v : BitVec w.bits)
    (h : route s.plat .write w a = .ok .device) : writeMem w a v s = .ok s := by
  unfold writeMem
  rw [h]

/-- A write to the storage completes. -/
theorem writeMem_storage {w : Width} {a : Dword} {s : State} (v : BitVec w.bits)
    (h : route s.plat .write w a = .ok .storage) :
    writeMem w a v s = .ok (s.setMem (storeLE s.mem a.toNat w.bytes v.toNat)) := by
  unfold writeMem
  rw [h]

theorem writeMem_core {w : Width} {a : Dword} {v : BitVec w.bits} {s t : State} (h : writeMem w a v s = .ok t) :
    SameCore s t ∧ t.regs = s.regs ∧ t.draws = s.draws := by
  rcases writeMem_cases h with ⟨_, rfl⟩ | ⟨_, rfl⟩ | ⟨_, _, _, _, rfl⟩ | ⟨_, _, rfl⟩
  · exact ⟨SameCore.setMem _ _, rfl, rfl⟩
  · exact ⟨SameCore.refl _, rfl, rfl⟩
  · exact ⟨SameCore.setIntc _ _, rfl, rfl⟩
  · exact ⟨SameCore.setIntc _ _, rfl, rfl⟩

theorem writeMem_keeps {w : Width} {a : Dword} {v : BitVec w.bits} {s t : State} (h : writeMem w a v s = .ok t) :
    Keeps s t := by
  rcases writeMem_cases h with ⟨hr, rfl⟩ | ⟨_, rfl⟩ | ⟨off, c, _, hc, rfl⟩ | ⟨off, _, rfl⟩
  · obtain ⟨hend, hcode⟩ := route_storage hr
    refine ⟨rfl, fun hm => storeLE_wf _ _ hm hend, fun x hx => ?_, id, id⟩
    refine readByte_storeLE_outside _ _ _ _ ?_
    by_contra hne
    have hin : x ∈ span a.toNat w.bytes := mem_span.mpr (by omega)
    rw [hcode rfl x hin] at hx
    exact Bool.noConfusion hx
  · exact Keeps.refl _
  · exact ⟨rfl, id, fun _ _ => rfl, fun _ => IntCtl.writeLapic_settled hc, fun hs => IntCtl.writeLapic_sivr hs hc⟩
  · exact ⟨rfl, id, fun _ _ => rfl, fun _ => IntCtl.writeIoapic_settled _ _ _, id⟩

/-- A write leaves every byte outside its span alone. -/
theorem writeMem_outside {w : Width} {a : Dword} {v : BitVec w.bits} {s t : State} (h : writeMem w a v s = .ok t)
    {x : Nat} (hx : x < a.toNat ∨ a.toNat + w.bytes ≤ x) : readByte t.mem x = readByte s.mem x := by
  rcases writeMem_cases h with ⟨_, rfl⟩ | ⟨_, rfl⟩ | ⟨_, _, _, _, rfl⟩ | ⟨_, _, rfl⟩
  · exact readByte_storeLE_outside _ _ _ _ hx
  · rfl
  · rfl
  · rfl

/-- What is written to readable storage is read back. -/
theorem readMem_writeMem {w : Width} {a : Dword} {v : BitVec w.bits} {s t : State} (hm : s.mem.wf = true)
    (hw : route s.plat .write w a = .ok .storage) (hr : route s.plat .read w a = .ok .storage)
    (h : writeMem w a v s = .ok t) : readMem w a t = .ok (v, t) := by
  rw [writeMem_storage v hw, Except.ok.injEq] at h
  subst h
  rw [readMem_storage (by exact hr)]
  simp only [State.setMem_mem, loadLE_storeLE _ _ _ hm (route_storage hr).1, Except.ok.injEq, Prod.mk.injEq, and_true]
  apply BitVec.eq_of_toNat_eq
  rw [BitVec.toNat_ofNat]
  have hlt := v.isLt
  cases w <;> simp only [Width.bits, Width.bytes] at * <;> omega

theorem writePlace_core {w : Width} {p : Place} {v : BitVec w.bits} {s t : State} (h : writePlace w p v s = .ok t) :
    SameCore s t ∧ t.draws = s.draws := by
  cases p with
  | reg r =>
    simp only [writePlace, Except.ok.injEq] at h
    subst h
    exact ⟨SameCore.setView _ _ _ _, State.setView_draws _ _ _ _⟩
  | mem a => exact ⟨(writeMem_core h).1, (writeMem_core h).2.2⟩

theorem writePlace_keeps {w : Width} {p : Place} {v : BitVec w.bits} {s t : State} (h : writePlace w p v s = .ok t) :
    Keeps s t := by
  cases p with
  | reg r =>
    simp only [writePlace, Except.ok.injEq] at h
    subst h
    exact Keeps.setView _ _ _ _
  | mem a => exact writeMem_keeps h

/-- A write of an operand leaves alone every register but the one it names, every byte but those it names, and, of a
register operand, the interrupt controller. -/
theorem writePlace_frame {w : Width} {p : Place} {v : BitVec w.bits} {s t : State} (h : writePlace w p v s = .ok t) :
    placeFrame w p s t := by
  cases p with
  | reg r =>
    simp only [writePlace, Except.ok.injEq] at h
    subst h
    exact ⟨fun q hq => s.reg_setView_ne w r v hq, fun _ => by rw [State.setView_mem], State.setView_intc _ _ _ _⟩
  | mem a => exact ⟨(writeMem_core h).2.1, fun x hx => writeMem_outside h hx⟩

end Sys2Proof.Machine
end

