-- ==== Sys2Proof/Laws/Decode.lean ====
section
/-! SUPPORT. The decoder's readers on what the encoder's writers wrote: each reads back its value and leaves the rest. -/

namespace Sys2Proof

/-! ### Fields -/

@[simp] theorem hiField_fieldByte (hi : BitVec 2) (mid lo : BitVec 3) : hiField (fieldByte hi mid lo) = hi := by
  revert hi mid lo; decide

@[simp] theorem midField_fieldByte (hi : BitVec 2) (mid lo : BitVec 3) : midField (fieldByte hi mid lo) = mid := by
  revert hi mid lo; decide

@[simp] theorem loField_fieldByte (hi : BitVec 2) (mid lo : BitVec 3) : loField (fieldByte hi mid lo) = lo := by
  revert hi mid lo; decide

/-- A byte is its three fields. -/
theorem fieldByte_fields (b : Byte) : fieldByte (hiField b) (midField b) (loField b) = b := by
  revert b; decide

@[simp] theorem Reg.ofNum_num (r : Reg) : Reg.ofNum r.num = r := by cases r <;> rfl

@[simp] theorem Reg.num_ofNum (n : BitVec 3) : (Reg.ofNum n).num = n := by
  revert n; decide

@[simp] theorem Scale.ofNum_num (k : Scale) : Scale.ofNum k.num = k := by cases k <;> rfl

@[simp] theorem Scale.num_ofNum (n : BitVec 2) : (Scale.ofNum n).num = n := by
  revert n; decide

/-! ### Immediates and displacements -/

theorem append_bytes16 (v : BitVec 16) : v.extractLsb' 8 8 ++ v.extractLsb' 0 8 = v := by
  ext i hi
  simp only [BitVec.getElem_append, BitVec.getElem_extractLsb']
  split
  · simp [BitVec.getLsbD_eq_getElem hi]
  · rename_i h
    rw [show 8 + (i - 8) = i by omega, BitVec.getLsbD_eq_getElem hi]

theorem append_bytes32 (v : BitVec 32) :
    v.extractLsb' 24 8 ++ v.extractLsb' 16 8 ++ v.extractLsb' 8 8 ++ v.extractLsb' 0 8 = v := by
  ext i hi
  simp only [BitVec.getElem_append, BitVec.getElem_extractLsb']
  split
  · simp [BitVec.getLsbD_eq_getElem hi]
  · split
    · rw [show 8 + (i - 8) = i by omega, BitVec.getLsbD_eq_getElem hi]
    · split
      · rw [show 16 + (i - 8 - 8) = i by omega, BitVec.getLsbD_eq_getElem hi]
      · rw [show 24 + (i - 8 - 8 - 8) = i by omega, BitVec.getLsbD_eq_getElem hi]

@[simp] theorem takeByte_cons (b : Byte) (t : List Byte) : takeByte (b :: t) = .ok (b, t) := rfl

@[simp] theorem take16_bytes16 (v : BitVec 16) (t : List Byte) : take16 (bytes16 v ++ t) = .ok (v, t) := by
  simp only [bytes16, List.cons_append, List.nil_append, take16, append_bytes16]

@[simp] theorem take32_bytes32 (v : BitVec 32) (t : List Byte) : take32 (bytes32 v ++ t) = .ok (v, t) := by
  simp only [bytes32, List.cons_append, List.nil_append, take32, append_bytes32]

@[simp] theorem takeImm_immBytes (w : Width) (v : BitVec w.bits) (t : List Byte) :
    takeImm w (immBytes w v ++ t) = .ok (v, t) := by
  cases w
  · rfl
  · exact take16_bytes16 v t
  · exact take32_bytes32 v t

theorem Disp.mod_ne_three (d : Disp) : d.mod ≠ 3 := by
  cases d with
  | none => exact show (0 : BitVec 2) ≠ 3 by decide
  | d8 v => exact show (1 : BitVec 2) ≠ 3 by decide
  | d32 v => exact show (2 : BitVec 2) ≠ 3 by decide

/-- A displacement that the mod field announces is read back. -/
theorem takeDisp_bytes (d : Disp) (t : List Byte) (h : d.mod ≠ 0) : takeDisp d.mod (d.bytes ++ t) = .ok (d, t) := by
  cases d with
  | none => exact absurd rfl h
  | d8 v => rfl
  | d32 v =>
    unfold takeDisp
    rw [if_neg (show ¬ (Disp.d32 v).mod = 1 from show ¬ (2 : BitVec 2) = 1 by decide)]
    simp only [Disp.bytes, take32_bytes32]
    rfl

/-! ### Operands -/

@[simp] theorem sibIndex_some (k : Scale) (i b : Reg) (h : i ≠ .esp) :
    sibIndex (fieldByte k.num i.num b.num) = some (i, k) := by
  unfold sibIndex
  rw [midField_fieldByte, if_neg (by revert h; cases i <;> decide), hiField_fieldByte, Reg.ofNum_num, Scale.ofNum_num]

@[simp] theorem sibIndex_disp32 (k : Scale) (i : Reg) (h : i ≠ .esp) :
    sibIndex (fieldByte k.num i.num 5) = some (i, k) :=
  sibIndex_some k i .ebp h

/-- A displacement announced by its mod field after the register or SIB byte, with mod = 0 for none. -/
theorem takeDisp_or_none (d : Disp) (t : List Byte) : d = .none ∨ (d.mod ≠ 0 ∧ takeDisp d.mod (d.bytes ++ t) = .ok (d, t)) := by
  cases d with
  | none => exact .inl rfl
  | d8 v => exact .inr ⟨show (1 : BitVec 2) ≠ 0 by decide, takeDisp_bytes (.d8 v) t (show (1 : BitVec 2) ≠ 0 by decide)⟩
  | d32 v => exact .inr ⟨show (2 : BitVec 2) ≠ 0 by decide, takeDisp_bytes (.d32 v) t (show (2 : BitVec 2) ≠ 0 by decide)⟩

/-- A memory operand that the encoder wrote is read back: its ModR/M byte names the register field and is no register
form, and the rest gives the operand. -/
theorem takeMem_memBytes (reg : BitVec 3) (m : MemRef) (t : List Byte) (h : m.wf = true) :
    ∃ b bs, memBytes reg m = b :: bs ∧ midField b = reg ∧ hiField b ≠ 3 ∧
      takeMem (hiField b) (loField b) (bs ++ t) = .ok (m, t) := by
  obtain ⟨base, index, disp⟩ := m
  have hmod : disp.mod ≠ 3 := disp.mod_ne_three
  have h00 : Disp.none.mod = 0 := rfl
  cases base with
  | none =>
    cases disp with
    | none => simp [MemRef.wf] at h
    | d8 v => simp [MemRef.wf] at h
    | d32 v =>
      cases index with
      | none =>
        refine ⟨_, _, rfl, midField_fieldByte _ _ _, by rw [hiField_fieldByte]; decide, ?_⟩
        rw [hiField_fieldByte, loField_fieldByte]
        unfold takeMem
        rw [if_neg (by decide), if_pos rfl, if_pos rfl]
        simp only [Disp.bytes, take32_bytes32]
        rfl
      | some ik =>
        obtain ⟨i, k⟩ := ik
        have hi : i ≠ .esp := by simpa [MemRef.wf] using h
        refine ⟨_, _, rfl, midField_fieldByte _ _ _, by rw [hiField_fieldByte]; decide, ?_⟩
        rw [hiField_fieldByte, loField_fieldByte]
        unfold takeMem
        rw [if_pos rfl, List.cons_append, takeByte_cons]
        simp only [bind, Except.bind, if_true, loField_fieldByte, Disp.bytes, take32_bytes32, sibIndex_disp32 k i hi]
        rfl
  | some b =>
    cases index with
    | none =>
      by_cases hb : b = .esp
      · subst hb
        refine ⟨fieldByte disp.mod reg 4, fieldByte 0 4 4 :: disp.bytes, rfl, midField_fieldByte _ _ _,
          by rw [hiField_fieldByte]; exact hmod, ?_⟩
        rw [hiField_fieldByte, loField_fieldByte]
        unfold takeMem
        rw [if_pos rfl, List.cons_append, takeByte_cons]
        simp only [bind, Except.bind]
        have hs : sibIndex (fieldByte 0 4 4) = none := by decide
        have hl : Reg.ofNum (loField (fieldByte 0 4 4)) = .esp := by decide
        rcases takeDisp_or_none disp t with rfl | ⟨h0, hd⟩
        · rw [if_pos h00, if_neg (by decide), hs, hl]
          rfl
        · rw [if_neg h0, hd, hs, hl]
          rfl
      · have hn : b.num ≠ 4 := by revert hb; cases b <;> decide
        refine ⟨fieldByte disp.mod reg b.num, disp.bytes, by simp only [memBytes, if_neg hb], midField_fieldByte _ _ _,
          by rw [hiField_fieldByte]; exact hmod, ?_⟩
        rw [hiField_fieldByte, loField_fieldByte]
        unfold takeMem
        rw [if_neg hn]
        rcases takeDisp_or_none disp t with rfl | ⟨h0, hd⟩
        · have hb5 : b.num ≠ 5 := by revert h; cases b <;> simp [MemRef.wf, Reg.num]
          rw [if_pos h00, if_neg hb5, Reg.ofNum_num]
          rfl
        · rw [if_neg h0, hd, Reg.ofNum_num]
          rfl
    | some ik =>
      obtain ⟨i, k⟩ := ik
      have hi : i ≠ .esp := by
        simp only [MemRef.wf, Bool.and_eq_true, decide_eq_true_eq] at h
        exact h.1
      refine ⟨fieldByte disp.mod reg 4, fieldByte k.num i.num b.num :: disp.bytes, rfl, midField_fieldByte _ _ _,
        by rw [hiField_fieldByte]; exact hmod, ?_⟩
      rw [hiField_fieldByte, loField_fieldByte]
      unfold takeMem
      rw [if_pos rfl, List.cons_append, takeByte_cons]
      simp only [bind, Except.bind, loField_fieldByte, sibIndex_some k i b hi, Reg.ofNum_num]
      rcases takeDisp_or_none disp t with rfl | ⟨h0, hd⟩
      · have hb5 : b.num ≠ 5 := by revert h; cases b <;> simp [MemRef.wf, Reg.num]
        rw [if_pos h00, if_neg hb5]
        rfl
      · rw [if_neg h0, hd]
        rfl

/-- An r/m operand that the encoder wrote is read back. -/
theorem takeRM_rmBytes (reg : BitVec 3) (rm : RM) (t : List Byte) (h : rm.wf = true) :
    ∃ b bs, rmBytes reg rm = b :: bs ∧ midField b = reg ∧ takeRM b (bs ++ t) = .ok (rm, t) := by
  cases rm with
  | reg r =>
    refine ⟨_, _, rfl, midField_fieldByte _ _ _, ?_⟩
    unfold takeRM
    rw [hiField_fieldByte, if_pos rfl, loField_fieldByte, Reg.ofNum_num]
    rfl
  | mem m =>
    obtain ⟨b, bs, hb, hmid, hhi, hm⟩ := takeMem_memBytes reg m t h
    refine ⟨b, bs, hb, hmid, ?_⟩
    unfold takeRM
    rw [if_neg hhi, hm]
    rfl

/-- A ModR/M byte of the /r kind that the encoder wrote is read back, where the form lists 66h or there is none. -/
theorem takeRegRM_rmBytes (pol : DecodePolicy) {p66 listed : Bool} (hp : listed = true ∨ p66 = false) (r : Reg) (rm : RM)
    (t : List Byte) (h : rm.wf = true) : takeRegRM pol p66 listed (rmBytes r.num rm ++ t) = .ok ((r, rm), t) := by
  obtain ⟨b, bs, hb, hmid, hrm⟩ := takeRM_rmBytes r.num rm t h
  rw [hb, List.cons_append]
  unfold takeRegRM
  rw [takeByte_cons]
  rcases hp with rfl | rfl <;> simp only [bind, Except.bind, if_true, unlisted66, Bool.false_eq_true, if_false, pure,
    Except.pure, hrm, hmid, Reg.ofNum_num, ite_self]

end Sys2Proof
end

