-- ==== Sys2Proof/Laws/Exception.lean ====
section
/-! SUPPORT. Everything that taking an exception, retiring an instruction and returning from an exception can do. -/

namespace Sys2Proof.Machine

/-! ### The pieces of entry -/

/-- The image of PM in supervisor mode is 0, wherever its U bit is (spec R46). -/
@[simp] theorem pmImage_supervisor (p : Config.Platform) : pmImage p false = 0 := BitVec.zero_shiftLeft p.pmUBit

/-- An error code of no vector and no flag is 0 on every platform (spec R481). -/
@[simp] theorem errCode_zero (p : Config.Platform) : errCode p 0 false false = 0 := rfl

/-- Pushing words, completed or not, touches nothing but the storage and the interrupt controller. -/
theorem pushWords_same : ∀ (vs : List Dword) {sp : Dword} {s t : State} {r : Except Stop State},
    pushWords sp vs s = (r, t) → SameCore s t ∧ Keeps s t ∧ t.regs = s.regs ∧ (∀ u, r = .ok u → u = t)
  | [], _, s, t, r, h => by
    simp only [pushWords, Prod.mk.injEq] at h
    obtain ⟨hr, rfl⟩ := h
    exact ⟨SameCore.refl _, Keeps.refl _, rfl, fun u hu => by rw [← hr] at hu; exact (Except.ok.inj hu).symm⟩
  | v :: vs, sp, s, t, r, h => by
    unfold pushWords at h
    split at h
    · rename_i u hu
      have ih := pushWords_same vs h
      have hc := writeMem_core hu
      exact ⟨hc.1.trans ih.1, (writeMem_keeps hu).trans ih.2.1, ih.2.2.1.trans hc.2.1, ih.2.2.2⟩
    · simp only [Prod.mk.injEq] at h
      obtain ⟨hr, rfl⟩ := h
      exact ⟨SameCore.refl _, Keeps.refl _, rfl, fun u hu => by rw [← hr] at hu; exact absurd hu (by simp)⟩

/-- The words of a frame are computed with at most one draw. -/
theorem frameWords_state {saved : EFlags} {ev : Event} {s t : State} {ws : List Dword}
    (h : frameWords saved ev s = (ws, t)) : t = s ∨ t = s.drawn := by
  unfold frameWords at h
  dsimp only at h
  split at h
  · exact .inr (Prod.mk.inj h).2.symm
  split at h
  · exact .inl (Prod.mk.inj h).2.symm
  split at h
  · split at h
    · exact .inr (Prod.mk.inj h).2.symm
    · exact .inl (Prod.mk.inj h).2.symm
  · exact .inl (Prod.mk.inj h).2.symm

/-- Reading a gate changes no register, no byte and nothing in the controller. -/
theorem readGate_same {d : Idtr} {v : BitVec 8} {s t : State} {g : Gate} (h : readGate d v s = .ok (g, t)) :
    SameCore s t ∧ Keeps s t ∧ t.regs = s.regs := by
  simp only [readGate, bind, Except.bind] at h
  split at h
  · exact absurd h (by simp)
  rename_i p hp
  obtain ⟨d0, s1⟩ := p
  dsimp only at h
  split at h
  · exact absurd h (by simp)
  rename_i q hq
  obtain ⟨d1, s2⟩ := q
  simp only [pure, Except.pure, Except.ok.injEq, Prod.mk.injEq] at h
  obtain ⟨_, rfl⟩ := h
  have h1 := readMem_state hp
  have h2 := readMem_state hq
  exact ⟨(SameCore.of_drawn h1).trans (SameCore.of_drawn h2), (Keeps.of_drawn h1).trans (Keeps.of_drawn h2),
    (readMem_same hq).1.trans (readMem_same hp).1⟩

/-! ### One delivery -/

/-- What every delivery does, entered or failed (spec R500): supervisor mode, TF clear, no trap due; only ESP, EIP, IF, the
frame's bytes and the draws may change beside. -/
structure EntryEffect (s t : State) : Prop where
  keeps : Keeps s t
  idtr : t.idtr = s.idtr
  esp0 : t.esp0 = s.esp0
  run : t.run = s.run
  cpuErr : t.cpuErr = s.cpuErr
  agenda : t.agenda = s.agenda
  nextEip : t.nextEip = s.nextEip
  supervisor : t.pmU = false
  trapOff : t.flags.tf = false
  noTrapDue : t.stepDue = false
  status : t.flags.cf = s.flags.cf ∧ t.flags.zf = s.flags.zf ∧ t.flags.sf = s.flags.sf ∧ t.flags.of = s.flags.of
  regs : ∀ r, r ≠ Reg.esp → t.reg r = s.reg r

theorem EntryEffect.trans {s t u : State} (h : EntryEffect s t) (k : EntryEffect t u) : EntryEffect s u :=
  ⟨h.keeps.trans k.keeps, k.idtr.trans h.idtr, k.esp0.trans h.esp0, k.run.trans h.run, k.cpuErr.trans h.cpuErr,
    k.agenda.trans h.agenda, k.nextEip.trans h.nextEip, k.supervisor, k.trapOff, k.noTrapDue,
    ⟨k.status.1.trans h.status.1, k.status.2.1.trans h.status.2.1, k.status.2.2.1.trans h.status.2.2.1,
      k.status.2.2.2.trans h.status.2.2.2⟩,
    fun r hr => (k.regs r hr).trans (h.regs r hr)⟩

/-- A state that differs from one with the effect only in what entry may change has it too. -/
theorem EntryEffect.of_same {s t u : State} (h : EntryEffect s t) (hc : SameCore t u) (hk : Keeps t u)
    (hr : u.regs = t.regs) : EntryEffect s u :=
  ⟨h.keeps.trans hk, hc.idtr.trans h.idtr, hc.esp0.trans h.esp0, hc.run.trans h.run, hc.cpuErr.trans h.cpuErr,
    hc.agenda.trans h.agenda, hc.nextEip.trans h.nextEip, hc.pmU.trans h.supervisor, by rw [hc.flags]; exact h.trapOff,
    hc.stepDue.trans h.noTrapDue, by rw [hc.flags]; exact h.status,
    fun r hne => by rw [State.reg, hr]; exact h.regs r hne⟩

theorem beginEntry_effect (s : State) : EntryEffect s (beginEntry s) :=
  ⟨Keeps.of_eq rfl rfl rfl, rfl, rfl, rfl, rfl, rfl, rfl, rfl, rfl, rfl, ⟨rfl, rfl, rfl, rfl⟩, fun _ _ => rfl⟩

theorem enterGate_effect {saved : EFlags} {ev : Event} {g : Gate} {s0 s t : State} {f : Failure}
    (h0 : EntryEffect s0 s) (h : enterGate saved ev g s = .entered t ∨ enterGate saved ev g s = .failed f t) :
    EntryEffect s0 t := by
  unfold enterGate at h
  dsimp only at h
  have h1 : EntryEffect s0 (if g.isInterrupt then s.setFlags { s.flags with intf := false } else s) := by
    split
    · exact ⟨h0.keeps.trans (Keeps.of_eq rfl rfl rfl), h0.idtr, h0.esp0, h0.run, h0.cpuErr, h0.agenda, h0.nextEip,
        h0.supervisor, h0.trapOff, h0.noTrapDue, h0.status, h0.regs⟩
    · exact h0
  generalize (if g.isInterrupt then s.setFlags { s.flags with intf := false } else s) = s1 at h h1
  generalize hfw : frameWords saved ev s1 = fw at h
  obtain ⟨ws, s2⟩ := fw
  dsimp only at h
  have hd := frameWords_state hfw
  have h2 : EntryEffect s0 s2 := h1.of_same (SameCore.of_drawn hd) (Keeps.of_drawn hd) (by rcases hd with rfl | rfl <;> rfl)
  generalize hpw : pushWords (s2.reg .esp) ws s2 = pw at h
  obtain ⟨r, s3⟩ := pw
  have hp := pushWords_same ws hpw
  have h3 : EntryEffect s0 s3 := h2.of_same hp.1 hp.2.1 hp.2.2.1
  cases r with
  | ok u =>
    have hu := hp.2.2.2 u rfl
    subst hu
    simp only [Delivery.entered.injEq, reduceCtorEq, or_false] at h
    subst h
    refine ⟨h3.keeps.trans (Keeps.of_eq rfl rfl rfl), h3.idtr, h3.esp0, h3.run, h3.cpuErr, h3.agenda, h3.nextEip,
      h3.supervisor, h3.trapOff, h3.noTrapDue, h3.status, fun q hq => ?_⟩
    rw [State.setEip_reg, State.reg_setReg_ne _ _ hq]
    exact h3.regs q hq
  | error e =>
    dsimp only at h
    unfold Delivery.ofStop at h
    split at h
    · simp only [Delivery.failed.injEq, reduceCtorEq, false_or] at h
      obtain ⟨_, rfl⟩ := h
      exact h3
    · simp only [reduceCtorEq, or_self] at h

/-- A delivery, entered or failed, has the effect of entry and no more. -/
theorem deliver_effect {saved : EFlags} {ev : Event} {s t : State} {f : Failure}
    (h : deliver saved ev s = .entered t ∨ deliver saved ev s = .failed f t) : EntryEffect s t := by
  unfold deliver at h
  dsimp only at h
  have h0 := beginEntry_effect s
  generalize beginEntry s = s0 at h h0
  split at h
  · split at h
    · unfold Delivery.ofStop at h
      split at h
      · simp only [Delivery.failed.injEq, reduceCtorEq, false_or] at h
        obtain ⟨_, rfl⟩ := h
        exact h0.of_same (SameCore.pastDraws _) (Keeps.of_eq rfl rfl rfl) rfl
      · simp only [reduceCtorEq, or_self] at h
    · rename_i g s1 hg
      have hs := readGate_same hg
      have h1 : EntryEffect s s1 := h0.of_same hs.1 hs.2.1 hs.2.2
      split at h
      · simp only [Delivery.failed.injEq, reduceCtorEq, false_or] at h
        exact h.2 ▸ h1
      split at h
      · simp only [Delivery.failed.injEq, reduceCtorEq, false_or] at h
        exact h.2 ▸ h1
      split at h
      · simp only [reduceCtorEq, or_self] at h
      · exact enterGate_effect h1 h
  · simp only [Delivery.failed.injEq, reduceCtorEq, false_or] at h
    exact h.2 ▸ h0

/-! ### The whole entry -/

/-- How an entry that ends in a next state ends: the handler's first instruction is next and the core runs, or the
Triple Fault stopped the core (spec R500, R512). -/
structure EntryOutcome (s t : State) : Prop where
  keeps : Keeps s t
  idtr : t.idtr = s.idtr
  esp0 : t.esp0 = s.esp0
  agenda : t.agenda = s.agenda
  supervisor : t.pmU = false
  ends : (t.run = s.run ∧ t.cpuErr = s.cpuErr) ∨ (t.run = .stopped ∧ t.cpuErr = true)
  regs : ∀ r, r ≠ Reg.esp → t.reg r = s.reg r

theorem EntryEffect.outcome {s t : State} (h : EntryEffect s t) : EntryOutcome s t :=
  ⟨h.keeps, h.idtr, h.esp0, h.agenda, h.supervisor, .inl ⟨h.run, h.cpuErr⟩, h.regs⟩

theorem EntryEffect.tripleFault {s t : State} (h : EntryEffect s t) : EntryOutcome s (tripleFault t) :=
  ⟨h.keeps.trans (Keeps.of_eq rfl rfl rfl), h.idtr, h.esp0, h.agenda, h.supervisor, .inr ⟨rfl, rfl⟩, h.regs⟩

/-- Deliveries that follow one another from a state in supervisor mode. -/
theorem deliverAll_outcome {saved : EFlags} : ∀ (n : Nat) {ev : Event} {s t : State}, s.pmU = false →
    deliverAll saved n ev s = .next t → EntryOutcome s t
  | 0, _, s, t, hu, h => by
    simp only [deliverAll, Host.Outcome.next.injEq] at h
    subst h
    exact ⟨Keeps.of_eq rfl rfl rfl, rfl, rfl, rfl, hu, .inr ⟨rfl, rfl⟩, fun _ _ => rfl⟩
  | n + 1, ev, s, t, hu, h => by
    unfold deliverAll at h
    split at h
    · rename_i u hd
      simp only [Host.Outcome.next.injEq] at h
      subst h
      exact (deliver_effect (f := .badType) (.inl hd)).outcome
    · rename_i f u hd
      have he := deliver_effect (.inr hd)
      split at h
      · have ih := deliverAll_outcome n he.supervisor h
        refine ⟨he.keeps.trans ih.keeps, ih.idtr.trans he.idtr, ih.esp0.trans he.esp0, ih.agenda.trans he.agenda,
          ih.supervisor, ?_, fun r hr => (ih.regs r hr).trans (he.regs r hr)⟩
        rcases ih.ends with ⟨h1, h2⟩ | h2
        · exact .inl ⟨h1.trans he.run, h2.trans he.cpuErr⟩
        · exact .inr h2
      · simp only [Host.Outcome.next.injEq] at h
        subst h
        exact he.tripleFault
    · exact absurd h (by simp)
    · exact absurd h (by simp)
    · simp only [Host.Outcome.next.injEq] at h
      subst h
      exact ⟨Keeps.of_eq rfl rfl rfl, rfl, rfl, rfl, hu, .inr ⟨rfl, rfl⟩, fun _ _ => rfl⟩

/-- Everything that taking an exception can do when it answers a next state (spec R500). -/
theorem enter_outcome {ev : Event} {s t : State} (h : enter ev s = .next t) :
    s.pmU = false ∧ EntryOutcome (s.setRun .running) t := by
  unfold enter at h
  split at h
  · exact absurd h (by simp)
  · rename_i hu
    have hu' : s.pmU = false := by simpa using hu
    exact ⟨hu', deliverAll_outcome 4 hu' h⟩

/-! ### The end of an instruction -/

/-- A body that succeeds: the instruction completes. -/
theorem complete_ok {s t : State} : complete s (.ok t) = .next (t.advance.setStepDue s.flags.tf) := rfl

/-- A transfer that succeeds. -/
theorem retire_ok {s t : State} : retire s (.ok t) = .next (t.setStepDue s.flags.tf) := rfl

/-- A body that raises: the exception is taken from the state of before the instruction, past its draws. -/
theorem complete_raise {s : State} (x : Exn) : complete s (.error (.raise x)) = enter (x.event s.eip) s.pastDraws := rfl

theorem retire_raise {s : State} (x : Exn) : retire s (.error (.raise x)) = enter (x.event s.eip) s.pastDraws := rfl

/-- Everything a retiring instruction can do when it answers a next state. -/
theorem retire_cases {s t : State} {body : Except Stop State} (h : retire s body = .next t) :
    (∃ u, body = .ok u ∧ t = u.setStepDue s.flags.tf) ∨
    (∃ x, body = .error (.raise x) ∧ enter (x.event s.eip) s.pastDraws = .next t) := by
  match body, h with
  | .ok u, h => exact .inl ⟨u, rfl, (Host.Outcome.next.inj h).symm⟩
  | .error (.raise x), h => exact .inr ⟨x, rfl, h⟩
  | .error (.fault f), h => exact absurd h (by simp [retire])
  | .error (.refuse r), h => exact absurd h (by simp [retire])

/-- Everything an instruction that does not transfer control can do when it answers a next state. -/
theorem complete_cases {s t : State} {body : Except Stop State} (h : complete s body = .next t) :
    (∃ u, body = .ok u ∧ t = u.advance.setStepDue s.flags.tf) ∨
    (∃ x, body = .error (.raise x) ∧ enter (x.event s.eip) s.pastDraws = .next t) := by
  match body, h with
  | .ok u, h => exact .inl ⟨u, rfl, (Host.Outcome.next.inj h).symm⟩
  | .error (.raise x), h => exact .inr ⟨x, rfl, h⟩
  | .error (.fault f), h => exact absurd h (by simp [complete, retire, Except.map])
  | .error (.refuse r), h => exact absurd h (by simp [complete, retire, Except.map])

/-! ### Returning -/

/-- Popping a frame changes no register, no byte and nothing in the controller. -/
theorem popFrame_same {s t : State} {w : Dword × Dword × Dword} (h : popFrame s = .ok (w, t)) :
    SameCore s t ∧ Keeps s t ∧ t.regs = s.regs := by
  simp only [popFrame, bind, Except.bind] at h
  split at h
  · exact absurd h (by simp)
  rename_i p hp
  obtain ⟨v0, s1⟩ := p
  dsimp only at h
  split at h
  · exact absurd h (by simp)
  rename_i q hq
  obtain ⟨v1, s2⟩ := q
  dsimp only at h
  split at h
  · exact absurd h (by simp)
  rename_i r hr
  obtain ⟨v2, s3⟩ := r
  simp only [pure, Except.pure, Except.ok.injEq, Prod.mk.injEq] at h
  obtain ⟨_, rfl⟩ := h
  have h1 := readMem_state hp
  have h2 := readMem_state hq
  have h3 := readMem_state hr
  exact ⟨((SameCore.of_drawn h1).trans (SameCore.of_drawn h2)).trans (SameCore.of_drawn h3),
    ((Keeps.of_drawn h1).trans (Keeps.of_drawn h2)).trans (Keeps.of_drawn h3),
    (readMem_same hr).1.trans ((readMem_same hq).1.trans (readMem_same hp).1)⟩

/-- Everything a return from an exception can do (spec R436). -/
theorem returnFromException_cases {s t : State} (h : returnFromException s = .ok t) :
    ∃ eip fl u, popFrame s = .ok ((eip, 0, fl), u) ∧ setsReserved fl = false ∧
      t = (((u.setReg .esp (s.reg .esp + 12)).setFlags (loadFlags s fl)).setPmU false).setEip eip := by
  simp only [returnFromException, bind, Except.bind] at h
  split at h
  · exact absurd h (by simp)
  rename_i p hp
  obtain ⟨⟨eip, pm, fl⟩, u⟩ := p
  dsimp only at h
  split at h
  · exact absurd h (by simp)
  rename_i hres
  split at h
  · exact absurd h (by simp)
  rename_i hpm
  simp only [pure, Except.pure, Except.ok.injEq] at h
  have hpm' : pm = 0 := by simpa using hpm
  subst hpm'
  exact ⟨eip, fl, u, hp, by simpa using hres, h.symm⟩

end Sys2Proof.Machine
end

