-- ==== Sys2Proof/Tests/Slice0.lean ====
section
/-! SUPPORT. The model's own tests: the WellFormed smoke test, every constructor's decoding from a word written out from the
spec's opcode maps, one step of every instruction against a vector of spec/95_test_vectors.md or 96_test_vectors_system.md
(its id stands before each test; the words and the expected values are the spec's), and for each obligation with hypotheses a
concrete state and operands that meet them. -/

namespace Sys2Proof.Tests

open Sys2Proof Sys2Proof.Machine

/-! ### Helpers -/

/-- A result that is a next state with a property. -/
def holdsAfter (r : Result) (p : State → Bool) : Bool :=
  match r with
  | .next t => p t
  | _ => false

/-- The start state of the spec's vectors: reset but for EIP, ESP and the instruction's bytes. -/
def booted (eip : Nat) (code : List Byte) : State :=
  ((State.reset.setEip (BitVec.ofNat 32 eip)).setReg .esp 0x20002000).setMem (storeBytes [] eip code)

/-- A state with bytes placed in its memory. -/
def holding (s : State) (a : Nat) (bs : List Byte) : State := s.setMem (storeBytes s.mem a bs)

/-! ### WellFormed: an ill-formed term for each check -/

/-- ESP is no index (R139). -/
theorem test_wf_esp_index : MemRef.wf ⟨some .ebx, some (.esp, .x2), .none⟩ = false := by decide
/-- With no base the displacement has 32 bits (R140). -/
theorem test_wf_no_base_no_disp32 : MemRef.wf ⟨none, none, .d8 1⟩ = false := by decide
/-- EBP as base has a displacement (R137). -/
theorem test_wf_ebp_without_disp : MemRef.wf ⟨some .ebp, none, .none⟩ = false := by decide
theorem test_wf_rm : RM.wf (.mem ⟨none, some (.eax, .x1), .none⟩) = false := by decide
/-- A form that 66h chooses the width of has no 8-bit variant. -/
theorem test_wf_wide : Width.wide .b8 = false := by decide
theorem test_wf_short_b8 : shortWf .b8 .eax = false := by decide
/-- 66 44 is not listed (R158). -/
theorem test_wf_short_sp : shortWf .b16 .esp = false := by decide
theorem test_wf_alu_rmR : AluOperands.wf (.rmR .b32 (.mem ⟨some .ebp, none, .none⟩) .eax) = false := by decide
theorem test_wf_alu_rRm : AluOperands.wf (.rRm .b8 .eax (.mem ⟨some .ebp, none, .none⟩)) = false := by decide
theorem test_wf_alu_rmImm : AluOperands.wf (.rmImm .b32 (.mem ⟨some .ebp, none, .none⟩) 1) = false := by decide
theorem test_wf_alu_rmImm8 : AluOperands.wf (.rmImm8 .b32 (.mem ⟨some .ebp, none, .none⟩) 1) = false := by decide
theorem test_wf_inc_rm : IncOperands.wf (.rm .b8 (.mem ⟨some .ebp, none, .none⟩)) = false := by decide
theorem test_wf_test_rmR : TestOperands.wf (.rmR .b8 (.mem ⟨some .ebp, none, .none⟩) .eax) = false := by decide
theorem test_wf_test_rmImm : TestOperands.wf (.rmImm .b8 (.mem ⟨some .ebp, none, .none⟩) 1) = false := by decide
theorem test_wf_bit_rmR : BitOperands.wf (.rmR .b32 (.mem ⟨some .ebp, none, .none⟩) .eax) = false := by decide
theorem test_wf_bit_rmImm : BitOperands.wf (.rmImm .b32 (.mem ⟨some .ebp, none, .none⟩) 1) = false := by decide
theorem test_wf_mov_rmR : MovOperands.wf (.rmR .b8 (.mem ⟨some .ebp, none, .none⟩) .eax) = false := by decide
theorem test_wf_mov_rRm : MovOperands.wf (.rRm .b8 .eax (.mem ⟨some .ebp, none, .none⟩)) = false := by decide
theorem test_wf_mov_rmImm : MovOperands.wf (.rmImm .b8 (.mem ⟨some .ebp, none, .none⟩) 1) = false := by decide
theorem test_wf_ext_r16 : ExtOperands.wf (.r16rm8 .eax (.mem ⟨some .ebp, none, .none⟩)) = false := by decide
theorem test_wf_ext_r32rm8 : ExtOperands.wf (.r32rm8 .eax (.mem ⟨some .ebp, none, .none⟩)) = false := by decide
theorem test_wf_ext_r32rm16 : ExtOperands.wf (.r32rm16 .eax (.mem ⟨some .ebp, none, .none⟩)) = false := by decide
theorem test_wf_push_rm : PushOperand.wf (.rm .b32 (.mem ⟨some .ebp, none, .none⟩)) = false := by decide
theorem test_wf_pop_rm : PopOperand.wf (.rm .b32 (.mem ⟨some .ebp, none, .none⟩)) = false := by decide
theorem test_wf_neg : Instr.wf (.neg .b8 (.mem ⟨some .ebp, none, .none⟩)) = false := by decide
theorem test_wf_shift : Instr.wf (.shl .b8 (.mem ⟨some .ebp, none, .none⟩) .one) = false := by decide
theorem test_wf_mul : Instr.wf (.mul .b8 (.mem ⟨some .ebp, none, .none⟩)) = false := by decide
theorem test_wf_imul2 : Instr.wf (.imul2 .b32 .eax (.mem ⟨some .ebp, none, .none⟩)) = false := by decide
theorem test_wf_imul3 : Instr.wf (.imul3 .eax (.mem ⟨some .ebp, none, .none⟩) (.byte .b32 1)) = false := by decide
theorem test_wf_call : Instr.wf (.callRm (.mem ⟨some .ebp, none, .none⟩)) = false := by decide
theorem test_wf_jmp : Instr.wf (.jmpRm (.mem ⟨some .ebp, none, .none⟩)) = false := by decide
theorem test_wf_alu_rmImm8_b8 : AluOperands.wf (.rmImm8 .b8 (.reg .eax) 1) = false := by decide
theorem test_wf_inc_short : IncOperands.wf (.short .b16 .esp) = false := by decide
theorem test_wf_bit_b8 : BitOperands.wf (.rmR .b8 (.reg .eax) .eax) = false := by decide
theorem test_wf_bitImm_b8 : BitOperands.wf (.rmImm .b8 (.reg .eax) 1) = false := by decide
theorem test_wf_imulImm_full : ImulImm.wf (.full .b8 1) = false := by decide
theorem test_wf_imulImm_byte : ImulImm.wf (.byte .b8 1) = false := by decide
theorem test_wf_imul2_b8 : Instr.wf (.imul2 .b8 .eax (.reg .ebx)) = false := by decide
theorem test_wf_imul3_b8 : Instr.wf (.imul3 .eax (.reg .ebx) (.byte .b8 1)) = false := by decide
/-- 66 BC is not listed (R158, R342). -/
theorem test_wf_mov_sp_imm16 : MovOperands.wf (.regImm .b16 .esp 1) = false := by decide
theorem test_wf_push_b8 : PushOperand.wf (.rm .b8 (.reg .eax)) = false := by decide
theorem test_wf_pop_b8 : PopOperand.wf (.rm .b8 (.reg .eax)) = false := by decide
theorem test_wf_lea_b8 : Instr.wf (.lea .b8 .eax ⟨some .ebx, none, .none⟩) = false := by decide
theorem test_wf_lea_mem : Instr.wf (.lea .b32 .eax ⟨none, none, .none⟩) = false := by decide
theorem test_wf_lidt : Instr.wf (.lidt ⟨some .ebp, none, .none⟩) = false := by decide
theorem test_wf_sidt : Instr.wf (.sidt ⟨some .ebp, none, .none⟩) = false := by decide

/-! ### Decoding: every constructor, from a word written out from the opcode maps R152 to R154 -/

/-- The bytes decode to the instruction, all of them used, under the spec's default policies. -/
def decodesTo (bs : List Byte) (i : Instr) : Bool :=
  match decode .default bs with
  | .ok (j, n) => decide (j = i) && decide (n = bs.length)
  | .error _ => false

theorem test_decode_add : decodesTo [0x04, 0x01] (.add (.accImm .b8 0x01)) = true := by decide
theorem test_decode_adc : decodesTo [0x66, 0x13, 0x4B, 0x08] (.adc (.rRm .b16 .ecx (.mem ⟨some .ebx, none, .d8 0x08⟩))) = true := by decide
theorem test_decode_sub : decodesTo [0x66, 0x83, 0xE8, 0x07] (.sub (.rmImm8 .b16 (.reg .eax) 0x07)) = true := by decide
theorem test_decode_sbb : decodesTo [0x18, 0xF4] (.sbb (.rmR .b8 (.reg .esp) .esi)) = true := by decide
theorem test_decode_cmp : decodesTo [0x81, 0x3D, 0x00, 0x01, 0x00, 0x20, 0x78, 0x56, 0x34, 0x12] (.cmp (.rmImm .b32 (.mem ⟨none, none, .d32 0x20000100⟩) 0x12345678)) = true := by decide
theorem test_decode_inc : decodesTo [0x47] (.inc (.short .b32 .edi)) = true := by decide
theorem test_decode_dec : decodesTo [0xFE, 0x4C, 0x24, 0xFF] (.dec (.rm .b8 (.mem ⟨some .esp, none, .d8 0xFF⟩))) = true := by decide
theorem test_decode_neg : decodesTo [0xF7, 0xDB] (.neg .b32 (.reg .ebx)) = true := by decide
theorem test_decode_and : decodesTo [0x66, 0x25, 0xF0, 0xFF] (.and (.accImm .b16 0xFFF0)) = true := by decide
theorem test_decode_or : decodesTo [0x80, 0xC9, 0x80] (.or (.rmImm .b8 (.reg .ecx) 0x80)) = true := by decide
theorem test_decode_xor : decodesTo [0x31, 0xC0] (.xor (.rmR .b32 (.reg .eax) .eax)) = true := by decide
theorem test_decode_not : decodesTo [0x66, 0xF7, 0x13] (.not .b16 (.mem ⟨some .ebx, none, .none⟩)) = true := by decide
theorem test_decode_test : decodesTo [0xF6, 0xC3, 0x80] (.test (.rmImm .b8 (.reg .ebx) 0x80)) = true := by decide
theorem test_decode_bswap : decodesTo [0x0F, 0xCF] (.bswap false .edi) = true := by decide
theorem test_decode_bt : decodesTo [0x0F, 0xA3, 0x03] (.bt (.rmR .b32 (.mem ⟨some .ebx, none, .none⟩) .eax)) = true := by decide
theorem test_decode_btc : decodesTo [0x0F, 0xBA, 0xFB, 0x00] (.btc (.rmImm .b32 (.reg .ebx) 0x00)) = true := by decide
theorem test_decode_btr : decodesTo [0x66, 0x0F, 0xB3, 0xD1] (.btr (.rmR .b16 (.reg .ecx) .edx)) = true := by decide
theorem test_decode_bts : decodesTo [0x0F, 0xAB, 0x03] (.bts (.rmR .b32 (.mem ⟨some .ebx, none, .none⟩) .eax)) = true := by decide
theorem test_decode_rol : decodesTo [0xC0, 0xC0, 0x10] (.rol .b8 (.reg .eax) (.imm 0x10)) = true := by decide
theorem test_decode_ror : decodesTo [0xD1, 0xC8] (.ror .b32 (.reg .eax) .one) = true := by decide
theorem test_decode_rcl : decodesTo [0xD3, 0xD0] (.rcl .b32 (.reg .eax) .cl) = true := by decide
theorem test_decode_rcr : decodesTo [0x66, 0xC1, 0xD8, 0x04] (.rcr .b16 (.reg .eax) (.imm 0x04)) = true := by decide
theorem test_decode_shl : decodesTo [0xD1, 0x23] (.shl .b32 (.mem ⟨some .ebx, none, .none⟩) .one) = true := by decide
theorem test_decode_shr : decodesTo [0xD2, 0xE9] (.shr .b8 (.reg .ecx) .cl) = true := by decide
theorem test_decode_sar : decodesTo [0xC1, 0xF8, 0x02] (.sar .b32 (.reg .eax) (.imm 0x02)) = true := by decide
theorem test_decode_mul : decodesTo [0xF6, 0xE3] (.mul .b8 (.reg .ebx)) = true := by decide
theorem test_decode_imul1 : decodesTo [0x66, 0xF7, 0xEB] (.imul1 .b16 (.reg .ebx)) = true := by decide
theorem test_decode_imul2 : decodesTo [0x0F, 0xAF, 0x03] (.imul2 .b32 .eax (.mem ⟨some .ebx, none, .none⟩)) = true := by decide
theorem test_decode_imul3 : decodesTo [0x6B, 0xC3, 0xFD] (.imul3 .eax (.reg .ebx) (.byte .b32 0xFD)) = true := by decide
theorem test_decode_div : decodesTo [0xF6, 0xF3] (.div .b8 (.reg .ebx)) = true := by decide
theorem test_decode_idiv : decodesTo [0xF7, 0xFB] (.idiv .b32 (.reg .ebx)) = true := by decide
theorem test_decode_mov : decodesTo [0x8B, 0x4C, 0xB3, 0xF0] (.mov (.rRm .b32 .ecx (.mem ⟨some .ebx, some (.esi, .x4), .d8 0xF0⟩))) = true := by decide
theorem test_decode_movsx : decodesTo [0x66, 0x0F, 0xBE, 0xC3] (.movsx (.r16rm8 .eax (.reg .ebx))) = true := by decide
theorem test_decode_movzx : decodesTo [0x0F, 0xB7, 0xC3] (.movzx (.r32rm16 .eax (.reg .ebx))) = true := by decide
theorem test_decode_lea : decodesTo [0x8D, 0x84, 0x4B, 0x00, 0x00, 0x00, 0x80] (.lea .b32 .eax ⟨some .ebx, some (.ecx, .x2), .d32 0x80000000⟩) = true := by decide
theorem test_decode_cbw : decodesTo [0x66, 0x98] (.cbw) = true := by decide
theorem test_decode_cwde : decodesTo [0x98] (.cwde) = true := by decide
theorem test_decode_cwd : decodesTo [0x66, 0x99] (.cwd) = true := by decide
theorem test_decode_cdq : decodesTo [0x99] (.cdq) = true := by decide
theorem test_decode_nop : decodesTo [0x66, 0x90] (.nop true) = true := by decide
theorem test_decode_push : decodesTo [0x66, 0x68, 0x34, 0x12] (.push (.imm16 0x1234)) = true := by decide
theorem test_decode_pop : decodesTo [0x66, 0x8F, 0x03] (.pop (.rm .b16 (.mem ⟨some .ebx, none, .none⟩))) = true := by decide
theorem test_decode_pushfd : decodesTo [0x9C] (.pushfd) = true := by decide
theorem test_decode_popfd : decodesTo [0x9D] (.popfd) = true := by decide
theorem test_decode_callRel : decodesTo [0xE8, 0xF6, 0xFF, 0xFF, 0xFF] (.callRel 0xFFFFFFF6) = true := by decide
theorem test_decode_callRm : decodesTo [0xFF, 0x54, 0x24, 0x08] (.callRm (.mem ⟨some .esp, none, .d8 0x08⟩)) = true := by decide
theorem test_decode_ret : decodesTo [0xC3] (.ret) = true := by decide
theorem test_decode_jmpRel : decodesTo [0xEB, 0x80] (.jmpRel (.rel8 0x80)) = true := by decide
theorem test_decode_jmpRm : decodesTo [0xFF, 0x24, 0x85, 0x00, 0x02, 0x00, 0x20] (.jmpRm (.mem ⟨none, some (.eax, .x4), .d32 0x20000200⟩)) = true := by decide
theorem test_decode_jo : decodesTo [0x70, 0x10] (.jo (.rel8 0x10)) = true := by decide
theorem test_decode_jno : decodesTo [0x0F, 0x81, 0xF0, 0xFF, 0xFF, 0xFF] (.jno (.rel32 0xFFFFFFF0)) = true := by decide
theorem test_decode_jb : decodesTo [0x72, 0x10] (.jb (.rel8 0x10)) = true := by decide
theorem test_decode_jae : decodesTo [0x73, 0x10] (.jae (.rel8 0x10)) = true := by decide
theorem test_decode_je : decodesTo [0x0F, 0x84, 0x78, 0x56, 0x34, 0x12] (.je (.rel32 0x12345678)) = true := by decide
theorem test_decode_jne : decodesTo [0x75, 0x10] (.jne (.rel8 0x10)) = true := by decide
theorem test_decode_jbe : decodesTo [0x76, 0x10] (.jbe (.rel8 0x10)) = true := by decide
theorem test_decode_ja : decodesTo [0x77, 0x10] (.ja (.rel8 0x10)) = true := by decide
theorem test_decode_js : decodesTo [0x78, 0x10] (.js (.rel8 0x10)) = true := by decide
theorem test_decode_jns : decodesTo [0x79, 0x10] (.jns (.rel8 0x10)) = true := by decide
theorem test_decode_jl : decodesTo [0x7C, 0x10] (.jl (.rel8 0x10)) = true := by decide
theorem test_decode_jge : decodesTo [0x7D, 0x10] (.jge (.rel8 0x10)) = true := by decide
theorem test_decode_jle : decodesTo [0x7E, 0x10] (.jle (.rel8 0x10)) = true := by decide
theorem test_decode_jg : decodesTo [0x0F, 0x8F, 0x00, 0x00, 0x00, 0x80] (.jg (.rel32 0x80000000)) = true := by decide
theorem test_decode_clc : decodesTo [0xF8] (.clc) = true := by decide
theorem test_decode_stc : decodesTo [0xF9] (.stc) = true := by decide
theorem test_decode_cmc : decodesTo [0xF5] (.cmc) = true := by decide
theorem test_decode_cli : decodesTo [0xFA] (.cli) = true := by decide
theorem test_decode_sti : decodesTo [0xFB] (.sti) = true := by decide
theorem test_decode_hlt : decodesTo [0xF4] (.hlt) = true := by decide
theorem test_decode_int : decodesTo [0xCD, 0x40] (.int 0x40) = true := by decide
theorem test_decode_int3 : decodesTo [0xCC] (.int3) = true := by decide
theorem test_decode_iret : decodesTo [0xCF] (.iret) = true := by decide
theorem test_decode_lidt : decodesTo [0x0F, 0x01, 0x1D, 0x00, 0x04, 0x00, 0x00] (.lidt ⟨none, none, .d32 0x00000400⟩) = true := by decide
theorem test_decode_sidt : decodesTo [0x0F, 0x01, 0x0B] (.sidt ⟨some .ebx, none, .none⟩) = true := by decide
theorem test_decode_ud2 : decodesTo [0x0F, 0x0B] (.ud2) = true := by decide

/-- 66 6A lists no 66h variant: refused by name, #UD or ignored, as the policy says (R156). -/
theorem test_decode_66_unlisted :
    decode ⟨.refuse, .refuse⟩ [0x66, 0x6A, 0x01] = .error .prefix66Refused ∧
    decode ⟨.refuse, .ud⟩ [0x66, 0x6A, 0x01] = .error .prefixUd ∧
    decode ⟨.refuse, .ignore⟩ [0x66, 0x6A, 0x01] = .ok (.push (.imm8 0x01), 3) := by decide

/-- LEA with a register operand is #UD, whatever the prefix (R157). -/
theorem test_decode_lea_register : decode .default [0x8D, 0xC0] = .error .invalidOperandType := by decide

/-- 66h on LIDT is #UD (R157). -/
theorem test_decode_66_lidt : decode .default [0x66, 0x0F, 0x01, 0x1B] = .error .prefixUd := by decide

/-- FF /7, F6 /1, 8F /1 and 0F BA /0 are not listed (R154, R155). -/
theorem test_decode_unlisted_digits :
    decode .default [0xFF, 0xF8] = .error .invalidOpcode ∧ decode .default [0xF6, 0xC8] = .error .invalidOpcode ∧
    decode .default [0x8F, 0xC8] = .error .invalidOpcode ∧ decode .default [0x0F, 0xBA, 0xC0] = .error .invalidOpcode := by
  decide

/-- The numbering of the opcode table: the first byte in bits 7:0, the operand bytes above the row's bits are 0. -/
theorem test_decodeTableWord : decodeTableWord 8 0x05 = some (.add (.accImm .b32 0)) ∧
    decodeTableWord 16 0xC083 = some (.add (.rmImm8 .b32 (.reg .eax) 0)) := by decide

/-! ### One step of every instruction -/

/-- V40.10. -/
theorem test_add_V40_10 :
    holdsAfter (coreStep true ((booted 0x100 [0x04, 0x01]).setReg .eax 0x123456FF))
    (fun t => decide (t.reg .eax = 0x12345600 ∧ t.flags = ⟨true, true, false, false, false, false⟩ ∧ t.eip = 0x102)) = true := by decide

/-- V40.16. -/
theorem test_add_V40_16 :
    holdsAfter (coreStep true (holding (((booted 0x100 [0x03, 0x43, 0x04]).setReg .eax 0x10).setReg .ebx 0x20000100) 0x20000104 [0x20, 0x00, 0x00, 0x00]))
    (fun t => decide (t.reg .eax = 0x30 ∧ t.flags = ⟨false, false, false, false, false, false⟩ ∧ t.eip = 0x103)) = true := by decide

/-- V40.22. -/
theorem test_adc_V40_22 :
    holdsAfter (coreStep true ((((booted 0x100 [0x11, 0xD8]).setReg .eax 0xFFFFFFFF).setReg .ebx 0xFFFFFFFF).setFlags ⟨true, false, false, false, false, false⟩))
    (fun t => decide (t.flags = ⟨true, false, true, false, false, false⟩ ∧ t.eip = 0x102)) = true := by decide

/-- V40.21. -/
theorem test_adc_V40_21 :
    holdsAfter (coreStep true (((booted 0x100 [0x15, 0x00, 0x00, 0x00, 0x00]).setReg .eax 0x7FFFFFFF).setFlags ⟨true, false, false, false, false, false⟩))
    (fun t => decide (t.reg .eax = 0x80000000 ∧ t.flags = ⟨false, false, true, false, false, true⟩ ∧ t.eip = 0x105)) = true := by decide

/-- V40.30. -/
theorem test_sub_V40_30 :
    holdsAfter (coreStep true ((booted 0x100 [0x83, 0xE8, 0x07]).setReg .eax 0x5))
    (fun t => decide (t.reg .eax = 0xFFFFFFFE ∧ t.flags = ⟨true, false, true, false, false, false⟩ ∧ t.eip = 0x103)) = true := by decide

/-- V40.34. -/
theorem test_sub_V40_34 :
    holdsAfter (coreStep true ((booted 0x100 [0x66, 0x2D, 0x01, 0x00]).setReg .eax 0xFFFF0000))
    (fun t => decide (t.reg .eax = 0xFFFFFFFF ∧ t.flags = ⟨true, false, true, false, false, false⟩ ∧ t.eip = 0x104)) = true := by decide

/-- V40.41. -/
theorem test_sbb_V40_41 :
    holdsAfter (coreStep true (((booted 0x100 [0x19, 0xD8]).setReg .ebx 0xFFFFFFFF).setFlags ⟨true, false, false, false, false, false⟩))
    (fun t => decide (t.reg .eax = 0x0 ∧ t.flags = ⟨true, true, false, false, false, false⟩ ∧ t.eip = 0x102)) = true := by decide

/-- V40.42. -/
theorem test_sbb_V40_42 :
    holdsAfter (coreStep true (((booted 0x100 [0x83, 0xD8, 0x00]).setReg .eax 0x80000000).setFlags ⟨true, false, false, false, false, false⟩))
    (fun t => decide (t.reg .eax = 0x7FFFFFFF ∧ t.flags = ⟨false, false, false, false, false, true⟩ ∧ t.eip = 0x103)) = true := by decide

/-- V40.56. -/
theorem test_cmp_V40_56 :
    holdsAfter (coreStep true (((booted 0x100 [0x38, 0xD8]).setReg .eax 0x7F).setReg .ebx 0xFF))
    (fun t => decide (t.flags = ⟨true, false, true, false, false, true⟩ ∧ t.eip = 0x102)) = true := by decide

/-- V40.58. -/
theorem test_cmp_V40_58 :
    holdsAfter (coreStep true (holding ((booted 0x100 [0x81, 0x3B, 0x78, 0x56, 0x34, 0x12]).setReg .ebx 0x20000100) 0x20000100 [0x78, 0x56, 0x34, 0x12]))
    (fun t => decide (t.flags = ⟨false, true, false, false, false, false⟩ ∧ t.eip = 0x106)) = true := by decide

/-- V40.61. -/
theorem test_inc_V40_61 :
    holdsAfter (coreStep true (((booted 0x100 [0x40]).setReg .eax 0x7FFFFFFF).setFlags ⟨true, false, false, false, false, false⟩))
    (fun t => decide (t.reg .eax = 0x80000000 ∧ t.flags = ⟨true, false, true, false, false, true⟩ ∧ t.eip = 0x101)) = true := by decide

/-- V40.64. -/
theorem test_inc_V40_64 :
    holdsAfter (coreStep true (holding ((booted 0x100 [0xFF, 0x03]).setReg .ebx 0x20000100) 0x20000100 [0xFF, 0x00, 0x00, 0x00]))
    (fun t => decide (loadLE t.mem 0x20000100 4 = 0x100 ∧ t.flags = ⟨false, false, false, false, false, false⟩ ∧ t.eip = 0x102)) = true := by decide

/-- V40.72. -/
theorem test_dec_V40_72 :
    holdsAfter (coreStep true (booted 0x100 [0x48]))
    (fun t => decide (t.reg .eax = 0xFFFFFFFF ∧ t.flags = ⟨false, false, true, false, false, false⟩ ∧ t.eip = 0x101)) = true := by decide

/-- V40.74. -/
theorem test_dec_V40_74 :
    holdsAfter (coreStep true (holding ((booted 0x100 [0x66, 0xFF, 0x0B]).setReg .ebx 0x20000100) 0x20000100 [0x00, 0x00, 0xFF, 0xFF]))
    (fun t => decide (loadLE t.mem 0x20000100 2 = 0xFFFF ∧ t.flags = ⟨false, false, true, false, false, false⟩ ∧ t.eip = 0x103)) = true := by decide

/-- V40.82. -/
theorem test_neg_V40_82 :
    holdsAfter (coreStep true ((booted 0x100 [0xF6, 0xD8]).setReg .eax 0x80))
    (fun t => decide (t.reg .eax = 0x80 ∧ t.flags = ⟨true, false, true, false, false, true⟩ ∧ t.eip = 0x102)) = true := by decide

/-- V40.81. -/
theorem test_neg_V40_81 :
    holdsAfter (coreStep true ((booted 0x100 [0xF7, 0xD8]).setFlags ⟨true, false, false, false, false, false⟩))
    (fun t => decide (t.reg .eax = 0x0 ∧ t.flags = ⟨false, true, false, false, false, false⟩ ∧ t.eip = 0x102)) = true := by decide

/-- V41.3. -/
theorem test_and_V41_3 :
    holdsAfter (coreStep true ((booted 0x100 [0x66, 0x83, 0xE0, 0xF0]).setReg .eax 0xABCD1234))
    (fun t => decide (t.reg .eax = 0xABCD1230 ∧ t.flags = ⟨false, false, false, false, false, false⟩ ∧ t.eip = 0x104)) = true := by decide

/-- V41.4. -/
theorem test_and_V41_4 :
    holdsAfter (coreStep true (holding (((booted 0x100 [0x21, 0x03]).setReg .eax 0x80000000).setReg .ebx 0x20000100) 0x20000100 [0xFF, 0xFF, 0xFF, 0xFF]))
    (fun t => decide (loadLE t.mem 0x20000100 4 = 0x80000000 ∧ t.flags = ⟨false, false, true, false, false, false⟩ ∧ t.eip = 0x102)) = true := by decide

/-- V41.10. -/
theorem test_or_V41_10 :
    holdsAfter (coreStep true ((booted 0x100 [0x0C, 0x80]).setReg .eax 0xF))
    (fun t => decide (t.reg .eax = 0x8F ∧ t.flags = ⟨false, false, true, false, false, false⟩ ∧ t.eip = 0x102)) = true := by decide

/-- V41.11. -/
theorem test_or_V41_11 :
    holdsAfter (coreStep true (booted 0x100 [0x83, 0xC8, 0xFF]))
    (fun t => decide (t.reg .eax = 0xFFFFFFFF ∧ t.flags = ⟨false, false, true, false, false, false⟩ ∧ t.eip = 0x103)) = true := by decide

/-- V41.22. -/
theorem test_xor_V41_22 :
    holdsAfter (coreStep true ((booted 0x100 [0x66, 0x35, 0xFF, 0xFF]).setReg .eax 0x10000))
    (fun t => decide (t.reg .eax = 0x1FFFF ∧ t.flags = ⟨false, false, true, false, false, false⟩ ∧ t.eip = 0x104)) = true := by decide

/-- V41.32. -/
theorem test_not_V41_32 :
    holdsAfter (coreStep true (holding ((booted 0x100 [0x66, 0xF7, 0x13]).setReg .ebx 0x20000100) 0x20000100 [0xFF, 0x00]))
    (fun t => decide (loadLE t.mem 0x20000100 2 = 0xFF00 ∧ t.flags = ⟨false, false, false, false, false, false⟩ ∧ t.eip = 0x103)) = true := by decide

/-- V41.30. -/
theorem test_not_V41_30 :
    holdsAfter (coreStep true (((booted 0x100 [0xF6, 0xD0]).setReg .eax 0x55).setFlags ⟨true, true, false, false, false, true⟩))
    (fun t => decide (t.reg .eax = 0xAA ∧ t.flags = ⟨true, true, false, false, false, true⟩ ∧ t.eip = 0x102)) = true := by decide

/-- V41.44. -/
theorem test_test_V41_44 :
    holdsAfter (coreStep true ((booted 0x100 [0x66, 0xA9, 0x00, 0x80]).setReg .eax 0x8000))
    (fun t => decide (t.flags = ⟨false, false, true, false, false, false⟩ ∧ t.eip = 0x104)) = true := by decide

/-- V41.42. -/
theorem test_test_V41_42 :
    holdsAfter (coreStep true ((booted 0x100 [0xF6, 0xC3, 0x80]).setReg .ebx 0x80))
    (fun t => decide (t.flags = ⟨false, false, true, false, false, false⟩ ∧ t.eip = 0x103)) = true := by decide

/-- V42.1. -/
theorem test_bswap_V42_1 :
    holdsAfter (coreStep true ((booted 0x100 [0x0F, 0xC8]).setReg .eax 0x12345678))
    (fun t => decide (t.reg .eax = 0x78563412 ∧ t.flags = ⟨false, false, false, false, false, false⟩ ∧ t.eip = 0x102)) = true := by decide

/-- V42.3. -/
theorem test_bswap_V42_3 :
    holdsAfter (coreStep true (booted 0x100 [0x0F, 0xCC]))
    (fun t => decide (t.reg .esp = 0x200020 ∧ t.flags = ⟨false, false, false, false, false, false⟩ ∧ t.eip = 0x102)) = true := by decide

/-- V42.12. -/
theorem test_bt_V42_12 :
    holdsAfter (coreStep true (holding (((booted 0x100 [0x0F, 0xA3, 0x03]).setReg .eax 0x23).setReg .ebx 0x20000100) 0x20000100 [0x08, 0x00, 0x00, 0x00, 0x00, 0x00, 0x00, 0x00]))
    (fun t => decide (t.flags.cf = true ∧ t.flags.zf = false ∧ t.flags.tf = false ∧ t.flags.intf = false ∧ t.eip = 0x103)) = true := by decide

/-- V42.13. -/
theorem test_bt_V42_13 :
    holdsAfter (coreStep true (((booted 0x100 [0x66, 0x0F, 0xA3, 0xC8]).setReg .eax 0x8000).setReg .ecx 0x1F))
    (fun t => decide (t.flags.cf = true ∧ t.flags.zf = false ∧ t.flags.tf = false ∧ t.flags.intf = false ∧ t.eip = 0x104)) = true := by decide

/-- V42.20. -/
theorem test_btc_V42_20 :
    holdsAfter (coreStep true ((booted 0x100 [0x0F, 0xBA, 0xFB, 0x00]).setReg .ebx 0x1))
    (fun t => decide (t.reg .ebx = 0x0 ∧ t.flags.cf = true ∧ t.flags.zf = false ∧ t.flags.tf = false ∧ t.flags.intf = false ∧ t.eip = 0x104)) = true := by decide

/-- V42.31. -/
theorem test_btr_V42_31 :
    holdsAfter (coreStep true (holding ((booted 0x100 [0x0F, 0xBA, 0x33, 0x07]).setReg .ebx 0x20000100) 0x20000100 [0xFF, 0x00, 0x00, 0x00]))
    (fun t => decide (loadLE t.mem 0x20000100 4 = 0x7F ∧ t.flags.cf = true ∧ t.flags.zf = false ∧ t.flags.tf = false ∧ t.flags.intf = false ∧ t.eip = 0x104)) = true := by decide

/-- V42.30. -/
theorem test_btr_V42_30 :
    holdsAfter (coreStep true (((booted 0x100 [0x0F, 0xB3, 0xD1]).setReg .ecx 0xFFFF).setReg .edx 0x28))
    (fun t => decide (t.reg .ecx = 0xFEFF ∧ t.flags.cf = true ∧ t.flags.zf = false ∧ t.flags.tf = false ∧ t.flags.intf = false ∧ t.eip = 0x103)) = true := by decide

/-- V42.40. -/
theorem test_bts_V42_40 :
    holdsAfter (coreStep true ((booted 0x100 [0x66, 0x0F, 0xBA, 0xE8, 0x1F]).setReg .eax 0x12340000))
    (fun t => decide (t.reg .eax = 0x12348000 ∧ t.flags.cf = false ∧ t.flags.zf = false ∧ t.flags.tf = false ∧ t.flags.intf = false ∧ t.eip = 0x105)) = true := by decide

/-- V42.41. -/
theorem test_bts_V42_41 :
    holdsAfter (coreStep true (holding (((booted 0x100 [0x0F, 0xAB, 0x03]).setReg .eax 0x40).setReg .ebx 0x20000100) 0x20000100 [0x00, 0x00, 0x00, 0x00]))
    (fun t => decide (loadLE t.mem 0x20000100 4 = 0x1 ∧ t.flags.cf = false ∧ t.flags.zf = false ∧ t.flags.tf = false ∧ t.flags.intf = false ∧ t.eip = 0x103)) = true := by decide

/-- V43.2. -/
theorem test_rcl_V43_2 :
    holdsAfter (coreStep true (((booted 0x100 [0xC0, 0xD0, 0x09]).setReg .eax 0xA5).setFlags ⟨true, false, false, false, false, false⟩))
    (fun t => decide (t.reg .eax = 0xA5 ∧ t.flags.cf = true ∧ t.flags.zf = false ∧ t.flags.sf = false ∧ t.flags.tf = false ∧ t.flags.intf = false ∧ t.eip = 0x103)) = true := by decide

/-- V43.1. -/
theorem test_rcl_V43_1 :
    holdsAfter (coreStep true ((booted 0x100 [0xD0, 0xD0]).setReg .eax 0x80))
    (fun t => decide (t.reg .eax = 0x0 ∧ t.flags = ⟨true, false, false, false, false, true⟩ ∧ t.eip = 0x102)) = true := by decide

/-- V43.6. -/
theorem test_rcr_V43_6 :
    holdsAfter (coreStep true ((booted 0x100 [0x66, 0xC1, 0xD8, 0x04]).setReg .eax 0xF))
    (fun t => decide (t.reg .eax = 0xE000 ∧ t.flags.cf = true ∧ t.flags.zf = false ∧ t.flags.sf = false ∧ t.flags.tf = false ∧ t.flags.intf = false ∧ t.eip = 0x104)) = true := by decide

/-- V43.5. -/
theorem test_rcr_V43_5 :
    holdsAfter (coreStep true ((booted 0x100 [0xD0, 0xD8]).setFlags ⟨true, false, false, false, false, false⟩))
    (fun t => decide (t.reg .eax = 0x80 ∧ t.flags = ⟨false, false, false, false, false, true⟩ ∧ t.eip = 0x102)) = true := by decide

/-- V43.10. -/
theorem test_rol_V43_10 :
    holdsAfter (coreStep true ((booted 0x100 [0x66, 0xC1, 0xC0, 0x08]).setReg .eax 0x1234))
    (fun t => decide (t.reg .eax = 0x3412 ∧ t.flags.cf = false ∧ t.flags.zf = false ∧ t.flags.sf = false ∧ t.flags.tf = false ∧ t.flags.intf = false ∧ t.eip = 0x104)) = true := by decide

/-- V43.11. -/
theorem test_rol_V43_11 :
    holdsAfter (coreStep true (((booted 0x100 [0xD1, 0xC0]).setReg .eax 0x80000000).setFlags ⟨false, true, true, false, false, false⟩))
    (fun t => decide (t.reg .eax = 0x1 ∧ t.flags = ⟨true, true, true, false, false, true⟩ ∧ t.eip = 0x102)) = true := by decide

/-- V43.14. -/
theorem test_ror_V43_14 :
    holdsAfter (coreStep true ((booted 0x100 [0xC1, 0xC8, 0x04]).setReg .eax 0x12345678))
    (fun t => decide (t.reg .eax = 0x81234567 ∧ t.flags.cf = true ∧ t.flags.zf = false ∧ t.flags.sf = false ∧ t.flags.tf = false ∧ t.flags.intf = false ∧ t.eip = 0x103)) = true := by decide

/-- V43.15. -/
theorem test_ror_V43_15 :
    holdsAfter (coreStep true (((booted 0x100 [0xC1, 0xC8, 0x20]).setReg .eax 0x12345678).setFlags ⟨true, false, false, false, false, true⟩))
    (fun t => decide (t.flags = ⟨true, false, false, false, false, true⟩ ∧ t.eip = 0x103)) = true := by decide

/-- V43.24. -/
theorem test_shl_V43_24 :
    holdsAfter (coreStep true ((booted 0x100 [0xC0, 0xE0, 0x08]).setReg .eax 0x1))
    (fun t => decide (t.reg .eax = 0x0 ∧ t.flags.cf = true ∧ t.flags.zf = true ∧ t.flags.sf = false ∧ t.flags.tf = false ∧ t.flags.intf = false ∧ t.eip = 0x103)) = true := by decide

/-- V43.27. -/
theorem test_shl_V43_27 :
    holdsAfter (coreStep true ((booted 0x100 [0xD3, 0xE1]).setReg .ecx 0x4))
    (fun t => decide (t.reg .ecx = 0x40 ∧ t.flags.cf = false ∧ t.flags.zf = false ∧ t.flags.sf = false ∧ t.flags.tf = false ∧ t.flags.intf = false ∧ t.eip = 0x102)) = true := by decide

/-- V43.31. -/
theorem test_shr_V43_31 :
    holdsAfter (coreStep true ((booted 0x100 [0x66, 0xC1, 0xE8, 0x11]).setReg .eax 0xFFFFFFFF))
    (fun t => decide (t.reg .eax = 0xFFFF0000 ∧ t.flags.cf = false ∧ t.flags.zf = true ∧ t.flags.sf = false ∧ t.flags.tf = false ∧ t.flags.intf = false ∧ t.eip = 0x104)) = true := by decide

/-- V43.30. -/
theorem test_shr_V43_30 :
    holdsAfter (coreStep true ((booted 0x100 [0xD0, 0xE8]).setReg .eax 0x81))
    (fun t => decide (t.reg .eax = 0x40 ∧ t.flags = ⟨true, false, false, false, false, true⟩ ∧ t.eip = 0x102)) = true := by decide

/-- V43.40. -/
theorem test_sar_V43_40 :
    holdsAfter (coreStep true ((booted 0x100 [0xC1, 0xF8, 0x02]).setReg .eax 0xFFFFFFF7))
    (fun t => decide (t.reg .eax = 0xFFFFFFFD ∧ t.flags.cf = true ∧ t.flags.zf = false ∧ t.flags.sf = true ∧ t.flags.tf = false ∧ t.flags.intf = false ∧ t.eip = 0x103)) = true := by decide

/-- V43.43. -/
theorem test_sar_V43_43 :
    holdsAfter (coreStep true ((booted 0x100 [0xC0, 0xF8, 0x07]).setReg .eax 0x7F))
    (fun t => decide (t.reg .eax = 0x0 ∧ t.flags.cf = true ∧ t.flags.zf = true ∧ t.flags.sf = false ∧ t.flags.tf = false ∧ t.flags.intf = false ∧ t.eip = 0x103)) = true := by decide

/-- V44.2. -/
theorem test_mul_V44_2 :
    holdsAfter (coreStep true ((((booted 0x100 [0xF6, 0xE3]).setReg .eax 0x12340003).setReg .edx 0x55555555).setReg .ebx 0x4))
    (fun t => decide (t.reg .eax = 0x1234000C ∧ t.flags.cf = false ∧ t.flags.tf = false ∧ t.flags.intf = false ∧ t.flags.of = false ∧ t.eip = 0x102)) = true := by decide

/-- V44.4. -/
theorem test_mul_V44_4 :
    holdsAfter (coreStep true ((((booted 0x100 [0x66, 0xF7, 0xE3]).setReg .eax 0xFFFF).setReg .edx 0xAAAA0000).setReg .ebx 0xFFFF))
    (fun t => decide (t.reg .eax = 0x1 ∧ t.reg .edx = 0xAAAAFFFE ∧ t.flags.cf = true ∧ t.flags.tf = false ∧ t.flags.intf = false ∧ t.flags.of = true ∧ t.eip = 0x103)) = true := by decide

/-- V44.14. -/
theorem test_imul1_V44_14 :
    holdsAfter (coreStep true (((booted 0x100 [0xF7, 0xEB]).setReg .eax 0x80000000).setReg .ebx 0x80000000))
    (fun t => decide (t.reg .eax = 0x0 ∧ t.reg .edx = 0x40000000 ∧ t.flags.cf = true ∧ t.flags.tf = false ∧ t.flags.intf = false ∧ t.flags.of = true ∧ t.eip = 0x102)) = true := by decide

/-- V44.15. -/
theorem test_imul1_V44_15 :
    holdsAfter (coreStep true (((booted 0x100 [0x66, 0xF7, 0xEB]).setReg .eax 0xFFFE).setReg .ebx 0x3))
    (fun t => decide (t.reg .eax = 0xFFFA ∧ t.reg .edx = 0xFFFF ∧ t.flags.tf = false ∧ t.flags.intf = false ∧ t.eip = 0x103)) = true := by decide

/-- V44.22. -/
theorem test_imul2_V44_22 :
    holdsAfter (coreStep true (((booted 0x100 [0x66, 0x0F, 0xAF, 0xC3]).setReg .eax 0x11110100).setReg .ebx 0x100))
    (fun t => decide (t.reg .eax = 0x11110000 ∧ t.flags.cf = true ∧ t.flags.tf = false ∧ t.flags.intf = false ∧ t.flags.of = true ∧ t.eip = 0x104)) = true := by decide

/-- V44.20. -/
theorem test_imul2_V44_20 :
    holdsAfter (coreStep true (((booted 0x100 [0x0F, 0xAF, 0xC3]).setReg .eax 0x10000).setReg .ebx 0x10000))
    (fun t => decide (t.reg .eax = 0x0 ∧ t.flags.cf = true ∧ t.flags.tf = false ∧ t.flags.intf = false ∧ t.flags.of = true ∧ t.eip = 0x103)) = true := by decide

/-- V44.31. -/
theorem test_imul3_V44_31 :
    holdsAfter (coreStep true ((booted 0x100 [0x6B, 0xC0, 0x0A]).setReg .eax 0x7))
    (fun t => decide (t.reg .eax = 0x46 ∧ t.flags.cf = false ∧ t.flags.tf = false ∧ t.flags.intf = false ∧ t.flags.of = false ∧ t.eip = 0x103)) = true := by decide

/-- V44.33. -/
theorem test_imul3_V44_33 :
    holdsAfter (coreStep true (((booted 0x100 [0x66, 0x69, 0xC3, 0xE8, 0x03]).setReg .eax 0xFFFF0000).setReg .ebx 0x3))
    (fun t => decide (t.reg .eax = 0xFFFF0BB8 ∧ t.flags.cf = false ∧ t.flags.tf = false ∧ t.flags.intf = false ∧ t.flags.of = false ∧ t.eip = 0x105)) = true := by decide

/-- V44.41. -/
theorem test_div_V44_41 :
    holdsAfter (coreStep true (((booted 0x100 [0xF6, 0xF3]).setReg .eax 0x64).setReg .ebx 0x7))
    (fun t => decide (t.reg .eax = 0x20E ∧ t.flags.tf = false ∧ t.flags.intf = false ∧ t.eip = 0x102)) = true := by decide

/-- V44.47. -/
theorem test_div_V44_47 :
    holdsAfter (coreStep true ((booted 0x100 [0xF6, 0xF0]).setReg .eax 0x110))
    (fun t => decide (t.reg .eax = 0x11 ∧ t.flags.tf = false ∧ t.flags.intf = false ∧ t.eip = 0x102)) = true := by decide

/-- V44.50. -/
theorem test_idiv_V44_50 :
    holdsAfter (coreStep true ((((booted 0x100 [0xF7, 0xFB]).setReg .eax 0xFFFFFFF7).setReg .edx 0xFFFFFFFF).setReg .ebx 0x4))
    (fun t => decide (t.reg .eax = 0xFFFFFFFE ∧ t.reg .edx = 0xFFFFFFFF ∧ t.flags.tf = false ∧ t.flags.intf = false ∧ t.eip = 0x102)) = true := by decide

/-- V44.54. -/
theorem test_idiv_V44_54 :
    holdsAfter (coreStep true ((((booted 0x100 [0xF7, 0xFB]).setReg .eax 0x80000000).setReg .edx 0xFFFFFFFF).setReg .ebx 0x1))
    (fun t => decide (t.reg .eax = 0x80000000 ∧ t.reg .edx = 0x0 ∧ t.flags.tf = false ∧ t.flags.intf = false ∧ t.eip = 0x102)) = true := by decide

/-- V45.3. -/
theorem test_mov_V45_3 :
    holdsAfter (coreStep true (((booted 0x100 [0x88, 0x23]).setReg .eax 0x11223344).setReg .ebx 0x20000100))
    (fun t => decide (loadLE t.mem 0x20000100 1 = 0x33 ∧ t.flags = ⟨false, false, false, false, false, false⟩ ∧ t.eip = 0x102)) = true := by decide

/-- V45.22. -/
theorem test_mov_V45_22 :
    holdsAfter (coreStep true ((booted 0x100 [0x66, 0xBB, 0x34, 0x12]).setReg .ebx 0xFFFFFFFF))
    (fun t => decide (t.reg .ebx = 0xFFFF1234 ∧ t.flags = ⟨false, false, false, false, false, false⟩ ∧ t.eip = 0x104)) = true := by decide

/-- V45.42. -/
theorem test_movsx_V45_42 :
    holdsAfter (coreStep true (((booted 0x100 [0x66, 0x0F, 0xBE, 0xC3]).setReg .eax 0x12345678).setReg .ebx 0xFF))
    (fun t => decide (t.reg .eax = 0x1234FFFF ∧ t.flags = ⟨false, false, false, false, false, false⟩ ∧ t.eip = 0x104)) = true := by decide

/-- V45.41. -/
theorem test_movsx_V45_41 :
    holdsAfter (coreStep true ((booted 0x100 [0x0F, 0xBE, 0xC7]).setReg .ebx 0x7F80))
    (fun t => decide (t.reg .eax = 0x7F ∧ t.flags = ⟨false, false, false, false, false, false⟩ ∧ t.eip = 0x103)) = true := by decide

/-- V45.51. -/
theorem test_movzx_V45_51 :
    holdsAfter (coreStep true ((booted 0x100 [0x0F, 0xB6, 0xC4]).setReg .eax 0x1234AB78))
    (fun t => decide (t.reg .eax = 0xAB ∧ t.flags = ⟨false, false, false, false, false, false⟩ ∧ t.eip = 0x103)) = true := by decide

/-- V45.52. -/
theorem test_movzx_V45_52 :
    holdsAfter (coreStep true (((booted 0x100 [0x66, 0x0F, 0xB6, 0xC3]).setReg .eax 0x12345678).setReg .ebx 0xFF))
    (fun t => decide (t.reg .eax = 0x123400FF ∧ t.flags = ⟨false, false, false, false, false, false⟩ ∧ t.eip = 0x104)) = true := by decide

/-- V45.63. -/
theorem test_lea_V45_63 :
    holdsAfter (coreStep true (((booted 0x100 [0x66, 0x8D, 0x43, 0x01]).setReg .eax 0xAAAAAAAA).setReg .ebx 0x1234FFFF))
    (fun t => decide (t.reg .eax = 0xAAAA0000 ∧ t.flags = ⟨false, false, false, false, false, false⟩ ∧ t.eip = 0x104)) = true := by decide

/-- V45.64. -/
theorem test_lea_V45_64 :
    holdsAfter (coreStep true (((booted 0x100 [0x8D, 0x84, 0x4B, 0x00, 0x00, 0x00, 0x80]).setReg .ecx 0x3).setReg .ebx 0x80000000))
    (fun t => decide (t.reg .eax = 0x6 ∧ t.flags = ⟨false, false, false, false, false, false⟩ ∧ t.eip = 0x107)) = true := by decide

/-- V45.70. -/
theorem test_cbw_V45_70 :
    holdsAfter (coreStep true ((booted 0x100 [0x66, 0x98]).setReg .eax 0x12345680))
    (fun t => decide (t.reg .eax = 0x1234FF80 ∧ t.flags = ⟨false, false, false, false, false, false⟩ ∧ t.eip = 0x102)) = true := by decide

/-- V45.73. -/
theorem test_cwde_V45_73 :
    holdsAfter (coreStep true ((booted 0x100 [0x98]).setReg .eax 0x8000))
    (fun t => decide (t.reg .eax = 0xFFFF8000 ∧ t.flags = ⟨false, false, false, false, false, false⟩ ∧ t.eip = 0x101)) = true := by decide

/-- V45.74. -/
theorem test_cwd_V45_74 :
    holdsAfter (coreStep true (((booted 0x100 [0x66, 0x99]).setReg .eax 0x8000).setReg .edx 0x12345678))
    (fun t => decide (t.reg .edx = 0x1234FFFF ∧ t.flags = ⟨false, false, false, false, false, false⟩ ∧ t.eip = 0x102)) = true := by decide

/-- V45.76. -/
theorem test_cdq_V45_76 :
    holdsAfter (coreStep true ((booted 0x100 [0x99]).setReg .eax 0xFFFFFFF7))
    (fun t => decide (t.reg .edx = 0xFFFFFFFF ∧ t.flags = ⟨false, false, false, false, false, false⟩ ∧ t.eip = 0x101)) = true := by decide

/-- V45.80. -/
theorem test_nop_V45_80 :
    holdsAfter (coreStep true (booted 0x100 [0x90]))
    (fun t => decide (t.flags = ⟨false, false, false, false, false, false⟩ ∧ t.eip = 0x101)) = true := by decide

/-- V46.10. -/
theorem test_push_V46_10 :
    holdsAfter (coreStep true (holding ((booted 0x100 [0xFF, 0x74, 0x24, 0x04]).setReg .esp 0x20001FF0) 0x20001FF4 [0x0D, 0xF0, 0xAD, 0x0B]))
    (fun t => decide (t.reg .esp = 0x20001FEC ∧ loadLE t.mem 0x20001FEC 4 = 0xBADF00D ∧ t.flags = ⟨false, false, false, false, false, false⟩ ∧ t.eip = 0x104)) = true := by decide

/-- V46.8. -/
theorem test_push_V46_8 :
    holdsAfter (coreStep true (booted 0x100 [0x66, 0x68, 0x34, 0x12]))
    (fun t => decide (t.reg .esp = 0x20001FFE ∧ loadLE t.mem 0x20001FFE 2 = 0x1234 ∧ t.flags = ⟨false, false, false, false, false, false⟩ ∧ t.eip = 0x104)) = true := by decide

/-- V46.21. -/
theorem test_pop_V46_21 :
    holdsAfter (coreStep true (holding ((booted 0x100 [0x5C]).setReg .esp 0x20001FFC) 0x20001FFC [0x00, 0x10, 0x00, 0x20]))
    (fun t => decide (t.reg .esp = 0x20001000 ∧ t.flags = ⟨false, false, false, false, false, false⟩ ∧ t.eip = 0x101)) = true := by decide

/-- V46.25. -/
theorem test_pop_V46_25 :
    holdsAfter (coreStep true (holding (((booted 0x100 [0x66, 0x8F, 0x03]).setReg .ebx 0x20000100).setReg .esp 0x20001FFE) 0x20001FFE [0x34, 0x12]))
    (fun t => decide (t.reg .esp = 0x20002000 ∧ loadLE t.mem 0x20000100 2 = 0x1234 ∧ t.flags = ⟨false, false, false, false, false, false⟩ ∧ t.eip = 0x103)) = true := by decide

/-- V46.32. -/
theorem test_pushfd_V46_32 :
    holdsAfter (coreStep true ((booted 0x100 [0x9C]).setFlags ⟨true, true, true, false, true, true⟩))
    (fun t => decide (t.reg .esp = 0x20001FFC ∧ loadLE t.mem 0x20001FFC 4 = 0xAC3 ∧ t.flags = ⟨true, true, true, false, true, true⟩ ∧ t.eip = 0x101)) = true := by decide

/-- V46.40. -/
theorem test_popfd_V46_40 :
    holdsAfter (coreStep true (holding ((booted 0x100 [0x9D]).setReg .esp 0x20001FFC) 0x20001FFC [0xC3, 0x0A, 0x00, 0x00]))
    (fun t => decide (t.reg .esp = 0x20002000 ∧ t.flags = ⟨true, true, true, false, true, true⟩ ∧ t.eip = 0x101)) = true := by decide

/-- V47.3. -/
theorem test_callRel_V47_3 :
    holdsAfter (coreStep true (booted 0x1000 [0xE8, 0xF6, 0xFF, 0xFF, 0xFF]))
    (fun t => decide (t.reg .esp = 0x20001FFC ∧ loadLE t.mem 0x20001FFC 4 = 0x1005 ∧ t.flags = ⟨false, false, false, false, false, false⟩ ∧ t.eip = 0xFFB)) = true := by decide

/-- V47.8. -/
theorem test_callRm_V47_8 :
    holdsAfter (coreStep true (holding ((booted 0x1000 [0xFF, 0x54, 0x24, 0x08]).setReg .esp 0x20001FF0) 0x20001FF8 [0x00, 0x40, 0x00, 0x00]))
    (fun t => decide (t.reg .esp = 0x20001FEC ∧ loadLE t.mem 0x20001FEC 4 = 0x1004 ∧ t.flags = ⟨false, false, false, false, false, false⟩ ∧ t.eip = 0x4000)) = true := by decide

/-- V47.7. -/
theorem test_callRm_V47_7 :
    holdsAfter (coreStep true (booted 0x1000 [0xFF, 0xD4]))
    (fun t => decide (t.reg .esp = 0x20001FFC ∧ loadLE t.mem 0x20001FFC 4 = 0x1002 ∧ t.flags = ⟨false, false, false, false, false, false⟩ ∧ t.eip = 0x20002000)) = true := by decide

/-- V47.10. -/
theorem test_ret_V47_10 :
    holdsAfter (coreStep true (holding ((booted 0x100 [0xC3]).setReg .esp 0x20001FFC) 0x20001FFC [0x05, 0x10, 0x00, 0x00]))
    (fun t => decide (t.reg .esp = 0x20002000 ∧ t.flags = ⟨false, false, false, false, false, false⟩ ∧ t.eip = 0x1005)) = true := by decide

/-- V47.22. -/
theorem test_jmpRel_V47_22 :
    holdsAfter (coreStep true (booted 0x1000 [0xEB, 0x80]))
    (fun t => decide (t.flags = ⟨false, false, false, false, false, false⟩ ∧ t.eip = 0xF82)) = true := by decide

/-- V47.32. -/
theorem test_jmpRm_V47_32 :
    holdsAfter (coreStep true (holding ((booted 0x100 [0xFF, 0x24, 0x85, 0x00, 0x02, 0x00, 0x20]).setReg .eax 0x2) 0x20000208 [0x44, 0x44, 0x00, 0x00]))
    (fun t => decide (t.flags = ⟨false, false, false, false, false, false⟩ ∧ t.eip = 0x4444)) = true := by decide

/-- V47.60. -/
theorem test_jo_V47_60 :
    holdsAfter (coreStep true ((booted 0x1000 [0x0F, 0x80, 0xF0, 0xFF, 0xFF, 0xFF]).setFlags ⟨false, false, false, false, false, true⟩))
    (fun t => decide (t.flags = ⟨false, false, false, false, false, true⟩ ∧ t.eip = 0xFF6)) = true := by decide

/-- V47.61. -/
theorem test_jo_V47_61 :
    holdsAfter (coreStep true (booted 0x1000 [0x70, 0x7F]))
    (fun t => decide (t.flags = ⟨false, false, false, false, false, false⟩ ∧ t.eip = 0x1002)) = true := by decide

/-- V47.62. -/
theorem test_jno_V47_62 :
    holdsAfter (coreStep true (booted 0x1000 [0x0F, 0x81, 0xF0, 0xFF, 0xFF, 0xFF]))
    (fun t => decide (t.flags = ⟨false, false, false, false, false, false⟩ ∧ t.eip = 0xFF6)) = true := by decide

/-- V47.63. -/
theorem test_jno_V47_63 :
    holdsAfter (coreStep true ((booted 0x1000 [0x71, 0x7F]).setFlags ⟨false, false, false, false, false, true⟩))
    (fun t => decide (t.flags = ⟨false, false, false, false, false, true⟩ ∧ t.eip = 0x1002)) = true := by decide

/-- V47.64. -/
theorem test_jb_V47_64 :
    holdsAfter (coreStep true ((booted 0x1000 [0x0F, 0x82, 0xF0, 0xFF, 0xFF, 0xFF]).setFlags ⟨true, false, false, false, false, false⟩))
    (fun t => decide (t.flags = ⟨true, false, false, false, false, false⟩ ∧ t.eip = 0xFF6)) = true := by decide

/-- V47.65. -/
theorem test_jb_V47_65 :
    holdsAfter (coreStep true (booted 0x1000 [0x72, 0x7F]))
    (fun t => decide (t.flags = ⟨false, false, false, false, false, false⟩ ∧ t.eip = 0x1002)) = true := by decide

/-- V47.66. -/
theorem test_jae_V47_66 :
    holdsAfter (coreStep true (booted 0x1000 [0x0F, 0x83, 0xF0, 0xFF, 0xFF, 0xFF]))
    (fun t => decide (t.flags = ⟨false, false, false, false, false, false⟩ ∧ t.eip = 0xFF6)) = true := by decide

/-- V47.67. -/
theorem test_jae_V47_67 :
    holdsAfter (coreStep true ((booted 0x1000 [0x73, 0x7F]).setFlags ⟨true, false, false, false, false, false⟩))
    (fun t => decide (t.flags = ⟨true, false, false, false, false, false⟩ ∧ t.eip = 0x1002)) = true := by decide

/-- V47.68. -/
theorem test_je_V47_68 :
    holdsAfter (coreStep true ((booted 0x1000 [0x0F, 0x84, 0xF0, 0xFF, 0xFF, 0xFF]).setFlags ⟨false, true, false, false, false, false⟩))
    (fun t => decide (t.flags = ⟨false, true, false, false, false, false⟩ ∧ t.eip = 0xFF6)) = true := by decide

/-- V47.69. -/
theorem test_je_V47_69 :
    holdsAfter (coreStep true (booted 0x1000 [0x74, 0x7F]))
    (fun t => decide (t.flags = ⟨false, false, false, false, false, false⟩ ∧ t.eip = 0x1002)) = true := by decide

/-- V47.70. -/
theorem test_jne_V47_70 :
    holdsAfter (coreStep true (booted 0x1000 [0x0F, 0x85, 0xF0, 0xFF, 0xFF, 0xFF]))
    (fun t => decide (t.flags = ⟨false, false, false, false, false, false⟩ ∧ t.eip = 0xFF6)) = true := by decide

/-- V47.71. -/
theorem test_jne_V47_71 :
    holdsAfter (coreStep true ((booted 0x1000 [0x75, 0x7F]).setFlags ⟨false, true, false, false, false, false⟩))
    (fun t => decide (t.flags = ⟨false, true, false, false, false, false⟩ ∧ t.eip = 0x1002)) = true := by decide

/-- V47.72. -/
theorem test_jbe_V47_72 :
    holdsAfter (coreStep true ((booted 0x1000 [0x0F, 0x86, 0xF0, 0xFF, 0xFF, 0xFF]).setFlags ⟨false, true, false, false, false, false⟩))
    (fun t => decide (t.flags = ⟨false, true, false, false, false, false⟩ ∧ t.eip = 0xFF6)) = true := by decide

/-- V47.73. -/
theorem test_jbe_V47_73 :
    holdsAfter (coreStep true (booted 0x1000 [0x76, 0x7F]))
    (fun t => decide (t.flags = ⟨false, false, false, false, false, false⟩ ∧ t.eip = 0x1002)) = true := by decide

/-- V47.74. -/
theorem test_ja_V47_74 :
    holdsAfter (coreStep true (booted 0x1000 [0x0F, 0x87, 0xF0, 0xFF, 0xFF, 0xFF]))
    (fun t => decide (t.flags = ⟨false, false, false, false, false, false⟩ ∧ t.eip = 0xFF6)) = true := by decide

/-- V47.75. -/
theorem test_ja_V47_75 :
    holdsAfter (coreStep true ((booted 0x1000 [0x77, 0x7F]).setFlags ⟨true, false, false, false, false, false⟩))
    (fun t => decide (t.flags = ⟨true, false, false, false, false, false⟩ ∧ t.eip = 0x1002)) = true := by decide

/-- V47.76. -/
theorem test_js_V47_76 :
    holdsAfter (coreStep true ((booted 0x1000 [0x0F, 0x88, 0xF0, 0xFF, 0xFF, 0xFF]).setFlags ⟨false, false, true, false, false, false⟩))
    (fun t => decide (t.flags = ⟨false, false, true, false, false, false⟩ ∧ t.eip = 0xFF6)) = true := by decide

/-- V47.77. -/
theorem test_js_V47_77 :
    holdsAfter (coreStep true (booted 0x1000 [0x78, 0x7F]))
    (fun t => decide (t.flags = ⟨false, false, false, false, false, false⟩ ∧ t.eip = 0x1002)) = true := by decide

/-- V47.78. -/
theorem test_jns_V47_78 :
    holdsAfter (coreStep true (booted 0x1000 [0x0F, 0x89, 0xF0, 0xFF, 0xFF, 0xFF]))
    (fun t => decide (t.flags = ⟨false, false, false, false, false, false⟩ ∧ t.eip = 0xFF6)) = true := by decide

/-- V47.79. -/
theorem test_jns_V47_79 :
    holdsAfter (coreStep true ((booted 0x1000 [0x79, 0x7F]).setFlags ⟨false, false, true, false, false, false⟩))
    (fun t => decide (t.flags = ⟨false, false, true, false, false, false⟩ ∧ t.eip = 0x1002)) = true := by decide

/-- V47.80. -/
theorem test_jl_V47_80 :
    holdsAfter (coreStep true ((booted 0x1000 [0x0F, 0x8C, 0xF0, 0xFF, 0xFF, 0xFF]).setFlags ⟨false, false, false, false, false, true⟩))
    (fun t => decide (t.flags = ⟨false, false, false, false, false, true⟩ ∧ t.eip = 0xFF6)) = true := by decide

/-- V47.81. -/
theorem test_jl_V47_81 :
    holdsAfter (coreStep true ((booted 0x1000 [0x7C, 0x7F]).setFlags ⟨false, false, true, false, false, true⟩))
    (fun t => decide (t.flags = ⟨false, false, true, false, false, true⟩ ∧ t.eip = 0x1002)) = true := by decide

/-- V47.82. -/
theorem test_jge_V47_82 :
    holdsAfter (coreStep true ((booted 0x1000 [0x0F, 0x8D, 0xF0, 0xFF, 0xFF, 0xFF]).setFlags ⟨false, false, true, false, false, true⟩))
    (fun t => decide (t.flags = ⟨false, false, true, false, false, true⟩ ∧ t.eip = 0xFF6)) = true := by decide

/-- V47.83. -/
theorem test_jge_V47_83 :
    holdsAfter (coreStep true ((booted 0x1000 [0x7D, 0x7F]).setFlags ⟨false, false, true, false, false, false⟩))
    (fun t => decide (t.flags = ⟨false, false, true, false, false, false⟩ ∧ t.eip = 0x1002)) = true := by decide

/-- V47.45. -/
theorem test_jle_V47_45 :
    holdsAfter (coreStep true ((booted 0x1000 [0x7E, 0x10]).setFlags ⟨false, true, false, false, false, false⟩))
    (fun t => decide (t.flags = ⟨false, true, false, false, false, false⟩ ∧ t.eip = 0x1012)) = true := by decide

/-- V47.85. -/
theorem test_jle_V47_85 :
    holdsAfter (coreStep true ((booted 0x1000 [0x7E, 0x7F]).setFlags ⟨false, false, true, false, false, true⟩))
    (fun t => decide (t.flags = ⟨false, false, true, false, false, true⟩ ∧ t.eip = 0x1002)) = true := by decide

/-- V47.86. -/
theorem test_jg_V47_86 :
    holdsAfter (coreStep true (booted 0x1000 [0x0F, 0x8F, 0xF0, 0xFF, 0xFF, 0xFF]))
    (fun t => decide (t.flags = ⟨false, false, false, false, false, false⟩ ∧ t.eip = 0xFF6)) = true := by decide

/-- V47.87. -/
theorem test_jg_V47_87 :
    holdsAfter (coreStep true ((booted 0x1000 [0x7F, 0x7F]).setFlags ⟨false, true, true, false, false, true⟩))
    (fun t => decide (t.flags = ⟨false, true, true, false, false, true⟩ ∧ t.eip = 0x1002)) = true := by decide

/-- V48.1. -/
theorem test_clc_V48_1 :
    holdsAfter (coreStep true ((booted 0x100 [0xF8]).setFlags ⟨true, true, true, false, true, true⟩))
    (fun t => decide (t.flags = ⟨false, true, true, false, true, true⟩ ∧ t.eip = 0x101)) = true := by decide

/-- V48.2. -/
theorem test_stc_V48_2 :
    holdsAfter (coreStep true (booted 0x100 [0xF9]))
    (fun t => decide (t.flags = ⟨true, false, false, false, false, false⟩ ∧ t.eip = 0x101)) = true := by decide

/-- V48.3. -/
theorem test_cmc_V48_3 :
    holdsAfter (coreStep true ((booted 0x100 [0xF5]).setFlags ⟨true, false, false, false, false, false⟩))
    (fun t => decide (t.flags = ⟨false, false, false, false, false, false⟩ ∧ t.eip = 0x101)) = true := by decide

/-- V48.5. -/
theorem test_cli_V48_5 :
    holdsAfter (coreStep true ((booted 0x100 [0xFA]).setFlags ⟨false, false, false, false, true, false⟩))
    (fun t => decide (t.flags = ⟨false, false, false, false, false, false⟩ ∧ t.eip = 0x101)) = true := by decide

/-- V48.6. -/
theorem test_sti_V48_6 :
    holdsAfter (coreStep true (booted 0x100 [0xFB]))
    (fun t => decide (t.flags = ⟨false, false, false, false, true, false⟩ ∧ t.eip = 0x101)) = true := by decide

/-- V48.11. -/
theorem test_hlt_V48_11 :
    holdsAfter (coreStep true (booted 0x120 [0xF4]))
    (fun t => decide (t.run = .halted ∧ t.flags = ⟨false, false, false, false, false, false⟩ ∧ t.eip = 0x121)) = true := by decide

/-- V48.20. -/
theorem test_int_V48_20 :
    holdsAfter (coreStep true (holding (((booted 0x200 [0xCD, 0x40]).setFlags ⟨false, false, false, false, true, false⟩).setIdtr ⟨0x20001000, 0x7FF⟩) 0x20001200 [0x00, 0x10, 0x00, 0x00, 0x00, 0x8E, 0x00, 0x00]))
    (fun t => decide (t.reg .esp = 0x20001FF4 ∧ loadLE t.mem 0x20001FFC 4 = 0x202 ∧ loadLE t.mem 0x20001FF8 4 = 0x0 ∧ loadLE t.mem 0x20001FF4 4 = 0x202 ∧ t.flags = ⟨false, false, false, false, false, false⟩ ∧ t.eip = 0x1000)) = true := by decide

/-- V48.22. -/
theorem test_int_V48_22 :
    holdsAfter (coreStep true (holding (((booted 0x200 [0xCD, 0x40]).setFlags ⟨false, false, false, true, true, false⟩).setIdtr ⟨0x20001000, 0x7FF⟩) 0x20001200 [0x00, 0x10, 0x00, 0x00, 0x00, 0x8F, 0x00, 0x00]))
    (fun t => decide (t.reg .esp = 0x20001FF4 ∧ loadLE t.mem 0x20001FFC 4 = 0x302 ∧ loadLE t.mem 0x20001FF8 4 = 0x0 ∧ loadLE t.mem 0x20001FF4 4 = 0x202 ∧ t.flags = ⟨false, false, false, false, true, false⟩ ∧ t.eip = 0x1000)) = true := by decide

/-- V48.26. -/
theorem test_int3_V48_26 :
    holdsAfter (coreStep true (holding ((booted 0x300 [0xCC]).setIdtr ⟨0x20001000, 0x7FF⟩) 0x20001018 [0x00, 0x08, 0x00, 0x00, 0x00, 0x8F, 0x00, 0x00]))
    (fun t => decide (t.reg .esp = 0x20001FF4 ∧ loadLE t.mem 0x20001FFC 4 = 0x2 ∧ loadLE t.mem 0x20001FF8 4 = 0x0 ∧ loadLE t.mem 0x20001FF4 4 = 0x301 ∧ t.flags = ⟨false, false, false, false, false, false⟩ ∧ t.eip = 0x800)) = true := by decide

/-- V48.40. -/
theorem test_iret_V48_40 :
    holdsAfter (coreStep true (holding ((booted 0x100 [0xCF]).setReg .esp 0x20001FF4) 0x20001FF4 [0x02, 0x02, 0x00, 0x00, 0x00, 0x00, 0x00, 0x00, 0x02, 0x02, 0x00, 0x00]))
    (fun t => decide (t.reg .esp = 0x20002000 ∧ t.flags = ⟨false, false, false, false, true, false⟩ ∧ t.eip = 0x202)) = true := by decide

/-- V48.51. -/
theorem test_lidt_V48_51 :
    holdsAfter (coreStep true (holding ((booted 0x100 [0x0F, 0x01, 0x1B]).setReg .ebx 0x20000101) 0x20000101 [0x07, 0x00, 0x78, 0x56, 0x34, 0x12]))
    (fun t => decide (t.idtr.address = 0x12345678 ∧ t.idtr.limit = 0x7 ∧ t.flags = ⟨false, false, false, false, false, false⟩ ∧ t.eip = 0x103)) = true := by decide

/-- V48.54. -/
theorem test_sidt_V48_54 :
    holdsAfter (coreStep true (((booted 0x100 [0x0F, 0x01, 0x0B]).setReg .ebx 0x20000100).setIdtr ⟨0x20001000, 0x7FF⟩))
    (fun t => decide (loadLE t.mem 0x20000100 2 = 0x7FF ∧ loadLE t.mem 0x20000102 4 = 0x20001000 ∧ t.flags = ⟨false, false, false, false, false, false⟩ ∧ t.eip = 0x103)) = true := by decide

/-- V60.14. -/
theorem test_ud2_V60_14 :
    holdsAfter (coreStep true (holding (((booted 0x100 [0x0F, 0x0B]).setFlags ⟨true, true, true, false, true, true⟩).setIdtr ⟨0x20001000, 0x7FF⟩) 0x20001030 [0x00, 0x09, 0x00, 0x00, 0x00, 0x8E, 0x00, 0x00]))
    (fun t => decide (t.reg .esp = 0x20001FF4 ∧ loadLE t.mem 0x20001FFC 4 = 0xAC3 ∧ loadLE t.mem 0x20001FF8 4 = 0x0 ∧ loadLE t.mem 0x20001FF4 4 = 0x100 ∧ t.flags = ⟨true, true, true, false, false, true⟩ ∧ t.eip = 0x900)) = true := by decide

/-! ### The machine as a whole -/

/-- The word that the host places is the first instruction after reset: INC EAX. -/
theorem test_withFetchWord : holdsAfter (step (State.reset.withFetchWord 8 0x40))
    (fun t => decide (t.reg .eax = 1 ∧ t.eip = 1)) = true := by decide

/-- V70.2: a PUSH with the reset ESP meets a bus error, the empty IDT a Triple Fault. -/
theorem test_push_after_reset : holdsAfter (step (State.reset.withFetchWord 8 0x50))
    (fun t => decide (t.run = .stopped ∧ t.cpuErr = true ∧ t.eip = 0)) = true := by decide

/-- V60.40: INC EAX with TF = 1; the trap that is then due is taken at the next boundary. -/
theorem test_single_step_is_due : holdsAfter (coreStep true (((booted 0x100 [0x40]).setReg .eax 0x7FFFFFFF).setFlags
    { State.reset.flags with tf := true })) (fun t => decide (t.reg .eax = 0x80000000 ∧ t.stepDue = true)) = true := by decide

/-- The memory after reset is canonical, and a write of the value an unlisted byte reads as removes the entry. -/
theorem test_memory_canonical :
    State.reset.mem.wf = true ∧ writeByte [(5, 1), (7, 2)] 5 0 = [(7, 2)] ∧ writeByte [(5, 1), (7, 2)] 6 3 = [(5, 1), (6, 3), (7, 2)] ∧
    Memory.wf [(7, 2), (5, 1)] = false ∧ Memory.wf [(5, 0)] = false := by decide

/-! ### The hypotheses of each obligation are met

`lab` is a core at 100h with an IDT of interrupt gates to 400h, EBX at data in the SRAM, and three stack words at ESP that
IRET can pop. Vector 41h has a present gate of a wrong type, vector 43h an interrupt gate with a reserved bit set, vector 44h a
trap gate; vectors without a written gate are not present. -/

/-- The lab's interrupt gate, to 400h (R467). -/
def labGate : Gate := ⟨0x00000400, 0x00008E00⟩

/-- The lab's bytes that are not 00h: code at 100h (NOP), bytes that are invalid opcodes at 110h to 130h and 170h, an F0h
prefix at 140h, 66h prefixes at 150h and 160h, the first two bytes of a MOV at 7FFEh, data, the stack, and the gates of vectors 0, 1,
3, 6, 8, 11, 13, 18, 2Fh, 40h, 41h, 43h and 44h. -/
def labMem : Memory :=
  [(0x100, 0x90), (0x110, 0xF1), (0x120, 0x66), (0x121, 0x66), (0x130, 0x8D), (0x131, 0xC0), (0x140, 0xF0),
    (0x141, 0x01), (0x142, 0x03), (0x150, 0x66), (0x152, 0x03), (0x160, 0x66), (0x161, 0xFE), (0x162, 0xC0),
    (0x170, 0x66), (0x171, 0x0F), (0x172, 0x01), (0x173, 0x1B), (0x7FFE, 0xB8), (0x7FFF, 0x12), (0x20000100, 0x44), (0x20000101, 0x33), (0x20000102, 0x22),
    (0x20000103, 0x11), (0x20000801, 0x02), (0x20000808, 0x43), (0x20000809, 0x02), (0x2000080C, 0x04), (0x20001001, 0x04), (0x20001005, 0x8E),
    (0x20001009, 0x04), (0x2000100D, 0x8E), (0x20001019, 0x04), (0x2000101D, 0x8E), (0x20001031, 0x04), (0x20001035, 0x8E), (0x20001041, 0x04),
    (0x20001045, 0x8E), (0x20001059, 0x04), (0x2000105D, 0x8E), (0x20001069, 0x04), (0x2000106D, 0x8E), (0x20001091, 0x04), (0x20001095, 0x8E),
    (0x20001179, 0x04), (0x2000117D, 0x8E), (0x20001201, 0x04), (0x20001205, 0x8E), (0x20001209, 0x04), (0x2000120D, 0x8C),
    (0x20001219, 0x04), (0x2000121A, 0x01), (0x2000121D, 0x8E), (0x20001221, 0x04), (0x20001225, 0x8F)]

/-- The lab. -/
def lab : State :=
  ((((booted 0x100 [0x90]).setReg .esp 0x20000800).setReg .ebx 0x20000100).setIdtr ⟨0x20001000, 0x07FF⟩).setMem labMem

/-- The lab with an IDT in which at most vector 8 has a gate. -/
def labBare (gate8 : Bool) : State := lab.setMem (if gate8 then [(0x20001041, 0x04), (0x20001045, 0x8E)] else [])

/-- The vectors of the lab, of every frame length, can be delivered. -/
theorem opens_lab : ∀ v ∈ ([0, 1, 3, 6, 8, 11, 13, 18, 0x2F, 0x40] : List (BitVec 8)), Opens v labGate lab := by
  intro v hv
  refine ⟨by decide, by decide, ?_, by decide, by decide, by decide, ?_⟩
  · revert v
    unfold GateIs
    decide
  · revert v
    decide

/-- What else a state holds does not matter for a delivery. -/
theorem opens_moved {v : BitVec 8} {g : Gate} {s t : State} (h : Opens v g s) (hm : t.mem = s.mem) (hu : t.pmU = s.pmU)
    (hi : t.idtr = s.idtr) (hp : t.plat = s.plat) (he : t.reg .esp = s.reg .esp) : Opens v g t := by
  obtain ⟨a, b, c, d, e, f, k⟩ := h
  refine ⟨hm ▸ a, hu ▸ b, ?_, d, e, f, fun n hn => ?_⟩
  · unfold GateIs
    rw [hi, hp, hm]
    exact c
  · unfold frameSlot
    rw [hp, he]
    exact k n (hp ▸ hn)

theorem test_meets_DecodeInvertsEncode :
    Instr.wf (.add (.rmImm .b32 (.mem ⟨some .esp, some (.edi, .x8), .d32 0xFFFFFFFF⟩) 0x80000000)) = true := by decide

/-- The longest and a shortest instruction. -/
theorem test_meets_DecodedInstructionIsWellFormed :
    decode ⟨.ignore, .ignore⟩ [0xF0, 0x81, 0x84, 0xFC, 0xFF, 0xFF, 0xFF, 0xFF, 0x00, 0x00, 0x00, 0x80] =
      .ok (.add (.rmImm .b32 (.mem ⟨some .esp, some (.edi, .x8), .d32 0xFFFFFFFF⟩) 0x80000000), 12) ∧
    decode .default [0x90] = .ok (.nop false, 1) := by decide

/-- In the last byte of the instruction memory. -/
theorem test_meets_EncodedInstructionIsFetched :
    Instr.wf .hlt = true ∧ ∀ k (h : k < (encode .hlt).length),
      (booted 0x7FFF [0xF4]).eip.toNat + k < 2 ^ 32 ∧
      busErr (booted 0x7FFF [0xF4]).plat .fetch ((booted 0x7FFF [0xF4]).eip.toNat + k) = false ∧
      readByte (booted 0x7FFF [0xF4]).mem ((booted 0x7FFF [0xF4]).eip.toNat + k) = (encode .hlt)[k] := by decide

/-- The ends of each list, a ModR/M byte of each unlisted kind, and a second prefix. -/
theorem test_meets_UnlistedEncodingsAreInvalid :
    ([0x66] : List Byte) ∈ [[], [0x66]] ∧ 0x06 ∈ unlistedOpcodes ∧ 0xFD ∈ unlistedOpcodes ∧
    0x00 ∉ listedSeconds ∧ 0xD0 ∉ listedSeconds ∧ ([0x8F], [1, 2, 3, 4, 5, 6, 7]) ∈ unlistedDigits ∧
    digitOf 0x48 ∈ ([1, 2, 3, 4, 5, 6, 7] : List (BitVec 3)) ∧ ([0x0F, 0xBA], [0, 1, 2, 3]) ∈ unlistedDigits ∧
    digitOf 0xD8 ∈ ([0, 1, 2, 3] : List (BitVec 3)) ∧ (0xC0 : Byte).extractLsb' 6 2 = 3 ∧ digitOf 0xC8 = 1 ∧
    digitOf 0x1B = 3 := by decide

theorem test_meets_StepRunsDecodedInstruction :
    lab.pmU = false ∧ lab.run = .running ∧ lab.stepDue = false ∧
    decode (policy lab) (instrBytes lab) = .ok (.nop false, 1) ∧ interruptDue lab = false ∧ lab.agenda = [] ∧
    (lab.setAgenda [.core true, .tick]).agenda = [.core true, .tick] ∧
    ∃ t, exec (.nop false) (lab.setNextEip (lab.eip + BitVec.ofNat 32 1)) = .next t :=
  ⟨rfl, rfl, rfl, by decide, rfl, rfl, rfl, _, rfl⟩

/-- An unlisted opcode, a second prefix, a register where LEA needs memory, and a 66h prefix on LIDT. -/
theorem test_meets_InvalidOpcodesTakeUd :
    (∀ e, Opens 6 labGate (lab.setEip e)) ∧ interruptDue lab = false ∧
    decode (policy lab) (instrBytes (lab.setEip 0x110)) = .error .invalidOpcode ∧
    decode (policy lab) (instrBytes (lab.setEip 0x120)) = .error .repeatedPrefix ∧
    decode (policy lab) (instrBytes (lab.setEip 0x130)) = .error .invalidOperandType ∧
    decode (policy lab) (instrBytes (lab.setEip 0x170)) = .error .prefixUd :=
  ⟨fun _ => opens_moved (opens_lab 6 (by decide)) rfl rfl rfl rfl rfl, rfl, by decide, by decide, by decide, by decide⟩

/-- The first and the last byte of the SRAM. No byte at 8000h, two bytes at 7FFEh; a read and a write whose third and fourth bytes
lie past the SRAM. -/
theorem test_meets_BusErrorsTakeMc :
    isSram lab.plat 0x20000000 = true ∧ isSram lab.plat 0x20001FFF = true ∧
    (∀ e, Opens 18 labGate (lab.setEip e)) ∧ Opens 18 labGate (lab.setReg .ebx 0x20001FFE) ∧
    busErr lab.plat .fetch 0x8000 = true ∧ decode (policy lab) [] = .error .truncated ∧
    (∀ k, k < 2 → busErr lab.plat .fetch (0x7FFE + k) = false) ∧
    decode (policy lab) ((List.range 2).map (fun k => readByte lab.mem (0x7FFE + k))) = .error .truncated ∧
    effAddr ⟨some .ebx, none, .none⟩ (lab.setReg .ebx 0x20001FFE) = 0x20001FFE ∧
    busErr lab.plat .read (0x20001FFE + 2) = true ∧ busErr lab.plat .write (0x20001FFE + 3) = true :=
  ⟨by decide, by decide, fun _ => opens_moved (opens_lab 18 (by decide)) rfl rfl rfl rfl rfl,
    opens_moved (opens_lab 18 (by decide)) rfl rfl rfl rfl rfl, by decide, by decide, by decide, by decide, by decide,
    by decide, by decide⟩

/-- An ICCM_RANGE over all of the address space: FLASH is fetchable, SRAM is not, and a store to SRAM is one to storage (R93). -/
theorem test_sram_is_not_fetchable :
    let p := { lab.plat with iccm := [⟨0, 2 ^ 32⟩] }
    isFetchable p 0x7FFF = true ∧ isFetchable p 0x20000000 = false ∧ isFetchable p 0x20002000 = true ∧
      route p .write .b32 0x20001FFC = .ok .storage := by decide

/-- The lab with no bus error on a read or a write from 70000000h upward. -/
def labDevices : State :=
  { lab with
    plat := { lab.plat with
      busErr := [⟨.read, ⟨0x70000000, 0x90000000⟩, false⟩, ⟨.write, ⟨0x70000000, 0x90000000⟩, false⟩] } }

/-- The lab with ESP at a frame whose PM image is 200h. -/
def labPm : State := lab.setReg .esp 0x200007FC

/-- The lab with the first two bytes of a MOV in an instruction memory at the top of the address space. -/
def labTop : State :=
  { lab with plat := { lab.plat with iccm := [⟨0xFFFFFFFE, 2⟩] }, eip := 0xFFFFFFFE, mem := [(0xFFFFFFFE, 0xB8), (0xFFFFFFFF, 0x12)] }

/-- The lab with a timer count and an LVTTIMER. -/
def labTimer (ccr : Dword) (lvt : LvtTimer) : State :=
  lab.setIntc { lab.intc with lapic := { lab.intc.lapic with ccr := ccr, lvt := lvt } }

/-- An access has no bus error if none of its bytes has one. -/
theorem noBusErr_of {kind : Config.AccessKind} {w : Width} {a : Dword} {s : State}
    (h : ∀ k, k < w.bytes → a.toNat + k < 2 ^ 32 → busErr s.plat kind (a.toNat + k) = false) : noBusErr kind w a s := by
  intro x h1 h2 h3
  obtain ⟨k, rfl⟩ := Nat.exists_eq_add_of_le h1
  exact h k (by omega) h3

/-- Two bytes past the top, and two on each side of 80000000h, of a load and of a store; APIC accesses at the ends of its ranges;
a word and a misaligned dword of the first and the last external addresses; the last dword of the FLASH. -/
theorem test_meets_DoubtfulCasesStopByName_accesses :
    (∀ c ∈ ([(.read, .b32, 0xFFFFFFFE, labDevices), (.write, .b32, 0xFFFFFFFE, labDevices), (.read, .b32, 0x7FFFFFFE, labDevices),
      (.write, .b32, 0x7FFFFFFE, labDevices), (.read, .b32, 0xFEE00001, lab), (.write, .b8, 0xFEEFFFFF, lab),
      (.read, .b16, 0xFEC00000, lab), (.read, .b16, 0x80000000, labDevices), (.write, .b32, 0xFFFFFFFB, labDevices),
      (.write, .b32, 0x7FFC, lab), (.write, .b32, 0xFEE000F0, lab)] : List (Config.AccessKind × Width × Dword × State)),
      noBusErr c.1 c.2.1 c.2.2.1 c.2.2.2) ∧
    2 ^ 32 < (0xFFFFFFFE : Dword).toNat + Width.b32.bytes ∧
    (0x7FFFFFFE : Dword).toNat < 2 ^ 31 ∧ 2 ^ 31 < (0x7FFFFFFE : Dword).toNat + Width.b32.bytes ∧
    (∀ c ∈ ([(.b32, 0xFEE00001, lab), (.b8, 0xFEEFFFFF, lab), (.b16, 0xFEC00000, lab)] : List (Width × Dword × State)),
      inOneHalf c.1 c.2.1 ∧ touches (isApic c.2.2.plat) c.1 c.2.1) ∧
    (∀ c ∈ ([(.b16, 0x80000000, labDevices), (.b32, 0xFFFFFFFB, labDevices), (.b32, 0x7FFC, lab)] : List (Width × Dword × State)),
      inOneHalf c.1 c.2.1 ∧ ¬ touches (isApic c.2.2.plat) c.1 c.2.1) ∧
    touches (isExternal labDevices.plat) .b16 0x80000000 ∧ touches (isExternal labDevices.plat) .b32 0xFFFFFFFB ∧
    (0xFFFFFFFB : Dword).toNat % 4 ≠ 0 ∧ ¬ touches (isExternal lab.plat) .b32 0x7FFC ∧
    touches (isCode lab.plat) .b32 0x7FFC ∧ lab.plat.codeStore = .refuse ∧
    effAddr ⟨none, none, .d32 0xFEE000F0⟩ lab = 0xFEE000F0 ∧ ((lab.setReg .esi 0x1F).reg .esi).toNat % 256 < 0x20 := by
  refine ⟨fun c hc => noBusErr_of ?_, ?_⟩
  · revert c
    decide
  · unfold inOneHalf touches
    decide

/-- User mode; a frame whose PM image is 200h; POP with a base of ESP; an F0h and two 66h prefixes; a MOV cut off at the top; a gate
with a reserved bit set; the timer vector 48. -/
theorem test_meets_DoubtfulCasesStopByName :
    (lab.setPmU true).pmU = true ∧
    readMem .b32 (labPm.reg .esp) labPm = .ok (0, labPm) ∧ readMem .b32 (labPm.reg .esp + 4) labPm = .ok (0x200, labPm) ∧
    readMem .b32 (labPm.reg .esp + 8) labPm = .ok (0, labPm) ∧ lab.plat.popEspBase = .refuse ∧ lab.plat.lockPolicy = .refuse ∧
    instrBytes (lab.setEip 0x140) = 0xF0 :: 0x01 :: [0x03, 0, 0, 0, 0, 0, 0, 0, 0, 0] ∧ lab.plat.prefix66 = .refuse ∧
    instrBytes (lab.setEip 0x150) = 0x66 :: ([0x00] ++ 0x03 :: [0, 0, 0, 0, 0, 0, 0, 0, 0]) ∧ [0x00] ∈ no66Opcodes ∧
    instrBytes (lab.setEip 0x160) = 0x66 :: ([0xFE] ++ 0xC0 :: [0, 0, 0, 0, 0, 0, 0, 0, 0]) ∧ (0xFE, [0, 1]) ∈ no66Digits ∧
    digitOf 0xC0 = 0 ∧ decode (policy labTop) (instrBytes labTop) = .error .truncated ∧
    labTop.eip.toNat + (instrBytes labTop).length = 2 ^ 32 ∧ GateIs 0x43 ⟨0x00010400, 0x00008E00⟩ lab ∧
    (0x00010400 : Dword) &&& 0xFFFF0000 ≠ 0 ∧ (labTimer 1 ⟨false, false, 16⟩).intc.lapic.ccr = 1 ∧
    (labTimer 1 ⟨false, false, 16⟩).intc.lapic.lvt.masked = false ∧
    16 ≤ (labTimer 1 ⟨false, false, 16⟩).intc.lapic.lvt.vector.toNat := by
  unfold GateIs
  decide

theorem test_meets_SingleStepTrapIsTaken :
    (lab.setStepDue true).run ≠ .stopped ∧ (lab.setStepDue true).stepDue = true ∧ Opens 1 labGate (lab.setStepDue true) :=
  ⟨by decide, rfl, opens_moved (opens_lab 1 (by decide)) rfl rfl rfl rfl rfl⟩

/-- The highest interrupt vector requested, IF = 1 and INTR = 1, in a halted core. -/
def labRequest : State :=
  ((lab.setRun .halted).setFlags { lab.flags with intf := true }).setIntc
    { lab.intc with lapic := { lab.intc.lapic with irr := 0x8000, intr := true } }

/-- INTR = 1 with nothing requested, and the spurious vector 2Fh. -/
def labSpurious : State :=
  labRequest.setIntc { lab.intc with lapic := { lab.intc.lapic with sivr := 0x2F, intr := true } }

theorem test_meets_InterruptEntersItsHandler :
    labRequest.run ≠ .stopped ∧ labRequest.stepDue = false ∧ labRequest.flags.intf = true ∧
    labRequest.intc.lapic.intr = true ∧ labRequest.intc.lapic.deliverable = some 15 ∧
    Opens (BitVec.ofNat 8 (32 + 15)) labGate labRequest ∧
    labSpurious.intc.lapic.intr = true ∧ labSpurious.intc.lapic.deliverable = none ∧
    Opens labSpurious.intc.lapic.sivr labGate labSpurious :=
  ⟨by decide, rfl, rfl, rfl, by decide, opens_moved (opens_lab 0x2F (by decide)) rfl rfl rfl rfl rfl, rfl, by decide,
    opens_moved (opens_lab 0x2F (by decide)) rfl rfl rfl rfl rfl⟩

theorem test_meets_StepKeepsInv : lab.Inv ∧ ∃ t, step lab = .next t :=
  ⟨⟨by decide, rfl, by decide, by decide, by decide⟩, _, rfl⟩

/-- The last byte of the FLASH, in a step that stores to the SRAM. -/
theorem test_meets_CodeBytesNeverChange :
    isCode (booted 0x100 [0x50]).plat 0x7FFF = true ∧ holdsAfter (step (booted 0x100 [0x50])) (fun _ => true) = true := by
  decide

theorem test_meets_StoppedUntilReset :
    (lab.setRun .stopped).run = .stopped ∧ (∃ t, step (lab.setRun .stopped) = .next t) ∧
    (∀ rest, (lab.setRun .stopped).agenda ≠ .reset :: rest) ∧
    (∀ cells rest, (lab.setRun .stopped).agenda ≠ .powerCycle cells :: rest) :=
  ⟨rfl, ⟨_, rfl⟩, fun _ h => List.noConfusion rfl (heq_of_eq h), fun _ _ h => List.noConfusion rfl (heq_of_eq h)⟩

theorem test_meets_ResetValues : (lab.setAgenda [.reset, .tick]).agenda = .reset :: [.tick] := rfl

/-- The last dword of the SRAM. -/
def labEdge : State := lab.setReg .ebx 0x20001FFC

theorem test_meets_StoreThenLoad :
    labEdge.mem.wf = true ∧ effAddr ⟨some .ebx, none, .none⟩ labEdge = 0x20001FFC ∧
    route labEdge.plat .write .b32 0x20001FFC = .ok .storage ∧ route labEdge.plat .read .b32 0x20001FFC = .ok .storage ∧
    ∃ t, exec (.mov (.rmR .b32 (.mem ⟨some .ebx, none, .none⟩) .ebx)) labEdge = .next t ∧
      effAddr ⟨some .ebx, none, .none⟩ t = effAddr ⟨some .ebx, none, .none⟩ labEdge :=
  ⟨by decide, by decide, by decide, by decide, _, rfl, by decide⟩

/-- The last byte below 80000000h, and the first external dword. -/
theorem test_meets_StoreThenLoad_regions :
    (∀ c ∈ ([(.read, .b8, 0x7FFFFFFF), (.write, .b8, 0x7FFFFFFF), (.read, .b32, 0x80000000), (.write, .b32, 0x80000000)] :
      List (Config.AccessKind × Width × Dword)), noBusErr c.1 c.2.1 c.2.2 labDevices) ∧
    (0x7FFFFFFF : Dword).toNat + Width.b8.bytes ≤ 2 ^ 31 ∧ ¬ touches (isCode labDevices.plat) .b8 0x7FFFFFFF ∧
    effAddr ⟨none, none, .d32 0x80000000⟩ labDevices = 0x80000000 ∧
    (∀ k, k < 4 → isExternal labDevices.plat ((0x80000000 : Dword).toNat + k) = true) := by
  refine ⟨fun c hc => noBusErr_of ?_, ?_⟩
  · revert c
    decide
  · unfold touches
    decide

theorem test_meets_StoresAreLittleEndian :
    lab.mem.wf = true ∧ route lab.plat .write .b32 0x20001FFC = .ok .storage ∧
    holdsAfter (match writeMem .b32 0x20001FFC 0x11223344 lab with | .ok t => .next t | .error _ => .fault .beyondAddressSpace)
      (fun t => decide (readByte t.mem 0x20001FFF = 0x11)) = true := by decide

theorem test_meets_NarrowWritesKeepTheRest : (0 : Nat) < 32 ∧ (31 : Nat) < 32 := by decide

/-- Interrupt gates with frames of three, four and five words, and a trap gate. -/
theorem test_meets_EntryThroughGate :
    Opens 6 labGate lab ∧ Opens 13 labGate lab ∧ Opens 18 labGate lab ∧ Opens 0x44 ⟨0x00000400, 0x00008F00⟩ lab :=
  ⟨opens_lab 6 (by decide), opens_lab 13 (by decide), opens_lab 18 (by decide), by decide, rfl, by unfold GateIs; decide,
    by decide, by decide, by decide, by decide⟩

/-- A #DF: vectors 0, 11, 13, 18 and 24 with descriptors that are not present. A #NP: vector 42h. A #GP: vector 40h one byte
outside the limit, and vector 41h of a wrong type. A Triple Fault: vector 8 not present. -/
theorem test_meets_FailedDeliveryBecomes :
    (∀ v ∈ ([0, 11, 13, 18, 24] : List (BitVec 8)), DeliveryFails v (labBare true) .notPresent) ∧
    Opens 8 labGate (labBare true) ∧ (labBare true).plat.vector24 = .asPrinted ∧
    DeliveryFails 0x42 lab .notPresent ∧ Opens 11 labGate lab ∧
    DeliveryFails 0x40 (lab.setIdtr ⟨0x20001000, 0x206⟩) .beyondLimit ∧ Opens 13 labGate (lab.setIdtr ⟨0x20001000, 0x206⟩) ∧
    DeliveryFails 0x41 lab .badType ∧ Opens 13 labGate lab ∧
    DeliveryFails 8 (labBare false) .notPresent ∧ (labBare false).pmU = false := by
  refine ⟨fun v hv => .absent ⟨0, 0⟩ ?_ rfl, ⟨by decide, rfl, ?_, by decide, by decide, by decide, by decide⟩, rfl,
    .absent ⟨0, 0⟩ ?_ rfl, opens_lab 11 (by decide), .outside (by decide),
    ⟨by decide, rfl, ?_, by decide, by decide, by decide, by decide⟩,
    .wrongType ⟨0x00000400, 0x00008C00⟩ ?_ (by decide) (by decide) (by decide), opens_lab 13 (by decide),
    .absent ⟨0, 0⟩ ?_ rfl, rfl⟩
  · revert v
    unfold GateIs
    decide
  all_goals
    unfold GateIs
    decide

/-- The lab with an IDT that ends in the last bytes of the SRAM, with a gate for one vector. -/
def labShort (table gate : Nat) : State :=
  (lab.setIdtr ⟨BitVec.ofNat 32 table, 0x07FF⟩).setMem [(gate + 1, 0x04), (gate + 5, 0x8E)]

/-- A bus error on the first and on the second half of a descriptor, and on the first word of the frame. -/
theorem test_meets_FailedDeliveryBecomes_busError :
    DeliveryFails 0x40 (labShort 0x20001F90 0x20001FF8) .busError ∧ Opens 13 labGate (labShort 0x20001F90 0x20001FF8) ∧
    DeliveryFails 13 (labShort 0x20001F94 0x20001FD4) .busError ∧ Opens 8 labGate (labShort 0x20001F94 0x20001FD4) ∧
    (∀ v, v = 0x40 ∨ v = 13 ∨ v = 8 → ∃ g, Usable v g (lab.setReg .esp 0x20000000)) ∧
    route lab.plat .write .b32 (frameSlot (lab.setReg .esp 0x20000000) 0) = .error (.raise (.machineCheck 0x1FFFFFFC false true)) := by
  refine ⟨.unreadable (.machineCheck 0x20002190 false false) (by decide) (.inl (by decide)),
    ⟨by decide, rfl, ?_, by decide, by decide, by decide, by decide⟩,
    .unreadable (.machineCheck 0x20002000 false false) (by decide) (.inr (by decide)),
    ⟨by decide, rfl, ?_, by decide, by decide, by decide, by decide⟩, fun v hv => ⟨labGate, ?_⟩, by decide⟩
  iterate 2
    · unfold GateIs
      decide
  · have h := opens_lab v (by rcases hv with rfl | rfl | rfl <;> decide)
    exact ⟨h.gate, h.present, h.kind, h.reserved⟩

theorem test_meets_EmptyTableStopsTheCore :
    (lab.setIdtr ⟨0x20001000, 6⟩).pmU = false ∧ (lab.setIdtr ⟨0x20001000, 6⟩).idtr.limit.toNat < 7 := by decide

theorem test_meets_IntEntersItsHandler : Opens 0x40 labGate lab ∧ Opens 3 labGate lab :=
  ⟨opens_lab 0x40 (by decide), opens_lab 3 (by decide)⟩

/-- The frame at ESP; for POPFD its EFLAGS image. -/
theorem test_meets_IretAndPopfdLoadTheFlags :
    lab.pmU = false ∧ readMem .b32 (lab.reg .esp) lab = .ok (0x200, lab) ∧
    readMem .b32 (lab.reg .esp + 4) lab = .ok (0, lab) ∧ readMem .b32 (lab.reg .esp + 8) lab = .ok (0x243, lab) ∧
    (0x243 : Dword) &&& 0xFFFFF43C = 0 := by decide

/-- An image with bit 2 set. -/
theorem test_meets_ReservedFlagsTakeGp :
    Opens 13 labGate lab ∧ (4 : Dword) &&& 0xFFFFF43C ≠ 0 ∧
    readMem .b32 0x2000080C lab = .ok (4, lab) ∧ readMem .b32 0x20000804 lab = .ok (0, lab) ∧
    readMem .b32 0x20000808 lab = .ok (0x243, lab) :=
  ⟨opens_lab 13 (by decide), by decide, by decide, by decide, by decide⟩

theorem test_meets_IntThenIretReturns :
    Opens 0x40 labGate lab ∧ frameLength lab.plat 0x40 = 3 ∧
    (∀ k, k < 3 → route lab.plat .read .b32 (frameSlot lab k) = .ok .storage) ∧
    holdsAfter (exec (.int 0x40) lab) (fun _ => true) = true :=
  ⟨opens_lab 0x40 (by decide), by decide, by decide, by decide⟩

theorem test_meets_TimerTickCounts :
    ((labTimer 0 ⟨false, true, 31⟩).intc.lapic.lvt.masked = true ∧ (labTimer 0 ⟨false, true, 31⟩).intc.lapic.ccr = 0) ∧
    ((labTimer 2 ⟨true, false, 15⟩).intc.lapic.lvt.vector.toNat < 16 ∧ (labTimer 2 ⟨true, false, 15⟩).intc.lapic.ccr ≠ 0 ∧
      (labTimer 2 ⟨true, false, 15⟩).intc.lapic.ccr ≠ 1) ∧
    ((labTimer 1 ⟨true, false, 15⟩).intc.lapic.lvt.vector.toNat < 16 ∧ (labTimer 1 ⟨true, false, 15⟩).intc.lapic.ccr = 1 ∧
      (labTimer 1 ⟨true, false, 15⟩).intc.settle = (labTimer 1 ⟨true, false, 15⟩).intc) := by decide

/-- Vector 47 requested, below and at the priority 47. -/
theorem test_meets_AcknowledgeMovesTheRequest :
    labRequest.intc.lapic.irr.getLsbD 15 = true ∧ (∀ k, 15 < k → labRequest.intc.lapic.irr.getLsbD k = false) ∧
    labRequest.intc.lapic.ppr.toNat < 32 + 15 ∧
    32 + 15 ≤ ({ labRequest.intc.lapic with tpr := 47 } : LocalApic).ppr.toNat ∧ lab.intc.lapic.irr = 0 :=
  ⟨by decide, fun k hk => BitVec.getLsbD_of_ge _ _ (by omega), by decide, by decide, rfl⟩

/-- Vectors 32 and 47 in service. -/
def labService : LocalApic := { lab.intc.lapic with isr := 0x8001 }

theorem test_meets_PprIsTheHigherOfTheTwo :
    lab.intc.lapic.isr = 0 ∧ labService.isr.getLsbD 15 = true ∧ ∀ k, 15 < k → labService.isr.getLsbD k = false :=
  ⟨rfl, by decide, fun k hk => BitVec.getLsbD_of_ge _ _ (by omega)⟩

theorem test_meets_EoiClearsTheHighestInService :
    (∃ c', lab.intc.writeLapic 0xB0 5 = .ok c') ∧
    (∃ c', ({ lab.intc with lapic := labService } : IntCtl).writeLapic 0xB0 5 = .ok c') ∧
    labService.isr.getLsbD 15 = true ∧ ∀ k, 15 < k → labService.isr.getLsbD k = false :=
  ⟨⟨_, rfl⟩, ⟨_, rfl⟩, by decide, fun k hk => BitVec.getLsbD_of_ge _ _ (by omega)⟩

theorem test_meets_ControllerRegistersReadBack :
    (∀ a, isLapic a = true ∨ isIoapic lab.plat a = true → busErr lab.plat .read a = false ∧ busErr lab.plat .write a = false) ∧
    0x20 ≤ (0xFFFFFF20 : Dword).toNat % 256 ∧ (15 : Nat) < 16 := by
  refine ⟨fun a ha => ?_, by decide, by decide⟩
  have hin : ∀ r : Config.Range, inRange r a = true ↔ r.base ≤ a ∧ a < r.base + r.size := by
    intro r
    simp only [inRange, Bool.and_eq_true, decide_eq_true_eq]
  have hlow : 0x8000 ≤ a := by
    rcases ha with h | h
    · have := ((hin _).mp h).1
      simp only [Config.lapicRange] at this
      omega
    · have := ((hin _).mp h).1
      simp only [Config.ioapicBase] at this
      omega
  have hcode : isCode lab.plat a = false := by
    rw [Bool.eq_false_iff]
    intro h
    have h' : inRange ⟨0, 0x8000⟩ a = true := by
      have : isCode lab.plat a = (inRange ⟨0, 0x8000⟩ a || ((inRange ⟨0, 0x8000⟩ a || false) && !isSram lab.plat a)) := rfl
      rw [this, Bool.or_eq_true, Bool.and_eq_true, Bool.or_false] at h
      exact h.elim id And.left
    have := ((hin _).mp h').2
    simp only at this
    omega
  have hmap : (isFlash lab.plat a || isSram lab.plat a || isLapic a || isIoapic lab.plat a || isDevice lab.plat a) = true := by
    rcases ha with h | h <;> simp [h]
  simp [busErr_default (p := lab.plat) rfl, busErrDefault, hmap, hcode]

/-- Input 15 active, level-triggered and unmasked; IOREGSEL selects its entry. -/
def labLevel : IntCtl := { lab.intc with lines := 0x8000, ioapic := ⟨0x2E, 0, 0x8000⟩ }

/-- Input 15: a rise, unmasked and edge-triggered, and masked; active and level-triggered, in service and not. -/
theorem test_meets_EdgeRequestsItsVector :
    lab.intc.lines.getLsbD (15 : BitVec 4).toNat = false ∧
    ({ lab.intc.ioapic with mask := 0 } : IoApic).mask.getLsbD (15 : BitVec 4).toNat = false ∧
    lab.intc.ioapic.level.getLsbD (15 : BitVec 4).toNat = false ∧
    lab.intc.ioapic.mask.getLsbD (15 : BitVec 4).toNat = true ∧
    labLevel.ioapic.mask.getLsbD (15 : BitVec 4).toNat = false ∧ labLevel.ioapic.level.getLsbD (15 : BitVec 4).toNat = true ∧
    labLevel.lapic.isr.getLsbD (15 : BitVec 4).toNat = false ∧ labService.isr.getLsbD (15 : BitVec 4).toNat = true ∧
    labLevel.lines.getLsbD (15 : BitVec 4).toNat = true ∧ (∀ k, (15 : BitVec 4).toNat < k → labService.isr.getLsbD k = false) ∧
    (∃ c', ({ labLevel with lapic := labService } : IntCtl).writeLapic 0xB0 0 = .ok c') ∧
    labLevel.ioapic.ioregsel = BitVec.ofNat 32 (0x10 + 2 * (15 : BitVec 4).toNat) :=
  ⟨by decide, by decide, by decide, by decide, by decide, by decide, by decide, by decide, by decide,
    fun k hk => BitVec.getLsbD_of_ge _ _ (by have : (15 : BitVec 4).toNat = 15 := rfl; omega), ⟨_, rfl⟩, by decide⟩

/-- The memory operand [EBX] of the witnesses. -/
def atEbx : RM := .mem ⟨some .ebx, none, .none⟩

/-- Storage at [EBX] takes every value. -/
theorem lab_writes (w : Width) (v : BitVec w.bits) : ∃ u, writePlace w (place atEbx lab) v lab = .ok u := by
  have h : ∀ w ∈ [Width.b8, .b16, .b32], route lab.plat .write w 0x20000100 = .ok .storage := by decide
  exact ⟨_, writeMem_storage (s := lab) (a := 0x20000100) v (h w (by cases w <;> decide))⟩

/-- The operands of ADD [EBX], ESI and of SUB AL, imm are readable and the destination is writable, with any value. -/
theorem lab_two_operands :
    readPlace .b32 (aluDest (.rmR .b32 atEbx .esi) lab) lab = .ok (0x11223344, lab) ∧
    aluSource (.rmR .b32 atEbx .esi) lab = .ok ((0 : BitVec 32), lab) ∧
    (∀ v : BitVec 32, ∃ u, writePlace .b32 (aluDest (.rmR .b32 atEbx .esi) lab) v lab = .ok u) ∧
    readPlace .b8 (aluDest (.accImm .b8 0xFF) lab) lab = .ok (0, lab) ∧
    aluSource (.accImm .b8 0xFF) lab = .ok ((0xFF : BitVec 8), lab) ∧
    (∀ v : BitVec 8, ∃ u, writePlace .b8 (aluDest (.accImm .b8 0xFF) lab) v lab = .ok u) :=
  ⟨by decide, by decide, lab_writes .b32, by decide, by decide, fun _ => ⟨_, rfl⟩⟩

theorem test_meets_AddStoresTheSum : ∃ (a b : BitVec 32) (s1 s2 : State), readPlace .b32 (aluDest (.rmR .b32 atEbx .esi) lab) lab = .ok (a, s1) ∧
    aluSource (.rmR .b32 atEbx .esi) s1 = .ok (b, s2) ∧
    (∃ u, writePlace .b32 (aluDest (.rmR .b32 atEbx .esi) lab) (a + b) s2 = .ok u) ∧
    ∃ u, writePlace .b32 (aluDest (.rmR .b32 atEbx .esi) lab) (a + b + carryIn 32 lab.flags.cf) s2 = .ok u :=
  ⟨_, _, _, _, lab_two_operands.1, lab_two_operands.2.1, lab_two_operands.2.2.1 _, lab_two_operands.2.2.1 _⟩

theorem test_meets_SubStoresTheDifference : ∃ (a b : BitVec 32) (s1 s2 : State), readPlace .b32 (aluDest (.rmR .b32 atEbx .esi) lab) lab = .ok (a, s1) ∧
    aluSource (.rmR .b32 atEbx .esi) s1 = .ok (b, s2) ∧
    (∃ u, writePlace .b32 (aluDest (.rmR .b32 atEbx .esi) lab) (a - b) s2 = .ok u) ∧
    ∃ u, writePlace .b32 (aluDest (.rmR .b32 atEbx .esi) lab) (a - b - carryIn 32 lab.flags.cf) s2 = .ok u :=
  ⟨_, _, _, _, lab_two_operands.1, lab_two_operands.2.1, lab_two_operands.2.2.1 _, lab_two_operands.2.2.1 _⟩

theorem test_meets_LogicStoresTheResult : ∃ (a b : BitVec 32) (s1 s2 : State), readPlace .b32 (aluDest (.rmR .b32 atEbx .esi) lab) lab = .ok (a, s1) ∧
    aluSource (.rmR .b32 atEbx .esi) s1 = .ok (b, s2) ∧
    (∃ u, writePlace .b32 (aluDest (.rmR .b32 atEbx .esi) lab) (a &&& b) s2 = .ok u) ∧
    (∃ u, writePlace .b32 (aluDest (.rmR .b32 atEbx .esi) lab) (a ||| b) s2 = .ok u) ∧
    ∃ u, writePlace .b32 (aluDest (.rmR .b32 atEbx .esi) lab) (a ^^^ b) s2 = .ok u :=
  ⟨_, _, _, _, lab_two_operands.1, lab_two_operands.2.1, lab_two_operands.2.2.1 _, lab_two_operands.2.2.1 _,
    lab_two_operands.2.2.1 _⟩

theorem test_meets_CompareAndTestSetFlags :
    readPlace .b32 (aluDest (.rmR .b32 atEbx .esi) lab) lab = .ok (0x11223344, lab) ∧
    aluSource (.rmR .b32 atEbx .esi) lab = .ok ((0 : BitVec 32), lab) ∧
    readPlace .b16 (testFirst (.rmImm .b16 atEbx 0x8000) lab) lab = .ok (0x3344, lab) := by decide

theorem test_meets_JumpsAfterCompare :
    readPlace .b32 (aluDest (.rmR .b32 atEbx .esi) lab) lab = .ok (0x11223344, lab) ∧
    aluSource (.rmR .b32 atEbx .esi) lab = .ok ((0 : BitVec 32), lab) ∧
    ∃ (t u : State), exec (.cmp (.rmR .b32 atEbx .esi)) lab = .next t ∧ u.flags = t.flags :=
  ⟨by decide, by decide, _, _, rfl, rfl⟩

theorem test_meets_IncDecStepByOne :
    readPlace .b32 (incDest (.rm .b32 atEbx) lab) lab = .ok (0x11223344, lab) ∧
    ∀ v : BitVec 32, ∃ u, writePlace .b32 (incDest (.rm .b32 atEbx) lab) v lab = .ok u :=
  ⟨by decide, lab_writes .b32⟩

theorem test_meets_NegAndNot :
    readPlace .b16 (place atEbx lab) lab = .ok (0x3344, lab) ∧
    ∀ v : BitVec 16, ∃ u, writePlace .b16 (place atEbx lab) v lab = .ok u :=
  ⟨by decide, lab_writes .b16⟩

/-- Bit 0 and bit 31 of a dword, given as the offsets 32 and 255; the value with one bit changed exists. -/
theorem test_meets_BitInstructionsChangeOneBit :
    readPlace .b32 (bitBase (.rmImm .b32 atEbx 255) lab) lab = .ok (0x11223344, lab) ∧
    bitIndex (.rmImm .b32 atEbx 255) lab = 31 ∧ bitIndex (.rmImm .b32 atEbx 32) lab = 0 ∧
    (∀ k, k < 32 → (0x91223344 : BitVec 32).getLsbD k =
      if k = 31 then !(0x11223344 : BitVec 32).getLsbD k else (0x11223344 : BitVec 32).getLsbD k) ∧
    (∀ k, k < 32 → (0x11223344 : BitVec 32).getLsbD k =
      if k = 31 then false else (0x11223344 : BitVec 32).getLsbD k) ∧
    (∀ k, k < 32 → (0x91223344 : BitVec 32).getLsbD k =
      if k = 31 then true else (0x11223344 : BitVec 32).getLsbD k) ∧
    ∀ v : BitVec 32, ∃ u, writePlace .b32 (bitBase (.rmImm .b32 atEbx 255) lab) v lab = .ok u :=
  ⟨by decide, by decide, by decide, by decide, by decide, by decide, lab_writes .b32⟩

/-- Counts 1 and 31 of an 8-bit operand. -/
theorem test_meets_ShiftsByCount :
    shiftCount .one lab = 1 ∧ shiftCount (.imm 0xFF) lab = 31 ∧ readPlace .b8 (place atEbx lab) lab = .ok (0x44, lab) ∧
    ∀ v : BitVec 8, ∃ u, writePlace .b8 (place atEbx lab) v lab = .ok u :=
  ⟨rfl, by decide, by decide, lab_writes .b8⟩

/-- Counts 1 and 31 of a 16-bit operand. -/
theorem test_meets_RotatesByCount :
    shiftCount .one lab = 1 ∧ shiftCount (.imm 0x1F) lab = 31 ∧ readPlace .b16 (place atEbx lab) lab = .ok (0x3344, lab) ∧
    ∀ v : BitVec 16, ∃ u, writePlace .b16 (place atEbx lab) v lab = .ok u :=
  ⟨rfl, by decide, by decide, lab_writes .b16⟩

/-- Count 32, in CL. -/
theorem test_meets_ShiftByZeroChangesNothing :
    shiftCount .cl (lab.setReg .ecx 32) = 0 ∧
    readPlace .b8 (place atEbx (lab.setReg .ecx 32)) (lab.setReg .ecx 32) = .ok (0x44, lab.setReg .ecx 32) := by decide

theorem test_meets_MulGivesTheWholeProduct : readPlace .b32 (place atEbx lab) lab = .ok (0x11223344, lab) := by decide

theorem test_meets_ImulGivesTheProduct :
    readPlace .b8 (place atEbx lab) lab = .ok (0x44, lab) ∧
    readPlace (imulWidth (.byte .b16 0x80)) (place atEbx lab) lab = .ok (0x3344, lab) := by decide

/-- The lab with the dividend EDX:EAX = 64 bits of ones: the largest quotient by FFFFFFFFh is too large, that by itself fits. -/
def labDividend (hi lo : Dword) : State := (lab.setReg .edx hi).setReg .eax lo

theorem test_meets_DivisionLaws :
    readPlace .b32 (place atEbx (labDividend 0x11223343 0xFFFFFFFF)) (labDividend 0x11223343 0xFFFFFFFF) =
      .ok (0x11223344, labDividend 0x11223343 0xFFFFFFFF) ∧
    readPair .b32 (labDividend 0x11223343 0xFFFFFFFF) / (0x11223344 : BitVec 32).toNat < 2 ^ Width.b32.bits ∧
    readPlace .b32 (place atEbx (labDividend 0xFFFFFFFF 0x80000000)) (labDividend 0xFFFFFFFF 0x80000000) =
      .ok (0x11223344, labDividend 0xFFFFFFFF 0x80000000) ∧
    -(2 ^ (Width.b32.bits - 1) : Int) ≤
      (signedPair .b32 (labDividend 0xFFFFFFFF 0x80000000)).tdiv (0x11223344 : BitVec 32).toInt ∧
    (signedPair .b32 (labDividend 0xFFFFFFFF 0x80000000)).tdiv (0x11223344 : BitVec 32).toInt < 2 ^ (Width.b32.bits - 1) := by
  decide

/-- Divisor 0; the smallest dividend whose quotient is too large; signed quotients just outside the range on both sides. -/
theorem test_meets_DivideErrors :
    (∀ hi lo, Opens 0 labGate (labDividend hi lo)) ∧
    readPlace .b32 (place (.reg .esi) lab) lab = .ok (0, lab) ∧
    readPlace .b32 (place atEbx (labDividend 0x11223344 0)) (labDividend 0x11223344 0) =
      .ok (0x11223344, labDividend 0x11223344 0) ∧
    2 ^ Width.b32.bits ≤ readPair .b32 (labDividend 0x11223344 0) / (0x11223344 : BitVec 32).toNat ∧
    2 ^ (Width.b32.bits - 1) ≤ (signedPair .b32 (labDividend 0x089119A2 0)).tdiv (0x11223344 : BitVec 32).toInt ∧
    (signedPair .b32 (labDividend 0xF76EE65D 0xEEDDCCBC)).tdiv (0x11223344 : BitVec 32).toInt <
      -(2 ^ (Width.b32.bits - 1) : Int) :=
  ⟨fun _ _ => opens_moved (opens_lab 0 (by decide)) rfl rfl rfl rfl rfl, by decide, by decide, by decide, by decide,
    by decide⟩

theorem test_meets_MovCopies :
    movSource (.memAcc .b16 0x20001FFE) lab = .ok ((0 : BitVec 16), lab) ∧
    ∃ u, writePlace .b16 (movDest (.memAcc .b16 0x20001FFE) lab) 0 lab = .ok u :=
  ⟨by decide, _, writeMem_storage (w := .b16) (a := 0x20001FFE) (s := lab) 0 (by decide)⟩

theorem test_meets_ExtensionsKeepTheValue :
    readPlace (extFrom (.r32rm16 .eax atEbx)) (place (extSource (.r32rm16 .eax atEbx)) lab) lab = .ok (0x3344, lab) := by decide

/-- A push of each width, at the lowest address of the SRAM for PUSHFD. -/
theorem test_meets_PushStoresBelowEsp :
    pushSource (.imm16 0x1234) lab = .ok ((0x1234 : BitVec 16), lab) ∧
    (∃ u, writeMem .b16 (pushAddress .b16 lab) 0x1234 lab = .ok u) ∧
    ∃ u, writeMem .b32 (pushAddress .b32 (lab.setReg .esp 0x20000004)) (lab.setReg .esp 0x20000004).flags.image
      (lab.setReg .esp 0x20000004) = .ok u :=
  ⟨by decide, ⟨_, writeMem_storage _ (by decide)⟩, _, writeMem_storage _ (by decide)⟩

theorem test_meets_PopReadsAtEsp :
    popPlace (.rm .b32 atEbx) lab = .ok (.mem 0x20000100) ∧ readMem .b32 (lab.reg .esp) lab = .ok (0x200, lab) ∧
    (∃ u, writePlace .b32 (.mem 0x20000100) 0x200 (espPast .b32 lab) = .ok u) ∧
    popPlace (.reg .esp) lab = .ok (.reg .esp) ∧
    ∃ u, writePlace .b32 (.reg .esp) 0x200 (espPast .b32 lab) = .ok u :=
  ⟨by decide, by decide,
    ⟨_, writeMem_storage (w := .b32) (a := 0x20000100) (s := espPast .b32 lab) 0x200 (by decide)⟩, rfl, _, rfl⟩

theorem test_meets_CallAndRet :
    (∃ u, writeMem .b32 (pushAddress .b32 lab) lab.nextEip lab = .ok u) ∧
    readPlace .b32 (place atEbx lab) lab = .ok (0x11223344, lab) ∧
    readMem .b32 (lab.reg .esp) lab = .ok (0x200, lab) :=
  ⟨⟨_, writeMem_storage _ (by decide)⟩, by decide, by decide⟩

theorem test_meets_CallThenRetReturns :
    lab.mem.wf = true ∧ route lab.plat .write .b32 (pushAddress .b32 lab) = .ok .storage ∧
    route lab.plat .read .b32 (pushAddress .b32 lab) = .ok .storage ∧
    holdsAfter (exec (.callRel 0x1000) lab) (fun t => decide (t.reg .esp = pushAddress .b32 lab ∧ t.plat = lab.plat)) = true := by
  decide

theorem test_meets_JumpsGoToTheirTargets : readPlace .b32 (place atEbx lab) lab = .ok (0x11223344, lab) := by decide

theorem test_meets_FlagInstructions : lab.pmU = false ∧
    (Instr.cmc, { lab.flags with cf := !lab.flags.cf }) ∈ [(Instr.clc, { lab.flags with cf := false }),
      (.cmc, { lab.flags with cf := !lab.flags.cf })] := by decide

theorem test_meets_HltHaltsTheCore :
    lab.pmU = false ∧ lab.flags.tf = false ∧ (lab.flags.intf = false ∨ lab.intc.lapic.intr = false) := by decide

/-- The last six bytes of the SRAM. -/
theorem test_meets_IdtrIsLoadedAndStored :
    readMem .b16 (effAddr ⟨some .ebx, none, .none⟩ lab) lab = .ok (0x3344, lab) ∧
    readMem .b32 (effAddr ⟨some .ebx, none, .none⟩ lab + 2) lab = .ok (0x1122, lab) ∧ lab.mem.wf = true ∧
    route lab.plat .write .b16 0x20001FFA = .ok .storage ∧ route lab.plat .write .b32 (0x20001FFA + 2) = .ok .storage ∧
    ∃ t u, writeMem .b16 0x20001FFA lab.idtr.limit lab = .ok t ∧ writeMem .b32 (0x20001FFA + 2) lab.idtr.address t = .ok u :=
  ⟨by decide, by decide, by decide, by decide, by decide, _, _, writeMem_storage _ (by decide),
    writeMem_storage _ (by decide)⟩

end Sys2Proof.Tests
end

/-! SUPPORT. Proofs about the step of the core: which of its branches a step takes, and what fetch hands to exec. -/

namespace Sys2Proof.Machine

/-! ### The schedule is no input of the core's decisions -/

@[simp] theorem interruptDue_setAgenda (s : State) (a : List Turn) : interruptDue (s.setAgenda a) = interruptDue s := rfl
@[simp] theorem policy_setAgenda (s : State) (a : List Turn) : policy (s.setAgenda a) = policy s := rfl
@[simp] theorem instrBytes_setAgenda (s : State) (a : List Turn) : instrBytes (s.setAgenda a) = instrBytes s := rfl

/-! ### What a step is, branch by branch -/

/-- With a schedule the next turn moves, in the state that has it taken off the schedule (R18). -/
theorem step_of_agenda_cons {s : State} {t : Turn} {rest : List Turn} (h : s.agenda = t :: rest) :
    step s = takeTurn t (s.setAgenda rest) := by
  unfold step
  rw [h]

/-- With no schedule the core runs freely (log entries 5 and 6). -/
theorem step_of_agenda_nil {s : State} (h : s.agenda = []) : step s = freeRun s := by
  unfold step
  rw [h]

/-- A free run ticks the timer after the core's step. -/
theorem freeRun_of_coreStep {s t : State} (h : coreStep true s = .next t) : freeRun s = ticks t.plat.timerTick t := by
  unfold freeRun
  rw [h]

/-- A running core with no trap and no recognised interrupt due comes to item 3 of R492. -/
theorem coreStep_eq_runInstr {s : State} {b : Bool} (hpm : s.pmU = false) (hrun : s.run = .running)
    (htrap : s.stepDue = false) (hint : b = true → interruptDue s = false) : coreStep b s = runInstr s := by
  have hrec : (b && interruptDue s) = false := by
    cases b with
    | false => rfl
    | true => exact hint rfl
  simp only [coreStep, hpm, hrun, htrap, hrec, Bool.false_eq_true, if_false]

/-- Fetched bytes that decode are executed with NextEIP = EIP + L (R37). -/
theorem runInstr_of_decode {s : State} {i : Instr} {n : Nat} (h : decode (policy s) (instrBytes s) = .ok (i, n)) :
    runInstr s = exec i (s.setNextEip (s.eip + BitVec.ofNat 32 n)) := by
  have hf : fetch s = .ok (i, n) := by
    unfold fetch
    rw [h]
  unfold runInstr
  rw [hf]

/-- The core's step of R492 in its plain case: decode, then exec. -/
theorem coreStep_of_decode {s : State} {b : Bool} {i : Instr} {n : Nat} (hpm : s.pmU = false) (hrun : s.run = .running)
    (htrap : s.stepDue = false) (hint : b = true → interruptDue s = false)
    (hdec : decode (policy s) (instrBytes s) = .ok (i, n)) :
    coreStep b s = exec i (s.setNextEip (s.eip + BitVec.ofNat 32 n)) :=
  (coreStep_eq_runInstr hpm hrun htrap hint).trans (runInstr_of_decode hdec)

/-- Settles O6: with a schedule the core's turn, without one a free run. -/
theorem stepRunsDecodedInstruction : Obligations.StepRunsDecodedInstruction := by
  intro s i n b rest hpm hrun htrap hdec
  constructor
  · intro hagenda hint
    calc step s = coreStep b (s.setAgenda rest) := step_of_agenda_cons hagenda
      _ = exec i ((s.setAgenda rest).setNextEip (s.eip + BitVec.ofNat 32 n)) :=
        coreStep_of_decode (s := s.setAgenda rest) hpm hrun htrap hint hdec
  · intro hagenda hint t hexec
    have hcore : coreStep true s = .next t := (coreStep_of_decode hpm hrun htrap (fun _ => hint) hdec).trans hexec
    rw [step_of_agenda_nil hagenda, freeRun_of_coreStep hcore]

end Sys2Proof.Machine

/-! SUPPORT. Proofs about sums and differences with a carry: their value and flags, and what Carry and Overflow of R14 say of
the exact results. -/

namespace Sys2Proof.Machine

/-! ### Value and flags of a sum and of a difference -/

@[simp] theorem addCarry_value (n : Nat) (a b : BitVec n) (c : Bool) : (addCarry n a b c).value = a + b + carryIn n c := by
  simp only [addCarry, carryIn, BitVec.ofNat_add, BitVec.ofNat_toNat, BitVec.setWidth_eq]

@[simp] theorem addCarry_cf (n : Nat) (a b : BitVec n) (c : Bool) : (addCarry n a b c).cf = sumCarries n a b c := rfl

@[simp] theorem addCarry_of (n : Nat) (a b : BitVec n) (c : Bool) :
    (addCarry n a b c).of = sumOverflows a b (a + b + carryIn n c) := by
  rw [← addCarry_value, sumOverflows, Bool.decide_and]
  rfl

/-- Narrowing an exact difference subtracts the narrowed operands. -/
theorem ofInt_sub (n : Nat) (x y : Int) : BitVec.ofInt n (x - y) = BitVec.ofInt n x - BitVec.ofInt n y := by
  rw [Int.sub_eq_add_neg, BitVec.ofInt_add, BitVec.ofInt_neg, BitVec.sub_eq_add_neg]

@[simp] theorem subBorrow_value (n : Nat) (a b : BitVec n) (c : Bool) :
    (subBorrow n a b c).value = a - b - carryIn n c := by
  simp only [subBorrow, carryIn, ofInt_sub, BitVec.ofInt_natCast, BitVec.ofNat_toNat, BitVec.setWidth_eq]

@[simp] theorem subBorrow_cf (n : Nat) (a b : BitVec n) (c : Bool) : (subBorrow n a b c).cf = differenceBorrows n a b c :=
  decide_eq_decide.mpr (by omega)

@[simp] theorem subBorrow_of (n : Nat) (a b : BitVec n) (c : Bool) :
    (subBorrow n a b c).of = differenceOverflows a b (a - b - carryIn n c) := by
  rw [← subBorrow_value, differenceOverflows, Bool.decide_and]
  rfl

/-! ### The exact signed result -/

/-- A carry is its number, narrowed. -/
theorem carryIn_eq_ofInt (n : Nat) (c : Bool) : carryIn n c = BitVec.ofInt n c.toNat :=
  (BitVec.ofInt_natCast n c.toNat).symm

/-- The sum is the exact signed sum, narrowed. -/
theorem add_carryIn_eq_ofInt {n : Nat} (a b : BitVec n) (c : Bool) :
    a + b + carryIn n c = BitVec.ofInt n (a.toInt + b.toInt + c.toNat) := by
  rw [BitVec.ofInt_add, BitVec.ofInt_add, BitVec.ofInt_toInt, BitVec.ofInt_toInt, carryIn_eq_ofInt]

/-- The difference is the exact signed difference, narrowed. -/
theorem sub_carryIn_eq_ofInt {n : Nat} (a b : BitVec n) (c : Bool) :
    a - b - carryIn n c = BitVec.ofInt n (a.toInt - b.toInt - c.toNat) := by
  rw [ofInt_sub, ofInt_sub, BitVec.ofInt_toInt, BitVec.ofInt_toInt, carryIn_eq_ofInt]

/-- The values of a width are two halves. -/
theorem two_pow_eq_double {n : Nat} (hn : 0 < n) : (2 : Int) ^ n = 2 * 2 ^ (n - 1) := by
  rw [← pow_succ', Nat.sub_add_cancel hn]

/-- The idea behind Overflow(): an exact result less than one turn away, narrowed to the width, changes its sign if and
only if it is out of the signed range. -/
theorem msb_ofInt_ne_sign_iff {n : Nat} (hn : 0 < n) {v : Int} (hlo : -2 ^ n ≤ v) (hhi : v < 2 ^ n) :
    (BitVec.ofInt n v).msb ≠ decide (v < 0) ↔ ¬ (-2 ^ (n - 1) ≤ v ∧ v < 2 ^ (n - 1)) := by
  have hpow := two_pow_eq_double hn
  have hcast : ((2 ^ n : Nat) : Int) = 2 ^ n := Nat.cast_pow 2 n
  have hneg := Int.bmod_neg_iff (m := 2 ^ n) (x := v) (hcast ▸ hlo) (hcast ▸ hhi)
  rw [hcast, hpow] at hneg
  rw [hpow] at hlo hhi
  rw [BitVec.msb_eq_toInt, BitVec.toInt_ofInt, ne_eq, decide_eq_decide, hneg]
  omega

/-- The shape of both overflow formulas: the operands' signs tell the exact result's sign (`p`) or keep it in range. -/
theorem overflows_iff_out_of_range {n : Nat} (hn : 0 < n) {v : Int} {sign : Bool} {p : Prop} (hlo : -2 ^ n ≤ v)
    (hhi : v < 2 ^ n) (hsign : p → decide (v < 0) = sign) (hrange : ¬ p → -2 ^ (n - 1) ≤ v ∧ v < 2 ^ (n - 1)) :
    (p ∧ (BitVec.ofInt n v).msb ≠ sign) ↔ ¬ (-2 ^ (n - 1) ≤ v ∧ v < 2 ^ (n - 1)) := by
  by_cases hp : p
  · rw [← hsign hp, msb_ofInt_ne_sign_iff hn hlo hhi]
    exact and_iff_right hp
  · exact iff_of_false (fun h => hp h.1) (not_not_intro (hrange hp))

/-- Operands of one sign give the sum that sign; operands of two signs keep the sum in range. -/
theorem sumOverflows_iff {n : Nat} (hn : 0 < n) (a b : BitVec n) (c : Bool) :
    sumOverflows a b (a + b + carryIn n c) = true ↔
      ¬ (-2 ^ (n - 1) ≤ a.toInt + b.toInt + c.toNat ∧ a.toInt + b.toInt + c.toNat < 2 ^ (n - 1)) := by
  have hpow := two_pow_eq_double hn
  have hc := c.toNat_le
  have ha := And.intro a.le_toInt a.toInt_lt
  have hb := And.intro b.le_toInt b.toInt_lt
  rw [add_carryIn_eq_ofInt, sumOverflows, decide_eq_true_eq]
  apply overflows_iff_out_of_range hn
  case hlo => omega
  case hhi => omega
  case hsign =>
    simp only [BitVec.msb_eq_toInt, decide_eq_decide]
    omega
  case hrange =>
    simp only [BitVec.msb_eq_toInt, decide_eq_decide]
    omega

/-- Operands of two signs give the difference the sign of the first; operands of one sign keep the difference in range. -/
theorem differenceOverflows_iff {n : Nat} (hn : 0 < n) (a b : BitVec n) (c : Bool) :
    differenceOverflows a b (a - b - carryIn n c) = true ↔
      ¬ (-2 ^ (n - 1) ≤ a.toInt - b.toInt - c.toNat ∧ a.toInt - b.toInt - c.toNat < 2 ^ (n - 1)) := by
  have hpow := two_pow_eq_double hn
  have hc := c.toNat_le
  have ha := And.intro a.le_toInt a.toInt_lt
  have hb := And.intro b.le_toInt b.toInt_lt
  rw [sub_carryIn_eq_ofInt, differenceOverflows, decide_eq_true_eq]
  apply overflows_iff_out_of_range hn
  case hlo => omega
  case hhi => omega
  case hsign =>
    simp only [BitVec.msb_eq_toInt, ne_eq, decide_eq_decide]
    omega
  case hrange =>
    simp only [BitVec.msb_eq_toInt, ne_eq, decide_eq_decide]
    omega

theorem Width.bits_pos (w : Width) : 0 < w.bits := by cases w <;> decide

/-- Settles O37: the clauses about exact results from the sign argument, the ties to the model from its flags' lemmas. -/
theorem overflowMeansOutOfRange : Obligations.OverflowMeansOutOfRange := fun w a b c =>
  ⟨sumOverflows_iff (Width.bits_pos w) a b c, differenceOverflows_iff (Width.bits_pos w) a b c,
    addCarry_of w.bits a b c, addCarry_cf w.bits a b c, subBorrow_of w.bits a b c, subBorrow_cf w.bits a b c⟩

end Sys2Proof.Machine

/-! SUPPORT. What an instruction can do to the parts of the state that the invariants speak of, said once for every
instruction, and the step lemma of the invariants. -/

namespace Sys2Proof.Machine

/-! ### What a body answers -/

/-- Whatever a body answers satisfies `P`; a body that stops answers nothing. -/
structure Answers {α : Type} (x : Except Stop α) (P : α → Prop) : Prop where
  holds : ∀ a, x = .ok a → P a

section Answers

variable {α β : Type} {P : α → Prop} {Q : β → Prop}

theorem Answers.pure {a : α} (h : P a) : Answers (pure a) P := ⟨fun _ hb => Except.ok.inj hb ▸ h⟩

theorem Answers.ok {a : α} (h : P a) : Answers (.ok a) P := Answers.pure h

theorem Answers.error {e : Stop} : Answers (.error e) P := ⟨fun _ hb => nomatch hb⟩

theorem Answers.bind {x : Except Stop β} {f : β → Except Stop α} (hx : Answers x Q)
    (hf : ∀ b, Q b → Answers (f b) P) : Answers (x >>= f) P := by
  cases x with
  | error e => exact Answers.error
  | ok b => exact hf b (hx.holds b rfl)

theorem Answers.map {x : Except Stop β} {f : β → α} (hx : Answers x fun b => P (f b)) : Answers (x.map f) P := by
  cases x with
  | error e => exact Answers.error
  | ok b => exact Answers.ok (hx.holds b rfl)

theorem Answers.ite {c : Prop} [Decidable c] {x y : Except Stop α} (hx : Answers x P) (hy : Answers y P) :
    Answers (if c then x else y) P := by
  split
  · exact hx
  · exact hy

end Answers

/-! ### What a body does to the fields that the invariants speak of -/

/-- The fields that the invariants speak of, with the platform that says which bytes are code. -/
def State.guarded (s : State) : Memory × IntCtl × Config.Platform × Bool × RunState × Bool :=
  (s.mem, s.intc, s.plat, s.pmU, s.run, s.cpuErr)

theorem State.guarded_eq_iff {s t : State} :
    t.guarded = s.guarded ↔
      t.mem = s.mem ∧ t.intc = s.intc ∧ t.plat = s.plat ∧ t.pmU = s.pmU ∧ t.run = s.run ∧ t.cpuErr = s.cpuErr := by
  simp only [State.guarded, Prod.mk.injEq]

@[simp] theorem State.guarded_setView (s : State) (w : Width) (r : Reg) (v : BitVec w.bits) :
    (s.setView w r v).guarded = s.guarded := by
  cases w <;> rfl

@[simp] theorem writePair_guarded (w : Width) (p : Nat) (s : State) : (writePair w p s).guarded = s.guarded := by
  cases w <;> rfl

@[simp] theorem writeQuotRem_guarded (w : Width) (q r : BitVec w.bits) (s : State) :
    (writeQuotRem w q r s).guarded = s.guarded := by
  simp only [writeQuotRem, State.guarded_setView]

@[simp] theorem imulFlags_guarded (n : Nat) (p : Int) (s : State) : (imulFlags n p s).guarded = s.guarded := by
  unfold imulFlags
  split
  · rfl
  · rfl
  · dsimp only
    split <;> rfl

@[simp] theorem mulFlags_guarded (c : Bool) (s : State) : (mulFlags c s).guarded = s.guarded := rfl
@[simp] theorem divFlags_guarded (s : State) : (divFlags s).guarded = s.guarded := by
  simp [divFlags, State.guarded]
@[simp] theorem bitFlags_guarded (b : Bool) (s : State) : (bitFlags b s).guarded = s.guarded := rfl

@[simp] theorem shiftFinish_guarded {n : Nat} (k : ShiftKind) (c : Nat) (x y : BitVec n) (cf : Bool) (s : State) :
    (shiftFinish k c x y cf s).guarded = s.guarded := by
  unfold shiftFinish
  split <;> rfl

@[simp] theorem setIf_guarded (v : Bool) (s : State) : (setIf v s).guarded = s.guarded := by
  unfold setIf
  split <;> rfl

/-- What every instruction body keeps: the storage and the controller as `Keeps` says, supervisor mode, and how the core
stands. -/
structure BodyEffect (s t : State) : Prop where
  keeps : Keeps s t
  supervisor : s.pmU = false → t.pmU = false
  run : t.run = s.run
  cpuErr : t.cpuErr = s.cpuErr

theorem BodyEffect.refl (s : State) : BodyEffect s s := ⟨Keeps.refl s, id, rfl, rfl⟩

theorem BodyEffect.trans {s t u : State} (h : BodyEffect s t) (k : BodyEffect t u) : BodyEffect s u :=
  ⟨h.keeps.trans k.keeps, fun hs => k.supervisor (h.supervisor hs), k.run.trans h.run, k.cpuErr.trans h.cpuErr⟩

/-- An access that touches the storage and the controller only as `Keeps` allows. -/
theorem BodyEffect.of_sameCore {s t : State} (hc : SameCore s t) (hk : Keeps s t) : BodyEffect s t :=
  ⟨hk, fun hs => hc.pmU.trans hs, hc.run, hc.cpuErr⟩

section Body

variable {s t u : State} {w : Width}

/-- A change of other fields than those the invariants speak of. -/
theorem BodyEffect.update (h : BodyEffect s t) (hu : u.guarded = t.guarded) : BodyEffect s u := by
  obtain ⟨hmem, hintc, hplat, hpmU, hrun, hcpuErr⟩ := State.guarded_eq_iff.mp hu
  exact h.trans ⟨Keeps.of_eq hplat hmem hintc, hpmU.trans, hrun, hcpuErr⟩

theorem BodyEffect.readMem {a : Dword} (h : BodyEffect s t) :
    Answers (readMem w a t) fun x => BodyEffect s x.2 := ⟨fun _ hx =>
  have hd := readMem_state hx
  h.trans (.of_sameCore (SameCore.of_drawn hd) (Keeps.of_drawn hd))⟩

theorem BodyEffect.readPlace {p : Place} (h : BodyEffect s t) :
    Answers (readPlace w p t) fun x => BodyEffect s x.2 := ⟨fun _ hx =>
  have hd := readPlace_state hx
  h.trans (.of_sameCore (SameCore.of_drawn hd) (Keeps.of_drawn hd))⟩

theorem BodyEffect.writeMem {a : Dword} {v : BitVec w.bits} (h : BodyEffect s t) :
    Answers (writeMem w a v t) (BodyEffect s) := ⟨fun _ hu =>
  h.trans (.of_sameCore (writeMem_core hu).1 (writeMem_keeps hu))⟩

theorem BodyEffect.writePlace {p : Place} {v : BitVec w.bits} (h : BodyEffect s t) :
    Answers (writePlace w p v t) (BodyEffect s) := ⟨fun _ hu =>
  h.trans (.of_sameCore (writePlace_core hu).1 (writePlace_keeps hu))⟩

theorem BodyEffect.aluSource {o : AluOperands} (h : BodyEffect s t) :
    Answers (aluSource o t) fun x => BodyEffect s x.2 := by
  cases o with
  | rRm w dst src => exact h.readPlace
  | rmR w dst src => exact .ok h
  | accImm w v => exact .ok h
  | rmImm w dst v => exact .ok h
  | rmImm8 w dst v => exact .ok h

theorem BodyEffect.pushValue {v : BitVec w.bits} (h : BodyEffect s t) :
    Answers (pushValue w v t) (BodyEffect s) :=
  h.writeMem.bind fun _ hu => .pure (hu.update rfl)

end Body

/-! ### The bodies of the instructions

Each is a chain of reads, a write and updates of fields that the invariants do not speak of; its proof is the same chain. -/

section Bodies

variable (s : State)

theorem aluBody_effect (f : (n : Nat) → BitVec n → BitVec n → Bool → AluResult n) (store : Bool) (o : AluOperands) :
    Answers (aluBody f store o s) (BodyEffect s) :=
  (BodyEffect.refl s).readPlace.bind fun _ h1 => h1.aluSource.bind fun _ h2 =>
    .ite (h2.writePlace.bind fun _ h3 => .pure (h3.update rfl)) (.pure (h2.update rfl))

theorem incBody_effect (f : (n : Nat) → BitVec n → AluResult n) (o : IncOperands) :
    Answers (incBody f o s) (BodyEffect s) :=
  (BodyEffect.refl s).readPlace.bind fun _ h1 => h1.writePlace.bind fun _ h2 => .pure (h2.update rfl)

theorem unaryBody_effect (f : (n : Nat) → BitVec n → BitVec n) (fl : (n : Nat) → BitVec n → EFlags → EFlags)
    (w : Width) (dst : RM) : Answers (unaryBody f fl w dst s) (BodyEffect s) :=
  (BodyEffect.refl s).readPlace.bind fun _ h1 => h1.writePlace.bind fun _ h2 => .pure (h2.update rfl)

theorem testBody_effect (o : TestOperands) : Answers (testBody o s) (BodyEffect s) :=
  (BodyEffect.refl s).readPlace.bind fun _ h1 => .pure (h1.update rfl)

theorem bitBody_effect (f : (n : Nat) → BitVec n → Nat → BitVec n) (o : BitOperands) :
    Answers (bitBody f o s) (BodyEffect s) :=
  (BodyEffect.refl s).readPlace.bind fun _ h1 => h1.writePlace.bind fun _ h2 => .pure (h2.update rfl)

theorem btBody_effect (o : BitOperands) : Answers (btBody o s) (BodyEffect s) :=
  (BodyEffect.refl s).readPlace.bind fun _ h1 => .pure (h1.update rfl)

theorem shiftBody_effect (k : ShiftKind) (w : Width) (dst : RM) (c : ShiftCount) :
    Answers (shiftBody k w dst c s) (BodyEffect s) :=
  (BodyEffect.refl s).readPlace.bind fun _ h1 => .ite (.pure h1)
    (h1.writePlace.bind fun _ h2 => .pure (h2.update (shiftFinish_guarded ..)))

theorem mulBody_effect (w : Width) (src : RM) : Answers (mulBody w src s) (BodyEffect s) :=
  (BodyEffect.refl s).readPlace.bind fun _ h1 => .pure (h1.update (by simp))

theorem imul1Body_effect (w : Width) (src : RM) : Answers (imul1Body w src s) (BodyEffect s) :=
  (BodyEffect.refl s).readPlace.bind fun _ h1 => .pure (h1.update (by simp))

theorem imul2Body_effect (w : Width) (dst : Reg) (src : RM) : Answers (imul2Body w dst src s) (BodyEffect s) :=
  (BodyEffect.refl s).readPlace.bind fun _ h1 => .pure (h1.update (by simp))

theorem imul3Body_effect (dst : Reg) (src : RM) (imm : ImulImm) :
    Answers (imul3Body dst src imm s) (BodyEffect s) :=
  (BodyEffect.refl s).readPlace.bind fun _ h1 => .pure (h1.update (by simp))

theorem divBody_effect (w : Width) (src : RM) : Answers (divBody w src s) (BodyEffect s) :=
  (BodyEffect.refl s).readPlace.bind fun _ h1 => .ite .error (.ite .error (.pure (h1.update (by simp))))

theorem idivBody_effect (w : Width) (src : RM) : Answers (idivBody w src s) (BodyEffect s) :=
  (BodyEffect.refl s).readPlace.bind fun _ h1 => .ite .error (.ite .error (.pure (h1.update (by simp))))

theorem movBody_effect (o : MovOperands) : Answers (movBody o s) (BodyEffect s) := by
  have h := BodyEffect.refl s
  cases o with
  | rmR w dst src => exact h.writePlace
  | rRm w dst src => exact h.readPlace.bind fun _ h1 => .pure (h1.update (State.guarded_setView ..))
  | accMem w a => exact h.readMem.bind fun _ h1 => .pure (h1.update (State.guarded_setView ..))
  | memAcc w a => exact h.writeMem
  | regImm w dst v => exact .ok (h.update (State.guarded_setView ..))
  | rmImm w dst v => exact h.writePlace

theorem extBody_effect (ext : {n : Nat} → (m : Nat) → BitVec n → BitVec m) (o : ExtOperands) :
    Answers (extBody ext o s) (BodyEffect s) := by
  cases o with
  | _ => exact (BodyEffect.refl s).readPlace.bind fun _ h1 => .pure (h1.update rfl)

theorem pushBody_effect (o : PushOperand) : Answers (pushBody o s) (BodyEffect s) := by
  have h := BodyEffect.refl s
  cases o with
  | rm w src => exact h.readPlace.bind fun _ h1 => h1.pushValue
  | reg r => exact h.pushValue
  | imm32 v => exact h.pushValue
  | imm16 v => exact h.pushValue
  | imm8 v => exact h.pushValue

theorem popBody_effect (o : PopOperand) : Answers (popBody o s) (BodyEffect s) := by
  have h := BodyEffect.refl s
  cases o with
  | reg r => exact h.readMem.bind fun _ h1 => .pure (h1.update rfl)
  | rm w dst =>
    exact Answers.bind (Q := fun _ => True) ⟨fun _ _ => trivial⟩ fun _ _ =>
      h.readMem.bind fun ⟨_, _⟩ h1 => BodyEffect.writePlace (h1.update rfl)

theorem popfdBody_effect : Answers (popfdBody s) (BodyEffect s) :=
  (BodyEffect.refl s).readMem.bind fun _ h1 => .ite .error (.pure (h1.update rfl))

theorem callRmBody_effect (src : RM) : Answers (callRmBody src s) (BodyEffect s) :=
  (BodyEffect.refl s).readPlace.bind fun _ h1 => h1.pushValue.bind fun _ h2 => .pure (h2.update rfl)

theorem retBody_effect : Answers (retBody s) (BodyEffect s) :=
  (BodyEffect.refl s).readMem.bind fun _ h1 => .pure (h1.update rfl)

theorem jmpRmBody_effect (src : RM) : Answers (jmpRmBody src s) (BodyEffect s) :=
  (BodyEffect.refl s).readPlace.bind fun _ h1 => .pure (h1.update rfl)

theorem lidtBody_effect (src : MemRef) : Answers (lidtBody src s) (BodyEffect s) :=
  (BodyEffect.refl s).readMem.bind fun _ h1 => h1.readMem.bind fun _ h2 => .pure (h2.update rfl)

theorem sidtBody_effect (dst : MemRef) : Answers (sidtBody dst s) (BodyEffect s) :=
  (BodyEffect.refl s).writeMem.bind fun _ h1 => h1.writeMem

/-- A return from an exception ends in supervisor mode whatever the mode was (R436). -/
theorem returnFromException_effect : Answers (returnFromException s) (BodyEffect s) := by
  refine ⟨fun t ht => ?_⟩
  obtain ⟨eip, fl, u, hpop, -, rfl⟩ := returnFromException_cases ht
  obtain ⟨hcore, hkeeps, -⟩ := popFrame_same hpop
  exact ⟨hkeeps.trans (Keeps.of_eq rfl rfl rfl), fun _ => rfl, hcore.run, hcore.cpuErr⟩

end Bodies

/-! ### Every instruction -/

/-- Everything an instruction can do to the fields that the invariants speak of. -/
inductive ExecEffect (s t : State) : Prop where
  | body : BodyEffect s t → ExecEffect s t
  | halt : BodyEffect (s.setRun .halted) t → ExecEffect s t
  | entry : EntryOutcome (s.setRun .running) t → ExecEffect s t

section Retire

variable {s t : State} {body : Except Stop State}

theorem enter_effect {ev : Event} (h : enter ev s = .next t) : ExecEffect s t := .entry (enter_outcome h).2

theorem ExecEffect.of_pastDraws (h : ExecEffect s.pastDraws t) : ExecEffect s t := by
  cases h with
  | body h => exact .body (((BodyEffect.refl s).update (u := s.pastDraws) rfl).trans h)
  | halt h => exact .halt (((BodyEffect.refl (s.setRun .halted)).update (u := s.pastDraws.setRun .halted) rfl).trans h)
  | entry h =>
    have hk : Keeps (s.setRun .running) (s.pastDraws.setRun .running) := Keeps.of_eq rfl rfl rfl
    exact .entry ⟨hk.trans h.keeps, h.idtr, h.esp0, h.agenda, h.supervisor, h.ends, h.regs⟩

/-- An instruction that meets no memory and completes. -/
theorem ExecEffect.of_next {u : State} (h : (.next u : Result) = .next t) (hu : u.guarded = s.guarded) :
    ExecEffect s t :=
  .body (Host.Outcome.next.inj h ▸ (BodyEffect.refl s).update hu)

theorem retire_effect (h : retire s body = .next t) (hb : Answers body (BodyEffect s)) : ExecEffect s t := by
  rcases retire_cases h with ⟨u, hu, rfl⟩ | ⟨x, -, he⟩
  · exact .body ((hb.holds u hu).update rfl)
  · exact (enter_effect he).of_pastDraws

theorem complete_effect (h : complete s body = .next t) (hb : Answers body (BodyEffect s)) : ExecEffect s t :=
  retire_effect h (.map ⟨fun _ ht => (hb.holds _ ht).update rfl⟩)

end Retire

/-- Everything a completed instruction can do, one line for each shape of body. -/
theorem exec_effect {i : Instr} {s t : State} (h : exec i s = .next t) : ExecEffect s t := by
  have hs := BodyEffect.refl s
  cases i with
  | add o | adc o | sub o | sbb o | cmp o | and o | or o | xor o => exact complete_effect h (aluBody_effect ..)
  | inc o | dec o => exact complete_effect h (incBody_effect ..)
  | neg w dst | not w dst => exact complete_effect h (unaryBody_effect ..)
  | test o => exact complete_effect h (testBody_effect ..)
  | bt o => exact complete_effect h (btBody_effect ..)
  | btc o | btr o | bts o => exact complete_effect h (bitBody_effect ..)
  | rol w dst c | ror w dst c | rcl w dst c | rcr w dst c | shl w dst c | shr w dst c | sar w dst c =>
    exact complete_effect h (shiftBody_effect ..)
  | mul w src => exact complete_effect h (mulBody_effect ..)
  | imul1 w src => exact complete_effect h (imul1Body_effect ..)
  | imul2 w dst src => exact complete_effect h (imul2Body_effect ..)
  | imul3 dst src imm => exact complete_effect h (imul3Body_effect ..)
  | div w src => exact complete_effect h (divBody_effect ..)
  | idiv w src => exact complete_effect h (idivBody_effect ..)
  | mov o => exact complete_effect h (movBody_effect ..)
  | movsx o | movzx o => exact complete_effect h (extBody_effect ..)
  | bswap p66 r => exact .of_next h (by cases p66 <;> rfl)
  | lea w dst src => exact .of_next h (s.guarded_setView ..)
  | cbw | cwde | cwd | cdq | nop p66 | clc | stc | cmc => exact .of_next h rfl
  | cli | sti => exact .of_next h (setIf_guarded _ s)
  | push o => exact complete_effect h (pushBody_effect ..)
  | pop o => exact complete_effect h (popBody_effect ..)
  | pushfd => exact complete_effect h hs.pushValue
  | popfd => exact complete_effect h (popfdBody_effect s)
  | callRel cd => exact retire_effect h (.map ⟨fun _ ht => (hs.pushValue.holds _ ht).update rfl⟩)
  | callRm src => exact retire_effect h (callRmBody_effect ..)
  | ret => exact retire_effect h (retBody_effect s)
  | jmpRel rel => exact .of_next h rfl
  | jmpRm src => exact retire_effect h (jmpRmBody_effect ..)
  | jo rel | jno rel | jb rel | jae rel | je rel | jne rel | jbe rel | ja rel | js rel | jns rel | jl rel | jge rel
  | jle rel | jg rel => exact .of_next h rfl
  | hlt => exact .halt (Host.Outcome.next.inj h ▸ (BodyEffect.refl (s.setRun .halted)).update rfl)
  | int n => exact enter_effect h
  | int3 => exact enter_effect h
  | iret => exact retire_effect h (returnFromException_effect s)
  | lidt src => exact complete_effect h (lidtBody_effect ..)
  | sidt dst => exact complete_effect h (sidtBody_effect ..)
  | ud2 => exact (enter_effect (s := s.pastDraws) h).of_pastDraws

/-! ### The invariants, operation by operation -/

section Inv

variable {s t : State}

/-- The invariants speak of the guarded fields only. -/
theorem State.Inv.of_guarded (hs : s.Inv) (h : t.guarded = s.guarded) : t.Inv := by
  obtain ⟨hmem, hintc, -, hpmU, hrun, hcpuErr⟩ := State.guarded_eq_iff.mp h
  obtain ⟨memory, supervisor, cpuErr, settled, spurious⟩ := hs
  exact ⟨hmem ▸ memory, hpmU.trans supervisor, by rw [hcpuErr, hrun, cpuErr], hintc ▸ settled, hintc ▸ spurious⟩

/-- A controller that has settled, with a vector that software may select. -/
theorem State.Inv.setIntc {c : IntCtl} (hs : s.Inv) (hc : c.settle = c) (hv : 0x20 ≤ c.lapic.sivr.toNat) :
    (s.setIntc c).Inv :=
  ⟨hs.memory, hs.supervisor, hs.cpuErr, hc, hv⟩

/-- Outside Stopped the core does not assert CPU_ERR. -/
theorem State.Inv.cpuErr_eq_false (hs : s.Inv) (hrun : s.run ≠ .stopped) : s.cpuErr = false :=
  Bool.eq_false_iff.mpr fun h => hrun (hs.cpuErr.mp h)

/-- Outside Stopped, into another state that is not Stopped. -/
theorem State.Inv.setRun {r : RunState} (hs : s.Inv) (hrun : s.run ≠ .stopped) (hr : r ≠ .stopped) :
    (s.setRun r).Inv :=
  ⟨hs.memory, hs.supervisor, by simp [hs.cpuErr_eq_false hrun, hr], hs.settled, hs.spurious⟩

theorem BodyEffect.inv (h : BodyEffect s t) (hs : s.Inv) : t.Inv :=
  ⟨h.keeps.wf hs.memory, h.supervisor hs.supervisor, by rw [h.cpuErr, h.run, hs.cpuErr], h.keeps.settled hs.settled,
    h.keeps.sivr hs.spurious⟩

/-- An entry from a running core ends in the handler, or in Stopped with CPU_ERR asserted (R512). -/
theorem EntryOutcome.inv (h : EntryOutcome s t) (hs : s.Inv) : t.Inv where
  memory := h.keeps.wf hs.memory
  supervisor := h.supervisor
  cpuErr := by
    rcases h.ends with ⟨hrun, hcpuErr⟩ | ⟨hrun, hcpuErr⟩
    · rw [hrun, hcpuErr, hs.cpuErr]
    · simp [hrun, hcpuErr]
  settled := h.keeps.settled hs.settled
  spurious := h.keeps.sivr hs.spurious

theorem ExecEffect.inv (h : ExecEffect s t) (hs : s.Inv) (hrun : s.run ≠ .stopped) : t.Inv := by
  cases h with
  | body h => exact h.inv hs
  | halt h => exact h.inv (hs.setRun hrun (by decide))
  | entry h => exact h.inv (hs.setRun hrun (by decide))

/-- Fetch, decode and execute: an instruction, or the stop or exception of a fetch that gave none. -/
theorem runInstr_inv (hs : s.Inv) (hrun : s.run ≠ .stopped) (h : runInstr s = .next t) : t.Inv := by
  unfold runInstr at h
  split at h
  · exact (retire_effect h .error).inv hs hrun
  · exact (exec_effect h).inv (hs.of_guarded rfl) hrun

theorem takeStepTrap_inv (hs : s.Inv) (hrun : s.run ≠ .stopped) (h : takeStepTrap s = .next t) : t.Inv :=
  (enter_effect h).inv hs hrun

theorem takeInterrupt_inv (hs : s.Inv) (hrun : s.run ≠ .stopped) (h : takeInterrupt s = .next t) : t.Inv := by
  have hack : (s.setIntc s.intc.acknowledge.2).Inv :=
    hs.setIntc (IntCtl.acknowledge_settled _) (by rw [IntCtl.acknowledge_sivr]; exact hs.spurious)
  exact (enter_effect h).inv hack hrun

/-- Everything the core's turn can do when it answers a next state: nothing, or one of the three items of R492. -/
theorem coreStep_cases {b : Bool} (h : coreStep b s = .next t) :
    t = s ∨ s.run ≠ .stopped ∧ (takeStepTrap s = .next t ∨ takeInterrupt s = .next t ∨ runInstr s = .next t) := by
  unfold coreStep at h
  split at h
  · exact absurd h (by simp)
  split at h
  case h_1 => exact .inl (Host.Outcome.next.inj h).symm
  case h_2 hrun =>
    split at h
    · exact .inr ⟨by simp [hrun], .inl h⟩
    split at h
    · exact .inr ⟨by simp [hrun], .inr (.inl h)⟩
    · exact .inl (Host.Outcome.next.inj h).symm
  case h_3 hrun =>
    refine .inr ⟨by simp [hrun], ?_⟩
    split at h
    · exact .inl h
    split at h
    · exact .inr (.inl h)
    · exact .inr (.inr h)

theorem coreStep_inv {b : Bool} (hs : s.Inv) (h : coreStep b s = .next t) : t.Inv := by
  rcases coreStep_cases h with rfl | ⟨hrun, h | h | h⟩
  · exact hs
  · exact takeStepTrap_inv hs hrun h
  · exact takeInterrupt_inv hs hrun h
  · exact runInstr_inv hs hrun h

theorem tickTurn_inv (hs : s.Inv) (h : tickTurn s = .next t) : t.Inv := by
  unfold tickTurn at h
  split at h
  · rename_i c hc
    rw [← Host.Outcome.next.inj h]
    exact hs.setIntc (IntCtl.tick_settled hs.settled hc) (by rw [IntCtl.tick_sivr hc]; exact hs.spurious)
  · exact absurd h (by simp)

theorem ticks_inv : ∀ (n : Nat) {s : State}, s.Inv → ticks n s = .next t → t.Inv
  | 0, _, hs, h => Host.Outcome.next.inj h ▸ hs
  | n + 1, s, hs, h => by
    unfold ticks at h
    split at h
    · rename_i u hu
      exact ticks_inv n (tickTurn_inv hs hu) h
    · exact absurd h (by simp)
    · exact absurd h (by simp)

/-- A reset sets everything that the invariants speak of but memory and the levels of the inputs. -/
theorem resetTurn_inv (hm : s.mem.wf = true) : (resetTurn s).Inv :=
  ⟨hm, rfl, by simp [resetTurn, State.reset], reset_intc_settled s.intc.lines,
    by simp [resetTurn, State.reset, LocalApic.reset]⟩

theorem powerCycleTurn_inv (cells : List Host.Cell) (hm : s.mem.wf = true) : (powerCycleTurn cells s).Inv := by
  obtain ⟨-, supervisor, cpuErr, settled, spurious⟩ := resetTurn_inv hm
  exact ⟨storeCells_wf _ hm, supervisor, cpuErr, settled, spurious⟩

theorem takeTurn_inv {turn : Turn} (hs : s.Inv) (h : takeTurn turn s = .next t) : t.Inv := by
  cases turn with
  | core recognise => exact coreStep_inv hs h
  | tick => exact tickTurn_inv hs h
  | irq n active =>
    rw [← Host.Outcome.next.inj h]
    exact hs.setIntc (IntCtl.drive_settled ..) (by rw [IntCtl.drive_sivr]; exact hs.spurious)
  | reset => exact Host.Outcome.next.inj h ▸ resetTurn_inv hs.memory
  | powerCycle cells => exact Host.Outcome.next.inj h ▸ powerCycleTurn_inv cells hs.memory

theorem freeRun_inv (hs : s.Inv) (h : freeRun s = .next t) : t.Inv := by
  unfold freeRun at h
  split at h
  · rename_i u hu
    exact ticks_inv _ (coreStep_inv hs hu) h
  · exact absurd h (by simp)
  · exact absurd h (by simp)

end Inv

/-- Settles O12: the next agent's turn keeps the invariants, and so does a free run where there is no schedule. -/
theorem stepKeepsInv : Obligations.StepKeepsInv := by
  intro s t hs h
  unfold step at h
  split at h
  · exact freeRun_inv hs h
  · rename_i turn rest _
    exact takeTurn_inv (hs.of_guarded (t := s.setAgenda rest) rfl) h

/-- A reset of the state after reset changes nothing. -/
theorem resetTurn_reset : resetTurn State.reset = State.reset := rfl

/-- Settles O13: it is the state of a reset turn. -/
theorem resetMeetsInv : Obligations.ResetMeetsInv := by
  rw [Obligations.ResetMeetsInv, ← resetTurn_reset]
  exact resetTurn_inv reset_mem_wf

end Sys2Proof.Machine

/-! SUPPORT. Proofs about the values that reset leaves and about the views of a register. -/

namespace Sys2Proof.Machine

/-! ### The values after reset -/

theorem IoApic.reset_entryImage : ∀ n < 16, IoApic.reset.entryImage n = 0x00010000 := by decide

theorem LocalApic.reset_ppr : LocalApic.reset.ppr = 0 := by decide

/-- Every row of R50, whatever the state before. -/
theorem afterReset_resetTurn (s : State) : AfterReset (resetTurn s) where
  regs r := by cases r <;> rfl
  eip := rfl
  eflags := show EFlags.image ⟨false, false, false, false, false, false⟩ = 0x2 by decide
  pm := rfl
  esp0 := rfl
  idtr := ⟨rfl, rfl⟩
  core := ⟨rfl, rfl, rfl⟩
  priority := ⟨rfl, LocalApic.reset_ppr⟩
  requests := ⟨rfl, rfl, rfl⟩
  timer := ⟨rfl, rfl, rfl⟩
  sivr := rfl
  ioregsel := rfl
  redirection := IoApic.reset_entryImage

/-- Settles O16: the state after reset is that of a reset turn, and the turn always completes. -/
theorem resetValues : Obligations.ResetValues :=
  ⟨resetTurn_reset ▸ afterReset_resetTurn State.reset, fun s rest h =>
    ⟨resetTurn (s.setAgenda rest), step_of_agenda_cons h, afterReset_resetTurn _, rfl⟩⟩

/-! ### The bits of a register after a write through a view -/

theorem getLsbD_putLow8 (x : Dword) (v : Byte) {k : Nat} (hk : k < 32) :
    (putLow8 x v).getLsbD k = if k < 8 then v.getLsbD k else x.getLsbD k := by
  rw [putLow8, BitVec.getLsbD_append]
  split
  · rfl
  · rw [BitVec.getLsbD_extractLsb', Nat.add_sub_cancel' (by omega)]
    simp [show k - 8 < 24 by omega]

theorem getLsbD_putHigh8 (x : Dword) (v : Byte) {k : Nat} (hk : k < 32) :
    (putHigh8 x v).getLsbD k = if 8 ≤ k ∧ k < 16 then v.getLsbD (k - 8) else x.getLsbD k := by
  simp only [putHigh8, BitVec.getLsbD_append, BitVec.getLsbD_extractLsb']
  by_cases hlow : k < 8
  · simp [hlow, show ¬ 8 ≤ k by omega]
  · by_cases hhigh : k < 16
    · simp [hlow, hhigh, show 8 ≤ k ∧ k - 8 < 8 by omega]
    · simp [hlow, hhigh, show ¬ k - 8 < 8 by omega, show k - 8 - 8 < 16 by omega, show 16 + (k - 8 - 8) = k by omega]

theorem getLsbD_putLow16 (x : Dword) (v : BitVec 16) {k : Nat} (hk : k < 32) :
    (putLow16 x v).getLsbD k = if k < 16 then v.getLsbD k else x.getLsbD k := by
  rw [putLow16, BitVec.getLsbD_append]
  split
  · rfl
  · rw [BitVec.getLsbD_extractLsb', Nat.add_sub_cancel' (by omega)]
    simp [show k - 16 < 16 by omega]

theorem isHighByte_eq_false_iff (r : Reg) : isHighByte r = false ↔ r = .eax ∨ r = .ecx ∨ r = .edx ∨ r = .ebx := by
  cases r <;> decide

/-- Settles O19: each view is one of the three ways of putting bits into a dword. -/
theorem narrowWritesKeepTheRest : Obligations.NarrowWritesKeepTheRest := by
  intro s r k hk
  refine ⟨fun v => ?byte, fun v => ?word, fun v => ?dword⟩
  case byte =>
    simp only [← isHighByte_eq_false_iff]
    rw [State.setView, hostReg, State.reg_setReg_same]
    cases hr : isHighByte r
    · simp [getLsbD_putLow8 _ _ hk]
    · simp [getLsbD_putHigh8 _ _ hk]
  case word => rw [State.setView, State.reg_setReg_same, getLsbD_putLow16 _ _ hk]
  case dword => rw [State.setView, State.reg_setReg_same]

end Sys2Proof.Machine
/-! SUPPORT. Proofs about the entry through a gate (R500, R501): how a gate is read, what its frame holds, and that the
state it leaves is the one `Entered` describes. -/

namespace Sys2Proof.Machine

/-! ### Reading a gate -/

/-- A gate in readable storage is read as it stands there. -/
theorem readGate_of_gateIs {v : BitVec 8} {g : Gate} {s : State} (h : GateIs v g s) :
    readGate s.idtr v s = .ok (g, s) := by
  obtain ⟨-, hroute0, hroute1, hd0, hd1⟩ := h
  have h0 : readMem .b32 (s.idtr.gateAddress v) s = .ok (g.d0, s) := hd0 ▸ readMem_storage hroute0
  have h1 : readMem .b32 (s.idtr.gateAddress v + 4) s = .ok (g.d1, s) := hd1 ▸ readMem_storage hroute1
  unfold readGate
  rw [h0]
  simp only [bind, Except.bind]
  rw [h1]
  rfl

/-- Whether a gate is of one of the two kinds of R468. -/
theorem Gate.kind_ne_iff (g : Gate) :
    (g.isInterrupt = false ∧ g.isTrap = false) ↔
      ¬ (g.d1.extractLsb' 8 5 = 0b01110 ∨ g.d1.extractLsb' 8 5 = 0b01111) := by
  rw [not_or]
  exact and_congr decide_eq_false_iff_not decide_eq_false_iff_not

theorem Gate.reservedSet_iff (g : Gate) :
    g.reservedSet = true ↔ (g.d0 &&& 0xFFFF0000 ≠ 0 ∨ g.d1 &&& 0x000060FF ≠ 0) := by
  simp only [Gate.reservedSet, Bool.or_eq_true, decide_eq_true_eq]

section Deliver

variable {saved : EFlags} {ev : Event} {g : Gate} {s t : State}

/-- A delivery whose gate is present and of one of the two kinds: a reserved bit stops it, else the gate is entered. -/
theorem deliver_of_gateIs (h : GateIs ev.vector g s) (hpresent : g.d1.getLsbD 15 = true)
    (hkind : g.d1.extractLsb' 8 5 = 0b01110 ∨ g.d1.extractLsb' 8 5 = 0b01111) :
    deliver saved ev s =
      if g.reservedSet then .halts (.refuse .descriptorReservedBits) else enterGate saved ev g (beginEntry s) := by
  have hb : GateIs ev.vector g (beginEntry s) := h
  have hholds : (beginEntry s).idtr.holds ev.vector = true := decide_eq_true hb.1
  have hnotAbsent : ¬ g.present = false := by simp [Gate.present, hpresent]
  unfold deliver
  dsimp only
  rw [if_pos hholds, readGate_of_gateIs hb]
  dsimp only
  rw [if_neg hnotAbsent, if_neg (fun hk => g.kind_ne_iff.mp hk hkind)]

theorem enter_of_deliver_entered (hu : s.pmU = false) (h : deliver s.flags ev (s.setRun .running) = .entered t) :
    enter ev s = .next t := by
  simp only [enter, hu, Bool.false_eq_true, if_false, deliverAll, h]

theorem enter_of_deliver_refuse {r : Refusal} (hu : s.pmU = false)
    (h : deliver s.flags ev (s.setRun .running) = .halts (.refuse r)) : enter ev s = .refused r := by
  simp only [enter, hu, Bool.false_eq_true, if_false, deliverAll, h]

end Deliver

/-! ### The words of a frame -/

/-- The words of a vector's frame, first pushed first (R501). -/
structure FrameOf (p : Config.Platform) (saved : EFlags) (ev : Event) (ws : List Dword) : Prop where
  length : ws.length = frameLength p ev.vector
  eflags : ws[0]? = some saved.image
  pm : ws[1]? = some 0
  eip : ev.vector ≠ 8 ∨ ev.int = true → ws[2]? = some (if ev.int = true ∨ ev.vector = 1 then ev.nextEip else ev.curEip)
  error : ev.vector = 8 ∨ ev.vector = 11 ∨ ev.vector = 13 → ws[3]? = some (errCode p ev.errVector ev.idt ev.ext)
  mc : frameLength p ev.vector = 5 →
    (ev.i = false → ws[3]? = some (mcErrCode p false false ev.w)) ∧
    (ev.i = true → ∃ w, ws[3]? = some (mcErrCode p true false w)) ∧ ws[4]? = some ev.address

theorem frameLength_le (p : Config.Platform) (v : BitVec 8) : frameLength p v ≤ 5 := by
  unfold frameLength
  split
  · omega
  · split <;> omega

theorem printed24_iff (p : Config.Platform) (v : BitVec 8) :
    printed24 p v = true ↔ v = 24 ∧ p.vector24 = .asPrinted := by
  simp only [printed24, Bool.and_eq_true, decide_eq_true_eq]

/-- The frame of every event, one case for each shape of R501. -/
theorem frameWords_frameOf (saved : EFlags) (ev : Event) (s : State) :
    FrameOf s.plat saved ev (frameWords saved ev s).1 := by
  unfold frameWords
  dsimp only
  split
  case isTrue h =>
    obtain ⟨hv, hint⟩ := h
    constructor <;> simp [frameLength, hv, hint]
  case isFalse h8 =>
    split
    case isTrue hv =>
      have hlen : frameLength s.plat ev.vector = 4 := if_pos (by tauto)
      constructor <;> simp [hlen]
    case isFalse hne =>
      have hnoError : ¬ (ev.vector = 8 ∨ ev.vector = 11 ∨ ev.vector = 13) := by tauto
      split
      case isTrue hmc =>
        rw [printed24_iff] at hmc
        have hlen : frameLength s.plat ev.vector = 5 := by rw [frameLength, if_neg hnoError, if_pos hmc]
        split
        case isTrue hi =>
          constructor
          case error => exact fun h => absurd h hnoError
          all_goals simp [hlen, hi]
        case isFalse hi =>
          constructor
          case error => exact fun h => absurd h hnoError
          all_goals simp [hlen, hi]
      case isFalse hplain =>
        rw [printed24_iff] at hplain
        have hlen : frameLength s.plat ev.vector = 3 := by rw [frameLength, if_neg hnoError, if_neg hplain]
        constructor
        case error => exact fun h => absurd h hnoError
        all_goals simp [hlen]

/-! ### Words below a stack pointer -/

/-- The k-th dword below an address; `frameSlot` is the one below ESP. -/
def slotBelow (sp : Dword) (k : Nat) : Dword := sp - BitVec.ofNat 32 (4 * (k + 1))

theorem slotBelow_succ (sp : Dword) (k : Nat) : slotBelow (sp - 4) k = slotBelow sp (k + 1) := by
  unfold slotBelow
  bv_omega

/-- The first dword below an address and one further below do not overlap. -/
theorem slotBelow_disjoint (sp : Dword) {k : Nat} (hk : k < 8) :
    (slotBelow sp 0).toNat + 4 ≤ (slotBelow sp (k + 1)).toNat ∨
      (slotBelow sp (k + 1)).toNat + 4 ≤ (slotBelow sp 0).toNat := by
  simp only [slotBelow]
  bv_omega

/-- The storage `m'` is `m` but for words written one below the other. -/
structure WordsBelow (sp : Dword) (ws : List Dword) (m m' : Memory) : Prop where
  words : ∀ k v, ws[k]? = some v → dwordAt m' (slotBelow sp k) = v
  outside : ∀ x, (∀ k, k < ws.length → x < (slotBelow sp k).toNat ∨ (slotBelow sp k).toNat + 4 ≤ x) →
    readByte m' x = readByte m x

/-- A dword that was stored is the dword there. -/
theorem dwordAt_storeLE {m : Memory} {a : Dword} (v : Dword) (hm : m.wf = true) (ha : a.toNat + 4 ≤ 2 ^ 32) :
    dwordAt (storeLE m a.toNat 4 v.toNat) a = v := by
  rw [dwordAt, loadLE_storeLE 4 a.toNat v.toNat hm ha, Nat.mod_eq_of_lt (show v.toNat < 256 ^ 4 from v.isLt),
    BitVec.ofNat_toNat, BitVec.setWidth_eq]

/-- The dword at an address looks at its four bytes only. -/
theorem dwordAt_congr {m m' : Memory} {a : Dword}
    (h : ∀ x, a.toNat ≤ x → x < a.toNat + 4 → readByte m' x = readByte m x) : dwordAt m' a = dwordAt m a :=
  congrArg (BitVec.ofNat 32) (loadLE_congr 4 a.toNat fun j hj => h _ (by omega) (by omega))

/-- Words pushed to storage are written, one below the other, and nothing else changes. -/
theorem pushWords_storage : ∀ (ws : List Dword) (sp : Dword) (s : State), s.mem.wf = true → ws.length ≤ 8 →
    (∀ k, k < ws.length → route s.plat .write .b32 (slotBelow sp k) = .ok .storage) →
    ∃ m', pushWords sp ws s = (.ok (s.setMem m'), s.setMem m') ∧ WordsBelow sp ws s.mem m'
  | [], sp, s, _, _, _ => ⟨s.mem, rfl, fun _ _ h => by simp at h, fun _ _ => rfl⟩
  | v :: vs, sp, s, hm, hlen, hroute => by
    simp only [List.length_cons] at hlen hroute
    have hend : ∀ k, k < vs.length + 1 → (slotBelow sp k).toNat + 4 ≤ 2 ^ 32 :=
      fun k hk => (route_storage (hroute k hk)).1
    have hwrite : writeMem .b32 (slotBelow sp 0) v s =
        .ok (s.setMem (storeLE s.mem (slotBelow sp 0).toNat 4 v.toNat)) :=
      writeMem_storage v (hroute 0 (by omega))
    obtain ⟨m', hpush, hbelow⟩ := pushWords_storage vs (sp - 4)
      (s.setMem (storeLE s.mem (slotBelow sp 0).toNat 4 v.toNat)) (storeLE_wf 4 v.toNat hm (hend 0 (by omega)))
      (by omega) (fun k hk => slotBelow_succ sp k ▸ hroute (k + 1) (by omega))
    obtain ⟨hwords, houtside⟩ := hbelow
    simp only [slotBelow_succ] at hwords houtside
    refine ⟨m', ?_, ?_, ?_⟩
    · rw [pushWords, show sp - 4 = slotBelow sp 0 from rfl, hwrite]
      exact hpush
    · intro k w hw
      cases k with
      | succ k => exact hwords k w hw
      | zero =>
        obtain rfl : v = w := Option.some.inj hw
        rw [dwordAt_congr fun x h1 h2 => houtside x fun k hk => ?_]
        · exact dwordAt_storeLE v hm (hend 0 (by omega))
        · have := slotBelow_disjoint sp (k := k) (by omega)
          omega
    · intro x hx
      rw [houtside x fun k hk => hx (k + 1) (by simp [hk])]
      exact readByte_storeLE_outside 4 _ _ _ (hx 0 (by simp))

/-! ### The state after an entry -/

/-- The state that entry through a gate leaves: `n` words of frame in the storage `m`, the draws at `d` (R500 lines 39
to 61). -/
def State.entered (s : State) (g : Gate) (n : Nat) (m : Memory) (d : Nat) : State :=
  { s with
    regs := s.regs.set .esp (s.reg .esp - BitVec.ofNat 32 (4 * n)), eip := g.address, mem := m, draws := d,
    flags := { s.flags with intf := s.flags.intf && !g.isInterrupt } }

/-- An interrupt gate clears IF and a trap gate keeps it (R500 line 39). -/
def State.maskedBy (s : State) (g : Gate) : State :=
  s.setFlags { s.flags with intf := s.flags.intf && !g.isInterrupt }

theorem State.maskedBy_eq_ite (s : State) (g : Gate) :
    (if g.isInterrupt then s.setFlags { s.flags with intf := false } else s) = s.maskedBy g := by
  unfold State.maskedBy
  cases g.isInterrupt <;> simp [State.setFlags]

/-- The words of a frame are computed with draws only. -/
theorem frameWords_draws (saved : EFlags) (ev : Event) (s : State) :
    ∃ d, (frameWords saved ev s).2 = s.setDraws d := by
  rcases frameWords_state (saved := saved) (ev := ev) (s := s) rfl with h | h
  · exact ⟨s.draws, h⟩
  · exact ⟨s.draws + 1, h⟩

/-- With storage for the frame a usable gate is entered, and the frame's words are written below ESP. -/
theorem enterGate_of_storage (saved : EFlags) (ev : Event) (g : Gate) (s : State) (hm : s.mem.wf = true)
    (hstack : ∀ k, k < frameLength s.plat ev.vector → route s.plat .write .b32 (frameSlot s k) = .ok .storage) :
    ∃ ws m d, FrameOf s.plat saved ev ws ∧ WordsBelow (s.reg .esp) ws s.mem m ∧
      enterGate saved ev g s = .entered (s.entered g (frameLength s.plat ev.vector) m d) := by
  have hframe := frameWords_frameOf saved ev (s.maskedBy g)
  obtain ⟨d, hd⟩ := frameWords_draws saved ev (s.maskedBy g)
  generalize hfw : frameWords saved ev (s.maskedBy g) = fw at hframe hd
  obtain ⟨ws, u⟩ := fw
  obtain rfl : u = (s.maskedBy g).setDraws d := hd
  have hlen : ws.length = frameLength s.plat ev.vector := hframe.length
  have hle := frameLength_le s.plat ev.vector
  obtain ⟨m, hpush, hbelow⟩ := pushWords_storage ws (s.reg .esp) ((s.maskedBy g).setDraws d) hm (by omega)
    (fun k hk => hstack k (hlen ▸ hk))
  refine ⟨ws, m, d, hframe, hbelow, ?_⟩
  have hesp : ((s.maskedBy g).setDraws d).reg .esp = s.reg .esp := rfl
  simp only [enterGate, State.maskedBy_eq_ite, hfw, hesp, hpush, hlen]
  rfl

/-- An event whose vector has a usable gate and storage for its frame enters the handler (R500). -/
theorem enter_of_opens {ev : Event} {g : Gate} {s : State} (h : Opens ev.vector g s) :
    ∃ t, enter ev s = .next t ∧ Entered ev g s t := by
  obtain ⟨hmem, hu, hgate, hpresent, hkind, hreserved, hstack⟩ := h
  have hres : ¬ g.reservedSet = true := by
    rw [Gate.reservedSet_iff, not_or, not_not, not_not]
    exact hreserved
  obtain ⟨ws, m, d, hframe, hbelow, henter⟩ :=
    enterGate_of_storage s.flags ev g (beginEntry (s.setRun .running)) hmem hstack
  have hdeliver := deliver_of_gateIs (saved := s.flags) (s := s.setRun .running) hgate hpresent hkind
  rw [if_neg hres, henter] at hdeliver
  have hlen := hframe.length
  refine ⟨_, enter_of_deliver_entered hu hdeliver, ?_⟩
  exact {
    eip := rfl
    esp := State.reg_setReg_same ..
    regs := fun q hq => Regs.get_set_ne _ _ hq
    flags := by rw [decide_not]; rfl
    run := ⟨rfl, rfl⟩
    system := ⟨⟨rfl, hu.symm, rfl, rfl, rfl, rfl⟩, rfl⟩
    eflagsWord := hbelow.words 0 _ hframe.eflags
    pmWord := hbelow.words 1 _ hframe.pm
    eipWord := fun h => hbelow.words 2 _ (hframe.eip h)
    errorWord := fun h => hbelow.words 3 _ (hframe.error h)
    mcWord := fun h => by
      obtain ⟨hdata, hfetch, haddress⟩ := hframe.mc h
      exact ⟨fun hi => hbelow.words 3 _ (hdata hi), fun hi => (hfetch hi).imp fun w hw => hbelow.words 3 _ hw,
        hbelow.words 4 _ haddress⟩
    memory := fun x hx => hbelow.outside x fun k hk => hx k (hlen ▸ hk) }

/-! ### What an entry owes to the state before it -/

/-- What a state has drawn is no input of a delivery. -/
theorem Opens.pastDraws {v : BitVec 8} {g : Gate} {s : State} (h : Opens v g s) : Opens v g s.pastDraws :=
  ⟨h.memory, h.supervisor, h.gate, h.present, h.kind, h.reserved, h.stack⟩

theorem Entered.of_pastDraws {ev : Event} {g : Gate} {s t : State} (h : Entered ev g s.pastDraws t) :
    Entered ev g s t :=
  ⟨h.eip, h.esp, h.regs, h.flags, h.run, h.system, h.eflagsWord, h.pmWord, h.eipWord, h.errorWord, h.mcWord, h.memory⟩

/-- An exception that an instruction raises enters its handler, with the frame of before the instruction (R13). -/
theorem retire_raise_of_opens {g : Gate} {s : State} (x : Exn) (h : Opens (x.event s.eip).vector g s) :
    ∃ t, retire s (.error (.raise x)) = .next t ∧ Entered (x.event s.eip) g s t :=
  (enter_of_opens h.pastDraws).imp fun _ ⟨hnext, hentered⟩ => ⟨hnext, hentered.of_pastDraws⟩

/-! ### Reserved flags -/

theorem setsReserved_iff (v : Dword) : setsReserved v = true ↔ v &&& 0xFFFFF43C ≠ 0 := decide_eq_true_iff

/-- The image is checked as soon as it is read (R373, D13). -/
theorem popfdBody_of_reserved {s t : State} {v : Dword} (h : readMem .b32 (s.reg .esp) s = .ok (v, t))
    (hv : v &&& 0xFFFFF43C ≠ 0) : popfdBody s = .error (.raise .generalProtection) := by
  unfold popfdBody
  rw [h]
  exact if_pos ((setsReserved_iff v).mpr hv)

theorem popFrame_of_reads {s s1 s2 s3 : State} {e pm fl : Dword} (h1 : readMem .b32 (s.reg .esp) s = .ok (e, s1))
    (h2 : readMem .b32 (s.reg .esp + 4) s1 = .ok (pm, s2)) (h3 : readMem .b32 (s.reg .esp + 8) s2 = .ok (fl, s3)) :
    popFrame s = .ok ((e, pm, fl), s3) := by
  simp only [popFrame, bind, Except.bind, h1, h2, h3]
  rfl

/-- The flags are checked before the PM image (R436). -/
theorem returnFromException_of_reserved {s t : State} {e pm fl : Dword} (h : popFrame s = .ok ((e, pm, fl), t))
    (hfl : fl &&& 0xFFFFF43C ≠ 0) : returnFromException s = .error (.raise .generalProtection) := by
  unfold returnFromException
  rw [h]
  exact if_pos ((setsReserved_iff fl).mpr hfl)

/-- Settles O25: both bodies raise #GP as soon as they have read the image, and the gate of vector 13 is entered. -/
theorem reservedFlagsTakeGp : Obligations.ReservedFlagsTakeGp := by
  intro s g hopens
  have hgp := retire_raise_of_opens (s := s) .generalProtection hopens
  constructor
  · intro s1 v hread hv
    have hexec : exec .popfd s = retire s (.error (.raise .generalProtection)) :=
      congrArg (complete s) (popfdBody_of_reserved hread hv)
    rw [hexec]
    exact hgp
  · intro s1 s2 s3 e pm fl h1 h2 h3 hfl
    have hexec : exec .iret s = retire s (.error (.raise .generalProtection)) :=
      congrArg (retire s) (returnFromException_of_reserved (popFrame_of_reads h1 h2 h3) hfl)
    rw [hexec]
    exact hgp

end Sys2Proof.Machine
/-! SUPPORT. Proofs about the stops that the spec asks a model for: where a route ends, which 66h and F0h forms the
decoder refuses, and what the step answers then. -/

namespace Sys2Proof.Machine

/-! ### Where a route ends -/

section Route

variable {kind : Config.AccessKind} {w : Width} {a : Dword} {s : State}

/-- An access touches a region if and only if some byte of its span lies there. -/
theorem any_span_iff_touches (region : Nat → Bool) (w : Width) (a : Dword) :
    (span a.toNat w.bytes).any region = true ↔ touches region w a := by
  simp only [List.any_eq_true, mem_span, touches]
  constructor
  · rintro ⟨x, ⟨hlo, hhi⟩, hx⟩
    exact ⟨x - a.toNat, by omega, by rwa [Nat.add_sub_cancel' hlo]⟩
  · rintro ⟨k, hk, hx⟩
    exact ⟨a.toNat + k, ⟨by omega, by omega⟩, hx⟩

/-- The APICs are the local APIC and the IOAPIC. -/
theorem touches_isApic_iff {p : Config.Platform} :
    touches (isApic p) w a ↔ touches isLapic w a ∨ touches (isIoapic p) w a := by
  simp only [touches, isApic, Bool.or_eq_true, and_or_left, exists_or]

theorem noBusErr_any_eq_false (h : noBusErr kind w a s) :
    (span a.toNat w.bytes).any (fun x => decide (x < 2 ^ 32) && busErr s.plat kind x) = false := by
  simp only [List.any_eq_false, mem_span, Bool.and_eq_true, decide_eq_true_eq, not_and]
  intro x ⟨hlo, hhi⟩ hx
  simp [h x hlo hhi hx]

theorem inOneHalf.not_beyond (h : inOneHalf w a) : ¬ 2 ^ 32 < a.toNat + w.bytes := by
  obtain ⟨hend, -⟩ := h
  omega

theorem inOneHalf.not_straddle (h : inOneHalf w a) : ¬ (a.toNat < 2 ^ 31 ∧ 2 ^ 31 < a.toNat + w.bytes) := by
  obtain ⟨-, hhalf⟩ := h
  omega

theorem not_aligned_dword (h : w ≠ .b32 ∨ a.toNat % 4 ≠ 0) : ¬ (w = .b32 ∧ a.toNat % 4 = 0) :=
  not_and_or.mpr h

theorem route_beyond (hb : noBusErr kind w a s) (h : 2 ^ 32 < a.toNat + w.bytes) :
    route s.plat kind w a = .error (.fault .beyondAddressSpace) := by
  unfold route
  dsimp only
  rw [noBusErr_any_eq_false hb, if_neg Bool.false_ne_true, if_pos h]

theorem route_straddle (hb : noBusErr kind w a s) (hlo : a.toNat < 2 ^ 31) (hhi : 2 ^ 31 < a.toNat + w.bytes) :
    route s.plat kind w a = .error (.refuse .orderingStraddle) := by
  have hbytes : w.bytes ≤ 4 := by cases w <;> decide
  have hend : ¬ 2 ^ 32 < a.toNat + w.bytes := by omega
  unfold route
  dsimp only
  rw [noBusErr_any_eq_false hb, if_neg Bool.false_ne_true, if_neg hend, if_pos ⟨hlo, hhi⟩]

theorem route_apicWidth (hb : noBusErr kind w a s) (hh : inOneHalf w a) (ht : touches (isApic s.plat) w a)
    (hw : w ≠ .b32 ∨ a.toNat % 4 ≠ 0) : route s.plat kind w a = .error (.refuse .apicAccessWidth) := by
  unfold route
  dsimp only
  rw [noBusErr_any_eq_false hb, if_neg Bool.false_ne_true, if_neg hh.not_beyond, if_neg hh.not_straddle,
    if_neg (not_aligned_dword hw), if_neg (not_aligned_dword hw)]
  by_cases hl : touches isLapic w a
  · rw [if_pos ((any_span_iff_touches ..).mpr hl)]
  · have hi : touches (isIoapic s.plat) w a := (touches_isApic_iff.mp ht).resolve_left hl
    rw [if_neg (mt (any_span_iff_touches ..).mp hl), if_pos ((any_span_iff_touches ..).mpr hi)]

theorem route_platformDevice (hb : noBusErr kind w a s) (hh : inOneHalf w a) (hapic : ¬ touches (isApic s.plat) w a)
    (ht : touches (isExternal s.plat) w a) (hw : w ≠ .b32 ∨ a.toNat % 4 ≠ 0) :
    route s.plat kind w a = .error (.refuse .platformDevice) := by
  obtain ⟨hl, hi⟩ := not_or.mp (mt touches_isApic_iff.mpr hapic)
  unfold route
  dsimp only
  rw [noBusErr_any_eq_false hb, if_neg Bool.false_ne_true, if_neg hh.not_beyond, if_neg hh.not_straddle,
    if_neg (mt (any_span_iff_touches ..).mp hl), if_neg (mt (any_span_iff_touches ..).mp hi),
    if_pos ((any_span_iff_touches ..).mpr ht), if_neg fun h => not_aligned_dword hw ⟨h.1, h.2.1⟩]

theorem route_codeStore (hb : noBusErr .write w a s) (hh : inOneHalf w a) (hapic : ¬ touches (isApic s.plat) w a)
    (hext : ¬ touches (isExternal s.plat) w a) (ht : touches (isCode s.plat) w a)
    (hpolicy : s.plat.codeStore = .refuse) : route s.plat .write w a = .error (.refuse .codeStore) := by
  obtain ⟨hl, hi⟩ := not_or.mp (mt touches_isApic_iff.mpr hapic)
  unfold route
  dsimp only
  rw [noBusErr_any_eq_false hb, if_neg Bool.false_ne_true, if_neg hh.not_beyond, if_neg hh.not_straddle,
    if_neg (mt (any_span_iff_touches ..).mp hl), if_neg (mt (any_span_iff_touches ..).mp hi),
    if_neg (mt (any_span_iff_touches ..).mp hext), if_pos ⟨rfl, (any_span_iff_touches ..).mpr ht⟩, hpolicy]

/-- An aligned dword of the local APIC reaches the register at its offset. -/
theorem route_lapic (hb : noBusErr kind .b32 a s) (hh : inOneHalf .b32 a) (ht : touches isLapic .b32 a)
    (ha : a.toNat % 4 = 0) : route s.plat kind .b32 a = .ok (.lapic (a.toNat - Config.lapicRange.base)) := by
  unfold route
  dsimp only
  rw [noBusErr_any_eq_false hb, if_neg Bool.false_ne_true, if_neg hh.not_beyond, if_neg hh.not_straddle,
    if_pos ((any_span_iff_touches ..).mpr ht), if_pos ⟨rfl, ha⟩]

end Route

/-- A spurious vector below 20h is refused (R535, D35). -/
theorem IntCtl.writeLapic_sivr_refuse (c : IntCtl) {v : Dword} (h : (v.setWidth 8).toNat < 0x20) :
    c.writeLapic 0xF0 v = .error .spuriousVectorBelow32 := by
  have hreg : c.lapic.writeReg 0xF0 v = .error .spuriousVectorBelow32 := if_pos h
  unfold IntCtl.writeLapic
  rw [hreg]

/-! ### MOV between a register and memory -/

section Mov

variable {store : Bool} {w : Width} {r : Reg} {m : MemRef} {s : State}

/-- A MOV whose access has no route ends as the access does. -/
theorem exec_movAccess_of_route_error {e : Stop} (h : route s.plat (movKind store) w (effAddr m s) = .error e) :
    exec (movAccess store w r m) s = retire s (.error e) := by
  cases store with
  | false =>
    have hread : readMem w (effAddr m s) s = .error e := by
      unfold readMem
      rw [show route s.plat .read w (effAddr m s) = .error e from h]
    have hbody : movBody (.rRm w r (.mem m)) s = .error e := by
      simp only [movBody, place, readPlace, hread, bind, Except.bind]
    exact congrArg (complete s) hbody
  | true =>
    have hwrite : movBody (.rmR w (.mem m) r) s = .error e := by
      simp only [movBody, place, writePlace]
      unfold writeMem
      rw [show route s.plat .write w (effAddr m s) = .error e from h]
    exact congrArg (complete s) hwrite

/-- A MOV to SIVR of a value whose low byte is below 20h ends in that refusal. -/
theorem exec_mov_sivr (hb : noBusErr .write .b32 (effAddr m s) s) (ha : effAddr m s = 0xFEE000F0)
    (hv : (s.reg r).toNat % 256 < 0x20) : exec (movAccess true .b32 r m) s = .refused .spuriousVectorBelow32 := by
  have hroute : route s.plat .write .b32 (effAddr m s) = .ok (.lapic 0xF0) := by
    have h := route_lapic hb (by rw [ha]; unfold inOneHalf; decide)
      ⟨0, by decide, by rw [ha]; decide⟩ (by rw [ha]; decide)
    rwa [ha] at h ⊢
  have hsmall : ((s.reg r).setWidth 8).toNat < 0x20 := by rwa [BitVec.toNat_setWidth]
  have hlapic : s.intc.writeLapic 0xF0 ((s.view .b32 r).setWidth 32) = .error .spuriousVectorBelow32 := by
    rw [BitVec.setWidth_eq]
    exact IntCtl.writeLapic_sivr_refuse s.intc hsmall
  have hwrite : movBody (.rmR .b32 (.mem m) r) s = .error (.refuse .spuriousVectorBelow32) := by
    simp only [movBody, place, writePlace]
    unfold writeMem
    rw [hroute]
    dsimp only
    rw [hlapic]
  exact congrArg (complete s) hwrite

end Mov

/-! ### Decoding -/

/-- Bytes that are no instruction end the step as `decodeStop` says. -/
theorem runInstr_of_decode_error {s : State} {e : DecodeError} (h : decode (policy s) (instrBytes s) = .error e) :
    runInstr s = retire s (.error (decodeStop s e)) := by
  have hfetch : fetch s = .error (decodeStop s e) := by
    unfold fetch
    rw [h]
  unfold runInstr
  rw [hfetch]

/-- An F0h byte before an opcode is refused (R133, D6). -/
theorem decode_lock {pol : DecodePolicy} {o : Byte} (bs : List Byte) (hpol : pol.lock = .refuse) (h66 : o ≠ 0x66)
    (hF0 : o ≠ 0xF0) : decode pol (0xF0 :: o :: bs) = .error .lockRefused := by
  have hmarks : takePrefixes false false (0xF0 :: o :: bs) = .ok ((false, true, o), bs) :=
    calc takePrefixes false false (0xF0 :: o :: bs) = takePrefixes false true (o :: bs) := rfl
      _ = .ok ((false, true, o), bs) := by rw [takePrefixes, if_neg h66, if_neg hF0]
  simp only [decode, decodeInstr, hmarks, lockCheck, hpol, bind, Except.bind, if_true]

/-- A 66h byte before an opcode hands the opcode on with its mark. -/
theorem decode_of_opcode66_error {pol : DecodePolicy} {o : Byte} {bs : List Byte} {e : DecodeError} (h66 : o ≠ 0x66)
    (hF0 : o ≠ 0xF0) (h : decodeOpcode pol true o bs = .error e) : decode pol (0x66 :: o :: bs) = .error e := by
  have hmarks : takePrefixes false false (0x66 :: o :: bs) = .ok ((true, false, o), bs) :=
    calc takePrefixes false false (0x66 :: o :: bs) = takePrefixes true false (o :: bs) := rfl
      _ = .ok ((true, false, o), bs) := by rw [takePrefixes, if_neg h66, if_neg hF0]
  simp only [decode, decodeInstr, hmarks, lockCheck, bind, Except.bind, Bool.false_eq_true, if_false, h]

section No66

variable {pol : DecodePolicy} {m : Byte} (bs : List Byte)

theorem unlisted66_refuse (hpol : pol.p66 = .refuse) : unlisted66 pol true = .error .prefix66Refused := by
  simp only [unlisted66, hpol, if_true]

/-- The byte form of group 1 (R154). -/
theorem decodeGroup1_no66 (hpol : pol.p66 = .refuse) :
    decodeGroup1 pol true 0x80 (m :: bs) = .error .prefix66Refused := by
  simp only [decodeGroup1, takeByte_cons, bind, Except.bind, if_true, unlisted66_refuse hpol]

/-- The byte forms of group 2 list no 66h variant; digit 6 is no member (R154). -/
theorem decodeGroup2_no66 (hpol : pol.p66 = .refuse) {op : Nat} (hop : op % 2 = 0) (hm : digitOf m ≠ 6) :
    decodeGroup2 pol true op (m :: bs) = .error .prefix66Refused := by
  have hdigit : ¬ (midField m).toNat = 6 := fun h => hm (BitVec.eq_of_toNat_eq h)
  simp only [decodeGroup2, takeByte_cons, bind, Except.bind, hdigit, if_false, hop, if_true, unlisted66_refuse hpol]

/-- The byte form of group 3; digit 1 is no member (R154). -/
theorem decodeGroup3_no66 (hpol : pol.p66 = .refuse) (hm : digitOf m ≠ 1) :
    decodeGroup3 pol true true (m :: bs) = .error .prefix66Refused := by
  have hdigit : ¬ (midField m).toNat = 1 := fun h => hm (BitVec.eq_of_toNat_eq h)
  simp only [decodeGroup3, takeByte_cons, bind, Except.bind, hdigit, if_false, if_true, unlisted66_refuse hpol]

/-- Both members of group 4 (R154). -/
theorem decodeGroup4_no66 (hpol : pol.p66 = .refuse) (hm : digitOf m = 0 ∨ digitOf m = 1) :
    decodeGroup4 pol true (m :: bs) = .error .prefix66Refused := by
  rcases hm with hm | hm
  all_goals
    have hdigit : midField m = _ := hm
    simp [decodeGroup4, bind, Except.bind, hdigit, unlisted66_refuse hpol]

/-- The members 2 and 4 of group 5 (R154). -/
theorem decodeGroup5_no66 (hpol : pol.p66 = .refuse) (hm : digitOf m = 2 ∨ digitOf m = 4) :
    decodeGroup5 pol true (m :: bs) = .error .prefix66Refused := by
  rcases hm with hm | hm
  all_goals
    have hdigit : midField m = _ := hm
    simp [decodeGroup5, bind, Except.bind, hdigit, unlisted66_refuse hpol]

/-- The byte form of MOV r/m, imm (R154). -/
theorem decodeC6_no66 (hpol : pol.p66 = .refuse) (hm : digitOf m = 0) :
    decodeCxFx pol true 0xC6 (m :: bs) = .error .prefix66Refused := by
  have hdigit : midField m = 0 := hm
  simp [decodeCxFx, bind, Except.bind, hdigit, unlisted66_refuse hpol]

end No66

/-- The opcodes that list no 66h variant, one after the other: each meets the policy once its ModR/M byte, if it has one,
is read. -/
theorem decode_no66Opcodes (lock : Config.PrefixPolicy) (b : Byte) (bs : List Byte) :
    ∀ op ∈ no66Opcodes, decode ⟨lock, .refuse⟩ (0x66 :: (op ++ b :: bs)) = .error .prefix66Refused := by
  simp only [no66Opcodes, List.map, List.forall_mem_append, List.forall_mem_cons, List.not_mem_nil, false_implies,
    implies_true, and_true]
  and_intros <;> rfl

/-- The group members that list no 66h variant. -/
theorem decode_no66Digits {pol : DecodePolicy} (hpol : pol.p66 = .refuse) {o m : Byte} {digits : List (BitVec 3)}
    (bs : List Byte) (ho : (o, digits) ∈ no66Digits) (hm : digitOf m ∈ digits) :
    decode pol (0x66 :: o :: m :: bs) = .error .prefix66Refused := by
  simp only [no66Digits, List.mem_cons, Prod.mk.injEq, List.not_mem_nil, or_false] at ho
  rcases ho with ⟨rfl, rfl⟩ | ⟨rfl, rfl⟩ | ⟨rfl, rfl⟩ | ⟨rfl, rfl⟩ | ⟨rfl, rfl⟩ | ⟨rfl, rfl⟩ | ⟨rfl, rfl⟩ | ⟨rfl, rfl⟩
  all_goals refine decode_of_opcode66_error (by decide) (by decide) ?_
  · exact decodeGroup1_no66 bs hpol
  · exact decodeGroup2_no66 bs hpol rfl (ne_of_mem_of_not_mem hm (by decide))
  · exact decodeGroup2_no66 bs hpol rfl (ne_of_mem_of_not_mem hm (by decide))
  · exact decodeGroup2_no66 bs hpol rfl (ne_of_mem_of_not_mem hm (by decide))
  · exact decodeC6_no66 bs hpol (List.mem_singleton.mp hm)
  · exact decodeGroup3_no66 bs hpol (ne_of_mem_of_not_mem hm (by decide))
  · exact decodeGroup4_no66 bs hpol (List.mem_pair.mp hm)
  · exact decodeGroup5_no66 bs hpol (List.mem_pair.mp hm)

/-! ### The other stops -/

/-- A PM image that is not 0 is refused, once the flags have passed their check (R436, D32). -/
theorem returnFromException_userImage {s t : State} {e pm fl : Dword} (h : popFrame s = .ok ((e, pm, fl), t))
    (hfl : fl &&& 0xFFFFF43C = 0) (hpm : pm ≠ 0) : returnFromException s = .error (.refuse .iretUserImage) := by
  have hpass : ¬ setsReserved fl = true := by rw [setsReserved_iff, not_not, hfl]
  unfold returnFromException
  rw [h]
  exact (if_neg hpass).trans (if_pos hpm)

/-- POP to memory addressed through ESP has no destination under `refuse` (R371, D22). -/
theorem popDest_esp {w : Width} {m : MemRef} {s : State} (hbase : m.base = some .esp)
    (hpolicy : s.plat.popEspBase = .refuse) : popDest w (.mem m) s = .error (.refuse .popMemoryEsp) := by
  simp only [popDest, hbase, if_true, hpolicy]

/-- Bytes that run out at the end of the address space are a fetch past it (R38). -/
theorem decodeStop_truncated_end {s : State} (h : s.eip.toNat + (instrBytes s).length = 2 ^ 32) :
    decodeStop s .truncated = .fault .beyondAddressSpace := by
  simp only [decodeStop, h, lt_irrefl, if_false]

/-- A present gate with a reserved bit set is refused (R468, D28). -/
theorem enter_of_reserved {ev : Event} {g : Gate} {s : State} (hu : s.pmU = false) (hgate : GateIs ev.vector g s)
    (hpresent : g.d1.getLsbD 15 = true) (hkind : g.d1.extractLsb' 8 5 = 0b01110 ∨ g.d1.extractLsb' 8 5 = 0b01111)
    (hreserved : g.d0 &&& 0xFFFF0000 ≠ 0 ∨ g.d1 &&& 0x000060FF ≠ 0) :
    enter ev s = .refused .descriptorReservedBits := by
  have hdeliver := deliver_of_gateIs (saved := s.flags) (s := s.setRun .running) hgate hpresent hkind
  rw [if_pos (g.reservedSet_iff.mpr hreserved)] at hdeliver
  exact enter_of_deliver_refuse hu hdeliver

/-- An unmasked expiry with a vector above 47 is refused (R548, D35). -/
theorem IntCtl.tick_vectorAbove47 {c : IntCtl} (hccr : c.lapic.ccr = 1) (hmask : c.lapic.lvt.masked = false)
    (hvector : 16 ≤ c.lapic.lvt.vector.toNat) : c.tick = .error .timerVectorAbove47 := by
  have hbit : c.lapic.lvt.vector.getLsbD 4 = true := by
    revert hvector
    generalize c.lapic.lvt.vector = v
    revert v
    decide
  simp [IntCtl.tick, hccr, hmask, hbit]

theorem tickTurn_of_tick_error {s : State} {r : Refusal} (h : s.intc.tick = .error r) : tickTurn s = .refused r := by
  unfold tickTurn
  rw [h]

/-- Settles O9, clause by clause: where the operation concerned ends, and that the step ends with it. -/
theorem doubtfulCasesStopByName : Obligations.DoubtfulCasesStopByName := by
  refine ⟨?userMode, ?access, ?sivr, ?iret, ?pop, ?lock, ?no66, ?fetch, ?gate, ?timer⟩
  case userMode => exact fun b s hu => if_pos hu
  case access =>
    intro store w r m s hb
    refine ⟨fun h => ?_, fun hlo hhi => ?_, fun hh => ⟨fun ht hw => ?_, fun hapic => ⟨fun ht hw => ?_, ?_⟩⟩⟩
    · exact exec_movAccess_of_route_error (route_beyond hb h)
    · exact exec_movAccess_of_route_error (route_straddle hb hlo hhi)
    · exact exec_movAccess_of_route_error (route_apicWidth hb hh ht hw)
    · exact exec_movAccess_of_route_error (route_platformDevice hb hh hapic ht hw)
    · rintro hext rfl ht hpolicy
      exact exec_movAccess_of_route_error (store := true) (route_codeStore hb hh hapic hext ht hpolicy)
  case sivr => exact fun r m s hb ha hv => exec_mov_sivr hb ha hv
  case iret =>
    intro s s1 s2 s3 e pm fl h1 h2 h3 hfl hpm
    exact congrArg (retire s) (returnFromException_userImage (popFrame_of_reads h1 h2 h3) hfl hpm)
  case pop =>
    intro w m s hbase hpolicy
    have hbody : popBody (.rm w (.mem m)) s = .error (.refuse .popMemoryEsp) := by
      simp only [popBody, popDest_esp hbase hpolicy, bind, Except.bind]
    exact congrArg (complete s) hbody
  case lock =>
    intro s b bs hpolicy hbytes hF0 h66
    have hdecode : decode (policy s) (instrBytes s) = .error .lockRefused := hbytes ▸ decode_lock bs hpolicy h66 hF0
    exact runInstr_of_decode_error hdecode
  case no66 =>
    intro s op b bs hpolicy hbytes hop
    have hdecode : decode (policy s) (instrBytes s) = .error .prefix66Refused := by
      rw [hbytes]
      rcases hop with hop | ⟨o, digits, ho, rfl, hm⟩
      · rw [policy, hpolicy]
        exact decode_no66Opcodes _ b bs op hop
      · exact decode_no66Digits hpolicy bs ho hm
    exact runInstr_of_decode_error hdecode
  case fetch =>
    intro s hdecode hend
    rw [runInstr_of_decode_error hdecode, decodeStop_truncated_end hend]
    rfl
  case gate => exact fun ev g s hu hgate hpresent hkind hreserved => enter_of_reserved hu hgate hpresent hkind hreserved
  case timer => exact fun s hccr hmask hvector => tickTurn_of_tick_error (IntCtl.tick_vectorAbove47 hccr hmask hvector)

end Sys2Proof.Machine

/-! SUPPORT. What a step keeps of the storage, of the interrupt controller and of the platform, whatever agent moves. -/

namespace Sys2Proof.Machine

section StepKeeps

variable {s t : State}

/-- A new controller keeps the storage; it has to be settled and to keep a spurious vector that software may select. -/
theorem Keeps.setIntc {c : IntCtl} (hsettled : s.intc.settle = s.intc → c.settle = c)
    (hsivr : c.lapic.sivr = s.intc.lapic.sivr) : Keeps s (s.setIntc c) :=
  ⟨rfl, id, fun _ _ => rfl, hsettled, fun h => (congrArg BitVec.toNat hsivr).symm ▸ h⟩

/-- However an instruction ends, by completing, by halting or in a handler. -/
theorem ExecEffect.keeps (h : ExecEffect s t) : Keeps s t := by
  cases h with
  | body h => exact h.keeps
  | halt h => exact (Keeps.of_eq (s := s) (t := s.setRun .halted) rfl rfl rfl).trans h.keeps
  | entry h => exact (Keeps.of_eq (s := s) (t := s.setRun .running) rfl rfl rfl).trans h.keeps

theorem runInstr_keeps (h : runInstr s = .next t) : Keeps s t := by
  unfold runInstr at h
  split at h
  case h_1 => exact (retire_effect h .error).keeps
  case h_2 i n _ =>
    have hnext : Keeps s (s.setNextEip (s.eip + BitVec.ofNat 32 n)) := .of_eq rfl rfl rfl
    exact hnext.trans (exec_effect h).keeps

theorem takeInterrupt_keeps (h : takeInterrupt s = .next t) : Keeps s t :=
  have hack : Keeps s (s.setIntc s.intc.acknowledge.2) :=
    .setIntc (fun _ => IntCtl.acknowledge_settled _) (IntCtl.acknowledge_sivr _)
  hack.trans (enter_effect h).keeps

theorem coreStep_keeps {b : Bool} (h : coreStep b s = .next t) : Keeps s t := by
  rcases coreStep_cases h with rfl | ⟨-, htrap | hinterrupt | hinstr⟩
  · exact Keeps.refl _
  · exact (enter_effect htrap).keeps
  · exact takeInterrupt_keeps hinterrupt
  · exact runInstr_keeps hinstr

theorem tickTurn_keeps (h : tickTurn s = .next t) : Keeps s t := by
  unfold tickTurn at h
  split at h
  case h_1 c hc =>
    rw [← Host.Outcome.next.inj h]
    exact .setIntc (fun hs => IntCtl.tick_settled hs hc) (IntCtl.tick_sivr hc)
  case h_2 => exact absurd h (by simp)

theorem ticks_keeps : ∀ (n : Nat) {s : State}, ticks n s = .next t → Keeps s t
  | 0, _, h => Host.Outcome.next.inj h ▸ Keeps.refl _
  | n + 1, s, h => by
    unfold ticks at h
    split at h
    case h_1 u hu => exact (tickTurn_keeps hu).trans (ticks_keeps n h)
    case h_2 | h_3 => exact absurd h (by simp)

theorem resetTurn_keeps (s : State) : Keeps s (resetTurn s) :=
  ⟨rfl, id, fun _ _ => rfl, fun _ => reset_intc_settled s.intc.lines, fun _ => show 0x20 ≤ (0xFF : BitVec 8).toNat by decide⟩

/-- A power cycle writes no cell that names a byte of code (log entry 33). -/
theorem ramCells_not_code {p : Config.Platform} {cells : List Host.Cell} {c : Host.Cell} (h : c ∈ ramCells p cells) :
    isCode p c.1 = false := by
  have hram := (List.mem_filter.mp h).2
  rw [Bool.and_eq_true, Bool.not_eq_true'] at hram
  exact hram.2

theorem powerCycleTurn_keeps (cells : List Host.Cell) (s : State) : Keeps s (powerCycleTurn cells s) := by
  obtain ⟨plat, -, -, settled, sivr⟩ := resetTurn_keeps s
  refine ⟨plat, fun hm => storeCells_wf _ hm, fun x hx => ?_, settled, sivr⟩
  have hne : ∀ c ∈ ramCells s.plat cells, c.1 ≠ x := by
    rintro c hc rfl
    exact absurd hx (by simp [ramCells_not_code hc])
  exact readByte_storeCells_ne _ _ hne

theorem takeTurn_keeps {turn : Turn} (h : takeTurn turn s = .next t) : Keeps s t := by
  cases turn with
  | core recognise => exact coreStep_keeps h
  | tick => exact tickTurn_keeps h
  | irq n active =>
    rw [← Host.Outcome.next.inj h]
    exact .setIntc (fun _ => IntCtl.drive_settled ..) (IntCtl.drive_sivr ..)
  | reset => exact Host.Outcome.next.inj h ▸ resetTurn_keeps s
  | powerCycle cells => exact Host.Outcome.next.inj h ▸ powerCycleTurn_keeps cells s

theorem freeRun_keeps (h : freeRun s = .next t) : Keeps s t := by
  unfold freeRun at h
  split at h
  case h_1 u hu => exact (coreStep_keeps hu).trans (ticks_keeps _ h)
  case h_2 | h_3 => exact absurd h (by simp)

/-- The step lemma: a turn of the schedule, or a free run where there is none. -/
theorem step_keeps (h : step s = .next t) : Keeps s t := by
  unfold step at h
  split at h
  case h_1 => exact freeRun_keeps h
  case h_2 turn rest _ => exact (Keeps.of_eq (s := s) (t := s.setAgenda rest) rfl rfl rfl).trans (takeTurn_keeps h)

end StepKeeps

/-- Settles O14: the code's bytes are among what every turn of every agent keeps. -/
theorem codeBytesNeverChange : Obligations.CodeBytesNeverChange := fun _ _ h => (step_keeps h).code

end Sys2Proof.Machine

/-! SUPPORT. Proofs about MOV and memory: where an access goes, how a load and a store of a register complete, what a stored
item's bytes are, and the #MC of a bus error. -/

namespace Sys2Proof.Machine

/-! ### Where an access goes -/

section Route

variable {kind : Config.AccessKind} {w : Width} {a : Dword} {s : State}

/-- A bus error on any byte comes before everything else and names the operand's first address (R482, D30). -/
theorem route_busErr {k : Nat} (hk : k < w.bytes) (hend : a.toNat + k < 2 ^ 32)
    (h : busErr s.plat kind (a.toNat + k) = true) :
    route s.plat kind w a = .error (.raise (.machineCheck a false (decide (kind = .write)))) := by
  have hany : (span a.toNat w.bytes).any (fun x => decide (x < 2 ^ 32) && busErr s.plat kind x) = true :=
    List.any_eq_true.mpr ⟨a.toNat + k, mem_span.mpr ⟨by omega, by omega⟩, by simp only [hend, h, decide_true, Bool.and_true]⟩
  unfold route
  dsimp only
  rw [if_pos hany]

/-- An access that meets no bus error, lies in one half and touches neither an APIC nor a device nor, as a store, code. -/
theorem route_eq_storage (hb : noBusErr kind w a s) (hh : inOneHalf w a) (hapic : ¬ touches (isApic s.plat) w a)
    (hext : ¬ touches (isExternal s.plat) w a) (hcode : kind = .write → ¬ touches (isCode s.plat) w a) :
    route s.plat kind w a = .ok .storage := by
  obtain ⟨hl, hi⟩ := not_or.mp (mt touches_isApic_iff.mpr hapic)
  unfold route
  dsimp only
  rw [noBusErr_any_eq_false hb, if_neg Bool.false_ne_true, if_neg hh.not_beyond, if_neg hh.not_straddle,
    if_neg (mt (any_span_iff_touches ..).mp hl), if_neg (mt (any_span_iff_touches ..).mp hi),
    if_neg (mt (any_span_iff_touches ..).mp hext), if_neg fun h => hcode h.1 ((any_span_iff_touches ..).mp h.2)]

/-- Below 80000000h there is no APIC (R92). -/
theorem isApic_eq_false_of_lt (p : Config.Platform) {x : Nat} (h : x < 2 ^ 31) : isApic p x = false := by
  have hl : ¬ 0xFEE00000 ≤ x := by omega
  have hi : ¬ 0xFEC00000 ≤ x := by omega
  simp [isApic, isLapic, isIoapic, inRange, Config.lapicRange, Config.ioapicBase, hl, hi]

/-- Below 80000000h there is no device (R90, R92). -/
theorem isExternal_eq_false_of_lt (p : Config.Platform) {x : Nat} (h : x < 2 ^ 31) : isExternal p x = false := by
  simp only [isExternal, decide_eq_false (Nat.not_le.mpr h), Bool.false_and]

/-- Devices lie from 80000000h upward, outside the APICs (R91). -/
theorem isExternal_imp {p : Config.Platform} {x : Nat} (h : isExternal p x = true) : 2 ^ 31 ≤ x ∧ isApic p x = false := by
  simp only [isExternal, Bool.and_eq_true, decide_eq_true_eq, Bool.not_eq_true', Bool.or_eq_false_iff] at h
  obtain ⟨hhi, ⟨-, hl⟩, hi⟩ := h
  exact ⟨hhi, by simp [isApic, hl, hi]⟩

/-- Below 80000000h everything that is not a store to code is storage (R91, R94). -/
theorem route_below_half (hb : noBusErr kind w a s) (hend : a.toNat + w.bytes ≤ 2 ^ 31)
    (hcode : kind = .write → ¬ touches (isCode s.plat) w a) : route s.plat kind w a = .ok .storage := by
  refine route_eq_storage hb ⟨by omega, .inr hend⟩ ?_ ?_ hcode
  · rintro ⟨k, hk, happic⟩
    exact absurd happic (by simp [isApic_eq_false_of_lt s.plat (x := a.toNat + k) (by omega)])
  · rintro ⟨k, hk, hext⟩
    exact absurd hext (by simp [isExternal_eq_false_of_lt s.plat (x := a.toNat + k) (by omega)])

/-- An aligned dword of a device reaches it (R87, R91). -/
theorem route_device (hb : noBusErr kind .b32 a s) (ha : a.toNat % 4 = 0)
    (hext : ∀ k, k < 4 → isExternal s.plat (a.toNat + k) = true) : route s.plat kind .b32 a = .ok .device := by
  obtain ⟨hlow, -⟩ := isExternal_imp (hext 0 (by decide))
  have hh : inOneHalf .b32 a := ⟨by have := a.isLt; show a.toNat + 4 ≤ 2 ^ 32; omega, .inl hlow⟩
  have hapic : ¬ touches (isApic s.plat) .b32 a := by
    rintro ⟨k, hk, hx⟩
    exact absurd hx (by simp [(isExternal_imp (hext k hk)).2])
  obtain ⟨hl, hi⟩ := not_or.mp (mt touches_isApic_iff.mpr hapic)
  have hall : (span a.toNat Width.b32.bytes).all (isExternal s.plat) = true := by
    refine List.all_eq_true.mpr fun x hx => ?_
    obtain ⟨hlo, hhi⟩ := mem_span.mp hx
    have hlt : x - a.toNat < 4 := Nat.sub_lt_left_of_lt_add hlo hhi
    rw [← Nat.add_sub_cancel' hlo]
    exact hext _ hlt
  unfold route
  dsimp only
  rw [noBusErr_any_eq_false hb, if_neg Bool.false_ne_true, if_neg hh.not_beyond, if_neg hh.not_straddle,
    if_neg (mt (any_span_iff_touches ..).mp hl), if_neg (mt (any_span_iff_touches ..).mp hi),
    if_pos ((any_span_iff_touches ..).mpr ⟨0, by decide, hext 0 (by decide)⟩), if_pos ⟨rfl, ha, hall⟩]

end Route

/-! ### The bytes of a stored item -/

/-- Byte k of a number, by division and as a field of bits. -/
theorem ofNat_div_256_pow_eq_extractLsb' {n : Nat} (v : BitVec n) (k : Nat) :
    BitVec.ofNat 8 (v.toNat / 256 ^ k) = v.extractLsb' (8 * k) 8 := by
  rw [BitVec.extractLsb', Nat.shiftRight_eq_div_pow, pow_mul]
  rfl

/-- Settles O18: byte k of a store is byte k of the number that was stored. -/
theorem storesAreLittleEndian : Obligations.StoresAreLittleEndian := by
  intro w a v s t hm hroute hwrite k hk
  rw [writeMem_storage v hroute, Except.ok.injEq] at hwrite
  rw [← hwrite, State.setMem_mem, readByte_storeLE_inside _ _ _ hm (route_storage hroute).1 hk,
    ofNat_div_256_pow_eq_extractLsb']

/-! ### A MOV between a register and memory that completes -/

section Mov

variable {w : Width} {r : Reg} {m : MemRef} {s u : State}

/-- What a MOV that loads a register leaves. -/
theorem exec_mov_load {v : BitVec w.bits} (h : readMem w (effAddr m s) s = .ok (v, u)) :
    exec (.mov (.rRm w r (.mem m))) s = .next ((u.setView w r v).advance.setStepDue s.flags.tf) := by
  have hbody : movBody (.rRm w r (.mem m)) s = .ok (u.setView w r v) := by
    simp only [movBody, place, readPlace, h, bind, Except.bind, pure, Except.pure]
  exact congrArg (complete s) hbody

/-- What a MOV that stores a register leaves. -/
theorem exec_mov_store (h : writeMem w (effAddr m s) (s.view w r) s = .ok u) :
    exec (.mov (.rmR w (.mem m) r)) s = .next (u.advance.setStepDue s.flags.tf) :=
  congrArg (complete s) (show movBody (.rmR w (.mem m) r) s = .ok u from h)

/-- Storage that a write of an item left holds that item. -/
theorem loadLE_of_writeMem {a : Dword} {v : BitVec w.bits} (hm : s.mem.wf = true)
    (hw : route s.plat .write w a = .ok .storage) (hr : route s.plat .read w a = .ok .storage)
    (h : writeMem w a v s = .ok u) : BitVec.ofNat w.bits (loadLE u.mem a.toNat w.bytes) = v := by
  have hplat : u.plat = s.plat := (writeMem_core h).1.plat
  have hread := readMem_writeMem hm hw hr h
  rw [readMem_storage (hplat.symm ▸ hr), Except.ok.injEq, Prod.mk.injEq] at hread
  exact hread.1

/-- A MOV through a device loads a free value. -/
theorem exec_mov_load_device (h : route s.plat .read .b32 (effAddr m s) = .ok .device) :
    ∃ t, exec (.mov (.rRm .b32 r (.mem m))) s = .next t ∧ completed s t ∧ t.reg r = s.freeDword ∧ onlyReg r s t ∧
      t.flags = s.flags :=
  ⟨_, exec_mov_load (readMem_device h), ⟨rfl, rfl, rfl, rfl, rfl, rfl, rfl, rfl, rfl⟩, State.reg_setReg_same ..,
    ⟨fun _ hq => State.reg_setReg_ne _ _ hq, fun _ => rfl, rfl⟩, rfl⟩

/-- A MOV to a device changes no data of the machine. -/
theorem exec_mov_store_device (h : route s.plat .write .b32 (effAddr m s) = .ok .device) :
    ∃ t, exec (.mov (.rmR .b32 (.mem m) r)) s = .next t ∧ completed s t ∧ sameData s t ∧ t.flags = s.flags :=
  ⟨_, exec_mov_store (writeMem_device _ h), ⟨rfl, rfl, rfl, rfl, rfl, rfl, rfl, rfl, rfl⟩, ⟨rfl, fun _ => rfl, rfl⟩, rfl⟩

end Mov

/-- Settles O17: a load finds what the store left, and the routes below and above 80000000h. -/
theorem storeThenLoad : Obligations.StoreThenLoad := by
  refine ⟨?loads, ?below, ?device⟩
  case loads =>
    intro w r q m m' s t hm hw hr hstore haddr
    obtain ⟨u, hwrite⟩ : ∃ u, writeMem w (effAddr m s) (s.view w r) s = .ok u := ⟨_, writeMem_storage _ hw⟩
    obtain rfl : u.advance.setStepDue s.flags.tf = t := Host.Outcome.next.inj ((exec_mov_store hwrite).symm.trans hstore)
    have hplat : u.plat = s.plat := (writeMem_core hwrite).1.plat
    have hread : readMem w (effAddr m' (u.advance.setStepDue s.flags.tf)) (u.advance.setStepDue s.flags.tf) =
        .ok (s.view w r, u.advance.setStepDue s.flags.tf) := by
      rw [haddr, readMem_storage (by simpa [hplat] using hr)]
      simp [loadLE_of_writeMem hm hw hr hwrite]
    refine ⟨fun x hx => writeMem_outside hwrite hx, _, exec_mov_load hread, ?_, State.setView_mem ..⟩
    exact State.view_setView_same ..
  case below =>
    intro store w a s hb hend hcode
    refine route_below_half hb hend fun hkind => hcode ?_
    cases store with
    | true => rfl
    | false => exact absurd hkind (by decide)
  case device =>
    intro r m s ha hext
    exact ⟨fun hb => exec_mov_load_device (route_device hb ha hext),
      fun hb => exec_mov_store_device (route_device hb ha hext)⟩

/-! ### Bus errors -/

/-- No byte of the SRAM can be fetched, whatever ICCM_RANGE names (R93). -/
theorem busErr_fetch_sram {p : Config.Platform} {x : Nat} (h : isSram p x = true) : busErr p .fetch x = true :=
  busErr_fetch_outside (by simp [isFetchable, h])

/-- A fetch ends before the first byte that meets a bus error (R483). -/
theorem fetchBytes_of_busErr (p : Config.Platform) (m : Memory) : ∀ (n a fuel : Nat), n < fuel → a + n < 2 ^ 32 →
    (∀ k, k < n → busErr p .fetch (a + k) = false) → busErr p .fetch (a + n) = true →
    fetchBytes p m a fuel = (List.range n).map (fun k => readByte m (a + k))
  | 0, a, fuel + 1, _, _, _, herr => by
    simp [fetchBytes, show busErr p .fetch a = true from herr]
  | n + 1, a, fuel + 1, hfuel, hend, hok, herr => by
    have hfirst : busErr p .fetch a = false := hok 0 (by omega)
    have hrest := fetchBytes_of_busErr p m n (a + 1) fuel (by omega) (by omega)
      (fun k hk => by rw [Nat.add_right_comm]; exact hok (k + 1) (by omega)) (by rw [Nat.add_right_comm]; exact herr)
    rw [fetchBytes, if_pos ⟨by omega, hfirst⟩, hrest, List.range_succ_eq_map, List.map_cons, List.map_map]
    simp [Function.comp_def, Nat.add_right_comm, Nat.add_assoc]

/-- Bytes that run out inside the address space are a bus error of the fetch (R483). -/
theorem decodeStop_truncated_inside {s : State} (h : s.eip.toNat + (instrBytes s).length < 2 ^ 32) :
    decodeStop s .truncated =
      .raise (.machineCheck (BitVec.ofNat 32 (s.eip.toNat + (instrBytes s).length)) true false) := if_pos h

/-- Settles O8: the fetch, the route of a load and the route of a store raise #MC, and the gate of vector 18 is entered. -/
theorem busErrorsTakeMc : Obligations.BusErrorsTakeMc := by
  refine ⟨fun p x => busErr_fetch_sram, fun s g hopens => ⟨?fetch, ?data⟩⟩
  case fetch =>
    intro b n hrun htrap hint hok hn hend herr hdec
    have hbytes : instrBytes s = (List.range n).map (fun k => readByte s.mem (s.eip.toNat + k)) :=
      fetchBytes_of_busErr s.plat s.mem n s.eip.toNat maxLength hn hend hok herr
    have hlen : (instrBytes s).length = n := by simp [hbytes]
    rw [coreStep_eq_runInstr hopens.supervisor hrun htrap hint, runInstr_of_decode_error (hbytes ▸ hdec),
      decodeStop_truncated_inside (by omega), hlen]
    exact retire_raise_of_opens (.machineCheck _ true false) hopens
  case data =>
    intro w r m k hk hend
    refine ⟨fun herr => ?_, fun herr => ?_⟩
    · have hexec := exec_movAccess_of_route_error (store := false) (r := r) (route_busErr hk hend herr)
      exact hexec ▸ retire_raise_of_opens (.machineCheck _ false false) hopens
    · have hexec := exec_movAccess_of_route_error (store := true) (r := r) (route_busErr hk hend herr)
      exact hexec ▸ retire_raise_of_opens (.machineCheck _ false true) hopens

end Sys2Proof.Machine

/-! SUPPORT. Proofs about the encoder: the decoder reads back what it wrote, row by row of the opcode maps. -/

namespace Sys2Proof

section ReadsBack

variable {pol : DecodePolicy} {α β : Type}

/-! ### Readers one after the other -/

/-- A reader that succeeds hands its value and the bytes after it on. -/
theorem bind_eq_ok {x : Except DecodeError α} {f : α → Except DecodeError β} {a : α} {b : β} (hx : x = .ok a)
    (hf : f a = .ok b) : (x >>= f) = .ok b := by
  rw [hx]
  exact hf

/-- The mark of a 66h form is read back (R132). -/
theorem takePrefixes_pre66 (w : Width) {o : Byte} (bs : List Byte) (h66 : o ≠ 0x66) (hF0 : o ≠ 0xF0) :
    takePrefixes false false (pre66 w ++ o :: bs) = .ok ((decide (w = .b16), false, o), bs) := by
  have hopcode : ∀ p66, takePrefixes p66 false (o :: bs) = .ok ((p66, false, o), bs) := fun p66 => by
    rw [takePrefixes, if_neg h66, if_neg hF0]
  cases w
  · exact hopcode false
  · exact hopcode true
  · exact hopcode false

/-- Behind the mark of a form stands its opcode. -/
theorem decodeInstr_pre66 (w : Width) {o : Byte} (bs : List Byte) (h66 : o ≠ 0x66) (hF0 : o ≠ 0xF0) :
    decodeInstr pol (pre66 w ++ o :: bs) = decodeOpcode pol (decide (w = .b16)) o bs := by
  rw [decodeInstr, takePrefixes_pre66 w bs h66 hF0]
  rfl

theorem decodeInstr_of_opcode (w : Width) {o : Byte} {bs t : List Byte} {i : Instr}
    (h : decodeOpcode pol (decide (w = .b16)) o bs = .ok (i, t)) (h66 : o ≠ 0x66 := by decide)
    (hF0 : o ≠ 0xF0 := by decide) : decodeInstr pol (pre66 w ++ o :: bs) = .ok (i, t) :=
  (decodeInstr_pre66 w bs h66 hF0).trans h

/-- The digit and the operand of a group member, from the bytes that the encoder writes for them. -/
theorem takeByte_rmBytes_bind {digit : BitVec 3} {rm : RM} {t : List Byte}
    {f : Byte × List Byte → Except DecodeError β} {b : β} (h : rm.wf = true)
    (hf : ∀ m bs, midField m = digit → takeRM m bs = .ok (rm, t) → f (m, bs) = .ok b) :
    (takeByte (rmBytes digit rm ++ t) >>= f) = .ok b := by
  obtain ⟨m, bs, hbytes, hmid, hrm⟩ := takeRM_rmBytes digit rm t h
  rw [hbytes]
  exact hf m (bs ++ t) hmid hrm

/-- The same where only memory is an operand (R157). -/
theorem takeByte_memBytes_bind {digit : BitVec 3} {mem : MemRef} {t : List Byte}
    {f : Byte × List Byte → Except DecodeError β} {b : β} (h : mem.wf = true)
    (hf : ∀ m bs, midField m = digit → hiField m ≠ 3 → takeMem (hiField m) (loField m) bs = .ok (mem, t) →
      f (m, bs) = .ok b) : (takeByte (memBytes digit mem ++ t) >>= f) = .ok b := by
  obtain ⟨m, bs, hbytes, hmid, hhi, hmem⟩ := takeMem_memBytes digit mem t h
  rw [hbytes]
  exact hf m (bs ++ t) hmid hhi hmem

/-! ### Opcodes given by a number -/

theorem toNat_opByte {n : Nat} (h : n < 256) : (opByte n).toNat = n := by
  rw [opByte, BitVec.toNat_ofNat, Nat.mod_eq_of_lt h]

theorem opByte_ne {n : Nat} {b : Byte} (h : n < 256) (hb : n ≠ b.toNat) : opByte n ≠ b :=
  fun heq => hb (by rw [← heq, toNat_opByte h])

/-- The six forms of a base opcode (R152, R200). -/
theorem decodeOpcode_alu (p66 : Bool) {k form : Nat} (hk : k < 8) (hform : form < 6) (bs : List Byte) :
    decodeOpcode pol p66 (opByte (8 * k + form)) bs = decodeAlu pol p66 k form bs := by
  have h0F : opByte (8 * k + form) ≠ 0x0F := opByte_ne (by omega) (show _ ≠ 0x0F by omega)
  rw [decodeOpcode, if_neg h0F, toNat_opByte (by omega), decodeOne, if_pos (by omega), if_pos (by omega),
    show (8 * k + form) / 8 = k by omega, show (8 * k + form) % 8 = form by omega]

theorem decodeInstr_alu (w : Width) {k form : Nat} {bs t : List Byte} {i : Instr} (hk : k < 8) (hform : form < 6)
    (h : decodeAlu pol (decide (w = .b16)) k form bs = .ok (i, t)) :
    decodeInstr pol (pre66 w ++ opByte (8 * k + form) :: bs) = .ok (i, t) :=
  decodeInstr_of_opcode w ((decodeOpcode_alu _ hk hform bs).trans h)
    (opByte_ne (by omega) (show _ ≠ 0x66 by omega)) (opByte_ne (by omega) (show _ ≠ 0xF0 by omega))

/-- The short jump of a listed condition (R395). -/
theorem decodeOpcode_jcc8 {k : Nat} {f : Rel → Instr} (hk : k < 16) (hf : ∀ rel, jccInstr k rel = some (f rel))
    (v : Byte) (t : List Byte) : decodeOpcode pol false (opByte (0x70 + k)) (v :: t) = .ok (f (.rel8 v), t) := by
  rw [decodeOpcode, if_neg (opByte_ne (by omega) (show _ ≠ 0x0F by omega)), toNat_opByte (by omega), decodeOne,
    if_neg (by omega), if_pos (by omega)]
  unfold decode4x7x
  dsimp only
  rw [if_neg (by omega), if_neg (by omega), if_neg (by omega), if_pos (by omega), Nat.add_sub_cancel_left, hf]
  refine bind_eq_ok rfl (bind_eq_ok rfl ?_)
  dsimp only
  rw [hf]
  rfl

/-- The near jump of a listed condition (R395). -/
theorem decodeOpcode_jcc32 {k : Nat} {f : Rel → Instr} (hk : k < 16) (hf : ∀ rel, jccInstr k rel = some (f rel))
    (v : BitVec 32) (t : List Byte) :
    decodeOpcode pol false 0x0F (opByte (0x80 + k) :: bytes32 v ++ t) = .ok (f (.rel32 v), t) := by
  refine bind_eq_ok rfl ?_
  dsimp only
  rw [toNat_opByte (by omega)]
  unfold decodeTwo
  rw [if_neg (by omega), if_pos (by omega), Nat.add_sub_cancel_left, hf]
  refine bind_eq_ok rfl (bind_eq_ok (take32_bytes32 v t) ?_)
  dsimp only
  rw [hf]
  rfl

/-! ### The operand forms -/

variable (t : List Byte)

theorem decodeInstr_encodeAlu {k : Nat} (hk : k < 8) {o : AluOperands} (h : o.wf = true) :
    decodeInstr pol (encodeAlu k o ++ t) = .ok (aluInstr k o, t) := by
  have hdigit : (BitVec.ofNat 3 k).toNat = k := by rw [BitVec.toNat_ofNat, Nat.mod_eq_of_lt hk]
  cases o <;> simp only [encodeAlu, List.append_assoc, List.cons_append, Nat.add_assoc]
  case rmR w dst src =>
    cases w <;> exact decodeInstr_alu _ hk (by decide) (bind_eq_ok (takeRegRM_rmBytes pol (by decide) src dst t h) rfl)
  case rRm w dst src =>
    cases w <;> exact decodeInstr_alu _ hk (by decide) (bind_eq_ok (takeRegRM_rmBytes pol (by decide) dst src t h) rfl)
  case accImm w v =>
    cases w
    case b8 => exact decodeInstr_alu _ hk (by decide) (bind_eq_ok rfl (bind_eq_ok (takeImm_immBytes _ v t) rfl))
    all_goals exact decodeInstr_alu _ hk (by decide) (bind_eq_ok (takeImm_immBytes _ v t) rfl)
  case rmImm w dst v =>
    cases w
    all_goals
      refine decodeInstr_of_opcode _ (takeByte_rmBytes_bind h fun m bs hmid hrm => ?_)
      simp only [hmid, hdigit]
    case b8 => exact bind_eq_ok rfl (bind_eq_ok hrm (bind_eq_ok (takeImm_immBytes _ v t) rfl))
    all_goals exact bind_eq_ok hrm (bind_eq_ok (takeImm_immBytes _ v t) rfl)
  case rmImm8 w dst v =>
    obtain ⟨hw, hdst⟩ := Bool.and_eq_true_iff.mp h
    cases w
    case b8 => exact absurd hw (by decide)
    all_goals
      refine decodeInstr_of_opcode _ (takeByte_rmBytes_bind hdst fun m bs hmid hrm => ?_)
      simp only [hmid, hdigit]
      exact bind_eq_ok hrm (bind_eq_ok rfl rfl)

theorem decodeInstr_encodeInc {k : Nat} {f : IncOperands → Instr} (hf : (k, f) ∈ [(0, .inc), (1, .dec)])
    {o : IncOperands} (h : o.wf = true) : decodeInstr pol (encodeInc k o ++ t) = .ok (f o, t) := by
  cases o <;> simp only [encodeInc, List.append_assoc, List.cons_append]
  case short w r =>
    cases w
    case b8 => exact absurd h Bool.false_ne_true
    case b16 =>
      cases r
      case esp => exact absurd h Bool.false_ne_true
      all_goals fin_cases hf <;> exact decodeInstr_of_opcode .b16 (bind_eq_ok rfl rfl)
    case b32 => cases r <;> fin_cases hf <;> exact decodeInstr_of_opcode .b32 (bind_eq_ok rfl rfl)
  case rm w dst =>
    cases w
    all_goals
      refine decodeInstr_of_opcode _ (takeByte_rmBytes_bind h fun m bs hmid hrm => ?_)
      simp only [hmid]
    case b8 => fin_cases hf <;> exact bind_eq_ok rfl (bind_eq_ok hrm rfl)
    all_goals fin_cases hf <;> exact bind_eq_ok hrm rfl

theorem decodeInstr_encodeUnary {w : Width} {rm : RM} (h : rm.wf = true) {digit : BitVec 3} {i : Instr}
    (hi : (digit, i) ∈
      [(2, .not w rm), (3, .neg w rm), (4, .mul w rm), (5, .imul1 w rm), (6, .div w rm), (7, .idiv w rm)]) :
    decodeInstr pol (encodeUnary digit w rm ++ t) = .ok (i, t) := by
  simp only [encodeUnary, List.append_assoc, List.cons_append]
  cases w
  all_goals
    refine decodeInstr_of_opcode _ (takeByte_rmBytes_bind h fun m bs hmid hrm => ?_)
    simp only [hmid]
  case b8 => fin_cases hi <;> exact bind_eq_ok rfl (bind_eq_ok hrm rfl)
  all_goals fin_cases hi <;> exact bind_eq_ok hrm rfl

theorem decodeInstr_encodeTest {o : TestOperands} (h : o.wf = true) :
    decodeInstr pol (encodeTest o ++ t) = .ok (.test o, t) := by
  cases o <;> simp only [encodeTest, encodeUnary, List.append_assoc, List.cons_append]
  case rmR w a b =>
    cases w <;> exact decodeInstr_of_opcode _ (bind_eq_ok (takeRegRM_rmBytes pol (by decide) b a t h) rfl)
  case accImm w v =>
    cases w
    case b8 => exact decodeInstr_of_opcode .b8 (bind_eq_ok rfl (bind_eq_ok (takeImm_immBytes _ v t) rfl))
    all_goals exact decodeInstr_of_opcode _ (bind_eq_ok (takeImm_immBytes _ v t) rfl)
  case rmImm w a v =>
    cases w
    all_goals
      refine decodeInstr_of_opcode _ (takeByte_rmBytes_bind h fun m bs hmid hrm => ?_)
      simp only [hmid]
    case b8 => exact bind_eq_ok rfl (bind_eq_ok hrm (bind_eq_ok (takeImm_immBytes _ v t) rfl))
    all_goals exact bind_eq_ok hrm (bind_eq_ok (takeImm_immBytes _ v t) rfl)

theorem decodeInstr_encodeBit {op : Byte} {digit : BitVec 3} {f : BitOperands → Instr}
    (hf : (op, digit, f) ∈ [(0xA3, 4, .bt), (0xBB, 7, .btc), (0xB3, 6, .btr), (0xAB, 5, .bts)])
    {o : BitOperands} (h : o.wf = true) : decodeInstr pol (encodeBit op digit o ++ t) = .ok (f o, t) := by
  cases o <;> simp only [encodeBit, List.append_assoc, List.cons_append]
  case rmR w base off =>
    obtain ⟨hw, hbase⟩ := Bool.and_eq_true_iff.mp h
    have hread := takeRegRM_rmBytes pol (p66 := decide (w = .b16)) (listed := true) (.inl rfl) off base t hbase
    cases w
    case b8 => exact absurd hw (by decide)
    all_goals fin_cases hf <;> exact decodeInstr_of_opcode _ (bind_eq_ok rfl (bind_eq_ok hread rfl))
  case rmImm w base off =>
    obtain ⟨hw, hbase⟩ := Bool.and_eq_true_iff.mp h
    cases w
    case b8 => exact absurd hw (by decide)
    all_goals
      refine decodeInstr_of_opcode _ (bind_eq_ok rfl (takeByte_rmBytes_bind hbase fun m bs hmid hrm => ?_))
      simp only [hmid]
      fin_cases hf <;> exact bind_eq_ok hrm (bind_eq_ok rfl rfl)

theorem decodeInstr_encodeShift {w : Width} {rm : RM} {c : ShiftCount} (h : rm.wf = true) {digit : BitVec 3} {i : Instr}
    (hi : (digit, i) ∈ [(0, .rol w rm c), (1, .ror w rm c), (2, .rcl w rm c), (3, .rcr w rm c), (4, .shl w rm c),
      (5, .shr w rm c), (7, .sar w rm c)]) : decodeInstr pol (encodeShift digit w rm c ++ t) = .ok (i, t) := by
  cases c <;> simp only [encodeShift, List.append_assoc, List.cons_append] <;> cases w
  all_goals
    refine decodeInstr_of_opcode _ (takeByte_rmBytes_bind h fun m bs hmid hrm => ?_)
    simp only [hmid]
  case imm.b8 | one.b8 | cl.b8 => fin_cases hi <;> exact bind_eq_ok rfl (bind_eq_ok hrm (bind_eq_ok rfl rfl))
  all_goals fin_cases hi <;> exact bind_eq_ok hrm (bind_eq_ok rfl rfl)

theorem decodeInstr_encodeImul3 (dst : Reg) {src : RM} {imm : ImulImm} (hsrc : src.wf = true) (h : imm.wf = true) :
    decodeInstr pol (encodeImul3 dst src imm ++ t) = .ok (.imul3 dst src imm, t) := by
  have hread := fun p66 t => takeRegRM_rmBytes pol (p66 := p66) (listed := true) (.inl rfl) dst src t hsrc
  cases imm <;> simp only [encodeImul3, List.append_assoc, List.cons_append]
  case full w v =>
    cases w
    case b8 => exact absurd h Bool.false_ne_true
    all_goals exact decodeInstr_of_opcode _ (bind_eq_ok (hread _ _) (bind_eq_ok (takeImm_immBytes _ v t) rfl))
  case byte w v =>
    cases w
    case b8 => exact absurd h Bool.false_ne_true
    all_goals exact decodeInstr_of_opcode _ (bind_eq_ok (hread _ _) (bind_eq_ok rfl rfl))

theorem decodeInstr_encodeMov {o : MovOperands} (h : o.wf = true) :
    decodeInstr pol (encodeMov o ++ t) = .ok (.mov o, t) := by
  cases o <;> simp only [encodeMov, List.append_assoc, List.cons_append]
  case rmR w dst src =>
    cases w <;> exact decodeInstr_of_opcode _ (bind_eq_ok (takeRegRM_rmBytes pol (by decide) src dst t h) rfl)
  case rRm w dst src =>
    cases w <;> exact decodeInstr_of_opcode _ (bind_eq_ok (takeRegRM_rmBytes pol (by decide) dst src t h) rfl)
  case accMem w a | memAcc w a =>
    cases w
    case b8 => exact decodeInstr_of_opcode _ (bind_eq_ok rfl (bind_eq_ok (take32_bytes32 a t) rfl))
    all_goals exact decodeInstr_of_opcode _ (bind_eq_ok (take32_bytes32 a t) rfl)
  case regImm w dst v =>
    have hread := takeImm_immBytes w v t
    cases w
    case b8 => cases dst <;> exact decodeInstr_of_opcode .b8 (bind_eq_ok rfl (bind_eq_ok hread rfl))
    case b16 =>
      cases dst
      case esp => exact absurd h Bool.false_ne_true
      all_goals exact decodeInstr_of_opcode .b16 (bind_eq_ok hread rfl)
    case b32 =>
      cases dst
      case esp => exact decodeInstr_of_opcode .b32 (bind_eq_ok rfl (bind_eq_ok hread rfl))
      all_goals exact decodeInstr_of_opcode .b32 (bind_eq_ok hread rfl)
  case rmImm w dst v =>
    cases w
    all_goals
      refine decodeInstr_of_opcode _ (takeByte_rmBytes_bind h fun m bs hmid hrm => ?_)
      simp only [hmid]
    case b8 => exact bind_eq_ok rfl (bind_eq_ok hrm (bind_eq_ok (takeImm_immBytes _ v t) rfl))
    all_goals exact bind_eq_ok hrm (bind_eq_ok (takeImm_immBytes _ v t) rfl)

theorem decodeInstr_encodeExt {op : Nat} {f : ExtOperands → Instr} (hf : (op, f) ∈ [(0xB6, .movzx), (0xBE, .movsx)])
    {o : ExtOperands} (h : o.wf = true) : decodeInstr pol (encodeExt op o ++ t) = .ok (f o, t) := by
  cases o
  case r16rm8 dst src =>
    have hread := takeRegRM_rmBytes pol (p66 := true) (.inl rfl) dst src t h
    fin_cases hf <;> exact decodeInstr_of_opcode .b16 (bind_eq_ok rfl (bind_eq_ok hread rfl))
  case r32rm8 dst src | r32rm16 dst src =>
    have hread := fun listed => takeRegRM_rmBytes pol (listed := listed) (.inr rfl) dst src t h
    fin_cases hf <;> exact decodeInstr_of_opcode .b32 (bind_eq_ok rfl (bind_eq_ok (hread _) rfl))

theorem decodeInstr_encodePush {o : PushOperand} (h : o.wf = true) :
    decodeInstr pol (encodePush o ++ t) = .ok (.push o, t) := by
  cases o
  case reg r => cases r <;> exact decodeInstr_of_opcode .b32 (bind_eq_ok rfl rfl)
  case imm32 v => exact decodeInstr_of_opcode .b32 (bind_eq_ok (take32_bytes32 v t) rfl)
  case imm16 v => exact decodeInstr_of_opcode .b16 (bind_eq_ok (take16_bytes16 v t) rfl)
  case imm8 v => exact decodeInstr_of_opcode .b32 (bind_eq_ok rfl (bind_eq_ok rfl rfl))
  case rm w src =>
    obtain ⟨hw, hsrc⟩ := Bool.and_eq_true_iff.mp h
    simp only [encodePush, List.append_assoc, List.cons_append]
    cases w
    case b8 => exact absurd hw (by decide)
    all_goals
      refine decodeInstr_of_opcode _ (takeByte_rmBytes_bind hsrc fun m bs hmid hrm => ?_)
      simp only [hmid]
      exact bind_eq_ok hrm rfl

theorem decodeInstr_encodePop {o : PopOperand} (h : o.wf = true) :
    decodeInstr pol (encodePop o ++ t) = .ok (.pop o, t) := by
  cases o
  case reg r => cases r <;> exact decodeInstr_of_opcode .b32 (bind_eq_ok rfl rfl)
  case rm w dst =>
    obtain ⟨hw, hdst⟩ := Bool.and_eq_true_iff.mp h
    simp only [encodePop, List.append_assoc, List.cons_append]
    cases w
    case b8 => exact absurd hw (by decide)
    all_goals
      refine decodeInstr_of_opcode _ (takeByte_rmBytes_bind hdst fun m bs hmid hrm => ?_)
      simp only [hmid]
      exact bind_eq_ok hrm rfl

theorem decodeInstr_encodeJcc {k : Nat} {f : Rel → Instr} (hk : k < 16) (hf : ∀ rel, jccInstr k rel = some (f rel))
    (rel : Rel) : decodeInstr pol (encodeJcc k rel ++ t) = .ok (f rel, t) := by
  cases rel
  case rel8 v =>
    exact decodeInstr_of_opcode .b32 (decodeOpcode_jcc8 hk hf v t) (opByte_ne (by omega) (show _ ≠ 0x66 by omega))
      (opByte_ne (by omega) (show _ ≠ 0xF0 by omega))
  case rel32 v => exact decodeInstr_of_opcode .b32 (decodeOpcode_jcc32 hk hf v t)

/-- CALL, JMP through an r/m operand: the members 2 and 4 of group 5 (R154). -/
theorem decodeInstr_encodeIndirect {digit : BitVec 3} {f : RM → Instr} (hf : (digit, f) ∈ [(2, .callRm), (4, .jmpRm)])
    {src : RM} (h : src.wf = true) : decodeInstr pol (0xFF :: rmBytes digit src ++ t) = .ok (f src, t) := by
  refine decodeInstr_of_opcode .b32 (takeByte_rmBytes_bind h fun m bs hmid hrm => ?_)
  simp only [hmid]
  fin_cases hf <;> exact bind_eq_ok rfl (bind_eq_ok hrm rfl)

theorem decodeInstr_encodeIdt {digit : BitVec 3} {f : MemRef → Instr} (hf : (digit, f) ∈ [(3, .lidt), (1, .sidt)])
    {mem : MemRef} (h : mem.wf = true) : decodeInstr pol (0x0F :: 0x01 :: memBytes digit mem ++ t) = .ok (f mem, t) := by
  refine decodeInstr_of_opcode .b32 (bind_eq_ok rfl (takeByte_memBytes_bind h fun m bs hmid hhi hmem => ?_))
  simp only [hmid, if_neg hhi]
  fin_cases hf <;> exact bind_eq_ok hmem rfl

theorem decodeInstr_encodeLea {w : Width} (dst : Reg) {src : MemRef} (hw : w.wide = true) (h : src.wf = true) :
    decodeInstr pol (pre66 w ++ 0x8D :: memBytes dst.num src ++ t) = .ok (.lea w dst src, t) := by
  simp only [List.append_assoc, List.cons_append]
  cases w
  case b8 => exact absurd hw (by decide)
  all_goals
    refine decodeInstr_of_opcode _ (takeByte_memBytes_bind h fun m bs hmid hhi hmem => ?_)
    simp only [hmid, if_neg hhi, Reg.ofNum_num]
    exact bind_eq_ok hmem rfl

theorem decodeInstr_encodeImul2 {w : Width} (dst : Reg) {src : RM} (hw : w.wide = true) (h : src.wf = true) :
    decodeInstr pol (pre66 w ++ 0x0F :: 0xAF :: rmBytes dst.num src ++ t) = .ok (.imul2 w dst src, t) := by
  simp only [List.append_assoc, List.cons_append]
  have hread := takeRegRM_rmBytes pol (p66 := decide (w = .b16)) (listed := true) (.inl rfl) dst src t h
  cases w
  case b8 => exact absurd hw (by decide)
  all_goals exact decodeInstr_of_opcode _ (bind_eq_ok rfl (bind_eq_ok hread rfl))

/-! ### Every instruction -/

/-- The bytes of a well-formed instruction are read back, and nothing after them. -/
theorem decodeInstr_encode (i : Instr) (h : i.wf = true) : decodeInstr pol (encode i ++ t) = .ok (i, t) := by
  cases i
  case add o | adc o | sub o | sbb o | cmp o | and o | or o | xor o => exact decodeInstr_encodeAlu t (by decide) h
  case inc o | dec o => exact decodeInstr_encodeInc t (by simp) h
  case neg w dst | not w dst | mul w src | imul1 w src | div w src | idiv w src =>
    exact decodeInstr_encodeUnary t h (by simp)
  case test o => exact decodeInstr_encodeTest t h
  case bswap p66 r =>
    cases p66
    · cases r <;> rfl
    · cases r <;> rfl
  case bt o | btc o | btr o | bts o => exact decodeInstr_encodeBit t (by simp) h
  case rol w dst c | ror w dst c | rcl w dst c | rcr w dst c | shl w dst c | shr w dst c | sar w dst c =>
    exact decodeInstr_encodeShift t h (by simp)
  case imul2 w dst src =>
    obtain ⟨hw, hsrc⟩ := Bool.and_eq_true_iff.mp h
    exact decodeInstr_encodeImul2 t dst hw hsrc
  case imul3 dst src imm =>
    obtain ⟨hsrc, himm⟩ := Bool.and_eq_true_iff.mp h
    exact decodeInstr_encodeImul3 t dst hsrc himm
  case mov o => exact decodeInstr_encodeMov t h
  case movsx o | movzx o => exact decodeInstr_encodeExt t (by simp) h
  case lea w dst src =>
    obtain ⟨hw, hsrc⟩ := Bool.and_eq_true_iff.mp h
    exact decodeInstr_encodeLea t dst hw hsrc
  case nop p66 => cases p66 <;> rfl
  case push o => exact decodeInstr_encodePush t h
  case pop o => exact decodeInstr_encodePop t h
  case callRel v => exact decodeInstr_of_opcode .b32 (bind_eq_ok rfl (bind_eq_ok (take32_bytes32 v t) rfl))
  case callRm src | jmpRm src => exact decodeInstr_encodeIndirect t (by simp) h
  case jmpRel rel =>
    cases rel
    case rel8 v => rfl
    case rel32 v => exact decodeInstr_of_opcode .b32 (bind_eq_ok rfl (bind_eq_ok (take32_bytes32 v t) rfl))
  case jo rel | jno rel | jb rel | jae rel | je rel | jne rel | jbe rel | ja rel | js rel | jns rel | jl rel | jge rel
      | jle rel | jg rel =>
    exact decodeInstr_encodeJcc t (by decide) (fun _ => rfl) rel
  case lidt src | sidt dst => exact decodeInstr_encodeIdt t (by simp) h
  all_goals rfl

end ReadsBack

/-- Settles O1: the decoder reads back the encoder's bytes, and what it leaves is the tail. -/
theorem decodeInvertsEncode : Obligations.DecodeInvertsEncode := by
  intro pol i tail h
  have hlen : (encode i ++ tail).length - tail.length = (encode i).length := by
    rw [List.length_append, Nat.add_sub_cancel]
  exact bind_eq_ok (decodeInstr_encode tail i h) (congrArg (fun n => Except.ok (i, n)) hlen)

end Sys2Proof

/-! SUPPORT. Proofs about what the decoder can answer: each reader takes a bounded number of bytes and each row of the opcode
maps gives a well-formed instruction. -/

namespace Sys2Proof

/-- What a reader answers satisfies `P`, and it has taken at most `n` bytes off the list. -/
structure Reads {α : Type} (r : Except DecodeError (α × List Byte)) (bs : List Byte) (n : Nat) (P : α → Prop) :
    Prop where
  holds : ∀ a rest, r = .ok (a, rest) → P a ∧ rest.length ≤ bs.length ∧ bs.length ≤ rest.length + n

section Reads

variable {α β : Type} {P : α → Prop} {Q : β → Prop} {bs : List Byte} {n m : Nat}

/-! ### Readers one after the other -/

theorem Reads.pure {a : α} (h : P a) : Reads (pure (a, bs)) bs n P where
  holds := by
    rintro _ _ ⟨⟩
    exact ⟨h, le_rfl, Nat.le_add_right ..⟩

theorem Reads.error {e : DecodeError} : Reads (.error e) bs n P := ⟨fun _ _ h => nomatch h⟩

/-- What the next reader may take is what the first left of the budget. -/
theorem Reads.bind {r : Except DecodeError (β × List Byte)} {f : β × List Byte → Except DecodeError (α × List Byte)}
    (hr : Reads r bs m Q) (hf : ∀ b rest, Q b → Reads (f (b, rest)) rest (n - m) P) (hm : m ≤ n := by omega) :
    Reads (r >>= f) bs n P where
  holds := by
    intro a rest h
    match r, hr with
    | .ok (b, mid), hr =>
      obtain ⟨hb, hle, hge⟩ := hr.holds b mid rfl
      obtain ⟨ha, hle', hge'⟩ := (hf b mid hb).holds a rest h
      exact ⟨ha, by omega, by omega⟩

/-- A check of the prefixes takes no bytes. -/
theorem Reads.check {c : Except DecodeError Unit} {f : Unit → Except DecodeError (α × List Byte)}
    (hf : Reads (f ()) bs n P) : Reads (c >>= f) bs n P := by
  cases c with
  | error e => exact Reads.error
  | ok u => exact hf

theorem Reads.ite {c : Prop} [Decidable c] {x y : Except DecodeError (α × List Byte)} (hx : c → Reads x bs n P)
    (hy : ¬ c → Reads y bs n P) : Reads (if c then x else y) bs n P := by
  split
  · exact hx ‹_›
  · exact hy ‹_›

/-! ### The readers of operands -/

theorem takeByte_reads : Reads (takeByte bs) bs 1 fun _ => True where
  holds := by
    rcases bs with _ | ⟨b, rest⟩ <;> rintro _ _ ⟨⟩
    exact ⟨trivial, by simp, by simp⟩

theorem take16_reads : Reads (take16 bs) bs 2 fun _ => True where
  holds := by
    rcases bs with _ | ⟨b0, _ | ⟨b1, rest⟩⟩ <;> rintro _ _ ⟨⟩
    exact ⟨trivial, by simp; omega, by simp⟩

theorem take32_reads : Reads (take32 bs) bs 4 fun _ => True where
  holds := by
    rcases bs with _ | ⟨b0, _ | ⟨b1, _ | ⟨b2, _ | ⟨b3, rest⟩⟩⟩⟩ <;> rintro _ _ ⟨⟩
    exact ⟨trivial, by simp; omega, by simp⟩

theorem takeImm_reads (w : Width) : Reads (takeImm w bs) bs w.bytes fun _ => True := by
  cases w
  · exact takeByte_reads
  · exact take16_reads
  · exact take32_reads

/-- A displacement that is read is one. -/
theorem takeDisp_reads {mod : BitVec 2} : Reads (takeDisp mod bs) bs 4 fun d => d ≠ .none :=
  .ite (fun _ => takeByte_reads.bind fun _ _ _ => .pure nofun) fun _ => take32_reads.bind fun _ _ _ => .pure nofun

theorem sibIndex_ne_esp {sib : Byte} {i : Reg} {k : Scale} (h : sibIndex sib = some (i, k)) : i ≠ .esp := by
  unfold sibIndex at h
  split at h
  · cases h
  next hmid =>
    obtain ⟨rfl, -⟩ := Prod.mk.inj (Option.some.inj h)
    exact fun hesp => hmid (by rw [← Reg.num_ofNum (midField sib), hesp]; rfl)

theorem MemRef.wf_of_index {base : Option Reg} {index : Option (Reg × Scale)} {d : Disp}
    (hindex : ∀ i k, index = some (i, k) → i ≠ .esp) (h : (MemRef.mk base none d).wf = true) :
    (MemRef.mk base index d).wf = true := by
  rcases index with _ | ⟨i, k⟩
  · exact h
  · simp only [MemRef.wf, Bool.true_and] at h
    simp only [MemRef.wf, h, hindex i k rfl, ne_eq, not_false_eq_true, decide_true, Bool.true_and]

theorem MemRef.wf_of_disp {b : Reg} {d : Disp} (h : b = .ebp → d ≠ .none) : (MemRef.mk (some b) none d).wf = true := by
  cases d
  case none =>
    cases b
    case ebp => exact absurd rfl (h rfl)
    all_goals rfl
  all_goals cases b <;> rfl

/-- The memory operand of a ModR/M byte: at most a SIB byte and a displacement (R137 to R142). -/
theorem takeMem_reads {mod : BitVec 2} {rm : BitVec 3} : Reads (takeMem mod rm bs) bs 5 fun mem => mem.wf = true := by
  have hebp : ∀ n, ¬ n = 5 → Reg.ofNum n ≠ .ebp := by decide
  refine .ite (fun _ => ?sib) fun _ => .ite (fun _ => ?noDisp) fun _ => ?disp
  case sib =>
    refine takeByte_reads.bind fun sib _ _ => ?_
    have hindex : ∀ i k, sibIndex sib = some (i, k) → i ≠ .esp := fun i k => sibIndex_ne_esp
    refine .ite (fun _ => .ite (fun _ => ?_) fun h5 => ?_) fun _ => ?_
    · exact take32_reads.bind fun v _ _ => .pure (MemRef.wf_of_index hindex rfl)
    · exact .pure (MemRef.wf_of_index hindex (MemRef.wf_of_disp fun h => absurd h (hebp _ h5)))
    · exact takeDisp_reads.bind fun d _ hd => .pure (MemRef.wf_of_index hindex (MemRef.wf_of_disp fun _ => hd))
  case noDisp =>
    refine .ite (fun _ => take32_reads.bind fun v _ _ => .pure rfl) fun h5 => ?_
    exact .pure (MemRef.wf_of_disp fun h => absurd h (hebp _ h5))
  case disp => exact takeDisp_reads.bind fun d _ hd => .pure (MemRef.wf_of_disp fun _ => hd)

theorem takeRM_reads {b : Byte} : Reads (takeRM b bs) bs 5 fun rm => rm.wf = true :=
  .ite (fun _ => .pure rfl) fun _ => takeMem_reads.bind fun _ _ h => .pure h

theorem takeRegRM_reads {pol : DecodePolicy} {p66 listed : Bool} :
    Reads (takeRegRM pol p66 listed bs) bs 6 fun x => x.2.wf = true := by
  refine takeByte_reads.bind fun b _ _ => .ite (fun _ => ?_) fun _ => .check ?_
  · exact takeRM_reads.bind fun _ _ h => .pure h
  · exact takeRM_reads.bind fun _ _ h => .pure h

end Reads

/-! ### The tables of instructions -/

theorem opWidth_wide (p66 : Bool) : (opWidth p66).wide = true := by cases p66 <;> rfl

theorem aluInstr_wf (k : Nat) (o : AluOperands) : (aluInstr k o).wf = o.wf := by
  unfold aluInstr
  split <;> rfl

theorem bitInstr_wf (k : Nat) (o : BitOperands) : (bitInstr k o).wf = o.wf := by
  unfold bitInstr
  split <;> rfl

theorem shiftInstr_wf {k : Nat} {w : Width} {dst : RM} {c : ShiftCount} {i : Instr} (h : shiftInstr k w dst c = some i) :
    i.wf = dst.wf := by
  unfold shiftInstr at h
  split at h <;> cases h <;> rfl

theorem jccInstr_wf {k : Nat} {rel : Rel} {i : Instr} (h : jccInstr k rel = some i) : i.wf = true := by
  unfold jccInstr at h
  split at h <;> cases h <;> rfl

/-- The short forms of 40h to 4Fh and of B8h to BFh are 32 bits wide for register 4 (R158). -/
theorem shortWf_width (p66 : Bool) (r : Reg) : shortWf (if r = .esp then .b32 else opWidth p66) r = true := by
  split
  · rfl
  · cases p66
    · rfl
    · exact decide_eq_true ‹_›

theorem incDec_wf {c : Prop} [Decidable c] {w : Width} {r : Reg} (h : shortWf w r = true) :
    (if c then Instr.inc (.short w r) else .dec (.short w r)).wf = true := by
  split
  · exact h
  · exact h

theorem regImm_wf {w : Width} {r : Reg} {v : BitVec w.bits} (h : shortWf w r = true) :
    (Instr.mov (.regImm w r v)).wf = true := by
  cases w
  · rfl
  · exact h
  · rfl

section Maps

variable {pol : DecodePolicy} {p66 : Bool} {bs : List Byte} {n op : Nat}

theorem plain_reads {i : Instr} (h : i.wf = true) : Reads (plain pol p66 i bs) bs n fun i => i.wf = true :=
  .check (.pure h)

/-! ### The two-byte map -/

theorem decodeIdt_reads (hn : 6 ≤ n) : Reads (decodeIdt p66 bs) bs n fun i => i.wf = true := by
  refine takeByte_reads.bind fun m _ _ => .ite (fun _ => .ite (fun _ => .error) fun _ => .ite (fun _ => .error) fun _ =>
    takeMem_reads.bind fun mem _ h => .pure ?_) fun _ => .error
  split
  · exact h
  · exact h

theorem decodeTwo_reads (hn : 8 ≤ n) : Reads (decodeTwo pol p66 op bs) bs n fun i => i.wf = true := by
  refine .ite (fun _ => .pure rfl) fun _ => .ite (fun _ => ?jcc) fun _ => ?rest
  case jcc =>
    split
    · exact .error
    · refine .check (take32_reads.bind fun v _ _ => ?_)
      dsimp only
      split
      · exact .pure (jccInstr_wf ‹_›)
      · exact .error
  case rest =>
    split
    case h_1 => exact decodeIdt_reads (by omega)
    case h_2 => exact plain_reads rfl
    case h_3 | h_4 | h_5 | h_6 | h_10 => -- IMUL, BT to BTS
      exact takeRegRM_reads.bind fun _ _ h => .pure (Bool.and_eq_true_iff.mpr ⟨opWidth_wide p66, h⟩)
    case h_7 | h_11 => exact takeRegRM_reads.bind fun _ _ h => .pure (by cases p66 <;> exact h) -- B6, BE
    case h_8 | h_12 => exact takeRegRM_reads.bind fun _ _ h => .pure h -- B7, BF
    case h_9 => -- BT to BTS by an immediate
      exact takeByte_reads.bind fun _ _ _ => .ite (fun _ => .error) fun _ => takeRM_reads.bind fun _ _ h =>
        takeByte_reads.bind fun _ _ _ => .pure ((bitInstr_wf ..).trans (Bool.and_eq_true_iff.mpr ⟨opWidth_wide p66, h⟩))
    case h_13 => exact .error

/-! ### The one-byte map -/

variable (hn : 9 ≤ n) (himm : 6 + (opWidth p66).bytes ≤ n)

include hn

theorem decodeGroup2_reads : Reads (decodeGroup2 pol p66 op bs) bs n fun i => i.wf = true := by
  refine takeByte_reads.bind fun m _ _ => .ite (fun _ => .error) fun _ => ?_
  refine .ite (fun _ => .check ?_) fun _ => ?_
  all_goals
    refine takeRM_reads.bind fun rm rest h => .bind (m := 1) (Q := fun _ => True) ?_ fun c _ _ => ?_
    · exact .ite (fun _ => takeByte_reads.bind fun _ _ _ => .pure trivial) fun _ => .pure trivial
    dsimp only
    split
    · exact .pure ((shiftInstr_wf ‹_›).trans h)
    · exact .error

theorem decodeGroup4_reads : Reads (decodeGroup4 pol p66 bs) bs n fun i => i.wf = true := by
  refine takeByte_reads.bind fun m _ _ => ?_
  dsimp only
  split
  · exact .check (takeRM_reads.bind fun _ _ h => .pure h)
  · exact .check (takeRM_reads.bind fun _ _ h => .pure h)
  · exact .error

theorem decodeGroup5_reads : Reads (decodeGroup5 pol p66 bs) bs n fun i => i.wf = true := by
  refine takeByte_reads.bind fun m _ _ => ?_
  dsimp only
  split
  · exact takeRM_reads.bind fun _ _ h => .pure h
  · exact takeRM_reads.bind fun _ _ h => .pure h
  · exact .check (takeRM_reads.bind fun _ _ h => .pure h)
  · exact .check (takeRM_reads.bind fun _ _ h => .pure h)
  · exact takeRM_reads.bind fun _ _ h => .pure (Bool.and_eq_true_iff.mpr ⟨opWidth_wide p66, h⟩)
  · exact .error

include himm

theorem decodeAlu_reads {k form : Nat} : Reads (decodeAlu pol p66 k form bs) bs n fun i => i.wf = true := by
  unfold decodeAlu
  split
  · exact takeRegRM_reads.bind fun _ _ h => .pure ((aluInstr_wf ..).trans h)
  · exact takeRegRM_reads.bind fun _ _ h => .pure ((aluInstr_wf ..).trans h)
  · exact takeRegRM_reads.bind fun _ _ h => .pure ((aluInstr_wf ..).trans h)
  · exact takeRegRM_reads.bind fun _ _ h => .pure ((aluInstr_wf ..).trans h)
  · exact .check (takeByte_reads.bind fun _ _ _ => .pure (aluInstr_wf ..))
  · exact (takeImm_reads _).bind fun _ _ _ => .pure (aluInstr_wf ..)

theorem decodeGroup1_reads : Reads (decodeGroup1 pol p66 op bs) bs n fun i => i.wf = true := by
  refine takeByte_reads.bind fun m _ _ => .ite (fun _ => .check ?_) fun _ => .ite (fun _ => ?_) fun _ => ?_
  · exact takeRM_reads.bind fun _ _ h => takeByte_reads.bind fun _ _ _ => .pure ((aluInstr_wf ..).trans h)
  · exact takeRM_reads.bind fun _ _ h => (takeImm_reads _).bind fun _ _ _ => .pure ((aluInstr_wf ..).trans h)
  · exact takeRM_reads.bind fun _ _ h => takeByte_reads.bind fun _ _ _ =>
      .pure ((aluInstr_wf ..).trans (Bool.and_eq_true_iff.mpr ⟨opWidth_wide p66, h⟩))

theorem decodeGroup3_reads {byteForm : Bool} : Reads (decodeGroup3 pol p66 byteForm bs) bs n fun i => i.wf = true := by
  have hwidth : 6 + (pairWidth byteForm p66).bytes ≤ n := by
    cases byteForm
    · exact himm
    · exact le_trans (show 7 ≤ 9 by decide) hn
  refine takeByte_reads.bind fun m _ _ => .ite (fun _ => .error) fun _ => .ite (fun _ => .check ?_) fun _ => ?_
  all_goals
    refine takeRM_reads.bind fun rm _ h => ?_
    dsimp only
    split
    case h_1 => exact (takeImm_reads _).bind fun _ _ _ => .pure h
    all_goals exact .pure h

theorem decode4x7x_reads : Reads (decode4x7x pol p66 op bs) bs n fun i => i.wf = true := by
  refine .ite (fun _ => ?inc) fun _ => .ite (fun _ => plain_reads rfl) fun _ => .ite (fun _ => plain_reads rfl) fun _ =>
    .ite (fun _ => ?jcc) fun _ => ?rest
  case inc =>
    have hwf := shortWf_width p66 (Reg.ofNum (BitVec.ofNat 3 op))
    exact .ite (fun _ => .check (.pure (incDec_wf hwf))) fun _ => .pure (incDec_wf hwf)
  case jcc =>
    split
    · exact .error
    · refine .check (takeByte_reads.bind fun v _ _ => ?_)
      dsimp only
      split
      · exact .pure (jccInstr_wf ‹_›)
      · exact .error
  case rest =>
    split
    · exact .ite (fun _ => take16_reads.bind fun _ _ _ => .pure rfl) fun _ => take32_reads.bind fun _ _ _ => .pure rfl
    · exact takeRegRM_reads.bind fun _ _ h => (takeImm_reads _).bind fun _ _ _ =>
        .pure (Bool.and_eq_true_iff.mpr ⟨h, opWidth_wide p66⟩)
    · exact .check (takeByte_reads.bind fun _ _ _ => .pure rfl)
    · exact takeRegRM_reads.bind fun _ _ h => takeByte_reads.bind fun _ _ _ =>
        .pure (Bool.and_eq_true_iff.mpr ⟨h, opWidth_wide p66⟩)
    · exact .error

theorem decode8xBx_reads : Reads (decode8xBx pol p66 op bs) bs n fun i => i.wf = true := by
  refine .ite (fun _ => ?movShort) fun _ => .ite (fun _ => ?movByte) fun _ => ?rest
  case movShort =>
    have himm : (if Reg.ofNum (BitVec.ofNat 3 op) = .esp then Width.b32 else opWidth p66).bytes ≤ n := by
      split
      · exact le_trans (show 4 ≤ 9 by decide) hn
      · omega
    refine .ite (fun _ => .check ?_) fun _ => ?_
    all_goals exact (takeImm_reads _).bind (fun _ _ _ => .pure (regImm_wf (shortWf_width ..))) himm
  case movByte => exact .check (takeByte_reads.bind fun _ _ _ => .pure rfl)
  case rest =>
    split
    case h_1 | h_2 | h_3 => exact decodeGroup1_reads hn himm -- 80, 81, 83
    case h_10 => -- LEA
      exact takeByte_reads.bind fun _ _ _ => .ite (fun _ => .error) fun _ => takeMem_reads.bind fun _ _ h =>
        .pure (Bool.and_eq_true_iff.mpr ⟨opWidth_wide p66, h⟩)
    case h_11 => -- POP
      exact takeByte_reads.bind fun _ _ _ => .ite (fun _ => takeRM_reads.bind fun _ _ h =>
        .pure (Bool.and_eq_true_iff.mpr ⟨opWidth_wide p66, h⟩)) fun _ => .error
    case h_4 | h_5 | h_6 | h_7 | h_8 | h_9 => exact takeRegRM_reads.bind fun _ _ h => .pure h -- TEST, MOV
    case h_12 => exact .pure rfl -- NOP
    case h_13 | h_14 => exact .pure (by cases p66 <;> rfl) -- CBW to CDQ
    case h_15 | h_16 => exact plain_reads rfl -- PUSHFD, POPFD
    case h_17 | h_19 => exact .check (take32_reads.bind fun _ _ _ => .pure rfl) -- A0, A2
    case h_18 | h_20 => exact take32_reads.bind fun _ _ _ => .pure rfl -- A1, A3
    case h_21 => exact .check (takeByte_reads.bind fun _ _ _ => .pure rfl) -- A8
    case h_22 => exact (takeImm_reads _).bind fun _ _ _ => .pure rfl -- A9
    case h_23 => exact .error

theorem decodeCxFx_reads : Reads (decodeCxFx pol p66 op bs) bs n fun i => i.wf = true := by
  unfold decodeCxFx
  split
  case h_1 | h_2 | h_9 | h_10 | h_11 | h_12 => exact decodeGroup2_reads hn -- C0, C1, D0 to D3
  case h_4 => -- C6
    exact takeByte_reads.bind fun _ _ _ => .ite (fun _ => .check (takeRM_reads.bind fun _ _ h =>
      takeByte_reads.bind fun _ _ _ => .pure h)) fun _ => .error
  case h_5 => -- C7
    exact takeByte_reads.bind fun _ _ _ => .ite (fun _ => takeRM_reads.bind fun _ _ h =>
      (takeImm_reads _).bind fun _ _ _ => .pure h) fun _ => .error
  case h_7 | h_15 => exact .check (takeByte_reads.bind fun _ _ _ => .pure rfl) -- INT, JMP rel8
  case h_13 | h_14 => exact .check (take32_reads.bind fun _ _ _ => .pure rfl) -- CALL, JMP rel32
  case h_18 | h_19 => exact decodeGroup3_reads hn himm -- F6, F7
  case h_24 => exact decodeGroup4_reads hn
  case h_25 => exact decodeGroup5_reads hn
  case h_26 => exact .error
  all_goals exact plain_reads rfl

theorem decodeOne_reads : Reads (decodeOne pol p66 op bs) bs n fun i => i.wf = true :=
  .ite (fun _ => .ite (fun _ => decodeAlu_reads hn himm) fun _ => .error) fun _ =>
    .ite (fun _ => decode4x7x_reads hn himm) fun _ => .ite (fun _ => decode8xBx_reads hn himm) fun _ =>
      decodeCxFx_reads hn himm

end Maps

/-! ### The whole decoder -/

/-- The longest instruction behind its opcode byte: a ModR/M and a SIB byte, a displacement and an immediate, which a 66h
byte before the opcode makes shorter by two (R149). -/
theorem decodeOpcode_reads {pol : DecodePolicy} {p66 : Bool} {bs : List Byte} {o : Byte} :
    Reads (decodeOpcode pol p66 o bs) bs (10 - p66.toNat) fun i => i.wf = true := by
  have hp66 : p66.toNat ≤ 1 := p66.toNat_le
  have himm : (opWidth p66).bytes + p66.toNat ≤ 4 := by cases p66 <;> decide
  exact .ite (fun _ => takeByte_reads.bind fun _ _ _ => decodeTwo_reads (by omega)) fun _ =>
    decodeOne_reads (by omega) (by omega)

/-- The opcode byte is taken, and one byte for each mark that is set (R131). -/
theorem takePrefixes_length : ∀ {bs : List Byte} {p66 lock p66' lock' : Bool} {o : Byte} {rest : List Byte},
    takePrefixes p66 lock bs = .ok ((p66', lock', o), rest) →
    bs.length + p66.toNat + lock.toNat = rest.length + 1 + p66'.toNat + lock'.toNat
  | [], _, _, _, _, _, _, h => nomatch h
  | b :: bs, p66, lock, _, _, _, _, h => by
    unfold takePrefixes at h
    rw [List.length_cons]
    split at h
    · cases p66
      · have hrest := takePrefixes_length h
        rw [Bool.toNat_true] at hrest
        rw [Bool.toNat_false]
        omega
      · cases h
    · split at h
      · cases lock
        · have hrest := takePrefixes_length h
          rw [Bool.toNat_true] at hrest
          rw [Bool.toNat_false]
          omega
        · cases h
      · cases h
        rfl

/-- What the decoder answers is well-formed and at most 12 bytes long (R130). -/
theorem decodeInstr_reads {pol : DecodePolicy} {bs : List Byte} {i : Instr} {rest : List Byte}
    (h : decodeInstr pol bs = .ok (i, rest)) : i.wf = true ∧ rest.length < bs.length ∧ bs.length ≤ rest.length + 12 := by
  match hp : takePrefixes false false bs with
  | .error e => rw [decodeInstr, hp] at h; cases h
  | .ok ((p66, lock, o), mid) =>
    have hlen := takePrefixes_length hp
    have hlock := lock.toNat_le
    have hp66 := p66.toNat_le
    rw [decodeInstr, hp] at h
    obtain ⟨hwf, hle, hge⟩ := (Reads.check decodeOpcode_reads).holds i rest h
    simp only [Bool.toNat_false, Nat.add_zero] at hlen
    exact ⟨hwf, by omega, by omega⟩

/-- Settles O2: every row gives a well-formed instruction, and the budgets of its readers add up to 12 bytes. -/
theorem decodedInstructionIsWellFormed : Obligations.DecodedInstructionIsWellFormed := by
  intro pol bs i n h
  unfold decode at h
  match hd : decodeInstr pol bs with
  | .error e => rw [hd] at h; cases h
  | .ok (j, rest) =>
    rw [hd] at h
    obtain ⟨rfl, rfl⟩ := Prod.mk.inj (Except.ok.inj h)
    obtain ⟨hwf, hlt, hle⟩ := decodeInstr_reads hd
    exact ⟨hwf, by omega, by omega, by omega⟩

end Sys2Proof

/-! SUPPORT. Proofs about what no opcode line lists: every such encoding ends in its #UD error, whatever follows it. -/

namespace Sys2Proof

open Machine (unlistedOpcodes listedSeconds unlistedDigits digitOf)

section Unlisted

variable {pol : DecodePolicy} {p66 : Bool} {m : Byte}

/-- An error of the opcode maps is one of the decoder, with and without a 66h byte before it. -/
theorem decode_of_opcode_error (w : Width) {o : Byte} {bs : List Byte} {e : DecodeError}
    (h : decodeOpcode pol (decide (w = .b16)) o bs = .error e) (h66 : o ≠ 0x66 := by decide)
    (hF0 : o ≠ 0xF0 := by decide) : decode pol (pre66 w ++ o :: bs) = .error e := by
  rw [decode, decodeInstr_pre66 w bs h66 hF0, h]
  rfl

variable (pol p66) (bs : List Byte)

/-- No row of the one-byte map answers an opcode of R155 (a). -/
theorem decodeOpcode_unlisted : ∀ b ∈ unlistedOpcodes, decodeOpcode pol p66 b bs = .error .invalidOpcode := by
  simp only [unlistedOpcodes, List.forall_mem_cons, List.not_mem_nil, false_implies, implies_true, and_true]
  and_intros <;> rfl

/-- Behind 0Fh stands the two-byte map. -/
theorem decodeOpcode_0F (b : Byte) : decodeOpcode pol p66 0x0F (b :: bs) = decodeTwo pol p66 b.toNat bs := rfl

/-- No row of the two-byte map answers a second byte of R155 (b). -/
theorem decodeTwo_unlisted {b : Byte} (hb : b ∉ listedSeconds) : decodeTwo pol p66 b.toNat bs = .error .invalidOpcode := by
  have hbswap : ∀ b : Byte, 0xC8 ≤ b.toNat ∧ b.toNat < 0xD0 → b ∈ listedSeconds := by decide
  have hjcc : ∀ b : Byte, 0x80 ≤ b.toNat ∧ b.toNat < 0x90 →
      b ∈ listedSeconds ∨ jccInstr (b.toNat - 0x80) (.rel32 0) = none := by decide
  have hnum : b.toNat ∉ listedSeconds.map BitVec.toNat := fun h => by
    obtain ⟨c, hc, heq⟩ := List.mem_map.mp h
    exact hb (BitVec.eq_of_toNat_eq heq ▸ hc)
  unfold decodeTwo
  rw [if_neg fun h => hb (hbswap b h)]
  split
  next h => rw [(hjcc b h).resolve_left hb]
  split
  case h_13 => rfl
  all_goals
    next heq => exact absurd (heq ▸ by decide) hnum

/-! ### The digits that the group table marks "-" (R154, R155 c) -/

theorem decodeGroup2_unlisted {op : Nat} (hm : midField m ∈ ([6] : List (BitVec 3))) :
    decodeGroup2 pol p66 op (m :: bs) = .error .invalidOpcode :=
  if_pos (congrArg BitVec.toNat (List.mem_singleton.mp hm))

theorem decodeGroup3_unlisted {byteForm : Bool} (hm : midField m ∈ ([1] : List (BitVec 3))) :
    decodeGroup3 pol p66 byteForm (m :: bs) = .error .invalidOpcode :=
  if_pos (congrArg BitVec.toNat (List.mem_singleton.mp hm))

/-- A digit out of a list is none of the numbers outside it. -/
theorem toNat_digit_ne {d : BitVec 3} {digits : List (BitVec 3)} (hd : d ∈ digits) {k : Nat}
    (hout : BitVec.ofNat 3 k ∉ digits) : d.toNat ≠ k := fun h =>
  hout (by rwa [← h, BitVec.ofNat_toNat, BitVec.setWidth_eq])

theorem decodeGroup4_unlisted (hm : midField m ∈ ([2, 3, 4, 5, 6, 7] : List (BitVec 3))) :
    decodeGroup4 pol p66 (m :: bs) = .error .invalidOpcode := by
  simp only [decodeGroup4, takeByte_cons, bind, Except.bind]
  split
  case h_1 h => exact absurd h (toNat_digit_ne hm (by decide))
  case h_2 h => exact absurd h (toNat_digit_ne hm (by decide))
  case h_3 => rfl

theorem decodeGroup5_unlisted (hm : midField m ∈ ([3, 5, 7] : List (BitVec 3))) :
    decodeGroup5 pol p66 (m :: bs) = .error .invalidOpcode := by
  simp only [decodeGroup5, takeByte_cons, bind, Except.bind]
  split
  case h_6 => rfl
  all_goals next h => exact absurd h (toNat_digit_ne hm (by decide))

theorem decodeIdt_unlisted (hm : midField m ∈ ([0, 2, 4, 5, 6, 7] : List (BitVec 3))) :
    decodeIdt p66 (m :: bs) = .error .invalidOpcode :=
  if_neg (not_or.mpr ⟨toNat_digit_ne hm (by decide), toNat_digit_ne hm (by decide)⟩)

theorem decodeTwoBA_unlisted (hm : midField m ∈ ([0, 1, 2, 3] : List (BitVec 3))) :
    decodeTwo pol p66 0xBA (m :: bs) = .error .invalidOpcode :=
  if_pos ((by decide : ∀ d ∈ ([0, 1, 2, 3] : List (BitVec 3)), d.toNat < 4) _ hm)

theorem decode_unlistedDigits (w : Width) {op : List Byte} {digits : List (BitVec 3)}
    (hop : (op, digits) ∈ unlistedDigits) (hm : digitOf m ∈ digits) :
    decode pol (pre66 w ++ op ++ m :: bs) = .error .invalidOpcode := by
  have hdigit : midField m ∈ digits := hm
  simp only [unlistedDigits, List.mem_cons, Prod.mk.injEq, List.not_mem_nil, or_false] at hop
  rw [List.append_assoc]
  -- one case for each line of the group table, in its order
  rcases hop with hop | hop | hop | hop | hop | hop | hop | hop | hop | hop | hop | hop | hop | hop | hop
  all_goals
    obtain ⟨rfl, rfl⟩ := hop
    refine decode_of_opcode_error w ?_
  iterate 3 -- 8F, C6, C7
    have hne : midField m ≠ 0 := ne_of_mem_of_not_mem hdigit (by decide)
    exact if_neg hne
  iterate 6 exact decodeGroup2_unlisted _ _ bs hdigit -- C0, C1, D0 to D3
  iterate 2 exact decodeGroup3_unlisted _ _ bs hdigit -- F6, F7
  · exact decodeGroup4_unlisted _ _ bs hdigit
  · exact decodeGroup5_unlisted _ _ bs hdigit
  · exact decodeIdt_unlisted _ bs hdigit
  · exact decodeTwoBA_unlisted pol _ bs hdigit

end Unlisted

/-- Settles O5: no row answers an unlisted opcode or digit, and the operand types and repeated prefixes are checked first. -/
theorem unlistedEncodingsAreInvalid : Obligations.UnlistedEncodingsAreInvalid := by
  intro pol bs
  refine ⟨fun pre hpre => ?unlisted, fun m hm => ?idt, rfl, rfl, rfl, rfl, rfl, rfl⟩
  case unlisted =>
    obtain ⟨w, rfl⟩ : ∃ w, pre = pre66 w := by
      rcases List.mem_pair.mp hpre with rfl | rfl
      · exact ⟨.b32, rfl⟩
      · exact ⟨.b16, rfl⟩
    refine ⟨fun b hb => ?_, fun b hb => ?_, fun op digits m => decode_unlistedDigits pol bs w, fun m hm => ?_⟩
    · have hne : ∀ c, c ∉ unlistedOpcodes → b ≠ c := fun c => ne_of_mem_of_not_mem hb
      exact decode_of_opcode_error w (decodeOpcode_unlisted pol _ bs b hb) (hne _ (by simp [unlistedOpcodes]))
        (hne _ (by simp [unlistedOpcodes]))
    · exact decode_of_opcode_error w ((decodeOpcode_0F ..).trans (decodeTwo_unlisted pol _ bs hb))
    · have hreg : hiField m = 3 := hm
      exact decode_of_opcode_error w (if_pos hreg)
  case idt =>
    have hlisted : (midField m).toNat = 1 ∨ (midField m).toNat = 3 :=
      hm.imp (congrArg BitVec.toNat) (congrArg BitVec.toNat)
    refine ⟨fun hreg => decode_of_opcode_error .b32 ?_, decode_of_opcode_error .b16 (if_pos hlisted)⟩
    have hreg : hiField m = 3 := hreg
    exact (if_pos hlisted).trans (if_pos hreg)

/-- Settles O4: the decoder is evaluated on each of the words. -/
theorem sampleWordsDecode : Obligations.SampleWordsDecode :=
  ⟨rfl, rfl, rfl, rfl, rfl, rfl, rfl, rfl, rfl⟩

end Sys2Proof

/-! SUPPORT. Proofs about the core's fetch: bytes in memory at EIP are the head of what the decoder is given, and invalid bytes
take #UD. -/

namespace Sys2Proof.Machine

/-- Fetchable bytes are fetched as long as the window is. -/
theorem fetchBytes_eq_append {p : Config.Platform} {m : Memory} : ∀ {bs : List Byte} {a fuel : Nat}, bs.length ≤ fuel →
    (∀ k (h : k < bs.length), a + k < 2 ^ 32 ∧ busErr p .fetch (a + k) = false ∧ readByte m (a + k) = bs[k]) →
    ∃ tail, fetchBytes p m a fuel = bs ++ tail
  | [], a, fuel, _, _ => ⟨fetchBytes p m a fuel, rfl⟩
  | b :: bs, a, fuel + 1, hfuel, hbytes => by
    obtain ⟨hend, herr, hread⟩ := hbytes 0 (Nat.zero_lt_succ _)
    obtain ⟨tail, htail⟩ := fetchBytes_eq_append (p := p) (m := m) (a := a + 1) (Nat.le_of_succ_le_succ hfuel)
      fun k hk => by
        rw [Nat.add_assoc, Nat.add_comm 1 k]
        exact hbytes (k + 1) (Nat.succ_lt_succ hk)
    exact ⟨tail, by rw [fetchBytes, if_pos ⟨hend, herr⟩, htail, show readByte m a = b from hread, List.cons_append]⟩

/-- No instruction is longer than the window that the core looks at (R130). -/
theorem encode_length_le {i : Instr} (h : i.wf = true) : (encode i).length ≤ maxLength := by
  obtain ⟨-, -, hle, -⟩ := decodedInstructionIsWellFormed .default _ _ _ (decodeInvertsEncode .default i [] h)
  exact hle

/-- Settles O3: the window begins with the encoder's bytes, and decoding inverts encoding whatever follows them. -/
theorem encodedInstructionIsFetched : Obligations.EncodedInstructionIsFetched := by
  intro s i hwf hbytes
  obtain ⟨tail, htail⟩ := fetchBytes_eq_append (encode_length_le hwf) hbytes
  have hdecode : decode (policy s) (instrBytes s) = .ok (i, (encode i).length) :=
    calc decode (policy s) (instrBytes s) = decode (policy s) (encode i ++ tail) := congrArg _ htail
      _ = .ok (i, (encode i).length) := decodeInvertsEncode (policy s) i tail hwf
  rw [fetch, hdecode]

/-- The four ways of being no instruction that R155 lists raise #UD. -/
theorem runInstr_of_invalid {s : State} {e : DecodeError} (h : decode (policy s) (instrBytes s) = .error e)
    (he : e ∈ [.invalidOpcode, .repeatedPrefix, .invalidOperandType, .prefixUd]) :
    runInstr s = retire s (.error (.raise .invalidOpcode)) := by
  rw [runInstr_of_decode_error h]
  fin_cases he <;> rfl

/-- Settles O7: UD2 and an invalid decode both raise #UD, and the gate of vector 6 is entered. -/
theorem invalidOpcodesTakeUd : Obligations.InvalidOpcodesTakeUd := by
  intro s g hopens
  have hud := retire_raise_of_opens (s := s) .invalidOpcode hopens
  refine ⟨hud, fun b hrun htrap hint hdec => ?_⟩
  rw [coreStep_eq_runInstr hopens.supervisor hrun htrap hint]
  rcases hdec with h | h | h | h
  all_goals exact runInstr_of_invalid h (by decide) ▸ hud

end Sys2Proof.Machine

/-! SUPPORT. Proofs about LEA, the conversions and BSWAP: instructions that write one register and nothing else. -/

namespace Sys2Proof.Machine

/-! ### Writing one register -/

/-- What an instruction that writes the value `v` through a view of a register owes, and that it writes nothing else. -/
structure WroteView (w : Width) (r : Reg) (v : BitVec w.bits) (s t : State) : Prop where
  completed : completed s t
  view : t.view w r = v
  onlyReg : onlyReg (hostReg w r) s t
  upper : w = .b16 → ∀ k, 16 ≤ k → (t.reg r).getLsbD k = (s.reg r).getLsbD k
  flags : t.flags = s.flags

/-- A 16-bit write keeps bits 31:16 (R33). -/
theorem getLsbD_putLow16_upper (x : Dword) (v : BitVec 16) {k : Nat} (hk : 16 ≤ k) :
    (putLow16 x v).getLsbD k = x.getLsbD k := by
  by_cases h32 : k < 32
  · rw [getLsbD_putLow16 x v h32, if_neg (Nat.not_lt.mpr hk)]
  · rw [BitVec.getLsbD_of_ge _ _ (Nat.not_lt.mp h32), BitVec.getLsbD_of_ge _ _ (Nat.not_lt.mp h32)]

/-- An instruction whose body writes a view of a register; before it, it may have drawn free values up to number `d`. -/
theorem complete_setView (s : State) (w : Width) (r : Reg) (d : Nat) (v : BitVec w.bits) :
    ∃ t, complete s (.ok ((s.setDraws d).setView w r v)) = .next t ∧ WroteView w r v s t := by
  refine ⟨_, complete_ok, ?completed, ?view, ⟨?regs, ?bytes, ?intc⟩, ?upper, ?flags⟩
  case completed => simp [completed, goesTo, sameSystem]
  case view => exact State.view_setView_same (s.setDraws d) w r v
  case regs => exact fun q hq => State.reg_setView_ne (s.setDraws d) w r v hq
  case bytes => simp [sameBytes]
  case intc => simp
  case upper =>
    rintro rfl k hk
    have hreg : ((s.setDraws d).setView .b16 r v).reg r = putLow16 (s.reg r) v := State.reg_setReg_same ..
    exact (congrArg (BitVec.getLsbD · k) hreg).trans (getLsbD_putLow16_upper _ _ hk)
  case flags => simp

/-! ### Effective addresses -/

/-- Settles O51: shifting an index is multiplying it, and the result is written through the view. -/
theorem leaComputesTheAddress : Obligations.LeaComputesTheAddress := by
  intro w dst m s base index
  have haddr : effAddr m s = base + index + dispValue m.disp := by
    unfold effAddr base index
    rcases m.index with _ | ⟨i, k⟩
    · rfl
    · cases k <;> exact congrArg (_ + · + _) (BitVec.shiftLeft_eq_mul_twoPow (s.reg i) _)
  obtain ⟨t, hexec, ht⟩ := complete_setView s w dst s.draws ((effAddr m s).setWidth w.bits)
  exact ⟨t, hexec, ht.completed, haddr ▸ ht.view, ht.onlyReg, ht.upper, ht.flags⟩

/-! ### The value of a sign extension and of a byte swap -/

/-- A value under a word of its sign's digits is the value. -/
theorem toInt_signDigits_append {n : Nat} (x : BitVec n) :
    ((if x.msb then BitVec.allOnes n else 0#n) ++ x).toInt = x.toInt := by
  rw [BitVec.toInt_append, BitVec.toInt_eq_msb_cond x]
  rcases Nat.eq_zero_or_pos n with rfl | hn
  · simp
  · cases hsign : x.msb
    · simp [hn.ne']
    · simp [BitVec.toInt_allOnes, hn, hn.ne', neg_add_eq_sub]

/-- Byte `k` of the swapped dword is byte `3 - k` (R260). -/
theorem extract_swapBytes (x : Dword) {k : Nat} (hk : k < 4) :
    (swapBytes x).extractLsb' (8 * k) 8 = x.extractLsb' (24 - 8 * k) 8 := by
  unfold swapBytes
  interval_cases k
  · exact BitVec.extractLsb'_append_eq_right
  · rw [BitVec.extractLsb'_append_eq_of_le (by decide)]
    exact BitVec.extractLsb'_append_eq_right
  · rw [BitVec.extractLsb'_append_eq_of_le (by decide), BitVec.extractLsb'_append_eq_of_le (by decide)]
    exact BitVec.extractLsb'_append_eq_right
  · rw [BitVec.extractLsb'_append_eq_of_le (by decide), BitVec.extractLsb'_append_eq_of_le (by decide),
      BitVec.extractLsb'_append_eq_of_le (by decide)]
    exact BitVec.extractLsb'_eq_self

/-- Settles O52: each writes one register, and the value written is a sign extension, the sign's digits or the swapped
bytes. -/
theorem conversionsKeepTheValue : Obligations.ConversionsKeepTheValue := by
  intro s
  refine ⟨?cbw, ?cwde, ?cwd, ?cdq, fun p66 r => ?bswap⟩
  case cbw =>
    obtain ⟨t, hexec, ht⟩ := complete_setView s .b16 .eax s.draws (BitVec.signExtend 16 (s.view .b8 .eax))
    have hvalue := (congrArg BitVec.toInt ht.view).trans (BitVec.toInt_signExtend_of_le (by decide))
    exact ⟨t, hexec, ht.completed, hvalue, ht.upper rfl, ht.onlyReg, ht.flags⟩
  case cwde =>
    obtain ⟨t, hexec, ht⟩ := complete_setView s .b32 .eax s.draws (BitVec.signExtend 32 (s.view .b16 .eax))
    have hvalue := (congrArg BitVec.toInt ht.view).trans (BitVec.toInt_signExtend_of_le (by decide))
    exact ⟨t, hexec, ht.completed, hvalue, ht.onlyReg, ht.flags⟩
  case cwd =>
    obtain ⟨t, hexec, ht⟩ := complete_setView s .b16 .edx s.draws (if BitVec.msb (s.view .b16 .eax) then 0xFFFF else 0)
    have heax : t.view .b16 .eax = s.view .b16 .eax :=
      congrArg (BitVec.extractLsb' 0 16) (ht.onlyReg.1 .eax (by decide))
    refine ⟨t, hexec, ht.completed, ?_, ht.upper rfl, ht.onlyReg, ht.flags⟩
    rw [ht.view, heax]
    exact toInt_signDigits_append (n := 16) _
  case cdq =>
    obtain ⟨t, hexec, ht⟩ := complete_setView s .b32 .edx s.draws (if (s.reg .eax).msb then 0xFFFFFFFF else 0)
    have heax : t.reg .eax = s.reg .eax := ht.onlyReg.1 .eax (by decide)
    have hedx : t.reg .edx = if (s.reg .eax).msb then 0xFFFFFFFF else 0 := ht.view
    refine ⟨t, hexec, ht.completed, ?_, ht.onlyReg, ht.flags⟩
    rw [hedx, heax]
    exact toInt_signDigits_append (n := 32) _
  case bswap =>
    cases p66
    · obtain ⟨t, hexec, ht⟩ := complete_setView s .b32 r s.draws (swapBytes (s.reg r))
      have hreg : t.reg r = swapBytes (s.reg r) := ht.view
      exact ⟨t, hexec, ht.completed, fun _ k hk => hreg ▸ extract_swapBytes _ hk, ht.onlyReg, ht.flags⟩
    · obtain ⟨t, hexec, ht⟩ := complete_setView s .b32 r (s.draws + 1) s.freeDword
      exact ⟨t, hexec, ht.completed, nofun, ht.onlyReg, ht.flags⟩

end Sys2Proof.Machine

/-! SUPPORT. Proofs about the arithmetic instructions: what reading the operands and writing one of them leaves for any
instruction that does so, and the values and flags of ADD, ADC, SUB, SBB, CMP, TEST, INC, DEC, NEG and NOT. -/

namespace Sys2Proof.Machine

/-! ### Reading and writing operands -/

/-- Reading an operand draws free values and does nothing else. -/
theorem readPlace_setDraws {w : Width} {p : Place} {s t : State} {v : BitVec w.bits} (h : readPlace w p s = .ok (v, t)) :
    ∃ d, t = s.setDraws d := by
  rcases readPlace_state h with rfl | rfl
  · exact ⟨_, rfl⟩
  · exact ⟨_, rfl⟩

/-- Reading the source of an arithmetic form does no more: only an r/m source is read through a place. -/
theorem aluSource_setDraws {x : AluOperands} {s t : State} {v : BitVec (aluWidth x).bits}
    (h : aluSource x s = .ok (v, t)) : ∃ d, t = s.setDraws d := by
  cases x with
  | rRm w dst src => exact readPlace_setDraws h
  | rmR | accImm | rmImm | rmImm8 => exact ⟨_, (Prod.mk.inj (Except.ok.inj h)).2.symm⟩

/-- So does reading the destination and then the source. -/
theorem aluOperands_setDraws {x : AluOperands} {p : Place} {s s1 s2 : State} {a b : BitVec (aluWidth x).bits}
    (hread : readPlace (aluWidth x) p s = .ok (a, s1)) (hsource : aluSource x s1 = .ok (b, s2)) :
    ∃ d, s2 = s.setDraws d := by
  obtain ⟨d, rfl⟩ := readPlace_setDraws hread
  obtain ⟨e, rfl⟩ := aluSource_setDraws hsource
  exact ⟨e, rfl⟩

/-- Stored bytes are loaded as the item they came from. -/
theorem ofNat_loadLE_storeLE {w : Width} {m : Memory} {a : Nat} (v : BitVec w.bits) (hm : m.wf = true)
    (ha : a + w.bytes ≤ 2 ^ 32) : BitVec.ofNat w.bits (loadLE (storeLE m a w.bytes v.toNat) a w.bytes) = v := by
  have hsize : 256 ^ w.bytes = 2 ^ w.bits := by cases w <;> rfl
  rw [loadLE_storeLE _ _ _ hm ha, hsize, Nat.mod_eq_of_lt v.isLt, BitVec.ofNat_toNat, BitVec.setWidth_eq]

/-- A place holds what was written to it. -/
theorem writePlace_holdsAt {w : Width} {p : Place} {v : BitVec w.bits} {s t : State} (h : writePlace w p v s = .ok t) :
    holdsAt w p v s t := by
  cases p with
  | reg r =>
    obtain rfl : s.setView w r v = t := Except.ok.inj h
    exact s.view_setView_same w r v
  | mem a =>
    intro hm hroute
    obtain rfl : s.setMem (storeLE s.mem a.toNat w.bytes v.toNat) = t :=
      Except.ok.inj ((writeMem_storage v hroute).symm.trans h)
    exact ofNat_loadLE_storeLE v hm (route_storage hroute).1

/-- A write after reads, seen from the state before them. -/
theorem wrote_of_writePlace {w : Width} {p : Place} {v : BitVec w.bits} {s u : State} {d : Nat}
    (h : writePlace w p v (s.setDraws d) = .ok u) : wrote w p v u s u := by
  refine ⟨rfl, rfl, rfl, ?holds, ?frame⟩
  case holds =>
    have hholds := writePlace_holdsAt h
    cases p <;> exact hholds
  case frame =>
    have hframe := writePlace_frame h
    cases p <;> exact hframe

/-- An instruction whose body reads its operands, writes one of them, sets the flags and has drawn up to number `e`. -/
theorem complete_writePlace {w : Width} {p : Place} {v : BitVec w.bits} {s u : State} {d : Nat} (fl : EFlags) (e : Nat)
    (h : writePlace w p v (s.setDraws d) = .ok u) :
    ∃ t, complete s (.ok ((u.setFlags fl).setDraws e)) = .next t ∧ completed s t ∧ wrote w p v u s t ∧ t.flags = fl := by
  obtain ⟨core, -⟩ := writePlace_core h
  refine ⟨_, complete_ok, ?completed, ?wrote, rfl⟩
  case completed =>
    exact ⟨core.nextEip, core.run, rfl, core.idtr, core.pmU, core.esp0, core.cpuErr, core.plat, core.agenda⟩
  case wrote =>
    have hwrote := wrote_of_writePlace h
    cases p <;> exact hwrote

/-- An instruction whose body reads its operands and sets the flags. -/
theorem complete_setFlags (s : State) (d : Nat) (fl : EFlags) :
    ∃ t, complete s (.ok ((s.setDraws d).setFlags fl)) = .next t ∧ completed s t ∧ sameData s t ∧ t.flags = fl :=
  ⟨_, complete_ok, ⟨rfl, rfl, rfl, rfl, rfl, rfl, rfl, rfl, rfl⟩, ⟨rfl, fun _ => rfl, rfl⟩, rfl⟩

/-! ### The result of an operation -/

/-- The result with value `r` whose zero and sign flags are read off it (R14). -/
def resultWith {n : Nat} (r : BitVec n) (cf o : Bool) : AluResult n := ⟨r, cf, decide (r = 0), r.msb, o⟩

@[simp] theorem withResult_resultWith {n : Nat} (f : EFlags) (r : BitVec n) (cf o : Bool) :
    f.withResult (resultWith r cf o) = statusFlags f r cf o := rfl

@[simp] theorem withResultKeepCarry_resultWith {n : Nat} (f : EFlags) (r : BitVec n) (cf o : Bool) :
    f.withResultKeepCarry (resultWith r cf o) = statusFlags f r f.cf o := rfl

@[simp] theorem carryIn_false (n : Nat) : carryIn n false = 0#n := rfl

theorem addCarry_eq (n : Nat) (a b : BitVec n) (c : Bool) : addCarry n a b c =
    resultWith (a + b + carryIn n c) (sumCarries n a b c) (sumOverflows a b (a + b + carryIn n c)) := by
  rw [← addCarry_of, ← addCarry_value]
  rfl

theorem subBorrow_eq (n : Nat) (a b : BitVec n) (c : Bool) : subBorrow n a b c =
    resultWith (a - b - carryIn n c) (differenceBorrows n a b c) (differenceOverflows a b (a - b - carryIn n c)) := by
  rw [← subBorrow_of, ← subBorrow_value, ← subBorrow_cf]
  rfl

theorem addOp_eq (n : Nat) (a b : BitVec n) (c : Bool) :
    addOp n a b c = resultWith (a + b) (sumCarries n a b false) (sumOverflows a b (a + b)) := by
  rw [addOp, addCarry_eq, carryIn_false, BitVec.add_zero]

theorem subOp_eq (n : Nat) (a b : BitVec n) (c : Bool) :
    subOp n a b c = resultWith (a - b) (differenceBorrows n a b false) (differenceOverflows a b (a - b)) := by
  rw [subOp, subBorrow_eq, carryIn_false, BitVec.sub_zero]

theorem andOp_eq (n : Nat) (a b : BitVec n) (c : Bool) : andOp n a b c = resultWith (a &&& b) false false := rfl

/-! ### The forms of R200 -/

section Alu

variable {f : (n : Nat) → BitVec n → BitVec n → Bool → AluResult n} {x : AluOperands} {s s1 s2 u : State}
  {a b : BitVec (aluWidth x).bits}

theorem aluBody_store (hread : readPlace (aluWidth x) (aluDest x s) s = .ok (a, s1))
    (hsource : aluSource x s1 = .ok (b, s2))
    (hwrite : writePlace (aluWidth x) (aluDest x s) (f _ a b s.flags.cf).value s2 = .ok u) :
    aluBody f true x s = .ok (u.setFlags (s.flags.withResult (f _ a b s.flags.cf))) := by
  simp only [aluBody, hread, hsource, hwrite, bind, Except.bind, pure, Except.pure, if_true]

theorem aluBody_compare (hread : readPlace (aluWidth x) (aluDest x s) s = .ok (a, s1))
    (hsource : aluSource x s1 = .ok (b, s2)) :
    aluBody f false x s = .ok (s2.setFlags (s.flags.withResult (f _ a b s.flags.cf))) := by
  simp only [aluBody, hread, hsource, bind, Except.bind, pure, Except.pure, Bool.false_eq_true, if_false]

end Alu

/-- An instruction of the shape of R200 stores the value of its operation and sets the flags of it. -/
theorem storesAlu_of_op {mk : AluOperands → Instr} {f : (n : Nat) → BitVec n → BitVec n → Bool → AluResult n}
    {val : (n : Nat) → BitVec n → BitVec n → Bool → BitVec n} {cf : (n : Nat) → BitVec n → BitVec n → Bool → Bool}
    {o : {n : Nat} → BitVec n → BitVec n → BitVec n → Bool}
    (hexec : ∀ x s, exec (mk x) s = complete s (aluBody f true x s))
    (hop : ∀ n a b c, f n a b c = resultWith (val n a b c) (cf n a b c) (o a b (val n a b c))) :
    StoresAlu mk val cf o := by
  intro x s s1 s2 u a b hread hsource hwrite
  obtain ⟨d, rfl⟩ := aluOperands_setDraws hread hsource
  have hbody := aluBody_store (f := f) hread hsource (by rw [hop]; exact hwrite)
  rw [hexec, hbody, hop, withResult_resultWith]
  exact complete_writePlace (statusFlags s.flags _ (cf _ a b _) (o a b _)) u.draws hwrite

/-- Settles O33: the sum is addCarry's, for ADD without a carry. -/
theorem addStoresTheSum : Obligations.AddStoresTheSum :=
  ⟨storesAlu_of_op (fun _ _ => rfl) addOp_eq, storesAlu_of_op (fun _ _ => rfl) addCarry_eq⟩

/-- Settles O34: the difference is subBorrow's, for SUB without a borrow. -/
theorem subStoresTheDifference : Obligations.SubStoresTheDifference :=
  ⟨storesAlu_of_op (fun _ _ => rfl) subOp_eq, storesAlu_of_op (fun _ _ => rfl) subBorrow_eq⟩

/-! ### CMP and TEST -/

theorem exec_cmp {x : AluOperands} {s s1 s2 : State} {a b : BitVec (aluWidth x).bits}
    (hread : readPlace (aluWidth x) (aluDest x s) s = .ok (a, s1)) (hsource : aluSource x s1 = .ok (b, s2)) :
    ∃ t, exec (.cmp x) s = .next t ∧ completed s t ∧ sameData s t ∧
      t.flags = statusFlags s.flags (a - b) (differenceBorrows _ a b false) (differenceOverflows a b (a - b)) := by
  obtain ⟨d, rfl⟩ := aluOperands_setDraws hread hsource
  have hexec : exec (.cmp x) s = complete s (aluBody subOp false x s) := rfl
  rw [hexec, aluBody_compare hread hsource, subOp_eq, withResult_resultWith]
  exact complete_setFlags s d _

theorem exec_test {x : TestOperands} {s s1 : State} {a : BitVec (testWidth x).bits}
    (hread : readPlace (testWidth x) (testFirst x s) s = .ok (a, s1)) :
    ∃ t, exec (.test x) s = .next t ∧ completed s t ∧ sameData s t ∧
      t.flags = statusFlags s.flags (a &&& testSecond x s) false false := by
  obtain ⟨d, rfl⟩ := readPlace_setDraws hread
  have hbody : testBody x s =
      .ok ((s.setDraws d).setFlags (statusFlags s.flags (a &&& testSecond x s) false false)) := by
    simp only [testBody, hread, bind, Except.bind, pure, Except.pure, andOp_eq, withResult_resultWith]
  have hexec : exec (.test x) s = complete s (testBody x s) := rfl
  rw [hexec, hbody]
  exact complete_setFlags s d _

/-- Settles O36: both bodies only read, and set the flags of the difference and of the AND. -/
theorem compareAndTestSetFlags : Obligations.CompareAndTestSetFlags :=
  ⟨fun _ _ _ _ _ _ => exec_cmp, fun _ _ _ _ => exec_test⟩

/-! ### The conditions after a comparison -/

/-- What the flags of a difference say of its operands: equal, below, less (R14, R205). -/
structure Compared {n : Nat} (a b : BitVec n) (f : EFlags) : Prop where
  zf : f.zf = decide (a = b)
  cf : f.cf = decide (a.toNat < b.toNat)
  less : (f.sf != f.of) = decide (a.toInt < b.toInt)

/-- The sign of the narrowed difference is wrong exactly if it overflows, so that SF and OF together give the exact sign. -/
theorem msb_sub_bne_differenceOverflows {n : Nat} (hn : 0 < n) (a b : BitVec n) :
    ((a - b).msb != differenceOverflows a b (a - b)) = decide (a.toInt < b.toInt) := by
  have hpow := two_pow_eq_double hn
  have ha := And.intro a.le_toInt a.toInt_lt
  have hb := And.intro b.le_toInt b.toInt_lt
  have hexact : a - b = BitVec.ofInt n (a.toInt - b.toInt) := by
    rw [ofInt_sub, BitVec.ofInt_toInt, BitVec.ofInt_toInt]
  have hwrong : (a - b).msb ≠ decide (a.toInt - b.toInt < 0) ↔ differenceOverflows a b (a - b) = true := by
    have hover := differenceOverflows_iff hn a b false
    rw [carryIn_false, BitVec.sub_zero, Bool.toNat_false, Nat.cast_zero, sub_zero] at hover
    rw [hover, hexact]
    exact msb_ofInt_ne_sign_iff hn (by omega) (by omega)
  have hxor : ∀ {sign less wrong : Bool}, (sign ≠ less ↔ wrong = true) → (sign != wrong) = less := by decide
  exact (hxor hwrong).trans (decide_eq_decide.mpr sub_neg)

theorem compared_statusFlags {n : Nat} (hn : 0 < n) (f : EFlags) (a b : BitVec n) :
    Compared a b (statusFlags f (a - b) (differenceBorrows n a b false) (differenceOverflows a b (a - b))) where
  zf := decide_eq_decide.mpr sub_eq_zero
  cf := rfl
  less := msb_sub_bne_differenceOverflows hn a b

theorem not_eq_decide {c : Bool} {p q : Prop} [Decidable p] [Decidable q] (h : c = decide p) (hq : ¬ p ↔ q) :
    (!c) = decide q := by
  rw [h, ← decide_not, decide_eq_decide, hq]

section Conditions

variable {n : Nat} {a b : BitVec n} {f : EFlags}

theorem Compared.belowOrEqual (h : Compared a b f) : (f.cf || f.zf) = decide (a.toNat ≤ b.toNat) := by
  rw [h.cf, h.zf, ← Bool.decide_or, decide_eq_decide, ← BitVec.toNat_inj, le_iff_lt_or_eq]

theorem Compared.lessOrEqual (h : Compared a b f) : (f.zf || f.sf != f.of) = decide (a.toInt ≤ b.toInt) := by
  rw [h.less, h.zf, ← Bool.decide_or, decide_eq_decide, ← BitVec.toInt_inj, or_comm, le_iff_lt_or_eq]

theorem Compared.above (h : Compared a b f) : (!f.cf && !f.zf) = decide (b.toNat < a.toNat) := by
  rw [← Bool.not_or]
  exact not_eq_decide h.belowOrEqual not_le

theorem Compared.greaterOrEqual (h : Compared a b f) : (f.sf == f.of) = decide (b.toInt ≤ a.toInt) := by
  rw [← Bool.not_not (f.sf == f.of)]
  exact not_eq_decide h.less not_lt

theorem Compared.greater (h : Compared a b f) : (!f.zf && f.sf == f.of) = decide (b.toInt < a.toInt) := by
  rw [← Bool.not_not (f.sf == f.of), ← Bool.not_or]
  exact not_eq_decide h.lessOrEqual not_le

end Conditions

/-- A conditional jump goes to its target if its condition holds and to NextEIP if not (R395). -/
theorem jumpIf_of_condition {cond : Bool} {p : Prop} [Decidable p] (rel : Rel) (u : State) (h : cond = decide p) :
    (p → ∃ v, jumpIf cond rel u = .next v ∧ v.eip = u.nextEip + relValue rel) ∧
      (¬ p → ∃ v, jumpIf cond rel u = .next v ∧ v.eip = u.nextEip) := by
  subst h
  constructor
  · intro hp
    exact ⟨_, retire_ok, if_pos (decide_eq_true hp)⟩
  · intro hp
    exact ⟨_, retire_ok, if_neg (mt of_decide_eq_true hp)⟩

/-- Settles O38: CMP leaves the flags of the difference, and each condition is read off them by a lemma of `Compared`. -/
theorem jumpsAfterCompare : Obligations.JumpsAfterCompare := by
  intro x s s1 s2 t u a b rel hread hsource hexec hflags mk p hmem
  have hcmp : Compared a b u.flags := by
    obtain ⟨t', hexec', -, -, hflags'⟩ := exec_cmp hread hsource
    obtain rfl : t' = t := Host.Outcome.next.inj (hexec'.symm.trans hexec)
    rw [hflags, hflags']
    exact compared_statusFlags (Width.bits_pos _) _ a b
  simp only [List.mem_cons, Prod.mk.injEq, List.not_mem_nil, or_false] at hmem
  rcases hmem with h | h | h | h | h | h | h | h | h | h
  all_goals obtain ⟨rfl, rfl⟩ := h
  · exact jumpIf_of_condition rel u hcmp.zf
  · exact jumpIf_of_condition rel u (not_eq_decide hcmp.zf Iff.rfl)
  · exact jumpIf_of_condition rel u hcmp.cf
  · exact jumpIf_of_condition rel u (not_eq_decide hcmp.cf not_lt)
  · exact jumpIf_of_condition rel u hcmp.belowOrEqual
  · exact jumpIf_of_condition rel u hcmp.above
  · exact jumpIf_of_condition rel u hcmp.less
  · exact jumpIf_of_condition rel u hcmp.greaterOrEqual
  · exact jumpIf_of_condition rel u hcmp.lessOrEqual
  · exact jumpIf_of_condition rel u hcmp.greater

/-! ### INC, DEC, NEG and NOT -/

theorem Width.one_lt_bits (w : Width) : 1 < w.bits := by cases w <;> decide

/-- The most negative value. -/
theorem eq_minSigned_iff {n : Nat} (hn : 0 < n) (a : BitVec n) :
    a = BitVec.ofNat n (2 ^ (n - 1)) ↔ a.toInt = -2 ^ (n - 1) := by
  have hmin : BitVec.ofNat n (2 ^ (n - 1)) = BitVec.intMin n :=
    BitVec.eq_of_toNat_eq ((BitVec.toNat_ofNat ..).trans (BitVec.toNat_twoPow n (n - 1)).symm)
  rw [hmin, ← BitVec.toInt_inj, BitVec.toInt_intMin_of_pos hn]

/-- The most positive value. -/
theorem eq_maxSigned_iff {n : Nat} (a : BitVec n) :
    a = BitVec.ofNat n (2 ^ (n - 1) - 1) ↔ a.toInt = 2 ^ (n - 1) - 1 := by
  have hmax : BitVec.ofNat n (2 ^ (n - 1) - 1) = BitVec.intMax n := by
    have hlt : 2 ^ (n - 1) - 1 < 2 ^ n := by
      have hle := Nat.pow_le_pow_right (n := 2) (by decide) (Nat.sub_le n 1)
      have hpos := Nat.two_pow_pos n
      omega
    apply BitVec.eq_of_toNat_eq
    rw [BitVec.toNat_ofNat, Nat.mod_eq_of_lt hlt, BitVec.toNat_intMax]
  rw [hmax, ← BitVec.toInt_inj, BitVec.toInt_intMax]

/-- INC overflows (R206): adding 1 leaves the signed range from its top only. -/
theorem sumOverflows_one {n : Nat} (hn : 1 < n) (a : BitVec n) :
    sumOverflows a 1 (a + 1) = decide (a = BitVec.ofNat n (2 ^ (n - 1) - 1)) := by
  have hone : (1 : BitVec n).toInt = 1 := BitVec.toInt_one hn
  have hover := sumOverflows_iff (Nat.zero_lt_of_lt hn) a 1 false
  rw [carryIn_false, BitVec.add_zero, hone] at hover
  rw [Bool.eq_iff_iff, hover, decide_eq_true_eq, eq_maxSigned_iff, Bool.toNat_false]
  have hlo := a.le_toInt
  have hhi := a.toInt_lt
  omega

/-- DEC overflows (R207): subtracting 1 leaves the signed range from its bottom only. -/
theorem differenceOverflows_one {n : Nat} (hn : 1 < n) (a : BitVec n) :
    differenceOverflows a 1 (a - 1) = decide (a = BitVec.ofNat n (2 ^ (n - 1))) := by
  have hone : (1 : BitVec n).toInt = 1 := BitVec.toInt_one hn
  have hover := differenceOverflows_iff (Nat.zero_lt_of_lt hn) a 1 false
  rw [carryIn_false, BitVec.sub_zero, hone] at hover
  rw [Bool.eq_iff_iff, hover, decide_eq_true_eq, eq_minSigned_iff (Nat.zero_lt_of_lt hn), Bool.toNat_false]
  have hlo := a.le_toInt
  have hhi := a.toInt_lt
  omega

/-- NEG overflows (R208): the negative of the bottom of the signed range is out of it. -/
theorem differenceOverflows_zero {n : Nat} (hn : 0 < n) (b : BitVec n) :
    differenceOverflows 0 b (-b) = decide (b = BitVec.ofNat n (2 ^ (n - 1))) := by
  have hzero : (0 : BitVec n).toInt = 0 := BitVec.toInt_zero
  have hover := differenceOverflows_iff hn 0 b false
  rw [carryIn_false, BitVec.sub_zero, zero_sub, hzero] at hover
  rw [Bool.eq_iff_iff, hover, decide_eq_true_eq, eq_minSigned_iff hn, Bool.toNat_false]
  have hlo := b.le_toInt
  have hhi := b.toInt_lt
  omega

theorem incOp_eq {n : Nat} (hn : 1 < n) (a : BitVec n) :
    incOp n a = resultWith (a + 1) (sumCarries n a 1 false) (decide (a = BitVec.ofNat n (2 ^ (n - 1) - 1))) := by
  rw [incOp, addCarry_eq, carryIn_false, BitVec.add_zero, sumOverflows_one hn]

theorem decOp_eq {n : Nat} (hn : 1 < n) (a : BitVec n) :
    decOp n a = resultWith (a - 1) (differenceBorrows n a 1 false) (decide (a = BitVec.ofNat n (2 ^ (n - 1)))) := by
  rw [decOp, subBorrow_eq, carryIn_false, BitVec.sub_zero, differenceOverflows_one hn]

theorem differenceBorrows_zero {n : Nat} (b : BitVec n) : differenceBorrows n 0 b false = decide (b ≠ 0) := by
  have hzero : (0 : BitVec n).toNat = 0 := BitVec.toNat_zero
  rw [differenceBorrows, decide_eq_decide, hzero, Bool.toNat_false, Nat.add_zero, Nat.pos_iff_ne_zero, ne_eq, ne_eq,
    ← BitVec.toNat_inj, hzero]

theorem negOp_eq {n : Nat} (hn : 0 < n) (b : BitVec n) :
    negOp n b = resultWith (-b) (decide (b ≠ 0)) (decide (b = BitVec.ofNat n (2 ^ (n - 1)))) := by
  rw [negOp, subBorrow_eq, carryIn_false, BitVec.sub_zero, zero_sub, differenceOverflows_zero hn,
    differenceBorrows_zero]

theorem incBody_ok {f : (n : Nat) → BitVec n → AluResult n} {x : IncOperands} {s s1 u : State}
    {a : BitVec (incWidth x).bits} (hread : readPlace (incWidth x) (incDest x s) s = .ok (a, s1))
    (hwrite : writePlace (incWidth x) (incDest x s) (f _ a).value s1 = .ok u) :
    incBody f x s = .ok (u.setFlags (s.flags.withResultKeepCarry (f _ a))) := by
  simp only [incBody, hread, hwrite, bind, Except.bind, pure, Except.pure]

theorem unaryBody_ok {f : (n : Nat) → BitVec n → BitVec n} {fl : (n : Nat) → BitVec n → EFlags → EFlags} {w : Width}
    {dst : RM} {s s1 u : State} {a : BitVec w.bits} (hread : readPlace w (place dst s) s = .ok (a, s1))
    (hwrite : writePlace w (place dst s) (f _ a) s1 = .ok u) :
    unaryBody f fl w dst s = .ok (u.setFlags (fl _ a s.flags)) := by
  simp only [unaryBody, hread, hwrite, bind, Except.bind, pure, Except.pure]

/-- An instruction of the shape of INC and DEC stores the value of its operation and sets the flags of it but CF. -/
theorem storesInc_of_op {mk : IncOperands → Instr} {f : (n : Nat) → BitVec n → AluResult n}
    {val : (n : Nat) → BitVec n → BitVec n} {cf : (n : Nat) → BitVec n → Bool} {o : {n : Nat} → BitVec n → Bool}
    (hexec : ∀ x s, exec (mk x) s = complete s (incBody f x s))
    (hop : ∀ {n}, 1 < n → ∀ a, f n a = resultWith (val n a) (cf n a) (o a)) : StoresInc mk val o := by
  intro x s s1 u a hread hwrite
  obtain ⟨d, rfl⟩ := readPlace_setDraws hread
  have hres := hop (Width.one_lt_bits (incWidth x)) a
  have hbody := incBody_ok (f := f) hread (by rw [hres]; exact hwrite)
  rw [hexec, hbody, hres, withResultKeepCarry_resultWith]
  exact complete_writePlace (statusFlags s.flags _ _ (o a)) u.draws hwrite

/-- An instruction of the shape of NEG and NOT stores its value and sets its flags. -/
theorem storesUnary_of_op {mk : Width → RM → Instr} {f val : (n : Nat) → BitVec n → BitVec n}
    {fl : (n : Nat) → BitVec n → EFlags → EFlags} {flags : {n : Nat} → EFlags → BitVec n → EFlags}
    (hexec : ∀ w dst s, exec (mk w dst) s = complete s (unaryBody f fl w dst s))
    (hval : ∀ {n}, 0 < n → ∀ a, f n a = val n a) (hfl : ∀ {n}, 0 < n → ∀ a g, fl n a g = flags g a) :
    StoresUnary mk val flags := by
  intro w dst s s1 u a hread hwrite
  obtain ⟨d, rfl⟩ := readPlace_setDraws hread
  have hbody := unaryBody_ok (f := f) (fl := fl) hread (by rw [hval (Width.bits_pos w)]; exact hwrite)
  rw [hexec, hbody, hfl (Width.bits_pos w)]
  exact complete_writePlace (flags s.flags a) u.draws hwrite

/-- Settles O39: 1 is added or subtracted, and only one end of the signed range overflows. -/
theorem incDecStepByOne : Obligations.IncDecStepByOne :=
  ⟨storesInc_of_op (fun _ _ => rfl) incOp_eq, storesInc_of_op (fun _ _ => rfl) decOp_eq⟩

/-- Settles O40: NEG is a subtraction from 0, NOT sets no flag. -/
theorem negAndNot : Obligations.NegAndNot := by
  constructor
  · refine storesUnary_of_op (fun _ _ _ => rfl) (fun hn b => ?_) (fun hn b g => ?_)
    · rw [negOp_eq hn]
      rfl
    · rw [negOp_eq hn, withResult_resultWith]
  · exact storesUnary_of_op (fun _ _ _ => rfl) (fun _ _ => rfl) (fun _ _ _ => rfl)

end Sys2Proof.Machine

/-! SUPPORT. Proofs about the logical instructions that store their result: AND, OR and XOR. -/

namespace Sys2Proof.Machine

/-- A logical result carries nothing out and never overflows, whatever its value (R240). -/
theorem logicResult_eq {n : Nat} (r : BitVec n) : logicResult r = resultWith r false false := rfl

theorem orOp_eq (n : Nat) (a b : BitVec n) (c : Bool) : orOp n a b c = resultWith (a ||| b) false false :=
  logicResult_eq (a ||| b)

theorem xorOp_eq (n : Nat) (a b : BitVec n) (c : Bool) : xorOp n a b c = resultWith (a ^^^ b) false false :=
  logicResult_eq (a ^^^ b)

/-- Settles O35: the three have the shape of R200, each with the logical result of its bitwise operation. -/
theorem logicStoresTheResult : Obligations.LogicStoresTheResult := by
  refine ⟨?and, ?or, ?xor⟩
  case and => exact storesAlu_of_op (fun _ _ => rfl) andOp_eq
  case or => exact storesAlu_of_op (fun _ _ => rfl) orOp_eq
  case xor => exact storesAlu_of_op (fun _ _ => rfl) xorOp_eq

end Sys2Proof.Machine

/-! SUPPORT. Proofs about the bit instructions BT, BTC, BTR and BTS: the one bit that an operation with the mask changes, and
the flags after a bit test. -/

namespace Sys2Proof.Machine

/-! ### The bits of the mask and of the operations with it -/

theorem getLsbD_bitMask {n k : Nat} (i : Nat) (hk : k < n) : (bitMask n i).getLsbD k = decide (k = i) := by
  have htwoPow : bitMask n i = BitVec.twoPow n i := rfl
  rw [htwoPow, BitVec.getLsbD_twoPow]
  by_cases h : k = i
  · simp [← h, hk]
  · simp [h, Ne.symm h]

theorem getLsbD_xor_bitMask {n k : Nat} (b : BitVec n) (i : Nat) (hk : k < n) :
    (b ^^^ bitMask n i).getLsbD k = if k = i then !b.getLsbD k else b.getLsbD k := by
  rw [BitVec.getLsbD_xor, getLsbD_bitMask i hk]
  by_cases h : k = i <;> simp [h]

theorem getLsbD_and_not_bitMask {n k : Nat} (b : BitVec n) (i : Nat) (hk : k < n) :
    (b &&& ~~~ bitMask n i).getLsbD k = if k = i then false else b.getLsbD k := by
  rw [BitVec.getLsbD_and, BitVec.getLsbD_not, getLsbD_bitMask i hk]
  by_cases h : k = i <;> simp [h, hk]

theorem getLsbD_or_bitMask {n k : Nat} (b : BitVec n) (i : Nat) (hk : k < n) :
    (b ||| bitMask n i).getLsbD k = if k = i then true else b.getLsbD k := by
  rw [BitVec.getLsbD_or, getLsbD_bitMask i hk]
  by_cases h : k = i <;> simp [h]

/-! ### The flags after a bit test -/

/-- The flags that a bit test sets in `s`: the bit in CF, and two fresh free values in SF and OF (R261). -/
def testedFlags (c : Bool) (s : State) : EFlags :=
  { s.flags with cf := c, sf := s.freeBit, of := s.drawn.freeBit }

theorem bitFlags_eq (c : Bool) (s : State) :
    bitFlags c s = (s.setFlags (testedFlags c s)).setDraws (s.draws + 2) := rfl

theorem testedFlags_keeps (c : Bool) {s u : State} (h : u.flags = s.flags) :
    (testedFlags c u).cf = c ∧ (testedFlags c u).zf = s.flags.zf ∧ (testedFlags c u).tf = s.flags.tf ∧
      (testedFlags c u).intf = s.flags.intf := by
  rw [← h]
  exact ⟨rfl, rfl, rfl, rfl⟩

/-! ### BT, and the shape of BTC, BTR and BTS -/

section Bit

variable {x : BitOperands} {s s1 u : State} {b : BitVec (bitWidth x).bits}

theorem btBody_ok (hread : readPlace (bitWidth x) (bitBase x s) s = .ok (b, s1)) :
    btBody x s = .ok (bitFlags (b.getLsbD (bitIndex x s)) s1) := by
  simp only [btBody, hread, bind, Except.bind, pure, Except.pure]

theorem bitBody_ok {f : (n : Nat) → BitVec n → Nat → BitVec n}
    (hread : readPlace (bitWidth x) (bitBase x s) s = .ok (b, s1))
    (hwrite : writePlace (bitWidth x) (bitBase x s) (f _ b (bitIndex x s)) s1 = .ok u) :
    bitBody f x s = .ok (bitFlags (b.getLsbD (bitIndex x s)) u) := by
  simp only [bitBody, hread, hwrite, bind, Except.bind, pure, Except.pure]

theorem exec_bt (hread : readPlace (bitWidth x) (bitBase x s) s = .ok (b, s1)) :
    ∃ t, exec (.bt x) s = .next t ∧ completed s t ∧ sameData s t ∧ t.flags.cf = b.getLsbD (bitIndex x s) ∧
      t.flags.zf = s.flags.zf ∧ t.flags.tf = s.flags.tf ∧ t.flags.intf = s.flags.intf := by
  obtain ⟨d, rfl⟩ := readPlace_setDraws hread
  have hexec : exec (.bt x) s = complete s (btBody x s) := rfl
  rw [hexec, btBody_ok hread, bitFlags_eq]
  obtain ⟨t, hnext, hcompleted, hdata, hflags⟩ := complete_setFlags s (d + 2) (testedFlags _ (s.setDraws d))
  exact ⟨t, hnext, hcompleted, hdata, hflags ▸ testedFlags_keeps _ rfl⟩

end Bit

/-- An instruction of the shape of R261 whose operation changes the selected bit alone stores the base with that bit changed: the
bits of a value determine it. -/
theorem storesBit_of_op {mk : BitOperands → Instr} {f : (n : Nat) → BitVec n → Nat → BitVec n} {bit : Bool → Bool}
    (hexec : ∀ x s, exec (mk x) s = complete s (bitBody f x s))
    (hop : ∀ {n k} (b : BitVec n) i, k < n → (f n b i).getLsbD k = if k = i then bit (b.getLsbD k) else b.getLsbD k) :
    StoresBit mk bit := by
  intro x s s1 u b v hread hv hwrite
  obtain ⟨d, rfl⟩ := readPlace_setDraws hread
  obtain rfl : f _ b (bitIndex x s) = v :=
    BitVec.eq_of_getLsbD_eq fun k hk => (hop b _ hk).trans (hv k hk).symm
  rw [hexec, bitBody_ok hread hwrite, bitFlags_eq]
  obtain ⟨t, hnext, hcompleted, hwrote, hflags⟩ := complete_writePlace (testedFlags _ u) (u.draws + 2) hwrite
  obtain ⟨core, -⟩ := writePlace_core hwrite
  exact ⟨t, hnext, hcompleted, hwrote, hflags ▸ testedFlags_keeps _ core.flags⟩

/-- Settles O41: BT only reads; the others complement, clear or set the one bit that is set in their mask. -/
theorem bitInstructionsChangeOneBit : Obligations.BitInstructionsChangeOneBit := by
  refine ⟨fun x s s1 b hread => exec_bt hread, ?btc, ?btr, ?bts⟩
  case btc => exact storesBit_of_op (fun _ _ => rfl) getLsbD_xor_bitMask
  case btr => exact storesBit_of_op (fun _ _ => rfl) getLsbD_and_not_bitMask
  case bts => exact storesBit_of_op (fun _ _ => rfl) getLsbD_or_bitMask

end Sys2Proof.Machine

/-! SUPPORT. Proofs about the shifts and rotates: the one-bit step repeated is the whole shift or rotate, and the flags it
leaves. -/

namespace Sys2Proof.Machine

/-! ### Rotations in steps of one bit -/

@[simp] theorem rotateLeft_zero {n : Nat} (x : BitVec n) : x.rotateLeft 0 = x := by
  ext k hk
  simp [BitVec.getElem_rotateLeft]

@[simp] theorem rotateRight_zero {n : Nat} (x : BitVec n) : x.rotateRight 0 = x := by
  ext k hk
  simp [BitVec.getElem_rotateRight, hk]

theorem rotateLeft_add {n : Nat} (x : BitVec n) (i j : Nat) : x.rotateLeft (i + j) = (x.rotateLeft i).rotateLeft j := by
  refine BitVec.eq_of_getMsbD_eq fun k hk => ?_
  have hlt : (j + k) % n < n := Nat.mod_lt _ (Nat.zero_lt_of_lt hk)
  simp only [BitVec.getMsbD_rotateLeft, hlt, decide_true, Bool.true_and, Nat.add_mod_mod, Nat.add_assoc]

/-- A rotation to the right takes each bit from `r` places above, around the end. -/
theorem getLsbD_rotateRight_mod {n k : Nat} (x : BitVec n) (r : Nat) (hk : k < n) :
    (x.rotateRight r).getLsbD k = x.getLsbD ((r + k) % n) := by
  have hr : r % n < n := Nat.mod_lt r (Nat.zero_lt_of_lt hk)
  rw [BitVec.getLsbD_rotateRight, ← Nat.mod_add_mod]
  by_cases h : k < n - r % n
  · have hmod : (r % n + k) % n = r % n + k := Nat.mod_eq_of_lt (by omega)
    simp [h, hmod]
  · have hmod : (r % n + k) % n = k - (n - r % n) := by
      rw [Nat.mod_eq_sub_mod (by omega), Nat.mod_eq_of_lt (by omega)]
      omega
    simp [h, hk, hmod]

theorem rotateRight_add {n : Nat} (x : BitVec n) (i j : Nat) :
    x.rotateRight (i + j) = (x.rotateRight i).rotateRight j := by
  refine BitVec.eq_of_getLsbD_eq fun k hk => ?_
  have hlt : (j + k) % n < n := Nat.mod_lt _ (Nat.zero_lt_of_lt hk)
  rw [getLsbD_rotateRight_mod _ _ hk, getLsbD_rotateRight_mod _ _ hk, getLsbD_rotateRight_mod _ _ hlt,
    Nat.add_mod_mod, Nat.add_assoc]

/-! ### The bit that a step moves in -/

@[simp] theorem getElem_lowBit {n k : Nat} (b : Bool) (hk : k < n) : (lowBit n b)[k] = (decide (k = 0) && b) := by
  simp [lowBit, BitVec.getLsbD_ofBool]

@[simp] theorem getElem_topBit {n k : Nat} (b : Bool) (hk : k < n) :
    (topBit n b)[k] = (decide (k = n - 1) && b) := by
  by_cases h : k = n - 1
  · simp [topBit, h]
  · simp [topBit, h, show k < n - 1 by omega]

theorem rotateLeft_one {n : Nat} (hn : 1 < n) (x : BitVec n) : x.rotateLeft 1 = x <<< 1 ||| lowBit n x.msb := by
  ext k hk
  cases k with
  | zero => simp [BitVec.getElem_rotateLeft, Nat.mod_eq_of_lt hn, BitVec.msb_eq_getLsbD_last, hk]
  | succ k => simp [BitVec.getElem_rotateLeft, Nat.mod_eq_of_lt hn]

theorem rotateRight_one {n : Nat} (hn : 1 < n) (x : BitVec n) :
    x.rotateRight 1 = x >>> 1 ||| topBit n (x.getLsbD 0) := by
  ext k hk
  by_cases h : k = n - 1
  · simp [BitVec.getElem_rotateRight, Nat.mod_eq_of_lt hn, h, Nat.add_sub_cancel' hn.le,
      BitVec.getLsbD_eq_getElem (Nat.zero_lt_of_lt hn)]
  · have hk' : 1 + k < n := by omega
    simp [BitVec.getElem_rotateRight, Nat.mod_eq_of_lt hn, h, show k < n - 1 by omega, BitVec.getLsbD_eq_getElem hk']

/-- ROL brings the top bit round to the bottom. -/
theorem getLsbD_zero_rotateLeft_one {n : Nat} (hn : 1 < n) (x : BitVec n) : (x.rotateLeft 1).getLsbD 0 = x.msb := by
  simp [rotateLeft_one hn, Nat.zero_lt_of_lt hn]

/-- ROR brings the bottom bit round to the top. -/
theorem msb_rotateRight_one {n : Nat} (hn : 1 < n) (x : BitVec n) : (x.rotateRight 1).msb = x.getLsbD 0 := by
  have hlast : n - 1 < n := by omega
  simp [rotateRight_one hn, BitVec.msb_eq_getLsbD_last, BitVec.getLsbD_eq_getElem hlast, Nat.add_sub_cancel' hn.le]

theorem sshiftRight_one {n : Nat} (x : BitVec n) : x.sshiftRight 1 = x >>> 1 ||| topBit n x.msb := by
  ext k hk
  by_cases h : k = n - 1
  · simp [BitVec.getElem_sshiftRight, h, show 1 + (n - 1) = n by omega]
  · simp [BitVec.getElem_sshiftRight, h, show 1 + k < n by omega]

/-! ### The step after `i` steps -/

section Step

variable {n : Nat} (x : BitVec n) (i : Nat) (c : Bool)

theorem shiftStep_shl : shiftStep .shl (x <<< i) c = (x <<< (i + 1), (x <<< i).msb) := by
  rw [BitVec.shiftLeft_add]
  rfl

theorem shiftStep_shr : shiftStep .shr (x >>> i) c = (x >>> (i + 1), x.getLsbD i) := by
  rw [BitVec.shiftRight_add, shiftStep, BitVec.getLsbD_ushiftRight, Nat.add_zero]

theorem shiftStep_sar :
    shiftStep .sar (x.sshiftRight i) c = (x.sshiftRight (i + 1), (x.sshiftRight i).getLsbD 0) := by
  rw [BitVec.sshiftRight_add, sshiftRight_one]
  rfl

end Step

theorem shiftStep_rol {n : Nat} (hn : 1 < n) (x : BitVec n) (i : Nat) (c : Bool) :
    shiftStep .rol (x.rotateLeft i) c = (x.rotateLeft (i + 1), (x.rotateLeft (i + 1)).getLsbD 0) := by
  rw [rotateLeft_add, getLsbD_zero_rotateLeft_one hn, rotateLeft_one hn]
  rfl

theorem shiftStep_ror {n : Nat} (hn : 1 < n) (x : BitVec n) (i : Nat) (c : Bool) :
    shiftStep .ror (x.rotateRight i) c = (x.rotateRight (i + 1), (x.rotateRight (i + 1)).msb) := by
  rw [rotateRight_add, msb_rotateRight_one hn, rotateRight_one hn]
  rfl

/-- RCL turns CF and the operand, as one item of n + 1 bits, by one place (R282). -/
theorem shiftStep_rcl {n : Nat} (hn : 0 < n) (y : BitVec (n + 1)) :
    shiftStep .rcl (y.setWidth n) y.msb = ((y.rotateLeft 1).setWidth n, (y.rotateLeft 1).msb) := by
  rw [rotateLeft_one (Nat.succ_lt_succ hn)]
  refine Prod.ext ?value ?carry
  case value =>
    ext k hk
    simp [shiftStep, BitVec.getLsbD_eq_getElem (Nat.lt_succ_of_lt hk)]
  case carry => simp [shiftStep, BitVec.msb_eq_getLsbD_last, hn, hn.ne']

/-- RCR turns the same item to the right (R283). -/
theorem shiftStep_rcr {n : Nat} (hn : 0 < n) (y : BitVec (n + 1)) :
    shiftStep .rcr (y.setWidth n) y.msb = ((y.rotateRight 1).setWidth n, (y.rotateRight 1).msb) := by
  rw [rotateRight_one (Nat.succ_lt_succ hn)]
  refine Prod.ext ?value ?carry
  case value =>
    ext k hk
    by_cases h : k = n - 1
    · have hlast : n - 1 ≠ n := by omega
      simp [shiftStep, BitVec.msb_eq_getLsbD_last, h, Nat.add_sub_cancel' hn, hlast]
    · simp [shiftStep, BitVec.getLsbD_eq_getElem (Nat.lt_succ_of_lt hk), h, hk.ne, show 1 + k < n by omega]
  case carry => simp [shiftStep, BitVec.msb_eq_getLsbD_last, hn]

/-! ### The step repeated -/

theorem shiftRepeat_succ {n : Nat} (k : ShiftKind) (m : Nat) (x : BitVec n) (cf : Bool) :
    shiftRepeat k (m + 1) x cf = shiftStep k (shiftRepeat k m x cf).1 (shiftRepeat k m x cf).2 := by
  induction m generalizing x cf with
  | zero => rfl
  | succ m ih => exact ih (shiftStep k x cf).1 (shiftStep k x cf).2

/-- What the first step gives and every further one keeps up, the repetition gives. -/
theorem shiftRepeat_eq_of_steps {n : Nat} {k : ShiftKind} {x : BitVec n} {cf : Bool} {val : Nat → BitVec n}
    {carry : Nat → Bool} (hfirst : shiftStep k x cf = (val 1, carry 1))
    (hnext : ∀ i, shiftStep k (val (i + 1)) (carry (i + 1)) = (val (i + 2), carry (i + 2))) {m : Nat} (hm : m ≠ 0) :
    shiftRepeat k m x cf = (val m, carry m) := by
  obtain ⟨m, rfl⟩ := Nat.exists_eq_succ_of_ne_zero hm
  induction m with
  | zero => exact hfirst
  | succ m ih => rw [shiftRepeat_succ, ih m.succ_ne_zero, hnext]

/-- The instructions whose step does not look at the carry. -/
theorem shiftRepeat_eq {n : Nat} {k : ShiftKind} {x : BitVec n} {val : Nat → BitVec n} {carry : Nat → Bool}
    (hzero : val 0 = x) (hstep : ∀ i c, shiftStep k (val i) c = (val (i + 1), carry (i + 1))) {m : Nat} (hm : m ≠ 0)
    (cf : Bool) : shiftRepeat k m x cf = (val m, carry m) :=
  shiftRepeat_eq_of_steps (hzero ▸ hstep 0 cf) (fun i => hstep (i + 1) (carry (i + 1))) hm

/-- The instructions whose step turns CF and the operand as one item, the carry on top. -/
theorem shiftRepeat_eq_rotate {n : Nat} {k : ShiftKind} {rot : BitVec (n + 1) → Nat → BitVec (n + 1)}
    (hstep : ∀ y, shiftStep k (y.setWidth n) y.msb = ((rot y 1).setWidth n, (rot y 1).msb))
    (hadd : ∀ y i j, rot y (i + j) = rot (rot y i) j) {m : Nat} (hm : m ≠ 0) (x : BitVec n) (cf : Bool) :
    shiftRepeat k m x cf = ((rot (BitVec.cons cf x) m).setWidth n, (rot (BitVec.cons cf x) m).msb) := by
  have hfirst := hstep (BitVec.cons cf x)
  rw [BitVec.setWidth_cons, BitVec.msb_cons] at hfirst
  refine shiftRepeat_eq_of_steps (val := fun i => (rot (BitVec.cons cf x) i).setWidth n)
    (carry := fun i => (rot (BitVec.cons cf x) i).msb) hfirst (fun i => ?_) hm
  rw [hadd _ (i + 1) 1]
  exact hstep (rot (BitVec.cons cf x) (i + 1))

/-! ### The shape of R281 -/

theorem shiftFinish_eq {n : Nat} (k : ShiftKind) (c : Nat) (x r : BitVec n) (cf : Bool) (s : State) :
    shiftFinish k c x r cf s =
      (s.setFlags (shiftFlags k c x r cf s)).setDraws (if c = 1 then s.draws else s.draws + 1) := by
  unfold shiftFinish
  split <;> rfl

/-- The flags after a shift or rotate by a count that is not 0 (R290), OF where it is defined. -/
theorem shiftFlags_spec {n : Nat} (k : ShiftKind) (c : Nat) (x r : BitVec n) (cf : Bool) {s u : State}
    (h : u.flags = s.flags) :
    (shiftFlags k c x r cf u).cf = cf ∧ (shiftFlags k c x r cf u).tf = s.flags.tf ∧
      (shiftFlags k c x r cf u).intf = s.flags.intf ∧
      (shiftFlags k c x r cf u).zf = (if k.isShift then decide (r = 0) else s.flags.zf) ∧
      (shiftFlags k c x r cf u).sf = (if k.isShift then r.msb else s.flags.sf) ∧
      (c = 1 → (shiftFlags k c x r cf u).of = shiftOverflow k x r cf) := by
  rw [← h]
  unfold shiftFlags
  cases k.isShift <;> exact ⟨rfl, rfl, rfl, rfl, rfl, fun hc => if_pos hc⟩

section Body

variable {k : ShiftKind} {w : Width} {dst : RM} {c : ShiftCount} {s s1 u : State} {x : BitVec w.bits}

theorem shiftBody_zero (hcount : shiftCount c s = 0) (hread : readPlace w (place dst s) s = .ok (x, s1)) :
    shiftBody k w dst c s = .ok s1 := by
  simp only [shiftBody, hread, hcount, bind, Except.bind, pure, Except.pure, if_true]

theorem shiftBody_ok (hcount : shiftCount c s ≠ 0) (hread : readPlace w (place dst s) s = .ok (x, s1))
    (hwrite : writePlace w (place dst s) (shiftRepeat k (shiftCount c s) x s.flags.cf).1 s1 = .ok u) :
    shiftBody k w dst c s = .ok (shiftFinish k (shiftCount c s) x (shiftRepeat k (shiftCount c s) x s.flags.cf).1
      (shiftRepeat k (shiftCount c s) x s.flags.cf).2 u) := by
  simp only [shiftBody, hread, hwrite, bind, Except.bind, pure, Except.pure, if_neg hcount]

end Body

/-- An instruction of the shape of R281 stores what its step gives when it is repeated. -/
theorem storesShift_of_repeat {mk : Width → RM → ShiftCount → Instr} {k : ShiftKind}
    {val : {w : Nat} → Nat → BitVec w → Bool → BitVec w} {cf : {w : Nat} → Nat → BitVec w → Bool → Bool}
    (hexec : ∀ w dst c s, exec (mk w dst c) s = complete s (shiftBody k w dst c s))
    (hrepeat : ∀ {w m : Nat}, 1 < w → m ≠ 0 → ∀ (x : BitVec w) b, shiftRepeat k m x b = (val m x b, cf m x b)) :
    StoresShift mk val cf k.isShift (shiftOverflow k) := by
  intro w dst c m s s1 u x hm hcount hread hwrite
  subst hm
  obtain ⟨d, rfl⟩ := readPlace_setDraws hread
  have hrep := hrepeat (Width.one_lt_bits w) hcount x s.flags.cf
  have hbody := shiftBody_ok (k := k) hcount hread (by rw [hrep]; exact hwrite)
  rw [hexec, hbody, hrep, shiftFinish_eq]
  obtain ⟨t, hnext, hcompleted, hwrote, hflags⟩ := complete_writePlace (shiftFlags k _ x _ _ u) _ hwrite
  obtain ⟨core, -⟩ := writePlace_core hwrite
  exact ⟨t, hnext, hcompleted, hwrote, hflags ▸ shiftFlags_spec k _ x _ _ core.flags⟩

/-- Settles O42: after `i` steps the operand is shifted by `i`, and the next step moves out the bit at its end. -/
theorem shiftsByCount : Obligations.ShiftsByCount := by
  refine ⟨?shl, ?shr, ?sar⟩
  case shl =>
    exact storesShift_of_repeat (k := .shl) (fun _ _ _ _ => rfl) fun _ hm x =>
      shiftRepeat_eq (val := (x <<< ·)) (carry := fun i => (x <<< (i - 1)).msb) (BitVec.shiftLeft_zero x)
        (shiftStep_shl x) hm
  case shr =>
    exact storesShift_of_repeat (k := .shr) (fun _ _ _ _ => rfl) fun _ hm x =>
      shiftRepeat_eq (val := (x >>> ·)) (carry := fun i => x.getLsbD (i - 1)) (BitVec.ushiftRight_zero x)
        (shiftStep_shr x) hm
  case sar =>
    exact storesShift_of_repeat (k := .sar) (fun _ _ _ _ => rfl) fun _ hm x =>
      shiftRepeat_eq (val := x.sshiftRight) (carry := fun i => (x.sshiftRight (i - 1)).getLsbD 0)
        BitVec.sshiftRight_zero (shiftStep_sar x) hm

/-- Settles O43: after `i` steps the operand, or CF and the operand as one item, is rotated by `i`. -/
theorem rotatesByCount : Obligations.RotatesByCount := by
  refine ⟨?rol, ?ror, ?rcl, ?rcr⟩
  case rol =>
    exact storesShift_of_repeat (k := .rol) (fun _ _ _ _ => rfl) fun hw hm x =>
      shiftRepeat_eq (val := x.rotateLeft) (carry := fun i => (x.rotateLeft i).getLsbD 0) (rotateLeft_zero x)
        (shiftStep_rol hw x) hm
  case ror =>
    exact storesShift_of_repeat (k := .ror) (fun _ _ _ _ => rfl) fun hw hm x =>
      shiftRepeat_eq (val := x.rotateRight) (carry := fun i => (x.rotateRight i).msb) (rotateRight_zero x)
        (shiftStep_ror hw x) hm
  case rcl =>
    exact storesShift_of_repeat (k := .rcl) (fun _ _ _ _ => rfl) fun hw hm =>
      shiftRepeat_eq_rotate (shiftStep_rcl (Nat.zero_lt_of_lt hw)) rotateLeft_add hm
  case rcr =>
    exact storesShift_of_repeat (k := .rcr) (fun _ _ _ _ => rfl) fun hw hm =>
      shiftRepeat_eq_rotate (shiftStep_rcr (Nat.zero_lt_of_lt hw)) rotateRight_add hm

/-! ### A count of 0 -/

/-- The seven instructions have one shape (R281). -/
theorem exec_shift {mk : Width → RM → ShiftCount → Instr}
    (h : mk ∈ [Instr.rol, .ror, .rcl, .rcr, .shl, .shr, .sar]) :
    ∃ k, ∀ w dst c s, exec (mk w dst c) s = complete s (shiftBody k w dst c s) := by
  simp only [List.mem_cons, List.not_mem_nil, or_false] at h
  rcases h with rfl | rfl | rfl | rfl | rfl | rfl | rfl
  · exact ⟨.rol, fun _ _ _ _ => rfl⟩
  · exact ⟨.ror, fun _ _ _ _ => rfl⟩
  · exact ⟨.rcl, fun _ _ _ _ => rfl⟩
  · exact ⟨.rcr, fun _ _ _ _ => rfl⟩
  · exact ⟨.shl, fun _ _ _ _ => rfl⟩
  · exact ⟨.shr, fun _ _ _ _ => rfl⟩
  · exact ⟨.sar, fun _ _ _ _ => rfl⟩

/-- Settles O44: the body stops after its read, and the read changes nothing. -/
theorem shiftByZeroChangesNothing : Obligations.ShiftByZeroChangesNothing := by
  intro mk w dst c s s1 x hmk hcount hread
  obtain ⟨k, hexec⟩ := exec_shift hmk
  obtain ⟨d, rfl⟩ := readPlace_setDraws hread
  rw [hexec, shiftBody_zero hcount hread]
  exact complete_setFlags s d s.flags

end Sys2Proof.Machine

/-! SUPPORT. Proofs about the products and quotients: the implied pair as two halves of one width, the flag rules of IMUL on
the exact product, and the division laws. -/

namespace Sys2Proof.Machine

/-! ### The implied pair as two halves -/

/-- A 16-bit write writes the byte in bits 7:0 and the byte in bits 15:8. -/
theorem putHigh8_putLow8 (x : Dword) (p : Nat) :
    putHigh8 (putLow8 x (BitVec.ofNat 8 p)) (BitVec.ofNat 8 (p / 2 ^ 8)) = putLow16 x (BitVec.ofNat 16 p) := by
  refine BitVec.eq_of_getLsbD_eq fun k hk => ?_
  rw [getLsbD_putHigh8 _ _ hk, getLsbD_putLow8 _ _ hk, getLsbD_putLow16 _ _ hk]
  by_cases hlow : k < 8
  · rw [if_neg (by omega), if_pos hlow, if_pos (by omega), BitVec.getLsbD_ofNat, BitVec.getLsbD_ofNat]
    simp [hlow, show k < 16 by omega]
  · by_cases hhigh : k < 16
    · rw [if_pos (by omega), if_pos hhigh, BitVec.getLsbD_ofNat, BitVec.getLsbD_ofNat, Nat.testBit_div_two_pow,
        Nat.sub_add_cancel (by omega)]
      simp [hhigh, show k - 8 < 8 by omega]
    · simp [hlow, hhigh]

/-- The pair is its two registers one above the other; AX is AH and AL (R310, R314). -/
theorem readPair_eq (w : Width) (s : State) :
    readPair w s = (s.view w (highReg w)).toNat * 2 ^ w.bits + (s.view w .eax).toNat := by
  cases w with
  | b8 =>
    have hah : s.view .b8 .esp = (s.reg .eax).extractLsb' 8 8 := rfl
    have hal : s.view .b8 .eax = (s.reg .eax).extractLsb' 0 8 := rfl
    have hax : s.view .b16 .eax = (s.reg .eax).extractLsb' 0 16 := rfl
    simp only [readPair, highReg, hah, hal, hax, Width.bits, BitVec.extractLsb'_toNat, Nat.shiftRight_eq_div_pow]
    omega
  | b16 => rfl
  | b32 => rfl

/-- The pair is written by its halves, the low one first (R310). -/
theorem writePair_eq (w : Width) (p : Nat) (s : State) :
    writePair w p s = writeQuotRem w (BitVec.ofNat w.bits p) (BitVec.ofNat w.bits (p / 2 ^ w.bits)) s := by
  cases w with
  | b8 =>
    have hhalves := putHigh8_putLow8 (s.reg .eax) p
    simp only [writePair, writeQuotRem, highReg, State.setView, byteHost, isHighByte, State.reg_setReg_same, if_true,
      Bool.false_eq_true, if_false]
    rw [← hhalves]
    simp only [State.setReg, State.setRegs, Regs.set_set]
  | b16 => rfl
  | b32 => rfl

/-- A write of the high half leaves the low one alone. -/
theorem view_eax_setView_highReg (s : State) (w : Width) (v : BitVec w.bits) :
    (s.setView w (highReg w) v).view w .eax = s.view w .eax := by
  cases w with
  | b8 =>
    have hreg : (s.setView .b8 .esp v).reg .eax = putHigh8 (s.reg .eax) v := State.reg_setReg_same ..
    have hlow : (putHigh8 (s.reg .eax) v).extractLsb' 0 8 = (s.reg .eax).extractLsb' 0 8 :=
      BitVec.extractLsb'_append_eq_right
    exact (congrArg (BitVec.extractLsb' 0 8) hreg).trans hlow
  | b16 => exact congrArg (BitVec.extractLsb' 0 16) (s.reg_setView_ne .b16 .edx v (by decide))
  | b32 => exact s.reg_setView_ne .b32 .edx v (by decide)

/-- A write through an 8- or 16-bit view keeps bits 31:16 of every register (R33). -/
theorem getLsbD_reg_setView_upper (s : State) {w : Width} (r q : Reg) (v : BitVec w.bits) {k : Nat} (hw : w ≠ .b32)
    (hk : 16 ≤ k) : ((s.setView w r v).reg q).getLsbD k = (s.reg q).getLsbD k := by
  by_cases hq : q = hostReg w r
  · subst hq
    by_cases h32 : k < 32
    · obtain ⟨hbyte, hword, -⟩ := narrowWritesKeepTheRest s r k h32
      cases w with
      | b8 => exact (hbyte v).trans (if_neg (by split <;> omega))
      | b16 => exact (hword v).trans (if_neg (by omega))
      | b32 => exact absurd rfl hw
    · rw [BitVec.getLsbD_of_ge _ _ (Nat.not_lt.mp h32), BitVec.getLsbD_of_ge _ _ (Nat.not_lt.mp h32)]
  · rw [s.reg_setView_ne w r v hq]

/-- What an instruction that writes the halves `lo` and `hi` of the implied pair owes, and that it writes nothing else. -/
structure WrotePair (w : Width) (lo hi : BitVec w.bits) (s t : State) : Prop where
  completed : completed s t
  low : t.view w .eax = lo
  high : t.view w (highReg w) = hi
  others : ∀ q, q ≠ .eax → (w ≠ .b8 → q ≠ .edx) → t.reg q = s.reg q
  bytes : sameBytes s t
  intc : t.intc = s.intc
  upper : w ≠ .b32 → ∀ k, 16 ≤ k → (t.reg .eax).getLsbD k = (s.reg .eax).getLsbD k ∧
    (t.reg .edx).getLsbD k = (s.reg .edx).getLsbD k

/-- Only EAX and, but for the 8-bit form, EDX hold the pair. -/
theorem reg_writeQuotRem_ne (s : State) (w : Width) (lo hi : BitVec w.bits) {q : Reg} (heax : q ≠ .eax)
    (hedx : w ≠ .b8 → q ≠ .edx) : (writeQuotRem w lo hi s).reg q = s.reg q := by
  have hlow : q ≠ hostReg w .eax := by cases w <;> exact heax
  have hhigh : q ≠ hostReg w (highReg w) := by
    cases w with
    | b8 => exact heax
    | b16 => exact hedx (by decide)
    | b32 => exact hedx (by decide)
  rw [writeQuotRem, State.reg_setView_ne _ _ _ _ hhigh, State.reg_setView_ne _ _ _ _ hlow]

theorem getLsbD_reg_writeQuotRem_upper (s : State) {w : Width} (lo hi : BitVec w.bits) (q : Reg) {k : Nat}
    (hw : w ≠ .b32) (hk : 16 ≤ k) : ((writeQuotRem w lo hi s).reg q).getLsbD k = (s.reg q).getLsbD k := by
  rw [writeQuotRem, getLsbD_reg_setView_upper _ _ _ _ hw hk, getLsbD_reg_setView_upper _ _ _ _ hw hk]

@[simp] theorem writeQuotRem_flags (w : Width) (lo hi : BitVec w.bits) (s : State) :
    (writeQuotRem w lo hi s).flags = s.flags := by
  simp only [writeQuotRem, State.setView_flags]

@[simp] theorem writeQuotRem_plat (w : Width) (lo hi : BitVec w.bits) (s : State) :
    (writeQuotRem w lo hi s).plat = s.plat := by
  simp only [writeQuotRem, State.setView_plat]

/-- An instruction whose body reads its operand, writes the implied pair, sets the flags and has drawn up to number `e`. -/
theorem complete_writeQuotRem (s : State) (w : Width) (lo hi : BitVec w.bits) (d : Nat) (fl : EFlags) (e : Nat) :
    ∃ t, complete s (.ok (((writeQuotRem w lo hi (s.setDraws d)).setFlags fl).setDraws e)) = .next t ∧
      WrotePair w lo hi s t ∧ t.flags = fl := by
  have hcore : SameCore (s.setDraws d) (writeQuotRem w lo hi (s.setDraws d)) :=
    (SameCore.setView _ _ _ _).trans (SameCore.setView _ _ _ _)
  refine ⟨_, complete_ok, ?wrote, rfl⟩
  exact {
    completed := ⟨hcore.nextEip, hcore.run, rfl, hcore.idtr, hcore.pmU, hcore.esp0, hcore.cpuErr, hcore.plat,
      hcore.agenda⟩
    low := (view_eax_setView_highReg _ w hi).trans (State.view_setView_same _ w .eax lo)
    high := State.view_setView_same _ w (highReg w) hi
    others := fun q heax hedx => reg_writeQuotRem_ne (s.setDraws d) w lo hi heax hedx
    bytes := by simp [sameBytes, writeQuotRem]
    intc := by simp [writeQuotRem]
    upper := fun hw k hk => ⟨getLsbD_reg_writeQuotRem_upper (s.setDraws d) lo hi .eax hw hk,
      getLsbD_reg_writeQuotRem_upper (s.setDraws d) lo hi .edx hw hk⟩ }

/-- A number of double width is its halves. -/
theorem WrotePair.pair_eq {w : Width} {p : Nat} {s t : State}
    (h : WrotePair w (BitVec.ofNat w.bits p) (BitVec.ofNat w.bits (p / 2 ^ w.bits)) s t) (hp : p < 2 ^ (w.bits * 2)) :
    readPair w t = p := by
  rw [pow_mul, pow_two] at hp
  rw [readPair_eq, h.low, h.high, BitVec.toNat_ofNat, BitVec.toNat_ofNat,
    Nat.mod_eq_of_lt (Nat.div_lt_of_lt_mul hp), Nat.div_add_mod']

/-! ### MUL -/

theorem mulBody_ok {w : Width} {src : RM} {s s1 : State} {b : BitVec w.bits}
    (hread : readPlace w (place src s) s = .ok (b, s1)) :
    mulBody w src s = .ok (mulFlags (mulCarry w.bits ((s.view w .eax).toNat * b.toNat))
      (writePair w ((s.view w .eax).toNat * b.toNat) s1)) := by
  simp only [mulBody, hread, bind, Except.bind, pure, Except.pure]

/-- Setting MUL's flags changes flags and draws only. -/
theorem mulFlags_eq (c : Bool) (s : State) :
    mulFlags c s = (s.setFlags (mulFlags c s).flags).setDraws (s.draws + 2) := rfl

theorem mulFlags_spec (c : Bool) {s u : State} (h : u.flags = s.flags) :
    (mulFlags c u).flags.cf = c ∧ (mulFlags c u).flags.of = (mulFlags c u).flags.cf ∧
      (mulFlags c u).flags.tf = s.flags.tf ∧ (mulFlags c u).flags.intf = s.flags.intf := by
  rw [← h]
  exact ⟨rfl, rfl, rfl, rfl⟩

/-- The upper half is not 0 if and only if the product is too large for the lower one. -/
theorem mulCarry_eq (n p : Nat) : mulCarry n p = decide (2 ^ n ≤ p) :=
  decide_eq_decide.mpr (by rw [ne_eq, Nat.div_eq_zero_iff_lt (Nat.two_pow_pos n), Nat.not_lt])

/-- Settles O45: the product fits the pair, which is written by halves. -/
theorem mulGivesTheWholeProduct : Obligations.MulGivesTheWholeProduct := by
  intro w src s s1 b hread
  obtain ⟨d, rfl⟩ := readPlace_setDraws hread
  have hexec : exec (.mul w src) s = complete s (mulBody w src s) := rfl
  rw [hexec, mulBody_ok hread, mulFlags_eq, writePair_eq]
  obtain ⟨t, hnext, ht, hflags⟩ := complete_writeQuotRem s w _ _ d _ _
  refine ⟨t, hnext, ht.completed, ht.pair_eq BitVec.toNat_mul_toNat_lt, ht.others, ht.bytes, ht.intc, ht.upper, ?_⟩
  rw [hflags, ← mulCarry_eq]
  exact mulFlags_spec _ (by simp)

/-! ### The flags of IMUL -/

/-- Setting IMUL's flags changes flags and draws only. -/
theorem imulFlags_eq (n : Nat) (p : Int) (s : State) :
    imulFlags n p s = (s.setFlags (imulFlags n p s).flags).setDraws (imulFlags n p s).draws := by
  unfold imulFlags
  split
  case h_1 => rfl
  case h_2 => rfl
  case h_3 => dsimp only; split <;> rfl

/-- A product of two signed numbers of `n` bits is at most a quarter of the numbers of 2n bits away from 0. -/
def ProductRange (n : Nat) (p : Int) : Prop := -2 ^ (n * 2 - 2) ≤ p ∧ p ≤ 2 ^ (n * 2 - 2)

theorem productRange_mul {n : Nat} (a b : BitVec n) : ProductRange n (a.toInt * b.toInt) :=
  ⟨BitVec.le_toInt_mul_toInt, BitVec.toInt_mul_toInt_le⟩

/-- The 2n-bit product of a negative number has its upper half above 0, since it lies in the top quarter. -/
theorem imulLiteral_eq_false_iff {n : Nat} (hn : 0 < n) {p : Int} (hp : ProductRange n p) :
    imulLiteral n p = false ↔ 0 ≤ p ∧ p < 2 ^ n := by
  obtain ⟨hlo, hhi⟩ := hp
  have hquarter : (2 : Int) ^ (2 * n) = 4 * 2 ^ (n * 2 - 2) := by
    rw [show 2 * n = (n * 2 - 2) + 2 by omega, pow_add]
    omega
  have hhalf : (2 : Int) ^ n ≤ 2 * 2 ^ (n * 2 - 2) := by
    rw [← pow_succ']
    exact pow_le_pow_right₀ (by decide) (by omega)
  have hpos : (0 : Int) < 2 ^ (n * 2 - 2) := by positivity
  have hnarrow : imulLiteral n p = false ↔ p % 2 ^ (2 * n) < 2 ^ n := by
    rw [imulLiteral, decide_eq_false_iff_not, ne_eq, not_not, Nat.div_eq_zero_iff_lt (Nat.two_pow_pos n),
      BitVec.toNat_ofInt, Int.toNat_lt (Int.emod_nonneg _ (by positivity))]
    push_cast
    rfl
  rw [hnarrow]
  rcases Int.lt_or_le p 0 with hneg | hnonneg
  · rw [← Int.add_emod_right, Int.emod_eq_of_lt (by omega) (by omega)]
    omega
  · rw [Int.emod_eq_of_lt hnonneg (by omega)]
    omega

theorem imulSigned_eq_false_iff {n : Nat} (hn : 0 < n) (p : Int) :
    imulSigned n p = false ↔ -2 ^ (n - 1) ≤ p ∧ p < 2 ^ (n - 1) := by
  rw [imulSigned, decide_eq_false_iff_not, ne_eq, not_not]
  constructor
  · intro h
    have hlo := (BitVec.ofInt n p).le_toInt
    have hhi := (BitVec.ofInt n p).toInt_lt
    rw [h] at hlo hhi
    exact ⟨hlo, hhi⟩
  · exact fun ⟨hlo, hhi⟩ => BitVec.toInt_ofInt_eq_self hn hlo hhi

/-- The flags of `imulFlags` follow the rule of R318 on the exact product. -/
theorem imulFlagged_of_flags {w : Width} {p : Int} {s t u : State} (hp : ProductRange w.bits p)
    (hplat : u.plat = s.plat) (hflags : u.flags = s.flags) (ht : t.flags = (imulFlags w.bits p u).flags) :
    ImulFlagged w p s t := by
  have hliteral : imulLiteral w.bits p = false ↔ upperHalfZero w p := imulLiteral_eq_false_iff (Width.bits_pos w) hp
  have hsigned : imulSigned w.bits p = false ↔ fitsSigned w p := imulSigned_eq_false_iff (Width.bits_pos w) p
  constructor
  case literal =>
    intro hrule
    simp only [ht, imulFlags, hplat, hrule]
    exact ⟨hliteral, rfl⟩
  case signed =>
    intro hrule
    simp only [ht, imulFlags, hplat, hrule]
    exact ⟨hsigned, rfl⟩
  case agreed =>
    intro hrule hagree
    have hsame : imulLiteral w.bits p = imulSigned w.bits p := by
      rw [← hliteral, ← hsigned] at hagree
      rw [Bool.eq_iff_iff, ← Bool.not_eq_false, ← Bool.not_eq_false]
      exact not_congr hagree.symm
    simp only [ht, imulFlags, hplat, hrule, if_pos hsame]
    exact ⟨hsigned, rfl⟩
  case system =>
    rw [ht, ← hflags]
    unfold imulFlags
    split
    case h_1 => exact ⟨rfl, rfl⟩
    case h_2 => exact ⟨rfl, rfl⟩
    case h_3 => dsimp only; split <;> exact ⟨rfl, rfl⟩

/-! ### IMUL -/

theorem imul1Body_ok {w : Width} {src : RM} {s s1 : State} {b : BitVec w.bits}
    (hread : readPlace w (place src s) s = .ok (b, s1)) :
    imul1Body w src s = .ok (imulFlags w.bits ((s.view w .eax).toInt * b.toInt)
      (writePair w (BitVec.ofInt (2 * w.bits) ((s.view w .eax).toInt * b.toInt)).toNat s1)) := by
  simp only [imul1Body, hread, bind, Except.bind, pure, Except.pure]

theorem imul2Body_ok {w : Width} {dst : Reg} {src : RM} {s s1 : State} {b : BitVec w.bits}
    (hread : readPlace w (place src s) s = .ok (b, s1)) :
    imul2Body w dst src s = .ok (imulFlags w.bits ((s.view w dst).toInt * b.toInt)
      (s1.setView w dst (BitVec.ofInt w.bits ((s.view w dst).toInt * b.toInt)))) := by
  simp only [imul2Body, hread, bind, Except.bind, pure, Except.pure]

theorem imul3Body_ok {dst : Reg} {src : RM} {imm : ImulImm} {s s1 : State} {b : BitVec (imulWidth imm).bits}
    (hread : readPlace (imulWidth imm) (place src s) s = .ok (b, s1)) :
    imul3Body dst src imm s = .ok (imulFlags (imulWidth imm).bits (b.toInt * (imulValue imm).toInt)
      (s1.setView (imulWidth imm) dst (BitVec.ofInt (imulWidth imm).bits (b.toInt * (imulValue imm).toInt)))) := by
  simp only [imul3Body, hread, bind, Except.bind, pure, Except.pure]

/-- A product fits the double width as a signed number. -/
theorem toInt_ofInt_product {n : Nat} (hn : 0 < n) {p : Int} (hp : ProductRange n p) :
    (BitVec.ofInt (2 * n) p).toInt = p := by
  obtain ⟨hlo, hhi⟩ := hp
  have hhalf : (2 : Int) ^ (2 * n - 1) = 2 * 2 ^ (n * 2 - 2) := by
    rw [← pow_succ']
    congr 1
    omega
  have hpos : (0 : Int) < 2 ^ (n * 2 - 2) := by positivity
  exact BitVec.toInt_ofInt_eq_self (by omega) (by omega) (by omega)

theorem WrotePair.signedPair_eq {w : Width} {p : Int} {s t : State} (hp : ProductRange w.bits p)
    (h : WrotePair w (BitVec.ofNat w.bits (BitVec.ofInt (2 * w.bits) p).toNat)
      (BitVec.ofNat w.bits ((BitVec.ofInt (2 * w.bits) p).toNat / 2 ^ w.bits)) s t) : signedPair w t = p := by
  have hlt : (BitVec.ofInt (2 * w.bits) p).toNat < 2 ^ (w.bits * 2) := by
    rw [Nat.mul_comm w.bits]
    exact BitVec.isLt _
  rw [signedPair, h.pair_eq hlt, BitVec.ofNat_toNat, BitVec.setWidth_eq, toInt_ofInt_product (Width.bits_pos w) hp]

/-- What the two- and three-operand forms owe for the signed factors `a` and `b`. -/
structure WroteProduct (w : Width) (dst : Reg) (a b : BitVec w.bits) (s t : State) : Prop where
  completed : completed s t
  view : t.view w dst = a * b
  onlyReg : onlyReg (hostReg w dst) s t
  upper : w = .b16 → ∀ k, 16 ≤ k → (t.reg dst).getLsbD k = (s.reg dst).getLsbD k
  flagged : ImulFlagged w (a.toInt * b.toInt) s t

/-- An instruction whose body writes the low half of a signed product to a register and sets IMUL's flags. -/
theorem complete_imul (s : State) (w : Width) (dst : Reg) (d : Nat) (a b : BitVec w.bits) :
    ∃ t, complete s (.ok (imulFlags w.bits (a.toInt * b.toInt)
      ((s.setDraws d).setView w dst (BitVec.ofInt w.bits (a.toInt * b.toInt))))) = .next t ∧
      WroteProduct w dst a b s t := by
  have hlow : BitVec.ofInt w.bits (a.toInt * b.toInt) = a * b := by
    rw [BitVec.ofInt_mul, BitVec.ofInt_toInt, BitVec.ofInt_toInt]
  rw [imulFlags_eq, hlow]
  obtain ⟨t, hnext, hcompleted, ⟨hregs, -, -, hview, honly⟩, hflags⟩ :=
    complete_writePlace (p := .reg dst) _ _ (Eq.refl (writePlace w (.reg dst) (a * b) (s.setDraws d)))
  refine ⟨t, hnext, hcompleted, hview, honly, ?upper, ?flagged⟩
  case upper =>
    rintro rfl k hk
    rw [State.reg, hregs]
    exact getLsbD_reg_setView_upper (s.setDraws d) dst dst (a * b) (by decide) hk
  case flagged => exact imulFlagged_of_flags (productRange_mul a b) (by simp) (by simp) hflags

/-- Settles O46: the whole product goes to the pair by halves, the low half to a register through its view. -/
theorem imulGivesTheProduct : Obligations.ImulGivesTheProduct := by
  refine ⟨?one, ?two, ?three⟩
  case one =>
    intro w src s s1 b hread
    obtain ⟨d, rfl⟩ := readPlace_setDraws hread
    have hexec : exec (.imul1 w src) s = complete s (imul1Body w src s) := rfl
    have hrange := productRange_mul (s.view w .eax) b
    rw [hexec, imul1Body_ok hread, writePair_eq, imulFlags_eq]
    obtain ⟨t, hnext, ht, hflags⟩ := complete_writeQuotRem s w _ _ d _ _
    exact ⟨t, hnext, ht.completed, ht.signedPair_eq hrange, ht.others, ht.bytes, ht.intc, ht.upper,
      imulFlagged_of_flags hrange (by simp) (by simp) hflags⟩
  case two =>
    intro w dst src s s1 b hread
    obtain ⟨d, rfl⟩ := readPlace_setDraws hread
    have hexec : exec (.imul2 w dst src) s = complete s (imul2Body w dst src s) := rfl
    rw [hexec, imul2Body_ok hread]
    obtain ⟨t, hnext, ht⟩ := complete_imul s w dst d (s.view w dst) b
    exact ⟨t, hnext, ht.completed, ht.view, ht.onlyReg, ht.upper, ht.flagged⟩
  case three =>
    intro dst src imm s s1 b hread
    obtain ⟨d, rfl⟩ := readPlace_setDraws hread
    have hexec : exec (.imul3 dst src imm) s = complete s (imul3Body dst src imm s) := rfl
    rw [hexec, imul3Body_ok hread]
    obtain ⟨t, hnext, ht⟩ := complete_imul s (imulWidth imm) dst d b (imulValue imm)
    exact ⟨t, hnext, ht.completed, ht.view, ht.onlyReg, ht.upper, ht.flagged⟩

/-! ### The bodies of DIV and IDIV -/

theorem toNat_eq_zero_iff {n : Nat} (d : BitVec n) : d.toNat = 0 ↔ d = 0 := by
  rw [← BitVec.toNat_inj, BitVec.ofNat_eq_ofNat, BitVec.toNat_ofNat, Nat.zero_mod]

theorem toInt_eq_zero_iff {n : Nat} (d : BitVec n) : d.toInt = 0 ↔ d = 0 := by
  rw [← BitVec.toInt_inj, BitVec.ofNat_eq_ofNat, BitVec.toInt_zero]

section Div

variable {w : Width} {src : RM} {s s1 : State} {d : BitVec w.bits}

theorem divBody_ok (hread : readPlace w (place src s) s = .ok (d, s1)) (hd : d ≠ 0)
    (hq : readPair w s / d.toNat < 2 ^ w.bits) :
    divBody w src s = .ok (divFlags (writeQuotRem w (BitVec.ofNat w.bits (readPair w s / d.toNat))
      (BitVec.ofNat w.bits (readPair w s % d.toNat)) s1)) := by
  simp only [divBody, hread, bind, Except.bind, pure, Except.pure]
  rw [if_neg (mt (toNat_eq_zero_iff d).mp hd), if_neg (Nat.not_le.mpr hq)]

theorem divBody_error (hread : readPlace w (place src s) s = .ok (d, s1))
    (h : d = 0 ∨ 2 ^ w.bits ≤ readPair w s / d.toNat) : divBody w src s = .error (.raise .divideError) := by
  simp only [divBody, hread, bind, Except.bind]
  split
  case isTrue => rfl
  case isFalse hd => exact if_pos (h.resolve_left (mt (toNat_eq_zero_iff d).mpr hd))

theorem idivBody_ok (hread : readPlace w (place src s) s = .ok (d, s1)) (hd : d ≠ 0)
    (hlo : -(2 ^ (w.bits - 1) : Int) ≤ (signedPair w s).tdiv d.toInt)
    (hhi : (signedPair w s).tdiv d.toInt < 2 ^ (w.bits - 1)) :
    idivBody w src s = .ok (divFlags (writeQuotRem w (BitVec.ofInt w.bits ((signedPair w s).tdiv d.toInt))
      (BitVec.ofInt w.bits ((signedPair w s).tmod d.toInt)) s1)) := by
  simp only [idivBody, hread, bind, Except.bind, pure, Except.pure]
  rw [if_neg (mt (toInt_eq_zero_iff d).mp hd), if_neg (not_or.mpr ⟨Int.not_lt.mpr hlo, Int.not_le.mpr hhi⟩)]

theorem idivBody_error (hread : readPlace w (place src s) s = .ok (d, s1))
    (h : d = 0 ∨ (signedPair w s).tdiv d.toInt < -(2 ^ (w.bits - 1) : Int) ∨
      2 ^ (w.bits - 1) ≤ (signedPair w s).tdiv d.toInt) : idivBody w src s = .error (.raise .divideError) := by
  simp only [idivBody, hread, bind, Except.bind]
  split
  case isTrue => rfl
  case isFalse hd => exact if_pos (h.resolve_left (mt (toInt_eq_zero_iff d).mpr hd))

end Div

/-! ### The division laws -/

/-- Setting the flags of DIV and IDIV changes flags and draws only. -/
theorem divFlags_eq (s : State) : divFlags s = (s.setFlags (divFlags s).flags).setDraws (s.draws + 4) := rfl

theorem divFlags_keeps {s u : State} (h : u.flags = s.flags) :
    (divFlags u).flags.tf = s.flags.tf ∧ (divFlags u).flags.intf = s.flags.intf := by
  rw [← h]
  exact ⟨rfl, rfl⟩

theorem natAbs_tmod_lt (n : Int) {d : Int} (hd : d ≠ 0) : (n.tmod d).natAbs < d.natAbs := by
  rw [Int.natAbs_tmod]
  exact Nat.mod_lt _ (Int.natAbs_pos.mpr hd)

/-- A remainder is 0 or has the sign of the dividend. -/
theorem tmod_eq_zero_or_neg_iff (n d : Int) : n.tmod d = 0 ∨ (n.tmod d < 0 ↔ n < 0) := by
  have hsign := Int.sign_tmod n d
  split at hsign
  case isTrue => exact .inl (Int.sign_eq_zero_iff_zero.mp hsign)
  case isFalse => exact .inr (by rw [← Int.sign_eq_neg_one_iff_neg, hsign, Int.sign_eq_neg_one_iff_neg])

/-- A signed remainder fits the width of its divisor. -/
theorem toInt_ofInt_tmod {n : Nat} (hn : 0 < n) (a : Int) {d : BitVec n} (hd : d ≠ 0) :
    (BitVec.ofInt n (a.tmod d.toInt)).toInt = a.tmod d.toInt := by
  have hlt := natAbs_tmod_lt a (mt (toInt_eq_zero_iff d).mp hd)
  have hlo := d.le_toInt
  have hhi := d.toInt_lt
  exact BitVec.toInt_ofInt_eq_self hn (by omega) (by omega)

/-- Settles O47: quotient and remainder fit their halves, so that the laws are those of the exact division. -/
theorem divisionLaws : Obligations.DivisionLaws := by
  refine ⟨?unsigned, ?signed⟩
  case unsigned =>
    intro w src s s1 d hread hd hq
    obtain ⟨e, rfl⟩ := readPlace_setDraws hread
    have hexec : exec (.div w src) s = complete s (divBody w src s) := rfl
    rw [hexec, divBody_ok hread hd hq, divFlags_eq]
    obtain ⟨t, hnext, ht, hflags⟩ := complete_writeQuotRem s w (BitVec.ofNat w.bits (readPair w s / d.toNat))
      (BitVec.ofNat w.bits (readPair w s % d.toNat)) e _ _
    have hrem : readPair w s % d.toNat < d.toNat := Nat.mod_lt _ (Nat.pos_of_ne_zero (mt (toNat_eq_zero_iff d).mp hd))
    have hquotNat : (t.view w .eax).toNat = readPair w s / d.toNat := by
      rw [ht.low, BitVec.toNat_ofNat, Nat.mod_eq_of_lt hq]
    have hremNat : (t.view w (highReg w)).toNat = readPair w s % d.toNat := by
      rw [ht.high, BitVec.toNat_ofNat, Nat.mod_eq_of_lt (hrem.trans d.isLt)]
    refine ⟨t, hnext, ht.completed, ?_, hremNat ▸ hrem, ht.others, ht.bytes, ht.intc, ht.upper, ?_⟩
    · rw [hquotNat, hremNat, Nat.div_add_mod']
    · rw [hflags]
      exact divFlags_keeps (by simp)
  case signed =>
    intro w src s s1 d hread hd hlo hhi
    obtain ⟨e, rfl⟩ := readPlace_setDraws hread
    have hexec : exec (.idiv w src) s = complete s (idivBody w src s) := rfl
    rw [hexec, idivBody_ok hread hd hlo hhi, divFlags_eq]
    obtain ⟨t, hnext, ht, hflags⟩ := complete_writeQuotRem s w
      (BitVec.ofInt w.bits ((signedPair w s).tdiv d.toInt)) (BitVec.ofInt w.bits ((signedPair w s).tmod d.toInt)) e _ _
    have hquot : (t.view w .eax).toInt = (signedPair w s).tdiv d.toInt := by
      rw [ht.low, BitVec.toInt_ofInt_eq_self (Width.bits_pos w) hlo hhi]
    have hrem : (t.view w (highReg w)).toInt = (signedPair w s).tmod d.toInt := by
      rw [ht.high, toInt_ofInt_tmod (Width.bits_pos w) _ hd]
    refine ⟨t, hnext, ht.completed, ?_, ?_, ?_, ht.others, ht.bytes, ht.intc, ht.upper, ?_⟩
    · rw [hquot, hrem, Int.tdiv_mul_add_tmod]
    · rw [hrem]
      exact natAbs_tmod_lt _ (mt (toInt_eq_zero_iff d).mp hd)
    · rw [hrem]
      exact tmod_eq_zero_or_neg_iff _ _
    · rw [hflags]
      exact divFlags_keeps (by simp)

/-! ### Divide errors -/

/-- Settles O48: both bodies raise #DE before they write, and the gate of vector 0 is entered. -/
theorem divideErrors : Obligations.DivideErrors := by
  intro w src s s1 d g hread hopens
  have hde := retire_raise_of_opens (s := s) .divideError hopens
  constructor
  · intro h
    have hexec : exec (.div w src) s = retire s (.error (.raise .divideError)) :=
      congrArg (complete s) (divBody_error hread h)
    rw [hexec]
    exact hde
  · intro h
    have hexec : exec (.idiv w src) s = retire s (.error (.raise .divideError)) :=
      congrArg (complete s) (idivBody_error hread h)
    rw [hexec]
    exact hde

end Sys2Proof.Machine

/-! SUPPORT. Proofs about MOV, MOVSX and MOVZX: each is one read of a source and one write of a destination. -/

namespace Sys2Proof.Machine

/-! ### One read, one write -/

/-- An instruction whose body reads an operand, writes one and sets no flag. -/
theorem complete_writePlace_keepFlags {w : Width} {p : Place} {v : BitVec w.bits} {s u : State} {d : Nat}
    (h : writePlace w p v (s.setDraws d) = .ok u) :
    ∃ t, complete s (.ok u) = .next t ∧ completed s t ∧ wrote w p v u s t ∧ t.flags = s.flags := by
  obtain ⟨core, -⟩ := writePlace_core h
  have hsame : (u.setFlags s.flags).setDraws u.draws = u :=
    congrArg (fun fl => (u.setFlags fl).setDraws u.draws) core.flags.symm
  have hcomplete := complete_writePlace s.flags u.draws h
  rwa [hsame] at hcomplete

/-! ### Extensions -/

/-- Both instructions read at the narrow width and write the extension at the wide one (R345, R346). -/
theorem extBody_eq (ext : {n : Nat} → (m : Nat) → BitVec n → BitVec m) (x : ExtOperands) (s : State) :
    extBody ext x s = (readPlace (extFrom x) (place (extSource x) s) s).bind
      fun (v, t) => writePlace (extTo x) (.reg (extDest x)) (ext (extTo x).bits v) t := by
  cases x <;> rfl

theorem setView_setDraws_regs (s : State) (d : Nat) (w : Width) (r : Reg) (v : BitVec w.bits) :
    ((s.setDraws d).setView w r v).regs = (s.setView w r v).regs := by
  cases w <;> rfl

/-- What an instruction that writes an extension of its source leaves, whatever the way of extending. -/
theorem complete_extBody (ext : {n : Nat} → (m : Nat) → BitVec n → BitVec m) {x : ExtOperands} {s s1 : State}
    {v : BitVec (extFrom x).bits} (hread : readPlace (extFrom x) (place (extSource x) s) s = .ok (v, s1)) :
    ∃ t, complete s (extBody ext x s) = .next t ∧ completed s t ∧
      t.view (extTo x) (extDest x) = ext (extTo x).bits v ∧
      t.regs = (s.setView (extTo x) (extDest x) (t.view (extTo x) (extDest x))).regs ∧ sameBytes s t ∧
      t.intc = s.intc ∧ t.flags = s.flags := by
  rw [extBody_eq, hread]
  obtain ⟨d, rfl⟩ := readPlace_setDraws hread
  obtain ⟨t, hnext, hcompleted, ⟨hregs, -, -, hholds, -, hbytes, hintc⟩, hflags⟩ :=
    complete_writePlace_keepFlags (p := .reg (extDest x))
      (Eq.refl (writePlace (extTo x) (.reg (extDest x)) (ext (extTo x).bits v) (s.setDraws d)))
  have hview : t.view (extTo x) (extDest x) = ext (extTo x).bits v := hholds
  refine ⟨t, hnext, hcompleted, hview, ?regs, hbytes, hintc, hflags⟩
  rw [hview, hregs, setView_setDraws_regs]

/-- The destination of an extending form is no narrower than its source. -/
theorem extFrom_bits_le (x : ExtOperands) : (extFrom x).bits ≤ (extTo x).bits := by
  cases x <;> simp [extFrom, extTo, Width.bits]

/-- Settles O50: the destination is the wider of the two, so that either extension keeps its value. -/
theorem extensionsKeepTheValue : Obligations.ExtensionsKeepTheValue := by
  intro x s s1 v hread
  have hwide := extFrom_bits_le x
  constructor
  · obtain ⟨t, hnext, hcompleted, hview, hrest⟩ := complete_extBody (fun m v => v.signExtend m) hread
    have hvalue := (congrArg BitVec.toInt hview).trans (BitVec.toInt_signExtend_of_le hwide)
    exact ⟨t, hnext, hcompleted, hvalue, hrest⟩
  · obtain ⟨t, hnext, hcompleted, hview, hrest⟩ := complete_extBody (fun m v => v.setWidth m) hread
    have hvalue := (congrArg BitVec.toNat hview).trans (BitVec.toNat_setWidth_of_le hwide)
    exact ⟨t, hnext, hcompleted, hvalue, hrest⟩

/-! ### MOV -/

/-- Every form of MOV reads its source and writes its destination (R344). -/
theorem movBody_eq (x : MovOperands) (s : State) :
    movBody x s = (movSource x s).bind fun (v, t) => writePlace (movWidth x) (movDest x s) v t := by
  cases x <;> rfl

/-- Reading the source of a MOV draws free values and does nothing else. -/
theorem movSource_setDraws {x : MovOperands} {s t : State} {v : BitVec (movWidth x).bits}
    (h : movSource x s = .ok (v, t)) : ∃ d, t = s.setDraws d := by
  cases x with
  | rRm w dst src => exact readPlace_setDraws h
  | accMem w a => exact readPlace_setDraws (p := .mem a) h
  | rmR | memAcc | regImm | rmImm => exact ⟨_, (Prod.mk.inj (Except.ok.inj h)).2.symm⟩

/-- Settles O49: the value that is read is the one written, at the place computed before the read. -/
theorem movCopies : Obligations.MovCopies := by
  intro x s s1 u v hsource hwrite
  have hbody : movBody x s = .ok u := by
    rw [movBody_eq, hsource]
    exact hwrite
  have hexec : exec (.mov x) s = complete s (.ok u) := congrArg (complete s) hbody
  rw [hexec]
  obtain ⟨d, rfl⟩ := movSource_setDraws hsource
  exact complete_writePlace_keepFlags hwrite

end Sys2Proof.Machine

/-! SUPPORT. Proofs about PUSH, PUSHFD and POP: a push is one write below ESP, a pop one read at ESP and one write with ESP
already moved up. -/

namespace Sys2Proof.Machine

/-! ### Pushing -/

/-- A push whose write completes puts ESP at the address written. -/
theorem pushValue_ok {w : Width} {v : BitVec w.bits} {s u : State} (h : writeMem w (pushAddress w s) v s = .ok u) :
    pushValue w v s = .ok (u.setReg .esp (pushAddress w s)) :=
  congrArg (Except.bind · fun t : State => .ok (t.setReg .esp (pushAddress w s))) h

/-- A push after reads, seen from the state before them: the write is one of an operand below ESP, and moving ESP touches
neither memory nor another register. -/
theorem pushed_of_writeMem {w : Width} {v : BitVec w.bits} {s u : State} {d : Nat}
    (h : writeMem w (pushAddress w s) v (s.setDraws d) = .ok u) :
    pushed w v u s (u.setReg .esp (pushAddress w s)) := by
  obtain ⟨core, -⟩ := writeMem_core h
  obtain ⟨-, -, -, hholds, hregs, hbytes⟩ := wrote_of_writePlace (p := .mem (pushAddress w s)) h
  have hothers : regsBut .esp s (u.setReg .esp (pushAddress w s)) := fun q hq =>
    (u.reg_setReg_ne _ hq).trans (congrArg (Regs.get · q) hregs)
  exact ⟨u.reg_setReg_same _ _, hothers, core.flags, rfl, rfl, hbytes, hholds⟩

/-- An instruction whose body reads its operand and pushes a value. -/
theorem complete_pushValue {w : Width} {v : BitVec w.bits} {s u : State} {d : Nat}
    (h : writeMem w (pushAddress w s) v (s.setDraws d) = .ok u) :
    ∃ t, complete s (pushValue w v (s.setDraws d)) = .next t ∧ completed s t ∧ pushed w v u s t := by
  obtain ⟨core, -⟩ := writeMem_core h
  have hbody : pushValue w v (s.setDraws d) = .ok (u.setReg .esp (pushAddress w s)) := pushValue_ok h
  rw [hbody]
  refine ⟨_, complete_ok, ?completed, pushed_of_writeMem h⟩
  exact ⟨core.nextEip, core.run, rfl, core.idtr, core.pmU, core.esp0, core.cpuErr, core.plat, core.agenda⟩

/-- Every form of PUSH reads its source and pushes it (R370). -/
theorem pushBody_eq (x : PushOperand) (s : State) :
    pushBody x s = (pushSource x s).bind fun (v, t) => pushValue (pushWidth x) v t := by
  cases x <;> rfl

/-- Reading the source of a PUSH draws free values and does nothing else: only an r/m source is read through a place. -/
theorem pushSource_setDraws {x : PushOperand} {s t : State} {v : BitVec (pushWidth x).bits}
    (h : pushSource x s = .ok (v, t)) : ∃ d, t = s.setDraws d := by
  cases x with
  | rm w src => exact readPlace_setDraws h
  | reg | imm32 | imm16 | imm8 => exact ⟨_, (Prod.mk.inj (Except.ok.inj h)).2.symm⟩

/-- Settles O53: the source is read with the old ESP, so that the address written is the same before and after the read. -/
theorem pushStoresBelowEsp : Obligations.PushStoresBelowEsp := by
  constructor
  · intro x s s1 u v hsource hwrite
    have hbody : pushBody x s = pushValue (pushWidth x) v s1 := by
      rw [pushBody_eq, hsource]
      rfl
    have hexec : exec (.push x) s = complete s (pushValue (pushWidth x) v s1) := congrArg (complete s) hbody
    rw [hexec]
    obtain ⟨d, rfl⟩ := pushSource_setDraws hsource
    exact complete_pushValue hwrite
  · intro s u hwrite
    exact complete_pushValue (d := s.draws) hwrite

/-! ### Popping -/

/-- Every form of POP names its destination, reads at ESP, moves ESP up and writes (R371). -/
theorem popBody_eq (x : PopOperand) (s : State) :
    popBody x s = (popPlace x s).bind fun p => (readMem (popWidth x) (s.reg .esp) s).bind fun (v, t) =>
      writePlace (popWidth x) p v (t.setReg .esp (s.reg .esp + BitVec.ofNat 32 (popWidth x).bytes)) := by
  cases x <;> rfl

/-- Settles O54: the destination is written in a state that differs from the one before the POP in ESP and the free values
drawn, so that the instruction ends as one that writes an operand from there. -/
theorem popReadsAtEsp : Obligations.PopReadsAtEsp := by
  intro x p s s1 u v hplace hread hwrite
  obtain ⟨d, rfl⟩ := readPlace_setDraws (p := .mem (s.reg .esp)) hread
  have hbody : popBody x s = .ok u := by
    simp only [popBody_eq, hplace, hread, Except.bind]
    exact hwrite
  have hexec : exec (.pop x) s = complete (espPast (popWidth x) s) (.ok u) := congrArg (complete s) hbody
  rw [hexec]
  exact complete_writePlace_keepFlags (s := espPast (popWidth x) s) hwrite

end Sys2Proof.Machine

/-! SUPPORT. Proofs about CALL, RET, JMP and the conditional jumps: each retires with EIP at its target. -/

namespace Sys2Proof.Machine

/-! ### Going to a target -/

theorem SameCore.setDraws (s : State) (d : Nat) : SameCore s (s.setDraws d) :=
  ⟨rfl, rfl, rfl, rfl, rfl, rfl, rfl, rfl, rfl, rfl, rfl⟩

/-- A transfer after accesses that leave the core's own fields alone (R37, R472). -/
theorem goesTo_setEip {s u : State} (h : SameCore s u) (e : Dword) :
    goesTo e s ((u.setEip e).setStepDue s.flags.tf) :=
  ⟨rfl, h.run, rfl, h.idtr, h.pmU, h.esp0, h.cpuErr, h.plat, h.agenda⟩

/-- An instruction that does nothing but transfer control, after drawing free values up to number `d`. -/
theorem retire_setEip (s : State) (d : Nat) (e : Dword) :
    ∃ t, retire s (.ok ((s.setDraws d).setEip e)) = .next t ∧ goesTo e s t ∧ t.flags = s.flags ∧ sameData s t :=
  ⟨_, retire_ok, goesTo_setEip (SameCore.setDraws s d) e, rfl, rfl, fun _ => rfl, rfl⟩

/-! ### CALL and RET -/

/-- Both forms of CALL: a push of the return address, then the transfer. -/
theorem retire_pushValue_setEip {s u : State} {d : Nat} (e : Dword)
    (h : writeMem .b32 (pushAddress .b32 s) s.nextEip (s.setDraws d) = .ok u) :
    ∃ t, retire s ((pushValue .b32 s.nextEip (s.setDraws d)).map fun t => t.setEip e) = .next t ∧ goesTo e s t ∧
      pushed .b32 s.nextEip u s t := by
  obtain ⟨core, -⟩ := writeMem_core h
  have hpush : pushValue .b32 s.nextEip (s.setDraws d) = .ok (u.setReg .esp (pushAddress .b32 s)) := pushValue_ok h
  have hcore : SameCore s (u.setReg .esp (pushAddress .b32 s)) :=
    ((SameCore.setDraws s d).trans core).trans (SameCore.setReg ..)
  rw [hpush]
  exact ⟨_, retire_ok, goesTo_setEip hcore e, pushed_of_writeMem h⟩

/-- RET goes to the dword at ESP (R392). -/
theorem exec_ret {s s1 : State} {e : Dword} (h : readMem .b32 (s.reg .esp) s = .ok (e, s1)) :
    exec .ret s = .next (((s1.setReg .esp (s.reg .esp + 4)).setEip e).setStepDue s.flags.tf) := by
  have hbody : retBody s = .ok ((s1.setReg .esp (s.reg .esp + 4)).setEip e) := by
    unfold retBody
    rw [h]
    rfl
  exact congrArg (retire s) hbody

/-- Settles O55: both forms of CALL push and transfer; the indirect one reads its operand first, which moves no register. -/
theorem callAndRet : Obligations.CallAndRet := by
  refine ⟨?rel, ?rm, ?ret⟩
  case rel =>
    intro cd s u hwrite
    exact retire_pushValue_setEip (d := s.draws) (s.nextEip + cd) hwrite
  case rm =>
    intro x s s1 u e hread hwrite
    have hexec : exec (.callRm x) s = retire s ((pushValue .b32 s.nextEip s1).map fun t => t.setEip e) := by
      refine congrArg (retire s) ?_
      unfold callRmBody
      rw [hread]
      rfl
    obtain ⟨d, rfl⟩ := readPlace_setDraws hread
    rw [hexec]
    exact retire_pushValue_setEip e hwrite
  case ret =>
    intro s s1 e hread
    obtain ⟨d, rfl⟩ := readPlace_setDraws (p := .mem (s.reg .esp)) hread
    have hcore := (SameCore.setDraws s d).trans (SameCore.setReg _ .esp (s.reg .esp + 4))
    exact ⟨_, exec_ret hread, goesTo_setEip hcore e, (s.setDraws d).reg_setReg_same .esp _,
      ⟨fun q hq => (s.setDraws d).reg_setReg_ne _ hq, fun _ => rfl, rfl⟩, rfl⟩

/-- Settles O56: RET reads the bytes that the CALL pushed, and moves ESP back over them. -/
theorem callThenRetReturns : Obligations.CallThenRetReturns := by
  intro cd s t u hm hroute hcall hesp hplat hread hbytes
  obtain ⟨t', hnext, -, hpushed⟩ := callAndRet.1 cd s _ (writeMem_storage s.nextEip hroute)
  obtain rfl : t' = t := Host.Outcome.next.inj (hnext.symm.trans hcall)
  obtain ⟨htesp, -, -, -, -, -, hholds⟩ := hpushed
  have hdword : BitVec.ofNat 32 (loadLE u.mem (u.reg .esp).toNat 4) = s.nextEip := by
    rw [hesp, loadLE_congr 4 _ hbytes, htesp]
    exact hholds hm hroute
  have hret := exec_ret (readMem_storage hread)
  refine ⟨_, hret, hdword, ?_, rfl⟩
  calc u.reg .esp + 4 = pushAddress .b32 s + 4 := by rw [hesp, htesp]
    _ = s.reg .esp := BitVec.sub_add_cancel ..

/-! ### Jumps -/

/-- An instruction that jumps if a Boolean of the flags says so jumps under what that Boolean means (R395). -/
theorem jumps_of_jumpIf {mk : Rel → Instr} (c : EFlags → Bool) {cond : EFlags → Prop}
    (hexec : ∀ rel s, exec (mk rel) s = jumpIf (c s.flags) rel s) (hcond : ∀ f, c f = true ↔ cond f) :
    Jumps mk cond := by
  intro rel s
  rw [hexec, ← hcond]
  obtain ⟨t, hnext, hgoes, hflags, hdata⟩ :=
    retire_setEip s s.draws (if c s.flags then relTarget rel s else s.nextEip)
  refine ⟨t, hnext, hflags, hdata, fun htaken => ?taken, fun hnot => ?notTaken⟩
  case taken => rwa [if_pos htaken] at hgoes
  case notTaken => rwa [if_neg hnot] at hgoes

/-- Settles O57: the conditional jumps are one shape, each with its own condition. -/
theorem jumpsGoToTheirTargets : Obligations.JumpsGoToTheirTargets := by
  refine ⟨?rel, ?rm, ?jo, ?jno, ?jb, ?jae, ?je, ?jne, ?jbe, ?ja, ?js, ?jns, ?jl, ?jge, ?jle, ?jg⟩
  case rel => exact fun rel s => retire_setEip s s.draws (relTarget rel s)
  case rm =>
    intro x s s1 e hread
    have hexec : exec (.jmpRm x) s = retire s (.ok (s1.setEip e)) := by
      refine congrArg (retire s) ?_
      unfold jmpRmBody
      rw [hread]
      rfl
    obtain ⟨d, rfl⟩ := readPlace_setDraws hread
    rw [hexec]
    exact retire_setEip s d e
  case jo => exact jumps_of_jumpIf (fun f => f.of) (fun _ _ => rfl) (by simp)
  case jno => exact jumps_of_jumpIf (fun f => !f.of) (fun _ _ => rfl) (by simp)
  case jb => exact jumps_of_jumpIf (fun f => f.cf) (fun _ _ => rfl) (by simp)
  case jae => exact jumps_of_jumpIf (fun f => !f.cf) (fun _ _ => rfl) (by simp)
  case je => exact jumps_of_jumpIf (fun f => f.zf) (fun _ _ => rfl) (by simp)
  case jne => exact jumps_of_jumpIf (fun f => !f.zf) (fun _ _ => rfl) (by simp)
  case jbe => exact jumps_of_jumpIf (fun f => f.cf || f.zf) (fun _ _ => rfl) (by simp)
  case ja => exact jumps_of_jumpIf (fun f => !f.cf && !f.zf) (fun _ _ => rfl) (by simp)
  case js => exact jumps_of_jumpIf (fun f => f.sf) (fun _ _ => rfl) (by simp)
  case jns => exact jumps_of_jumpIf (fun f => !f.sf) (fun _ _ => rfl) (by simp)
  case jl => exact jumps_of_jumpIf (fun f => f.sf != f.of) (fun _ _ => rfl) (by simp)
  case jge => exact jumps_of_jumpIf (fun f => f.sf == f.of) (fun _ _ => rfl) (by simp)
  case jle => exact jumps_of_jumpIf (fun f => f.zf || f.sf != f.of) (fun _ _ => rfl) (by simp)
  case jg => exact jumps_of_jumpIf (fun f => !f.zf && f.sf == f.of) (fun _ _ => rfl) (by simp)

end Sys2Proof.Machine

/-! SUPPORT. Proofs about the system instructions: the flags, HLT, LIDT and SIDT, and the loads of EFLAGS by POPFD and IRET. -/

namespace Sys2Proof.Machine

/-! ### One flag -/

/-- In supervisor mode CLI and STI write IF (R423, R424). -/
theorem setIf_supervisor {s : State} (hu : s.pmU = false) (v : Bool) :
    setIf v s = s.setFlags { s.flags with intf := v } := by
  simp only [setIf, hu, Bool.false_eq_true, if_false]

/-- Settles O58: each completes with the flags alone written. -/
theorem flagInstructions : Obligations.FlagInstructions := by
  intro s hu i f hmem
  have hcli : exec .cli s = complete s (.ok (s.setFlags { s.flags with intf := false })) :=
    congrArg (fun t => complete s (.ok t)) (setIf_supervisor hu false)
  have hsti : exec .sti s = complete s (.ok (s.setFlags { s.flags with intf := true })) :=
    congrArg (fun t => complete s (.ok t)) (setIf_supervisor hu true)
  simp only [List.mem_cons, Prod.mk.injEq, List.not_mem_nil, or_false] at hmem
  rcases hmem with ⟨rfl, rfl⟩ | ⟨rfl, rfl⟩ | ⟨rfl, rfl⟩ | ⟨rfl, rfl⟩ | ⟨rfl, rfl⟩ | ⟨rfl, rfl⟩ | ⟨rfl, rfl⟩
  · exact complete_setFlags s s.draws _
  · exact complete_setFlags s s.draws _
  · exact complete_setFlags s s.draws _
  · exact hcli ▸ complete_setFlags s s.draws _
  · exact hsti ▸ complete_setFlags s s.draws _
  · exact complete_setFlags s s.draws _
  · exact complete_setFlags s s.draws _

/-! ### HLT -/

/-- A halted core in which neither a trap nor an enabled interrupt is due waits (R492). -/
theorem coreStep_halted {s : State} {b : Bool} (hu : s.pmU = false) (hrun : s.run = .halted) (htrap : s.stepDue = false)
    (hint : interruptDue s = false) : coreStep b s = .next s := by
  simp only [coreStep, hu, hrun, htrap, hint, Bool.and_false, Bool.false_eq_true, if_false]

/-- Settles O59: what HLT leaves is a halted core, whose step is to wait. -/
theorem hltHaltsTheCore : Obligations.HltHaltsTheCore := by
  intro s
  refine ⟨_, rfl, rfl, rfl, rfl, ⟨rfl, rfl, rfl, rfl, rfl, rfl⟩, ⟨rfl, fun _ => rfl, rfl⟩, rfl, ?waits⟩
  case waits =>
    intro hu htf hoff b
    have hint : (s.flags.intf && s.intc.lapic.intr) = false := by
      rwa [Bool.and_eq_false_iff]
    exact coreStep_halted hu rfl htf hint

/-! ### LIDT and SIDT -/

/-- SIDT's two stores: the limit's bytes and the address's do not overlap, not even where the second address wraps. -/
theorem loadLE_storeLE_idtr {m : Memory} {a : Dword} (v : Nat) :
    loadLE (storeLE m (a + 2).toNat 4 v) a.toNat 2 = loadLE m a.toNat 2 :=
  loadLE_storeLE_disjoint 4 2 m (a + 2).toNat a.toNat v (by bv_omega)

/-- Settles O60: two reads, or two stores that leave each other's bytes alone. -/
theorem idtrIsLoadedAndStored : Obligations.IdtrIsLoadedAndStored := by
  constructor
  case left =>
    intro m s s1 s2 lim base hlimit haddress
    have hbody : lidtBody m s = .ok (s2.setIdtr ⟨base, lim⟩) := by
      simp only [lidtBody, bind, Except.bind, hlimit, haddress]
      rfl
    obtain ⟨d, rfl⟩ := readPlace_setDraws (p := .mem (effAddr m s)) hlimit
    obtain ⟨e, rfl⟩ := readPlace_setDraws (p := .mem (effAddr m s + 2)) haddress
    exact ⟨_, (congrArg (complete s) hbody).trans complete_ok, rfl, rfl, rfl, rfl, rfl, rfl, rfl, rfl, rfl,
      ⟨rfl, fun _ => rfl, rfl⟩, rfl⟩
  case right =>
    intro m s s1 u hm hroute1 hroute2 hwrite1 hwrite2
    have hbody : sidtBody m s = .ok u := by
      simp only [sidtBody, bind, Except.bind, hwrite1]
      exact hwrite2
    obtain rfl := Except.ok.inj ((writeMem_storage _ hroute1).symm.trans hwrite1)
    have hsecond := writeMem_storage (s := s.setMem (storeLE s.mem (effAddr m s).toNat 2 s.idtr.limit.toNat))
      s.idtr.address hroute2
    obtain rfl := Except.ok.inj (hsecond.symm.trans hwrite2)
    obtain ⟨hend1, -⟩ := route_storage hroute1
    obtain ⟨hend2, -⟩ := route_storage hroute2
    refine ⟨_, (congrArg (complete s) hbody).trans complete_ok, ⟨rfl, rfl, rfl, rfl, rfl, rfl, rfl, rfl, rfl⟩, rfl, rfl,
      rfl, ?limit, ?address, ?frame⟩
    case limit =>
      refine (congrArg (BitVec.ofNat 16) (loadLE_storeLE_idtr _)).trans ?_
      exact ofNat_loadLE_storeLE (w := .b16) s.idtr.limit hm hend1
    case address => exact dwordAt_storeLE s.idtr.address (storeLE_wf 2 _ hm hend1) hend2
    case frame =>
      intro x hlimit haddress
      exact (readByte_storeLE_outside 4 _ _ _ haddress).trans (readByte_storeLE_outside 2 _ _ _ hlimit)

/-! ### Loading EFLAGS -/

/-- In supervisor mode an image is loaded whole (R40). -/
theorem loadFlags_supervisor {s : State} (hu : s.pmU = false) (v : Dword) : loadFlags s v = EFlags.ofImage v := by
  simp only [loadFlags, hu, Bool.false_eq_true, if_false]

theorem setsReserved_eq_false {v : Dword} (h : v &&& 0xFFFFF43C = 0) : setsReserved v = false := by
  rw [Bool.eq_false_iff, ne_eq, setsReserved_iff, not_not, h]

/-- A return whose frame passes both checks (R436). -/
theorem returnFromException_ok {s t : State} {e fl : Dword} (hu : s.pmU = false) (h : popFrame s = .ok ((e, 0, fl), t))
    (hfl : fl &&& 0xFFFFF43C = 0) : returnFromException s =
      .ok ((((t.setReg .esp (s.reg .esp + 12)).setFlags (EFlags.ofImage fl)).setPmU false).setEip e) := by
  unfold returnFromException
  rw [h, ← loadFlags_supervisor hu]
  simp only [bind, Except.bind, setsReserved_eq_false hfl, Bool.false_eq_true, if_false, ne_eq, not_true_eq_false]
  rfl

/-- What IRET does with a frame that it can read (R436, D13, D23). -/
theorem exec_iret {s s1 s2 s3 : State} {e fl : Dword} (hu : s.pmU = false)
    (h1 : readMem .b32 (s.reg .esp) s = .ok (e, s1)) (h2 : readMem .b32 (s.reg .esp + 4) s1 = .ok (0, s2))
    (h3 : readMem .b32 (s.reg .esp + 8) s2 = .ok (fl, s3)) (hfl : fl &&& 0xFFFFF43C = 0) :
    exec .iret s = .next
      (((((s3.setReg .esp (s.reg .esp + 12)).setFlags (EFlags.ofImage fl)).setPmU false).setEip e).setStepDue
        s.flags.tf) :=
  congrArg (retire s) (returnFromException_ok hu (popFrame_of_reads h1 h2 h3) hfl)

/-- What POPFD does with an image that it can read (R373, D13). -/
theorem exec_popfd {s s1 : State} {v : Dword} (hu : s.pmU = false) (h : readMem .b32 (s.reg .esp) s = .ok (v, s1))
    (hv : v &&& 0xFFFFF43C = 0) :
    exec .popfd s = .next
      (((s1.setReg .esp (s.reg .esp + 4)).setFlags (EFlags.ofImage v)).advance.setStepDue s.flags.tf) := by
  have hbody : popfdBody s = .ok ((s1.setReg .esp (s.reg .esp + 4)).setFlags (EFlags.ofImage v)) := by
    unfold popfdBody
    rw [h, ← loadFlags_supervisor hu]
    simp only [bind, Except.bind, setsReserved_eq_false hv, Bool.false_eq_true, if_false]
    rfl
  exact congrArg (complete s) hbody

/-- Settles O24: the reads before the loads change nothing but the draws. -/
theorem iretAndPopfdLoadTheFlags : Obligations.IretAndPopfdLoadTheFlags := by
  constructor
  case left =>
    intro s s1 s2 s3 e fl hu h1 h2 h3 hfl
    refine ⟨_, exec_iret hu h1 h2 h3 hfl, ?_⟩
    obtain ⟨d1, rfl⟩ := readPlace_setDraws (p := .mem _) h1
    obtain ⟨d2, rfl⟩ := readPlace_setDraws (p := .mem _) h2
    obtain ⟨d3, rfl⟩ := readPlace_setDraws (p := .mem _) h3
    exact ⟨⟨rfl, rfl, rfl, rfl, hu.symm, rfl, rfl, rfl, rfl⟩, (s.setDraws d3).reg_setReg_same .esp _,
      ⟨fun q hq => (s.setDraws d3).reg_setReg_ne _ hq, fun _ => rfl, rfl⟩, rfl⟩
  case right =>
    intro s s1 v hu h hv
    refine ⟨_, exec_popfd hu h hv, ?_⟩
    obtain ⟨d, rfl⟩ := readPlace_setDraws (p := .mem _) h
    exact ⟨⟨rfl, rfl, rfl, rfl, rfl, rfl, rfl, rfl, rfl⟩, (s.setDraws d).reg_setReg_same .esp _,
      ⟨fun q hq => (s.setDraws d).reg_setReg_ne _ hq, fun _ => rfl, rfl⟩, rfl⟩

end Sys2Proof.Machine

/-! SUPPORT. Proofs about the interrupt controller: priorities, acknowledge and EOI, the timer, the IRQ inputs, and the
registers as software reads and writes them. -/

namespace Sys2Proof.Machine

/-! ### The highest set bit -/

/-- A set bit with none above it is the highest. -/
theorem highest_eq_some {x : BitVec 16} {n : Nat} (hn : n < 16) (hset : x.getLsbD n = true)
    (habove : ∀ k, n < k → x.getLsbD k = false) : highest x = some n := by
  cases h : highest x with
  | none => exact absurd (highestBelow_none x 16 h n hn) (by simp [hset])
  | some m =>
    obtain ⟨-, hm, hmabove⟩ := highest_spec h
    have hle : ¬ n < m := fun hlt => by simp [habove m hlt] at hm
    have hge : ¬ m < n := fun hlt => by simp [hmabove n hlt hn] at hset
    exact congrArg some (by omega)

theorem highest_zero : highest 0 = none := by decide

/-! ### Priorities -/

/-- PPR without an in-service vector (R533). -/
theorem LocalApic.ppr_of_none {l : LocalApic} (h : highest l.isr = none) : l.ppr = l.tpr := by
  rw [LocalApic.ppr, h]

/-- PPR with a highest in-service vector (R533). -/
theorem LocalApic.ppr_of_some {l : LocalApic} {n : Nat} (h : highest l.isr = some n) :
    l.ppr.toNat = max l.tpr.toNat (32 + n) := by
  obtain ⟨hn, -⟩ := highest_spec h
  rw [LocalApic.ppr, h]
  dsimp only
  split
  · rw [BitVec.toNat_ofNat]
    omega
  · omega

/-- Settles O29: the two cases of the highest in-service bit. -/
theorem pprIsTheHigherOfTheTwo : Obligations.PprIsTheHigherOfTheTwo := fun _ =>
  ⟨fun h => LocalApic.ppr_of_none (h ▸ highest_zero),
    fun _ hn hset habove => LocalApic.ppr_of_some (highest_eq_some hn hset habove)⟩

/-! ### Acknowledge -/

theorem LocalApic.deliverable_of_lt {l : LocalApic} {n : Nat} (h : highest l.irr = some n) (hp : l.ppr.toNat < 32 + n) :
    l.deliverable = some n := by
  rw [LocalApic.deliverable, h]
  exact if_pos hp

theorem LocalApic.deliverable_of_le {l : LocalApic} {n : Nat} (h : highest l.irr = some n) (hp : 32 + n ≤ l.ppr.toNat) :
    l.deliverable = none := by
  rw [LocalApic.deliverable, h]
  exact if_neg (Nat.not_lt.mpr hp)

theorem LocalApic.deliverable_of_none {l : LocalApic} (h : highest l.irr = none) : l.deliverable = none := by
  rw [LocalApic.deliverable, h]

/-- Acknowledge of a deliverable request (R536). -/
theorem IntCtl.acknowledge_of_some {c : IntCtl} {n : Nat} (h : c.lapic.deliverable = some n) :
    c.acknowledge = (BitVec.ofNat 8 (32 + n), IntCtl.settle { c with lapic := { c.lapic with
      intr := false, irr := putBit16 c.lapic.irr n false, isr := putBit16 c.lapic.isr n true } }) := by
  rw [IntCtl.acknowledge, h]

/-- Acknowledge with nothing deliverable: the spurious vector (R536). -/
theorem IntCtl.acknowledge_of_none {c : IntCtl} (h : c.lapic.deliverable = none) :
    c.acknowledge = (c.lapic.sivr, IntCtl.settle { c with lapic := { c.lapic with intr := false } }) := by
  rw [IntCtl.acknowledge, h]

/-- Settling adds the requests of the active level-triggered inputs that are neither masked nor in service (R554). -/
theorem IntCtl.settle_requests (c : IntCtl) (k : Nat) : c.settle.lapic.irr.getLsbD k =
    (c.lapic.irr.getLsbD k || (c.lines.getLsbD k && c.ioapic.level.getLsbD k && !c.ioapic.mask.getLsbD k &&
      !c.lapic.isr.getLsbD k)) := by
  rw [IntCtl.settle_eq]
  by_cases hk : k < 16
  · simp [IntCtl.levelRequests, hk]
  · simp [IntCtl.levelRequests, BitVec.getLsbD_of_ge c.lines k (by omega)]

/-- Settles O28: by what is deliverable; settling requests no vector that has just come into service. -/
theorem acknowledgeMovesTheRequest : Obligations.AcknowledgeMovesTheRequest := by
  intro c
  refine ⟨fun n hn hset habove => ⟨fun hp => ?moved, fun hp => ?blocked⟩, fun hzero => ?nothing⟩
  case moved =>
    rw [IntCtl.acknowledge_of_some (LocalApic.deliverable_of_lt (highest_eq_some hn hset habove) hp)]
    refine ⟨rfl, ?_, fun k _ => ?_⟩
    · simp [IntCtl.settle_requests, putBit16_same _ _ hn]
    · rw [IntCtl.settle_isr]
      by_cases hk : k = n
      · simp [hk, putBit16_same _ _ hn]
      · simp [hk, putBit16_ne _ _ hk]
  case blocked =>
    rw [IntCtl.acknowledge_of_none (LocalApic.deliverable_of_le (highest_eq_some hn hset habove) hp)]
    exact ⟨rfl, rfl⟩
  case nothing =>
    rw [IntCtl.acknowledge_of_none (LocalApic.deliverable_of_none (hzero ▸ highest_zero))]
    exact ⟨rfl, rfl⟩

/-! ### The end of interrupt -/

theorem LocalApic.eoi_of_some {l : LocalApic} {n : Nat} (h : highest l.isr = some n) :
    l.eoi = { l with isr := putBit16 l.isr n false } := by
  rw [LocalApic.eoi, h]

theorem LocalApic.eoi_of_none {l : LocalApic} (h : highest l.isr = none) : l.eoi = l := by
  rw [LocalApic.eoi, h]

/-- A write to EOI is the end of interrupt, whatever the value (R534). -/
theorem IntCtl.writeLapic_eoi (c : IntCtl) (v : Dword) :
    c.writeLapic 0xB0 v = .ok (IntCtl.settle { c with lapic := c.lapic.eoi }) := rfl

/-- Settles O30: by whether a vector is in service; settling changes no in-service bit. -/
theorem eoiClearsTheHighestInService : Obligations.EoiClearsTheHighestInService := by
  intro c c' v hwrite
  obtain rfl := Except.ok.inj ((c.writeLapic_eoi v).symm.trans hwrite)
  rw [IntCtl.settle_isr]
  constructor
  · intro hzero
    rw [LocalApic.eoi_of_none (hzero ▸ highest_zero), hzero]
  · intro n hn hset habove
    rw [LocalApic.eoi_of_some (highest_eq_some hn hset habove)]
    exact ⟨putBit16_same _ _ hn, fun k hk => putBit16_ne _ _ hk⟩

/-! ### The timer -/

/-- A vector below 48 has its top bit clear (R548). -/
theorem getLsbD_four_of_lt {v : BitVec 5} (h : v.toNat < 16) : v.getLsbD 4 = false := by
  rw [BitVec.getLsbD, Nat.testBit_lt_two_pow (show v.toNat < 2 ^ 4 from h)]

/-- The tick that brings CCR to 0 (R545, D34). -/
theorem IntCtl.tick_of_one {c : IntCtl} (hccr : c.lapic.ccr = 1)
    (hvector : c.lapic.lvt.masked = true ∨ c.lapic.lvt.vector.toNat < 16) :
    c.tick = .ok (IntCtl.settle { c with lapic := { c.lapic with
      ccr := if c.lapic.lvt.periodic then c.lapic.icr else 0,
      irr := if c.lapic.lvt.masked then c.lapic.irr else putBit16 c.lapic.irr c.lapic.lvt.vector.toNat true } }) := by
  have hallowed : (!c.lapic.lvt.masked && c.lapic.lvt.vector.getLsbD 4) = false := by
    rcases hvector with hmask | hlt
    · simp [hmask]
    · rw [getLsbD_four_of_lt hlt, Bool.and_false]
  have hnonzero : ¬ c.lapic.ccr = 0 := hccr ▸ by decide
  unfold IntCtl.tick
  dsimp only
  rw [if_neg hnonzero, if_neg (not_not.mpr hccr), hallowed, if_neg Bool.false_ne_true]

/-- A tick that does not bring CCR to 0 (R545). -/
theorem IntCtl.tick_of_ne_one {c : IntCtl} (hccr : c.lapic.ccr ≠ 1) :
    c.tick = .ok (if c.lapic.ccr = 0 then c else { c with lapic := { c.lapic with ccr := c.lapic.ccr - 1 } }) := by
  unfold IntCtl.tick
  dsimp only
  rw [if_pos hccr]
  by_cases hzero : c.lapic.ccr = 0
  · rw [if_pos hzero, if_pos hzero]
  · rw [if_neg hzero, if_neg hzero]

theorem tickTurn_of_tick_ok {s : State} {c : IntCtl} (h : s.intc.tick = .ok c) : tickTurn s = .next (s.setIntc c) := by
  rw [tickTurn, h]

/-- Settles O27: the three cases of CCR; at the expiry settling adds to a settled controller only what it already had. -/
theorem timerTickCounts : Obligations.TimerTickCounts := by
  intro s hvector
  by_cases hone : s.intc.lapic.ccr = 1
  case neg =>
    refine ⟨_, tickTurn_of_tick_ok (IntCtl.tick_of_ne_one hone), rfl, fun hzero => if_pos hzero,
      fun hzero _ => if_neg hzero, fun h => absurd h hone⟩
  case pos =>
    refine ⟨_, tickTurn_of_tick_ok (IntCtl.tick_of_one hone hvector), rfl, fun h => ?_, fun _ h => absurd hone h,
      fun _ => ⟨rfl, rfl, rfl, rfl, fun hmask => ?requested, fun hsettled k hk => ?others⟩⟩
    · exact absurd (hone.symm.trans h) (by decide)
    case requested =>
      have hlt : s.intc.lapic.lvt.vector.toNat < 16 := hvector.resolve_left (by simp [hmask])
      simp [IntCtl.settle_requests, hmask, putBit16_same _ _ hlt]
    case others =>
      have hhad := congrArg (fun c : IntCtl => c.lapic.irr.getLsbD k) hsettled
      have hkept : (if s.intc.lapic.lvt.masked then s.intc.lapic.irr
          else putBit16 s.intc.lapic.irr s.intc.lapic.lvt.vector.toNat true).getLsbD k = s.intc.lapic.irr.getLsbD k := by
        split
        · rfl
        · exact putBit16_ne _ _ (hk.resolve_left ‹_›)
      rw [IntCtl.settle_requests] at hhad
      rw [State.setIntc_intc, IntCtl.settle_requests]
      exact (congrArg (· || _) hkept).trans hhad

/-! ### The IRQ inputs -/

/-- What driving an input requests: an unmasked rise if it is edge-triggered, the level unless it is masked or in service if
it is level-triggered (R553, R554). -/
theorem IntCtl.drive_requests (c : IntCtl) (n : BitVec 4) (active : Bool) :
    (c.drive n active).lapic.irr.getLsbD n.toNat =
      (c.lapic.irr.getLsbD n.toNat ||
        (active && !c.ioapic.mask.getLsbD n.toNat && if c.ioapic.level.getLsbD n.toNat then !c.lapic.isr.getLsbD n.toNat
          else !c.lines.getLsbD n.toNat)) := by
  unfold IntCtl.drive
  dsimp only
  rw [IntCtl.settle_requests]
  dsimp only
  rw [putBit16_same _ _ n.isLt, apply_ite (BitVec.getLsbD · n.toNat), putBit16_same _ _ n.isLt]
  generalize c.lapic.irr.getLsbD n.toNat = request
  generalize c.ioapic.mask.getLsbD n.toNat = mask
  generalize c.ioapic.level.getLsbD n.toNat = level
  generalize c.lapic.isr.getLsbD n.toNat = service
  generalize c.lines.getLsbD n.toNat = line
  revert active request mask level service line
  decide

/-- After the end of interrupt no vector from the highest one upward is in service (R534). -/
theorem LocalApic.eoi_clears {l : LocalApic} {n : Nat} (habove : ∀ k, n < k → l.isr.getLsbD k = false) :
    l.eoi.isr.getLsbD n = false := by
  cases h : highest l.isr with
  | none =>
    rw [LocalApic.eoi_of_none h]
    by_cases hn : n < 16
    · exact highestBelow_none _ 16 h n hn
    · exact BitVec.getLsbD_of_ge _ _ (by omega)
  | some m =>
    obtain ⟨hm, hset, hmabove⟩ := highest_spec h
    rw [LocalApic.eoi_of_some h]
    rcases Nat.lt_trichotomy n m with hlt | rfl | hlt
    · simp [habove m hlt] at hset
    · exact putBit16_same _ _ hm
    · refine (putBit16_ne _ _ hlt.ne').trans ?_
      by_cases hn : n < 16
      · exact hmabove n hlt hn
      · exact BitVec.getLsbD_of_ge _ _ (by omega)

/-- IOREGSEL = 10h + 2n selects redirection entry n (R551). -/
theorem redirEntry_even {n : Nat} (hn : n < 16) : redirEntry (0x10 + 2 * n) = some n := by
  rw [redirEntry, if_pos (by omega)]
  exact congrArg some (by omega)

/-- IOREGSEL = 11h + 2n selects a high half (R551). -/
theorem redirEntry_odd (n : Nat) : redirEntry (0x11 + 2 * n) = none := if_neg (by omega)

theorem IoApic.index_of_ioregsel {o : IoApic} {i : Nat} (h : o.ioregsel = BitVec.ofNat 32 i) (hi : i < 256) :
    o.index = i := by
  rw [IoApic.index, h, BitVec.toNat_setWidth, BitVec.toNat_ofNat]
  omega

/-- A write of IOWIN with entry n selected (R552). -/
theorem IoApic.writeReg_window {o : IoApic} {n : Nat} (hn : n < 16) (h : o.ioregsel = BitVec.ofNat 32 (0x10 + 2 * n))
    (v : Dword) : o.writeReg 0x10 v =
      { o with mask := putBit16 o.mask n (v.getLsbD 16), level := putBit16 o.level n (v.getLsbD 15) } := by
  have hentry : redirEntry o.index = some n := by
    rw [IoApic.index_of_ioregsel h (by omega), redirEntry_even hn]
  rw [IoApic.writeReg, IoApic.writeWindow, hentry]

/-- Settles O32: what driving an input requests, and what settling requests after an EOI and after a change of the mask. -/
theorem edgeRequestsItsVector : Obligations.EdgeRequestsItsVector := by
  intro c n
  refine ⟨fun hline hmask hlevel => ?edge, fun hmask => ?masked, fun hmask hlevel => ⟨fun hisr => ?level,
    fun hisr => ?served, fun hline habove v c' hwrite => ?eoi⟩, ?dropped, fun hline hisr hsel => ?unmasked⟩
  case edge => simp [IntCtl.drive_requests, hline, hmask, hlevel]
  case masked => simp [IntCtl.drive_requests, hmask]
  case level => simp [IntCtl.drive_requests, hmask, hlevel, hisr]
  case served => simp [IntCtl.drive_requests, hlevel, hisr]
  case eoi =>
    obtain rfl := Except.ok.inj ((c.writeLapic_eoi v).symm.trans hwrite)
    simp [IntCtl.settle_requests, hline, hlevel, hmask, LocalApic.eoi_clears habove]
  case dropped => simp [IntCtl.drive_requests]
  case unmasked =>
    rw [IntCtl.writeIoapic, IoApic.writeReg_window n.isLt hsel, IntCtl.settle_requests]
    simp [hline, hisr, putBit16_same _ _ n.isLt]

end Sys2Proof.Machine

/-! SUPPORT. Proofs about the interrupt controller's registers as software reads and writes them: where the accesses go, and
what each register keeps of a written value. -/

namespace Sys2Proof.Machine

/-! ### Accesses to the registers -/

/-- No access to a register of an APIC meets a bus error. -/
def ApicsAnswer (p : Config.Platform) : Prop :=
  ∀ a, isLapic a = true ∨ isIoapic p a = true → busErr p .read a = false ∧ busErr p .write a = false

theorem ApicsAnswer.noBusErr {s : State} (h : ApicsAnswer s.plat) {kind : Config.AccessKind} (hkind : kind ≠ .fetch)
    {w : Width} {a : Dword}
    (ha : ∀ x, a.toNat ≤ x → x < a.toNat + w.bytes → isLapic x = true ∨ isIoapic s.plat x = true) :
    noBusErr kind w a s := by
  intro x hlo hhi _
  obtain ⟨hread, hwrite⟩ := h x (ha x hlo hhi)
  cases kind with
  | fetch => exact absurd rfl hkind
  | read => exact hread
  | write => exact hwrite

/-- The address of a local APIC register (R531). -/
def lapicAddress (off : Nat) : Dword := BitVec.ofNat 32 (0xFEE00000 + off)

/-- The address of an IOAPIC register (R550). -/
def ioapicAddress (off : Nat) : Dword := BitVec.ofNat 32 (0xFEC00000 + off)

theorem lapicAddress_toNat {off : Nat} (h : off < 0x100000) : (lapicAddress off).toNat = 0xFEE00000 + off := by
  rw [lapicAddress, BitVec.toNat_ofNat]
  omega

theorem ioapicAddress_toNat {off : Nat} (h : off < 0x14) : (ioapicAddress off).toNat = 0xFEC00000 + off := by
  rw [ioapicAddress, BitVec.toNat_ofNat]
  omega

theorem isLapic_iff {x : Nat} : isLapic x = true ↔ 0xFEE00000 ≤ x ∧ x < 0xFEF00000 := by
  unfold isLapic inRange
  rw [Bool.and_eq_true, decide_eq_true_iff, decide_eq_true_iff]
  rfl

/-- FEC00000h to FEC00013h are the IOAPIC's on every platform (R7). -/
theorem isIoapic_of_fixed (p : Config.Platform) {x : Nat} (hlo : 0xFEC00000 ≤ x) (hhi : x < 0xFEC00014) :
    isIoapic p x = true := by
  have hsize : x < 0xFEC00000 + max 0x14 p.ioapicSize := by omega
  simp [isIoapic, inRange, Config.ioapicBase, Config.ioapicFixed, hlo, hsize]

/-- A dword above 80000000h does not straddle it (R103). -/
theorem inOneHalf_of_high {a : Dword} (hlo : 2 ^ 31 ≤ a.toNat) (hhi : a.toNat + 4 ≤ 2 ^ 32) : inOneHalf .b32 a :=
  ⟨hhi, .inl hlo⟩

section Access

variable {s : State} {kind : Config.AccessKind} {off : Nat}

/-- An aligned dword of the local APIC. -/
theorem route_lapicAddress (h : ApicsAnswer s.plat) (hkind : kind ≠ .fetch) (hoff : off < 0x100000) (h4 : off % 4 = 0) :
    route s.plat kind .b32 (lapicAddress off) = .ok (.lapic off) := by
  have hnat := lapicAddress_toNat hoff
  have hin : ∀ x, (lapicAddress off).toNat ≤ x → x < (lapicAddress off).toNat + 4 → isLapic x = true := fun x hlo hhi =>
    isLapic_iff.mpr (by omega)
  rw [route_lapic (h.noBusErr hkind fun x hlo hhi => .inl (hin x hlo hhi)) (inOneHalf_of_high (by omega) (by omega))
    ⟨0, by decide, hin _ (by omega) (by omega)⟩ (by omega), hnat]
  simp [Config.lapicRange]

/-- An aligned dword of the IOAPIC's fixed registers. -/
theorem route_ioapicAddress (h : ApicsAnswer s.plat) (hkind : kind ≠ .fetch) (hoff : off < 0x14) (h4 : off % 4 = 0) :
    route s.plat kind .b32 (ioapicAddress off) = .ok (.ioapic off) := by
  have hnat := ioapicAddress_toNat hoff
  have hin : ∀ x, (ioapicAddress off).toNat ≤ x → x < (ioapicAddress off).toNat + 4 → isIoapic s.plat x = true :=
    fun x hlo hhi => isIoapic_of_fixed s.plat (by omega) (by omega)
  have hbus := h.noBusErr hkind (w := .b32) fun x hlo hhi => .inr (hin x hlo hhi)
  have hhalf : inOneHalf .b32 (ioapicAddress off) := inOneHalf_of_high (by omega) (by omega)
  have hlapic : ¬ touches isLapic .b32 (ioapicAddress off) := by
    rintro ⟨k, hk, hx⟩
    have hlow := (isLapic_iff.mp hx).1
    simp only [Width.bytes] at hk
    omega
  have htouch : touches (isIoapic s.plat) .b32 (ioapicAddress off) := ⟨0, by decide, hin _ (by omega) (by omega)⟩
  unfold route
  dsimp only
  rw [noBusErr_any_eq_false hbus, if_neg Bool.false_ne_true, if_neg hhalf.not_beyond, if_neg hhalf.not_straddle,
    if_neg (mt (any_span_iff_touches ..).mp hlapic), if_pos ((any_span_iff_touches ..).mpr htouch),
    if_pos ⟨rfl, by omega⟩, hnat]
  simp [Config.ioapicBase]

theorem readMem_lapic (h : ApicsAnswer s.plat) (hoff : off < 0x100000) (h4 : off % 4 = 0) :
    readMem .b32 (lapicAddress off) s = .ok (mmioValue s (s.intc.lapic.readReg off)) := by
  unfold readMem
  rw [route_lapicAddress h (by decide) hoff h4]
  exact congrArg (fun v => Except.ok (v, (mmioValue s (s.intc.lapic.readReg off)).2)) (BitVec.setWidth_eq _)

theorem readMem_ioapic {v : Dword} (h : ApicsAnswer s.plat) (hoff : off < 0x14) (h4 : off % 4 = 0)
    (hreg : s.intc.ioapic.readReg off = some v) : readMem .b32 (ioapicAddress off) s = .ok (v, s) := by
  unfold readMem
  rw [route_ioapicAddress h (by decide) hoff h4]
  dsimp only
  rw [hreg, mmioValue]
  dsimp only
  rw [BitVec.setWidth_eq]

theorem writeMem_lapic {v : Dword} {l : LocalApic} (h : ApicsAnswer s.plat) (hoff : off < 0x100000) (h4 : off % 4 = 0)
    (hreg : s.intc.lapic.writeReg off v = .ok l) :
    writeMem .b32 (lapicAddress off) v s = .ok (s.setIntc (IntCtl.settle { s.intc with lapic := l })) := by
  unfold writeMem
  rw [route_lapicAddress h (by decide) hoff h4]
  dsimp only
  rw [BitVec.setWidth_eq, IntCtl.writeLapic, hreg]

theorem writeMem_ioapic (v : Dword) (h : ApicsAnswer s.plat) (hoff : off < 0x14) (h4 : off % 4 = 0) :
    writeMem .b32 (ioapicAddress off) v s = .ok (s.setIntc (s.intc.writeIoapic off v)) := by
  unfold writeMem
  rw [route_ioapicAddress h (by decide) hoff h4]
  dsimp only
  rw [BitVec.setWidth_eq]

end Access

/-! ### What the registers keep of a written value -/

/-- The low bits of a dword, as a field and by a mask. -/
theorem setWidth_setWidth_eq_and (v : Dword) {k : Nat} (hk : k < 32) :
    (v.setWidth k).setWidth 32 = v &&& BitVec.ofNat 32 (2 ^ k - 1) := by
  have hpow : 2 ^ k < 2 ^ 32 := Nat.pow_lt_pow_right (by decide) hk
  apply BitVec.eq_of_toNat_eq
  rw [BitVec.toNat_and, BitVec.toNat_ofNat, Nat.mod_eq_of_lt (by omega : 2 ^ k - 1 < 2 ^ 32),
    Nat.and_two_pow_sub_one_eq_mod, BitVec.toNat_setWidth, BitVec.toNat_setWidth]
  exact Nat.mod_eq_of_lt ((Nat.mod_lt _ (Nat.two_pow_pos k)).trans hpow)

/-- LVTTIMER keeps its three fields and reads 001b in bits 7:5 (R548). -/
theorem LvtTimer.image_of_written (v : Dword) :
    LvtTimer.image ⟨v.getLsbD 17, v.getLsbD 16, v.setWidth 5⟩ = (v &&& 0x0003001F) ||| 0x20 := by
  have hmask : (0x0003001F : Dword) = BitVec.twoPow 32 17 ||| BitVec.twoPow 32 16 ||| BitVec.ofNat 32 (2 ^ 5 - 1) := by
    decide
  rw [hmask, BitVec.and_or_distrib_left, BitVec.and_or_distrib_left, BitVec.and_twoPow, BitVec.and_twoPow,
    ← setWidth_setWidth_eq_and v (by decide : 5 < 32)]
  generalize v.getLsbD 17 = periodic
  generalize v.getLsbD 16 = masked
  generalize v.setWidth 5 = vector
  revert periodic masked vector
  decide

/-- A redirection entry keeps its mask and trigger bits and reads 0 elsewhere (R552). -/
theorem IoApic.entryImage_of_written (o : IoApic) {n : Nat} (hn : n < 16) (v : Dword) :
    IoApic.entryImage { o with mask := putBit16 o.mask n (v.getLsbD 16), level := putBit16 o.level n (v.getLsbD 15) } n =
      v &&& 0x00018000 := by
  have hmask : (0x00018000 : Dword) = BitVec.twoPow 32 16 ||| BitVec.twoPow 32 15 := by decide
  rw [IoApic.entryImage, putBit16_same _ _ hn, putBit16_same _ _ hn, hmask, BitVec.and_or_distrib_left,
    BitVec.and_twoPow, BitVec.and_twoPow]
  generalize v.getLsbD 16 = masked
  generalize v.getLsbD 15 = level
  revert masked level
  decide

/-- IOWIN with the low half of entry n selected (R551). -/
theorem IoApic.readReg_entry {o : IoApic} {n : Nat} (hn : n < 16) (h : o.ioregsel = BitVec.ofNat 32 (0x10 + 2 * n)) :
    o.readReg 0x10 = some (o.entryImage n) := by
  rw [IoApic.readReg, IoApic.readWindow, IoApic.index_of_ioregsel h (by omega), redirEntry_even hn]

/-- What is written through IOWIN is read back through it (R551, R552). -/
theorem IoApic.readReg_writeReg_window {o : IoApic} {n : Nat} (hn : n < 16)
    (h : o.ioregsel = BitVec.ofNat 32 (0x10 + 2 * n)) (v : Dword) :
    (o.writeReg 0x10 v).readReg 0x10 = some (v &&& 0x00018000) := by
  have hread := IoApic.readReg_entry
    (o := { o with mask := putBit16 o.mask n (v.getLsbD 16), level := putBit16 o.level n (v.getLsbD 15) }) hn h
  rw [IoApic.writeReg_window hn h, hread, IoApic.entryImage_of_written o hn]

/-- IOWIN with the high half of entry n selected (R551). -/
theorem IoApic.readReg_highHalf {o : IoApic} {n : Nat} (hn : n < 16)
    (h : o.ioregsel = BitVec.ofNat 32 (0x11 + 2 * n)) : o.readReg 0x10 = some 0 := by
  rw [IoApic.readReg, IoApic.readWindow, IoApic.index_of_ioregsel h (by omega), redirEntry_odd n]
  exact if_pos (by omega)

/-- Settles O31: each access reaches the register at its offset, which keeps the fields named and whose settling touches
none of them. -/
theorem controllerRegistersReadBack : Obligations.ControllerRegistersReadBack := by
  intro s v h
  refine ⟨?icr, ?lvt, ?tpr, fun hsmall => ?sivr, ?readTpr, ?readPpr, ?readEoi, ?readSivr, ?readIsr, ?readIrr, ?readCcr,
    fun a ha => ?ignored, fun n hn => ?entry⟩
  case icr =>
    exact ⟨_, writeMem_lapic (off := 0x380) h (by decide) rfl rfl, readMem_lapic (off := 0x380) h (by decide) rfl,
      readMem_lapic (off := 0x390) h (by decide) rfl⟩
  case lvt =>
    refine ⟨_, writeMem_lapic (off := 0x320) h (by decide) rfl rfl, ?_⟩
    rw [← LvtTimer.image_of_written]
    exact readMem_lapic (off := 0x320) h (by decide) rfl
  case tpr =>
    refine ⟨_, writeMem_lapic (off := 0x80) h (by decide) rfl rfl, ?_⟩
    exact setWidth_setWidth_eq_and v (k := 8) (by decide) ▸ readMem_lapic (off := 0x80) h (by decide) rfl
  case sivr =>
    have hreg : s.intc.lapic.writeReg 0xF0 v = .ok { s.intc.lapic with sivr := v.setWidth 8 } :=
      if_neg (by rw [BitVec.toNat_setWidth]; omega)
    refine ⟨_, writeMem_lapic (off := 0xF0) h (by decide) rfl hreg, ?_⟩
    exact setWidth_setWidth_eq_and v (k := 8) (by decide) ▸ readMem_lapic (off := 0xF0) h (by decide) rfl
  case readTpr => exact readMem_lapic (off := 0x80) h (by decide) rfl
  case readPpr => exact readMem_lapic (off := 0xA0) h (by decide) rfl
  case readEoi => exact readMem_lapic (off := 0xB0) h (by decide) rfl
  case readSivr => exact readMem_lapic (off := 0xF0) h (by decide) rfl
  case readIsr => exact readMem_lapic (off := 0x110) h (by decide) rfl
  case readIrr => exact readMem_lapic (off := 0x210) h (by decide) rfl
  case readCcr => exact readMem_lapic (off := 0x390) h (by decide) rfl
  case ignored =>
    rcases ha with rfl | rfl | rfl | rfl
    · exact writeMem_lapic (off := 0xA0) h (by decide) rfl rfl
    · exact writeMem_lapic (off := 0x110) h (by decide) rfl rfl
    · exact writeMem_lapic (off := 0x210) h (by decide) rfl rfl
    · exact writeMem_lapic (off := 0x390) h (by decide) rfl rfl
  case entry =>
    refine ⟨_, _, _, writeMem_ioapic (off := 0) _ h (by decide) rfl, writeMem_ioapic (off := 0x10) v h (by decide) rfl,
      readMem_ioapic (off := 0x10) h (by decide) rfl ?low, writeMem_ioapic (off := 0) _ h (by decide) rfl,
      readMem_ioapic (off := 0x10) h (by decide) rfl ?high⟩
    case low => exact IoApic.readReg_writeReg_window (o := { s.intc.ioapic with ioregsel := _ }) hn rfl v
    case high => exact IoApic.readReg_highHalf hn rfl

end Sys2Proof.Machine

/-! SUPPORT. Proofs about events and the boundary at which they are taken: INT and its return, the single-step trap,
interrupts, and the stopped state. -/

namespace Sys2Proof.Machine

/-! ### INT and IRET -/

/-- Settles O20: the entry lemma, for every event. -/
theorem entryThroughGate : Obligations.EntryThroughGate := fun _ _ _ h => enter_of_opens h

/-- Settles O23: both are the entry of a software event. -/
theorem intEntersItsHandler : Obligations.IntEntersItsHandler :=
  ⟨fun n _ s h => enter_of_opens (ev := Event.software n s.eip s.nextEip) h,
    fun _ s h => enter_of_opens (ev := Event.software 3 s.eip s.nextEip) h⟩

/-- The image of the flags has no reserved bit (R39). -/
theorem EFlags.image_reserved (f : EFlags) : f.image &&& 0xFFFFF43C = 0 := by
  obtain ⟨cf, zf, sf, tf, intf, o⟩ := f
  revert cf zf sf tf intf o
  decide

/-- The image of the flags is loaded as the flags it came from (R39, R40). -/
theorem EFlags.ofImage_image (f : EFlags) : EFlags.ofImage f.image = f := by
  obtain ⟨cf, zf, sf, tf, intf, o⟩ := f
  revert cf zf sf tf intf o
  decide

/-- A word of a frame in readable storage is read back. -/
theorem readMem_frameSlot {s t : State} {k : Nat} {v : Dword}
    (hroute : route s.plat .read .b32 (frameSlot s k) = .ok .storage) (hplat : t.plat = s.plat)
    (hword : dwordAt t.mem (frameSlot s k) = v) : readMem .b32 (frameSlot s k) t = .ok (v, t) :=
  hword ▸ readMem_storage (hplat ▸ hroute)

/-- IRET with ESP at a frame of three words: it leaves ESP where it was before them (R436). -/
theorem exec_iret_of_frame {s t : State} {e : Dword} {f : EFlags} (hu : t.pmU = false) (hplat : t.plat = s.plat)
    (hroute : ∀ k, k < 3 → route s.plat .read .b32 (frameSlot s k) = .ok .storage) (hesp : t.reg .esp = frameSlot s 2)
    (heip : dwordAt t.mem (frameSlot s 2) = e) (hpm : dwordAt t.mem (frameSlot s 1) = 0)
    (hflags : dwordAt t.mem (frameSlot s 0) = f.image) : exec .iret t = .next
      (((((t.setReg .esp (s.reg .esp)).setFlags f).setPmU false).setEip e).setStepDue t.flags.tf) := by
  have hslot1 : t.reg .esp + 4 = frameSlot s 1 := by rw [hesp, frameSlot, frameSlot]; bv_omega
  have hslot0 : t.reg .esp + 8 = frameSlot s 0 := by rw [hesp, frameSlot, frameSlot]; bv_omega
  have hback : t.reg .esp + 12 = s.reg .esp := by rw [hesp, frameSlot]; bv_omega
  have hiret := exec_iret hu (hesp ▸ readMem_frameSlot (hroute 2 (by decide)) hplat heip)
    (hslot1 ▸ readMem_frameSlot (hroute 1 (by decide)) hplat hpm)
    (hslot0 ▸ readMem_frameSlot (hroute 0 (by decide)) hplat hflags) f.image_reserved
  rwa [hback, f.ofImage_image] at hiret

/-- Settles O26: the frame that INT leaves is the one IRET reads. -/
theorem intThenIretReturns : Obligations.IntThenIretReturns := by
  intro n g s t e hopens hlen hroute hint
  obtain ⟨t', hnext, hentered⟩ := intEntersItsHandler.1 n g s hopens
  obtain rfl : t' = t := Host.Outcome.next.inj (hnext.symm.trans hint)
  obtain ⟨-, hesp, hregs, hflags, ⟨hrun, -⟩, ⟨⟨hidtr, hpmU, -, -, hplat, -⟩, hintc⟩, heflags, hpm, heip, -⟩ := hentered
  have hslot : t'.reg .esp = frameSlot s 2 :=
    hesp.trans (congrArg (fun words => s.reg .esp - BitVec.ofNat 32 (4 * words)) hlen)
  have hiret := exec_iret_of_frame (t := t'.setNextEip e) (hpmU.trans hopens.supervisor) hplat hroute hslot
    (heip (.inr rfl)) hpm heflags
  refine ⟨_, hiret, rfl, Regs.ext_get fun r => ?regs, rfl, hidtr, hintc, hrun, congrArg EFlags.tf hflags, rfl⟩
  case regs =>
    by_cases hr : r = .esp
    · rw [hr]
      exact t'.reg_setReg_same .esp _
    · exact (t'.reg_setReg_ne _ hr).trans (hregs r hr)

/-! ### At an instruction boundary -/

/-- A due trap is taken by any core that is not stopped (R492 item 1). -/
theorem coreStep_of_stepDue {s : State} {b : Bool} (hu : s.pmU = false) (hrun : s.run ≠ .stopped)
    (htrap : s.stepDue = true) : coreStep b s = takeStepTrap s := by
  cases hr : s.run with
  | stopped => exact absurd hr hrun
  | running | halted => simp only [coreStep, hu, hr, htrap, Bool.false_eq_true, if_false, if_true]

/-- A recognised interrupt is taken by any core that is not stopped (R492 item 2). -/
theorem coreStep_of_interruptDue {s : State} (hu : s.pmU = false) (hrun : s.run ≠ .stopped) (htrap : s.stepDue = false)
    (hint : interruptDue s = true) : coreStep true s = takeInterrupt s := by
  cases hr : s.run with
  | stopped => exact absurd hr hrun
  | running | halted =>
    simp only [coreStep, hu, hr, htrap, hint, Bool.and_self, Bool.false_eq_true, if_false, if_true]

/-- Settles O10: the trap is the entry of vector 1 with the EIP that the traced instruction left. -/
theorem singleStepTrapIsTaken : Obligations.SingleStepTrapIsTaken := by
  intro b s g hrun htrap hopens
  rw [coreStep_of_stepDue hopens.supervisor hrun htrap]
  exact enter_of_opens (ev := Event.plain 1 s.eip s.eip) hopens

/-- The interrupt controller is no input of a delivery. -/
theorem Opens.setIntc {v : BitVec 8} {g : Gate} {s : State} (h : Opens v g s) (c : IntCtl) : Opens v g (s.setIntc c) :=
  ⟨h.memory, h.supervisor, h.gate, h.present, h.kind, h.reserved, h.stack⟩

/-- Settles O11: the acknowledge answers the vector, and the entry is that of the state with the request moved. -/
theorem interruptEntersItsHandler : Obligations.InterruptEntersItsHandler := by
  intro s v g hrun htrap hif hintr hvector hopens
  have hdue : interruptDue s = true := by rw [interruptDue, hif, hintr, Bool.and_self]
  have hv : s.intc.acknowledge.1 = v := by
    rcases hvector with ⟨n, hn, rfl⟩ | ⟨hnone, rfl⟩
    · rw [IntCtl.acknowledge_of_some hn]
    · rw [IntCtl.acknowledge_of_none hnone]
  rw [coreStep_of_interruptDue hopens.supervisor hrun htrap hdue]
  obtain ⟨t, hnext, hentered⟩ :=
    enter_of_opens (ev := Event.interrupt v s.eip) (hopens.setIntc s.intc.acknowledge.2)
  refine ⟨t, ?_, hentered.system.2, hentered⟩
  rw [takeInterrupt, ← hnext, ← hv]

/-! ### The stopped state -/

/-- A tick changes the interrupt controller only. -/
theorem tickTurn_setIntc {s t : State} (h : tickTurn s = .next t) : ∃ c, t = s.setIntc c := by
  unfold tickTurn at h
  split at h
  · exact ⟨_, (Host.Outcome.next.inj h).symm⟩
  · exact absurd h (by simp)

theorem ticks_setIntc {t : State} : ∀ (n : Nat) {s : State}, ticks n s = .next t → ∃ c, t = s.setIntc c
  | 0, s, h => ⟨s.intc, (Host.Outcome.next.inj h).symm⟩
  | n + 1, s, h => by
    unfold ticks at h
    split at h
    · rename_i u hu
      obtain ⟨c, rfl⟩ := tickTurn_setIntc hu
      obtain ⟨d, rfl⟩ := ticks_setIntc n h
      exact ⟨d, rfl⟩
    · exact absurd h (by simp)
    · exact absurd h (by simp)

/-- A stopped core stays as it is (R512). -/
theorem coreStep_stopped {s t : State} {b : Bool} (hrun : s.run = .stopped) (h : coreStep b s = .next t) : t = s :=
  (coreStep_cases h).resolve_right fun hnot => hnot.1 hrun

/-- While the core is stopped every turn but a reset and a power cycle changes the interrupt controller only. -/
theorem takeTurn_stopped {s t : State} {turn : Turn} (hrun : s.run = .stopped) (hreset : turn ≠ .reset)
    (hpower : ∀ cells, turn ≠ .powerCycle cells) (h : takeTurn turn s = .next t) : ∃ c, t = s.setIntc c := by
  cases turn with
  | core b => exact ⟨s.intc, coreStep_stopped hrun h⟩
  | tick => exact tickTurn_setIntc h
  | irq n active => exact ⟨_, (Host.Outcome.next.inj h).symm⟩
  | reset => exact absurd rfl hreset
  | powerCycle cells => exact absurd rfl (hpower cells)

theorem freeRun_stopped {s t : State} (hrun : s.run = .stopped) (h : freeRun s = .next t) : ∃ c, t = s.setIntc c := by
  unfold freeRun at h
  split at h
  · rename_i u hu
    obtain rfl := coreStep_stopped hrun hu
    exact ticks_setIntc _ h
  · exact absurd h (by simp)
  · exact absurd h (by simp)

/-- Settles O15: by whether there is a schedule. -/
theorem stoppedUntilReset : Obligations.StoppedUntilReset := by
  intro s t hrun h hreset hpower
  cases hagenda : s.agenda with
  | nil =>
    rw [step_of_agenda_nil hagenda] at h
    obtain ⟨c, rfl⟩ := freeRun_stopped hrun h
    exact ⟨hrun, rfl, rfl, rfl, rfl, rfl, rfl⟩
  | cons turn rest =>
    rw [step_of_agenda_cons hagenda] at h
    obtain ⟨c, rfl⟩ := takeTurn_stopped (s := s.setAgenda rest) hrun (fun e => hreset rest (e ▸ hagenda))
      (fun cells e => hpower cells rest (e ▸ hagenda)) h
    exact ⟨hrun, rfl, rfl, rfl, rfl, rfl, rfl⟩

end Sys2Proof.Machine

/-! SUPPORT. Proofs about deliveries that fail: what each leaves, what it becomes (R504, R505), and the chains that end in the
Triple Fault. -/

namespace Sys2Proof.Machine

/-! ### The state that a failed delivery leaves -/

/-- The state of a delivery that has failed: supervisor mode, TF clear, no trap due, IF at `b`, the draws at `d`. -/
def State.abandoned (s : State) (b : Bool) (d : Nat) : State :=
  { s with pmU := false, flags := { s.flags with tf := false, intf := b }, stepDue := false, draws := d }

/-- A delivery begins in such a state (R500 lines 3 and 4). -/
theorem beginEntry_eq_abandoned (s : State) : beginEntry s = s.abandoned s.flags.intf s.draws := rfl

/-- A delivery looks at the state only after it has begun. -/
theorem deliver_congr {saved : EFlags} {ev : Event} {s t : State} (h : beginEntry s = beginEntry t) :
    deliver saved ev s = deliver saved ev t := by
  unfold deliver
  rw [h]

/-! ### How a delivery fails -/

theorem readMem_of_route_error {w : Width} {a : Dword} {s : State} {e : Stop} (h : route s.plat .read w a = .error e) :
    readMem w a s = .error e := by
  unfold readMem
  rw [h]

theorem writeMem_of_route_error {w : Width} {a : Dword} {s : State} {e : Stop} (v : BitVec w.bits)
    (h : route s.plat .write w a = .error e) : writeMem w a v s = .error e := by
  unfold writeMem
  rw [h]

/-- A descriptor of which one half meets a bus error cannot be read (R505). -/
theorem readGate_of_unreadable {v : BitVec 8} {s : State} {x : Exn}
    (h : route s.plat .read .b32 (s.idtr.gateAddress v) = .error (.raise x) ∨
      (route s.plat .read .b32 (s.idtr.gateAddress v) = .ok .storage ∧
        route s.plat .read .b32 (s.idtr.gateAddress v + 4) = .error (.raise x))) :
    readGate s.idtr v s = .error (.raise x) := by
  unfold readGate
  rcases h with h0 | ⟨h0, h1⟩
  · rw [readMem_of_route_error h0]
    rfl
  · rw [readMem_storage h0]
    simp only [bind, Except.bind, readMem_of_route_error h1]

section Deliver

variable {saved : EFlags} {ev : Event} {g : Gate} {s : State}

theorem idtr_holds_iff {v : BitVec 8} : s.idtr.holds v = true ↔ v.toNat * 8 + 7 ≤ s.idtr.limit.toNat :=
  decide_eq_true_iff

theorem deliver_of_beyondLimit (h : s.idtr.limit.toNat < ev.vector.toNat * 8 + 7) :
    deliver saved ev s = .failed .beyondLimit (beginEntry s) :=
  if_neg (mt (idtr_holds_iff (s := beginEntry s)).mp (Nat.not_le.mpr h))

theorem deliver_of_readGate_error {e : Stop} (hlimit : ev.vector.toNat * 8 + 7 ≤ s.idtr.limit.toNat)
    (h : readGate s.idtr ev.vector (beginEntry s) = .error e) :
    deliver saved ev s = Delivery.ofStop e (beginEntry s).pastDraws := by
  have hread : readGate (beginEntry s).idtr ev.vector (beginEntry s) = .error e := h
  unfold deliver
  dsimp only
  rw [if_pos ((idtr_holds_iff (s := beginEntry s)).mpr hlimit), hread]

/-- What a delivery checks of a gate that it can read (R500 lines 19 to 38). -/
theorem deliver_eq_of_gateIs (h : GateIs ev.vector g s) :
    deliver saved ev s =
      if g.present = false then .failed .notPresent (beginEntry s)
      else if g.isInterrupt = false ∧ g.isTrap = false then .failed .badType (beginEntry s)
      else if g.reservedSet then .halts (.refuse .descriptorReservedBits)
      else enterGate saved ev g (beginEntry s) := by
  have hb : GateIs ev.vector g (beginEntry s) := h
  unfold deliver
  dsimp only
  rw [if_pos ((idtr_holds_iff (s := beginEntry s)).mpr hb.1), readGate_of_gateIs hb]

/-- The failures of R504, and a bus error on the descriptor: IF is not yet touched. -/
theorem deliver_of_fails {f : Failure} (h : DeliveryFails ev.vector s f) :
    ∃ d, deliver saved ev s = .failed f (s.abandoned s.flags.intf d) := by
  cases h with
  | outside hlimit => exact ⟨s.draws, deliver_of_beyondLimit hlimit⟩
  | absent g hgate habsent => exact ⟨s.draws, (deliver_eq_of_gateIs hgate).trans (if_pos habsent)⟩
  | wrongType g hgate hpresent hint htrap =>
    have hnotAbsent : ¬ g.present = false := by simp [Gate.present, hpresent]
    have hkind := g.kind_ne_iff.mpr (not_or.mpr ⟨hint, htrap⟩)
    exact ⟨s.draws, (deliver_eq_of_gateIs hgate).trans ((if_neg hnotAbsent).trans (if_pos hkind))⟩
  | unreadable x hlimit hroute =>
    have hread : readGate s.idtr ev.vector (beginEntry s) = .error (.raise x) :=
      readGate_of_unreadable (s := beginEntry s) hroute
    exact ⟨s.draws + 3, deliver_of_readGate_error hlimit hread⟩

theorem Gate.reservedSet_eq_false (h : g.d0 &&& 0xFFFF0000 = 0 ∧ g.d1 &&& 0x000060FF = 0) : g.reservedSet = false := by
  rw [Bool.eq_false_iff, ne_eq, Gate.reservedSet_iff, not_or, not_not, not_not]
  exact h

/-- A usable gate is entered. -/
theorem deliver_of_usable (h : Usable ev.vector g s) : deliver saved ev s = enterGate saved ev g (beginEntry s) := by
  rw [deliver_of_gateIs h.gate h.present h.kind, Gate.reservedSet_eq_false h.reserved, if_neg Bool.false_ne_true]

theorem pushWords_of_error {sp : Dword} {ws : List Dword} {e : Stop} (hws : ws ≠ [])
    (h : route s.plat .write .b32 (sp - 4) = .error e) : pushWords sp ws s = (.error e, s) := by
  obtain ⟨w, ws, rfl⟩ := List.exists_cons_of_ne_nil hws
  rw [pushWords, writeMem_of_route_error w h]

/-- A bus error on the first word of the frame: the gate's kind has decided IF (R505). -/
theorem deliver_of_frame_busErr {x : Exn} (h : Usable ev.vector g s)
    (hroute : route s.plat .write .b32 (frameSlot s 0) = .error (.raise x)) :
    ∃ b d, deliver saved ev s = .failed .busError (s.abandoned b d) := by
  rw [deliver_of_usable h]
  have hframe := frameWords_frameOf saved ev ((beginEntry s).maskedBy g)
  obtain ⟨d, hd⟩ := frameWords_draws saved ev ((beginEntry s).maskedBy g)
  generalize hfw : frameWords saved ev ((beginEntry s).maskedBy g) = fw at hframe hd
  obtain ⟨ws, u⟩ := fw
  obtain rfl : u = ((beginEntry s).maskedBy g).setDraws d := hd
  have hws : ws ≠ [] := by
    rintro rfl
    exact absurd hframe.eflags (by simp)
  have hpush := pushWords_of_error (s := ((beginEntry s).maskedBy g).setDraws d) hws hroute
  have hesp : (((beginEntry s).maskedBy g).setDraws d).reg .esp = s.reg .esp := rfl
  refine ⟨s.flags.intf && !g.isInterrupt, d, ?_⟩
  simp only [enterGate, State.maskedBy_eq_ite, hfw, hesp, hpush]
  rfl

/-- A delivery through a usable gate with storage for its frame. -/
theorem deliver_of_opens (h : Opens ev.vector g s) :
    ∃ t, deliver s.flags ev (s.setRun .running) = .entered t ∧ Entered ev g s t := by
  obtain ⟨t, hnext, hentered⟩ := enter_of_opens h
  obtain ⟨ws, m, d, -, -, henter⟩ :=
    enterGate_of_storage s.flags ev g (beginEntry (s.setRun .running)) h.memory h.stack
  have husable : Usable ev.vector g (s.setRun .running) := ⟨h.gate, h.present, h.kind, h.reserved⟩
  have hdeliver := (deliver_of_usable (saved := s.flags) husable).trans henter
  obtain rfl := Host.Outcome.next.inj ((enter_of_deliver_entered h.supervisor hdeliver).symm.trans hnext)
  exact ⟨_, hdeliver, hentered⟩

end Deliver

/-! ### What a failed delivery becomes -/

/-- The events whose failed delivery becomes #DF: #DE, #GP and #MC, and with an absent gate or a wrong type also 11 and
the printed 24 (R504). -/
def Doubles (p : Config.Platform) (v : BitVec 8) (f : Failure) : Prop :=
  v = 0 ∨ v = 13 ∨ v = 18 ∨ (f ≠ .beyondLimit ∧ f ≠ .busError ∧ (v = 11 ∨ (v = 24 ∧ p.vector24 = .asPrinted)))

/-- The #DF that an event becomes. -/
def Event.doubled (ev : Event) : Event :=
  { ev with vector := 8, errVector := 0, idt := false, ext := false, int := false }

/-- The #NP or #GP that an event becomes (R504, R505). -/
def Event.nested (ev : Event) : Failure → Event
  | .notPresent => { ev with vector := 11, errVector := ev.vector, idt := true, int := false }
  | .busError => { ev with vector := 13, errVector := 0, idt := false, int := false }
  | _ => { ev with vector := 13, errVector := ev.vector, idt := true, int := false }

section Escalate

variable {p : Config.Platform} {ev : Event} {f : Failure}

theorem escalate_eight (h : ev.vector = 8) : escalate p ev f = none := if_pos h

theorem doubles_iff_of_limit_or_bus (hf : f = .beyondLimit ∨ f = .busError) :
    Doubles p ev.vector f ↔ ev.vector = 0 ∨ ev.vector = 13 ∨ ev.vector = 18 := by
  unfold Doubles
  tauto

theorem doubles_iff_of_gate (hlimit : f ≠ .beyondLimit) (hbus : f ≠ .busError) :
    Doubles p ev.vector f ↔
      ev.vector = 0 ∨ ev.vector = 11 ∨ ev.vector = 13 ∨ ev.vector = 18 ∨ printed24 p ev.vector = true := by
  rw [printed24_iff, Doubles]
  tauto

theorem escalate_of_doubles (h8 : ev.vector ≠ 8) (h : Doubles p ev.vector f) : escalate p ev f = some ev.doubled := by
  refine (if_neg h8).trans ?_
  cases f with
  | beyondLimit => exact congrArg some (if_pos ((doubles_iff_of_limit_or_bus (.inl rfl)).mp h))
  | busError => exact congrArg some (if_pos ((doubles_iff_of_limit_or_bus (.inr rfl)).mp h))
  | notPresent | badType => exact congrArg some (if_pos ((doubles_iff_of_gate (by decide) (by decide)).mp h))

theorem escalate_of_not_doubles (h8 : ev.vector ≠ 8) (h : ¬ Doubles p ev.vector f) :
    escalate p ev f = some (ev.nested f) := by
  refine (if_neg h8).trans ?_
  cases f with
  | beyondLimit => exact congrArg some (if_neg (mt (doubles_iff_of_limit_or_bus (.inl rfl)).mpr h))
  | busError => exact congrArg some (if_neg (mt (doubles_iff_of_limit_or_bus (.inr rfl)).mpr h))
  | notPresent | badType => exact congrArg some (if_neg (mt (doubles_iff_of_gate (by decide) (by decide)).mpr h))

end Escalate

/-! ### Deliveries one after the other -/

section Chain

variable {saved : EFlags} {ev ev' : Event} {f : Failure} {s t : State}

theorem deliverAll_of_escalate {n : Nat} (h : deliver saved ev s = .failed f t)
    (hesc : escalate t.plat ev f = some ev') : deliverAll saved (n + 1) ev s = deliverAll saved n ev' t := by
  rw [deliverAll, h]
  dsimp only
  rw [hesc]

theorem deliverAll_of_entered {n : Nat} (h : deliver saved ev s = .entered t) :
    deliverAll saved (n + 1) ev s = .next t := by
  rw [deliverAll, h]

theorem deliverAll_of_eight {n : Nat} (h : deliver saved ev s = .failed f t) (h8 : ev.vector = 8) :
    deliverAll saved (n + 1) ev s = .next (tripleFault t) := by
  rw [deliverAll, h]
  dsimp only
  rw [escalate_eight h8]

theorem enter_supervisor (hu : s.pmU = false) : enter ev s = deliverAll s.flags 4 ev (s.setRun .running) := by
  simp only [enter, hu, Bool.false_eq_true, if_false]

/-- Whether the core runs is no input of a delivery. -/
theorem DeliveryFails.setRun {v : BitVec 8} (h : DeliveryFails v s f) (r : RunState) :
    DeliveryFails v (s.setRun r) f := by
  cases h with
  | outside hlimit => exact .outside hlimit
  | absent g hgate habsent => exact .absent g hgate habsent
  | wrongType g hgate hpresent hint htrap => exact .wrongType g hgate hpresent hint htrap
  | unreadable x hlimit hroute => exact .unreadable x hlimit hroute

/-- An event that fails and becomes one whose gate is usable enters that one's handler, from the state before (R503). -/
theorem enter_of_fails_of_opens {g : Gate} (hf : DeliveryFails ev.vector s f) (hesc : escalate s.plat ev f = some ev')
    (hopens : Opens ev'.vector g s) : ∃ t, enter ev s = .next t ∧ Entered ev' g s t := by
  obtain ⟨d, hfail⟩ := deliver_of_fails (saved := s.flags) (hf.setRun .running)
  have hopensDrawn : Opens ev'.vector g (s.setDraws d) :=
    ⟨hopens.memory, hopens.supervisor, hopens.gate, hopens.present, hopens.kind, hopens.reserved, hopens.stack⟩
  obtain ⟨t, hdeliver, hentered⟩ := deliver_of_opens hopensDrawn
  have hsecond : deliver s.flags ev' ((s.setRun .running).abandoned s.flags.intf d) = .entered t :=
    (deliver_congr rfl).trans hdeliver
  refine ⟨t, ?_, hentered.eip, hentered.esp, hentered.regs, hentered.flags, hentered.run, hentered.system,
    hentered.eflagsWord, hentered.pmWord, hentered.eipWord, hentered.errorWord, hentered.mcWord, hentered.memory⟩
  rw [enter_supervisor hopens.supervisor, deliverAll_of_escalate hfail hesc]
  exact deliverAll_of_entered hsecond

/-- A #DF that fails is the Triple Fault (R512). -/
theorem enter_of_fails_of_eight (hf : DeliveryFails ev.vector s f) (h8 : ev.vector = 8) (hu : s.pmU = false) :
    ∃ t, enter ev s = .next t ∧ TripleFaulted s t := by
  obtain ⟨d, hfail⟩ := deliver_of_fails (saved := s.flags) (hf.setRun .running)
  refine ⟨_, (enter_supervisor hu).trans (deliverAll_of_eight hfail h8), ?_⟩
  exact ⟨rfl, rfl, rfl, rfl, rfl, rfl, rfl, rfl⟩

end Chain

/-! ### Chains that end in the Triple Fault -/

/-- What deliveries that fail one after the other leave: a state abandoned, with IF kept as long as none of them met its
bus error after the gate. -/
structure Abandoned (f : Failure) (s t : State) : Prop where
  state : ∃ b d, t = s.abandoned b d ∧ (f = .beyondLimit → b = s.flags.intf)

theorem Abandoned.trans {f : Failure} {s t u : State} (h : Abandoned f s t) (k : Abandoned f t u) : Abandoned f s u := by
  obtain ⟨b, d, rfl, hb⟩ := h
  obtain ⟨b', d', rfl, hb'⟩ := k
  exact ⟨b', d', rfl, fun hf => (hb' hf).trans (hb hf)⟩

/-- How many deliveries an event takes to the Triple Fault if each fails beyond the limit or with a bus error: it becomes
#GP, that one #DF. -/
def chainLength (v : BitVec 8) : Nat :=
  if v = 8 then 1 else if v = 13 then 2 else 3

theorem chainLength_bounds (v : BitVec 8) : 0 < chainLength v ∧ chainLength v ≤ 3 := by
  unfold chainLength
  split
  · omega
  · split <;> omega

theorem one_lt_chainLength {v : BitVec 8} (h8 : v ≠ 8) : 1 < chainLength v := by
  rw [chainLength, if_neg h8]
  split <;> omega

theorem chainLength_eq_three {v : BitVec 8} (h8 : v ≠ 8) (h13 : v ≠ 13) : chainLength v = 3 := by
  rw [chainLength, if_neg h8, if_neg h13]

/-- The next event of such a chain. -/
theorem escalate_chain (p : Config.Platform) {ev : Event} {f : Failure} (hf : f = .beyondLimit ∨ f = .busError)
    (h8 : ev.vector ≠ 8) : ∃ ev', escalate p ev f = some ev' ∧ (ev'.vector = 13 ∨ ev'.vector = 8) ∧
      chainLength ev'.vector < chainLength ev.vector := by
  by_cases hd : Doubles p ev.vector f
  · exact ⟨_, escalate_of_doubles h8 hd, .inr rfl, one_lt_chainLength h8⟩
  · have h13 : ev.vector ≠ 13 := fun h => hd (.inr (.inl h))
    have hnested : (ev.nested f).vector = 13 := by rcases hf with rfl | rfl <;> rfl
    refine ⟨_, escalate_of_not_doubles h8 hd, .inl hnested, ?_⟩
    rw [hnested, chainLength_eq_three h8 h13]
    decide

/-- A condition under which every delivery of the event, of #GP and of #DF fails in one way. -/
structure KeepsFailing (saved : EFlags) (f : Failure) (C : BitVec 8 → State → Prop) : Prop where
  kind : f = .beyondLimit ∨ f = .busError
  fails : ∀ ev s, C ev.vector s → ∃ t, deliver saved ev s = .failed f t ∧ Abandoned f s t
  stable : ∀ v s t, C v s → Abandoned f s t → C 13 t ∧ C 8 t

/-- Under such a condition the deliveries end in the Triple Fault. -/
theorem KeepsFailing.deliverAll_next {saved : EFlags} {f : Failure} {C : BitVec 8 → State → Prop}
    (h : KeepsFailing saved f C) : ∀ (n : Nat) (ev : Event) (s : State), C ev.vector s → chainLength ev.vector ≤ n →
      ∃ t, deliverAll saved n ev s = .next (tripleFault t) ∧ Abandoned f s t
  | 0, ev, _, _, hn => absurd hn (Nat.not_le.mpr (chainLength_bounds ev.vector).1)
  | n + 1, ev, s, hc, hn => by
    obtain ⟨t, hfail, habandoned⟩ := h.fails ev s hc
    by_cases h8 : ev.vector = 8
    · exact ⟨t, deliverAll_of_eight hfail h8, habandoned⟩
    · obtain ⟨ev', hesc, hvector, hlt⟩ := escalate_chain t.plat h.kind h8
      obtain ⟨hc13, hc8⟩ := h.stable _ _ _ hc habandoned
      have hc' : C ev'.vector t := by rcases hvector with hv | hv <;> rwa [hv]
      obtain ⟨u, hrest, hu⟩ := KeepsFailing.deliverAll_next h n ev' t hc' (by omega)
      exact ⟨u, (deliverAll_of_escalate hfail hesc).trans hrest, habandoned.trans hu⟩

theorem KeepsFailing.enter_next {f : Failure} {C : BitVec 8 → State → Prop} {ev : Event} {s : State} (hu : s.pmU = false)
    (h : KeepsFailing s.flags f C) (hc : C ev.vector (s.setRun .running)) :
    ∃ t, enter ev s = .next (tripleFault t) ∧ Abandoned f (s.setRun .running) t := by
  have hn : chainLength ev.vector ≤ 4 := (chainLength_bounds ev.vector).2.trans (by decide)
  obtain ⟨t, hall, ht⟩ := h.deliverAll_next 4 ev _ hc hn
  exact ⟨t, (enter_supervisor hu).trans hall, ht⟩

/-- A table that holds no vector lets every delivery fail beyond its limit. -/
theorem keepsFailing_emptyTable (saved : EFlags) :
    KeepsFailing saved .beyondLimit (fun _ s => s.idtr.limit.toNat < 7) where
  kind := .inl rfl
  fails := fun ev s hlimit =>
    ⟨_, deliver_of_beyondLimit (by omega), ⟨s.flags.intf, s.draws, beginEntry_eq_abandoned s, fun _ => rfl⟩⟩
  stable := by
    rintro - s - hlimit ⟨b, d, rfl, -⟩
    exact ⟨hlimit, hlimit⟩

/-- Settles O22: beyond the limit IF is kept to the end. -/
theorem emptyTableStopsTheCore : Obligations.EmptyTableStopsTheCore := by
  intro ev s hu hlimit
  obtain ⟨t, hnext, b, d, rfl, hb⟩ := (keepsFailing_emptyTable s.flags).enter_next (ev := ev) hu hlimit
  obtain rfl := hb rfl
  exact ⟨_, hnext, rfl, rfl, rfl, rfl, rfl, rfl, rfl, rfl⟩

/-- The first word of every frame meets a bus error, whatever usable gate the event goes through. -/
def FrameMeetsBusErr (vectors : BitVec 8 → Prop) (v : BitVec 8) (s : State) : Prop :=
  vectors v ∧ (∀ v, vectors v → ∃ g, Usable v g s) ∧
    ∃ x, route s.plat .write .b32 (frameSlot s 0) = .error (.raise x)

theorem keepsFailing_frame (saved : EFlags) {vectors : BitVec 8 → Prop} (h13 : vectors 13) (h8 : vectors 8) :
    KeepsFailing saved .busError (FrameMeetsBusErr vectors) where
  kind := .inr rfl
  fails := by
    rintro ev s ⟨hv, husable, x, hroute⟩
    obtain ⟨g, hg⟩ := husable _ hv
    obtain ⟨b, d, hfail⟩ := deliver_of_frame_busErr (saved := saved) hg hroute
    exact ⟨_, hfail, b, d, rfl, nofun⟩
  stable := by
    rintro - s - ⟨-, husable, hroute⟩ ⟨b, d, rfl, -⟩
    have hkept : ∀ v, vectors v → ∃ g, Usable v g (s.abandoned b d) := fun v hv =>
      (husable v hv).imp fun g hg => ⟨hg.gate, hg.present, hg.kind, hg.reserved⟩
    exact ⟨⟨h13, hkept, hroute⟩, ⟨h8, hkept, hroute⟩⟩

/-- Settles O21: the first failed delivery by the table of R504, and the chain of bus errors on the frame. -/
theorem failedDeliveryBecomes : Obligations.FailedDeliveryBecomes := by
  constructor
  case left =>
    intro ev g s f hf doubled
    refine ⟨fun h8 hd hopens => ?doubled, fun h8 hnd hkind hopens => ?np, fun h8 hnd hnp hbus hopens => ?gp,
      fun h8 hnd hkind hopens => ?bus, fun h8 hu => enter_of_fails_of_eight hf h8 hu⟩
    case doubled => exact enter_of_fails_of_opens hf (escalate_of_doubles h8 hd) hopens
    case np =>
      subst hkind
      exact enter_of_fails_of_opens hf (escalate_of_not_doubles h8 hnd) hopens
    case gp =>
      have hnested : ev.nested f = { ev with vector := 13, errVector := ev.vector, idt := true, int := false } := by
        cases f with
        | notPresent => exact absurd rfl hnp
        | busError => exact absurd rfl hbus
        | beyondLimit | badType => rfl
      exact enter_of_fails_of_opens hf (hnested ▸ escalate_of_not_doubles h8 hnd) hopens
    case bus =>
      subst hkind
      exact enter_of_fails_of_opens hf (escalate_of_not_doubles h8 hnd) hopens
  case right =>
    intro ev s x hu husable hroute
    have hframe : FrameMeetsBusErr (fun v => v = ev.vector ∨ v = 13 ∨ v = 8) ev.vector (s.setRun .running) :=
      ⟨.inl rfl, fun v hv => (husable v hv).imp fun g hg => ⟨hg.gate, hg.present, hg.kind, hg.reserved⟩, x, hroute⟩
    obtain ⟨t, hnext, b, d, rfl, -⟩ :=
      (keepsFailing_frame s.flags (.inr (.inl rfl)) (.inr (.inr rfl))).enter_next hu hframe
    exact ⟨_, hnext, rfl, rfl, rfl, rfl, rfl, rfl, rfl, rfl⟩

end Sys2Proof.Machine
